-- ==== Sys2Proof/Word.lean ====
section
/-! DEFINITION. The byte and the byte string (00_scope.md R12). -/

namespace Sys2Proof

/-- A byte is 8 bits, bit 0 the least significant (R12). -/
abbrev Byte := BitVec 8

/-- A byte string, indexed from 0 (R12). -/
abbrev Bytes := List Byte

/-- A set of per-slot flags: bit `s` belongs to slot `s` (10_state.md R27, R28, R29, R31). -/
abbrev SlotBits := BitVec 4

end Sys2Proof
end

