-- ==== Sys2Proof/Syntax.lean ====
section
/-! DEFINITION. The operand types of 10_state.md R44 to R47 and the instruction set: one constructor of
`Instr` for each row of spec/opcode_table.json (30_encoding.md R110 and the formats R92, R96, R100). -/

namespace Sys2Proof

/-- One of the 4 transmit or receive slots, `buffer_id` 0..3 (R44). -/
inductive SlotId
  | s0 | s1 | s2 | s3
deriving DecidableEq, Repr, Inhabited

/-- The frame mode: which physical header format a frame uses (R44). -/
inductive FrameMode
  | typeA | typeB | typeBC
deriving DecidableEq, Repr, Inhabited

/-- The eight modulation schemes, in the index order of 41_codec_arith.md R130. -/
inductive Scheme
  | dbpsk | dqpsk | d8psk | dbpskC | dqpskC | d8pskC | dbpskRobo | dqpskRobo
deriving DecidableEq, Repr, Inhabited

/-- The header type of a Type A frame (R44). -/
inductive HeaderType
  | generic | promotion | beacon
deriving DecidableEq, Repr, Inhabited

/-- The result of a transmission, in the code order of 30_encoding.md R108. -/
inductive TxResult
  | success | wrongLength | busyChannel | busyPrevTx | busyRx | invalidScheme | timeout | inProcess
deriving DecidableEq, Repr, Inhabited

/-- The electrical coupling mode (R44; the fourth name by 90_conflicts.md C2). -/
inductive ImpedanceState
  | high | low | veryLow | lowPeakCut
deriving DecidableEq, Repr, Inhabited

/-- The physical driver branch (R44). -/
inductive Branch
  | driver1 | driver2 | both
deriving DecidableEq, Repr, Inhabited

/-- The RF channels 1..8 (00_scope.md R9). -/
inductive Channel
  | c1 | c2 | c3 | c4 | c5 | c6 | c7 | c8
deriving DecidableEq, Repr, Inhabited

/-- The four CRC widths (00_scope.md R9). -/
inductive CrcWidth
  | w8 | w16 | w24 | w32
deriving DecidableEq, Repr, Inhabited

/-- The synchronous errors (60_exceptions.md R246). -/
inductive OpError
  | invalidBuffer | invalidLength | invalidScheme | bufferBusy | invalidCrcWidth | invalidChannel
  | invalidParam | readOnly | invalidValue | invalidHeader
deriving DecidableEq, Repr, Inhabited

/-- When a request is to be transmitted; ticks are `TIME_W`-bit values (R44). -/
inductive Schedule
  | immediate
  | relativeDelay (ticks : Nat)
  | absoluteTime (ticks : Nat)
deriving DecidableEq, Repr, Inhabited

/-- The operand of SUBMIT as the host presents it, before validation (R45): any 8-bit buffer id, any
8-bit scheme code, a payload of any length. -/
structure TxRequest where
  bufferId : BitVec 8
  attenuationLevel : BitVec 8
  schemeCode : BitVec 8
  frameMode : FrameMode
  disableRx : Bool
  payload : Bytes
  schedule : Schedule
deriving DecidableEq, Repr, Inhabited

/-- The six quality metrics of a received frame (R47). -/
structure Quality where
  rssiAvg : BitVec 8
  cinrAvg : BitVec 8
  evmHeader : BitVec 16
  evmPayload : BitVec 16
  evmHeaderAcum : BitVec 32
  evmPayloadAcum : BitVec 32
deriving DecidableEq, Repr, Inhabited

/-- The network address, 6 bytes, byte 0 first (00_scope.md R9, R16). -/
structure Sna where
  b0 : Byte
  b1 : Byte
  b2 : Byte
  b3 : Byte
  b4 : Byte
  b5 : Byte
deriving DecidableEq, Repr, Inhabited

/-- The first 7 MAC-header bytes `m0..m6` that a Type A header embeds (30_encoding.md R91, R92). -/
structure MacBytes where
  m0 : Byte
  m1 : Byte
  m2 : Byte
  m3 : Byte
  m4 : Byte
  m5 : Byte
  m6 : Byte
deriving DecidableEq, Repr, Inhabited

/-- The 16 bytes of a received header region, the operand of RX_HEADER_DONE (46_dispatcher.md R215). -/
structure HeaderBytes where
  h0 : Byte
  h1 : Byte
  h2 : Byte
  h3 : Byte
  h4 : Byte
  h5 : Byte
  h6 : Byte
  h7 : Byte
  h8 : Byte
  h9 : Byte
  h10 : Byte
  h11 : Byte
  h12 : Byte
  h13 : Byte
  h14 : Byte
  h15 : Byte
deriving DecidableEq, Repr, Inhabited

/-- The contents of a Type A header region (R92); the reserved bits and the unused bytes are no
content: written zero, ignored on decode (R104). -/
structure FrameAHeader where
  sch : Scheme
  sym : BitVec 12
  pad : BitVec 6
  mac : MacBytes
  hcrc : Byte
  flush : Byte
deriving DecidableEq, Repr, Inhabited

/-- The contents of a Type B header region (R96). -/
structure FrameBHeader where
  sch : Scheme
  sym : BitVec 12
  pad : BitVec 9
  ph0 : Byte
  ph1 : Byte
  ph2 : Byte
deriving DecidableEq, Repr, Inhabited

/-- The instructions: the 33 operations of 30_encoding.md R110 in the table's order, then the three
frame formats. -/
inductive Instr
  | submit (req : TxRequest)
  | pollTxResult (slot : BitVec 8)
  | pollRx
  | setChannel (ch : BitVec 8)
  | setNetworkAddress (a : Sna)
  | getConfigParam (id : BitVec 16)
  | setConfigParam (id : BitVec 16) (v : Nat)
  | computeCrc (width : Nat) (data : Bytes) (ht : HeaderType)
  | hardReset
  | txStart (slot : SlotId)
  | txDone (slot : SlotId) (code : TxResult) (rms : Nat)
  | rxHeaderDone (slot : SlotId) (mode : FrameMode) (hdr : HeaderBytes)
  | rxPayloadDone (slot : SlotId) (bulk : Bytes) (rxTime : Nat) (q : Quality)
  | noiseDone (bytes : Bytes) (rxTime : Nat)
  | rxError (slot : SlotId)
  | timeAdvance (delta : Nat)
  | timeoutExpire (slot : SlotId)
  | irqDispatch
  | rxTask
  | txResultTask
  | txResultRead (slot : SlotId)
  | impUpdate (rms : Nat)
  | impReselect
  | updateSnaSeed (sna : Sna)
  | softReset
  | symcalc (totalLen : Nat) (scheme : Scheme)
  | encodeA (scheme : Scheme) (payload : Bytes)
  | encodeB (scheme : Scheme) (payload : Bytes)
  | encodeBC (scheme : Scheme) (payload : Bytes)
  | decodeA (slot : SlotId)
  | decodeB (slot : SlotId)
  | decodeBC (slot : SlotId)
  | crcRoll (width : CrcWidth) (seed : BitVec 32) (data : Bytes)
  | frameA (hdr : FrameAHeader) (body : Bytes)
  | frameB (hdr : FrameBHeader) (body : Bytes)
  | frameBC (outer : FrameAHeader) (inner : FrameBHeader) (payload : Bytes)
deriving DecidableEq, Repr

/-- How the scheduler of the model is handed what comes next (log 1): an operation written down as its
`op` byte and operands (30_encoding.md R109), or a frame image together with its mode, which the image
itself does not encode (R106). -/
inductive Item
  | operation (bytes : Bytes)
  | frame (mode : FrameMode) (image : Bytes)
deriving DecidableEq, Repr, Inhabited

end Sys2Proof
end

