-- ==== Sys2Proof/Config.lean ====
section
/-! DEFINITION. What an instance fixes: the parameters of 00_scope.md R10, the configuration record of
10_state.md R22 and R23, and the free values (opaque constants without a body) that stand for what the
spec leaves unspecified (93_implementation_defined.md, "any value"). -/

namespace Sys2Proof

/-- One value for each slot. -/
structure PerSlot (α : Type) where
  s0 : α
  s1 : α
  s2 : α
  s3 : α
deriving DecidableEq, Repr

/-- One value for each modulation scheme, by index (41_codec_arith.md R130). -/
structure PerScheme (α : Type) where
  dbpsk : α
  dqpsk : α
  d8psk : α
  dbpskC : α
  dqpskC : α
  d8pskC : α
  dbpskRobo : α
  dqpskRobo : α
deriving DecidableEq, Repr

/-- One value for each impedance state. -/
structure PerImpedance (α : Type) where
  high : α
  low : α
  veryLow : α
  lowPeakCut : α
deriving DecidableEq, Repr

/-- One value for each load the channel profile distinguishes: High, Low, VeryLow (10_state.md R23). -/
structure PerLoad (α : Type) where
  high : α
  low : α
  veryLow : α
deriving DecidableEq, Repr

/-- One value for each channel 1..8. -/
structure PerChannel (α : Type) where
  c1 : α
  c2 : α
  c3 : α
  c4 : α
  c5 : α
  c6 : α
  c7 : α
  c8 : α
deriving DecidableEq, Repr

/-- One 32-bit cell for each CRC width (10_state.md R37; 40_crc.md R122). -/
structure PerWidth where
  w8 : BitVec 32
  w16 : BitVec 32
  w24 : BitVec 32
  w32 : BitVec 32
deriving DecidableEq, Repr

/-- What SUBMIT does to a busy slot (44_tx_scheduler.md R162). -/
inductive BusyPolicy
  | overwrite | reject
deriving DecidableEq, Repr, Inhabited

/-- The parameters the source names without a value (00_scope.md R10). The model assumes of them only
the constraints of `Params.ok` (Machine/Tables.lean), and those only where a statement says so (R11). -/
structure Params where
  maxPpduSize : Nat
  txReserve : Nat
  bps : PerScheme Nat
  conv : PerScheme Bool
  robust : PerScheme Bool
  poly : PerWidth
  txbufSize : Nat
  rxbulkSize : Nat
  noiseSize : Nat
  timeW : Nat
  immediateBackdate : Nat
  minDelayQuantum : Nat
  timeoutBaseSymbols : Nat
  timeoutPerSymbolFactor : Nat
  timeoutTickScale : Nat
  busyPolicy : BusyPolicy
  rrStartOffset : Nat
  resultFieldW : Nat
  resultFieldStride : Nat
  rmsW : Nat
  hcrcPlaceholder : Byte
  flushByte : Byte
  bPlaceholder0 : Byte
  bPlaceholder1 : Byte
  bPlaceholder2 : Byte
deriving DecidableEq, Repr

/-- A channel's attenuation profile (10_state.md R23). The thresholds are `RMS_W`-bit values; no order
among them may be assumed. -/
structure Profile where
  attChirp : PerLoad (BitVec 8)
  attSignal : PerLoad (BitVec 8)
  threshold1 : Nat
  threshold2 : Nat
  threshold3 : Nat
  threshold4 : Nat
deriving DecidableEq, Repr

/-- `CFG : PhyConfig` (10_state.md R22). -/
structure PhyConfig where
  macCrcEnable : Bool
  qualityReportMode : Bool
  peakCutMode : Bool
  defaultImpedance : ImpedanceState
  sna : Sna
  channel : Channel
  profile : PerChannel Profile
  gainTable : PerScheme (BitVec 32)
  guardBefore : Nat
  guardAfter : Nat
  driverFor : PerImpedance Branch
deriving DecidableEq, Repr

/-- The fields of a transmit slot record that SUBMIT alone writes and that a reset leaves unspecified
(10_state.md R24, R43): the frame last written, the controller's selection at that submit, the guards,
the schedule and the timeout. -/
structure TxConfig where
  mode : FrameMode
  scheme : Scheme
  symbols : BitVec 12
  gain : BitVec 32
  bitflip : Bool
  peakcutEn : Bool
  branch : Branch
  attLevel : BitVec 8
  attChirp : BitVec 8
  attSignal : BitVec 8
  guardBefore : Nat
  guardAfter : Nat
  disableRx : Bool
  schedTime : Nat
  force : Bool
  timeout : Nat
deriving DecidableEq, Repr, Inhabited

/-- The five byte-addressed spaces (20_memory.md R70). -/
inductive Space
  | txbuf | rxhdr | rxbulk | hdrcache | noisebuf
deriving DecidableEq, Repr, Inhabited

/-! Free values. Each takes the value of the state's counter `free` at the moment of the draw, so that a
later unspecified value need not equal an earlier one (log 6). Nothing can be proved of what they are. -/

/-- The byte an unwritten or unspecified location of a space reads as (93 U4, U5, U7). -/
opaque Config.freeByte : Nat → Space → SlotId → Nat → Byte

/-- A byte past the end of a frame image that is read as if it had been received (93 U5; log 11). -/
opaque Config.freeFrameByte : Nat → Nat → Byte

/-- `RMS[s]` after a reset (10_state.md R43). -/
opaque Config.freeRms : Nat → SlotId → Nat

/-- `RXMODE[s]` after a reset (R43). -/
opaque Config.freeRxMode : Nat → SlotId → FrameMode

/-- `ENG.RX[s].mode` after a reset (R43). -/
opaque Config.freeCachedMode : Nat → SlotId → FrameMode

/-- `RXTIME[s]` after a reset or an RX_ERROR (R43; 46_dispatcher.md R218). -/
opaque Config.freeRxTime : Nat → SlotId → Nat

/-- `NOISETIME` after a reset (R43). -/
opaque Config.freeNoiseTime : Nat → Nat

/-- `RXQ[s]` after a reset or an RX_ERROR (R43; 46_dispatcher.md R218). -/
opaque Config.freeQuality : Nat → SlotId → Quality

/-- The other fields of `TX[s]` after a reset (R43). -/
opaque Config.freeTxConfig : Nat → SlotId → TxConfig

/-- `TX[s].out_result` after a hard reset (R43). -/
opaque Config.freeOutResult : Nat → SlotId → TxResult

/-- `TX[s].out_rms` after a hard reset (R43). -/
opaque Config.freeOutRms : Nat → SlotId → Option Nat

/-- The error of a Type A encode with MAC-CRC enabled and header-type code 3: "some error with no state
change, and no claim may rest on which error it is" (93 U6; log 9). -/
opaque Config.freeError : Nat → OpError

end Sys2Proof
end

