-- ==== Sys2Proof/WellFormed.lean ====
section
/-! DEFINITION. When an instruction's operands have the types its rule gives them (30_encoding.md R109),
under the instance's parameters: the widths `TIME_W`, `RMS_W` and the region sizes are parameters, so the
operand types are too. Values that an operation validates itself (a buffer id, a scheme code, a channel, a
parameter value) are not restricted here. -/

namespace Sys2Proof

/-- `t` is a `TIME_W`-bit value (10_state.md R44). -/
abbrev Params.isTime (p : Params) (t : Nat) : Bool := decide (t < 2 ^ p.timeW)

/-- `r` is an `RMS_W`-bit value (10_state.md R27). -/
abbrev Params.isRms (p : Params) (r : Nat) : Bool := decide (r < 2 ^ p.rmsW)

/-- The ticks of a schedule are a `TIME_W`-bit value (R44). -/
def Schedule.wellFormed (p : Params) : Schedule → Bool
  | .immediate => true
  | .relativeDelay d => p.isTime d
  | .absoluteTime t => p.isTime t

/-- The number of bits of a width (00_scope.md R9). -/
def CrcWidth.bits : CrcWidth → Nat
  | .w8 => 8
  | .w16 => 16
  | .w24 => 24
  | .w32 => 32

/-- The operands of an instruction are of their types. A frame image is of its type whatever its headers hold: an
encoder writes zeros for the MAC bytes of the outer header of a Type BC image (30_encoding.md R100), and a decoder
ignores that header (R106; 43_codec_decode.md R155). -/
def Instr.wellFormed (p : Params) : Instr → Bool
  | .submit req => req.schedule.wellFormed p
  | .pollTxResult _ => true
  | .pollRx => true
  | .setChannel _ => true
  | .setNetworkAddress _ => true
  | .getConfigParam _ => true
  | .setConfigParam _ _ => true
  | .computeCrc _ _ _ => true
  | .hardReset => true
  | .txStart _ => true
  | .txDone _ _ rms => p.isRms rms
  | .rxHeaderDone _ _ _ => true
  | .rxPayloadDone _ bulk t _ => decide (bulk.length ≤ p.rxbulkSize) && p.isTime t
  | .noiseDone bytes t => decide (bytes.length = p.noiseSize) && p.isTime t
  | .rxError _ => true
  | .timeAdvance delta => p.isTime delta
  | .timeoutExpire _ => true
  | .irqDispatch => true
  | .rxTask => true
  | .txResultTask => true
  | .txResultRead _ => true
  | .impUpdate rms => p.isRms rms
  | .impReselect => true
  | .updateSnaSeed _ => true
  | .softReset => true
  | .symcalc _ _ => true
  | .encodeA _ _ => true
  | .encodeB _ _ => true
  | .encodeBC _ _ => true
  | .decodeA _ => true
  | .decodeB _ => true
  | .decodeBC _ => true
  | .crcRoll w seed _ => decide (seed.toNat < 2 ^ w.bits)
  | .frameA _ _ => true
  | .frameB _ _ => true
  | .frameBC _ _ _ => true

end Sys2Proof
end

