-- ==== Sys2Proof/Decode.lean ====
section
/-! DEFINITION. The codes of 30_encoding.md (R102, R108, R110, R113), the bit layouts of the frame header
regions (R92, R94, R96, R98), the decoder of a written-down operation or frame image, and after it the
encoder. The operand layout of a written-down operation is the model's own (log 2): R109 gives an
operation typed operands and no wire format. -/

namespace Sys2Proof

/-! ## Codes of the enumerations -/

/-- Slot numbers 0..3 (10_state.md R44). -/
def SlotId.toNat : SlotId → Nat
  | .s0 => 0
  | .s1 => 1
  | .s2 => 2
  | .s3 => 3

/-- The slot a number selects, if it is 0..3. -/
def SlotId.ofNat? : Nat → Option SlotId
  | 0 => some .s0
  | 1 => some .s1
  | 2 => some .s2
  | 3 => some .s3
  | _ => none

/-- Frame-mode codes (30_encoding.md R113). -/
def FrameMode.code : FrameMode → Nat
  | .typeA => 0
  | .typeB => 1
  | .typeBC => 2

def FrameMode.ofCode? : Nat → Option FrameMode
  | 0 => some .typeA
  | 1 => some .typeB
  | 2 => some .typeBC
  | _ => none

/-- The 3-bit scheme index (R102; 41_codec_arith.md R130). -/
def Scheme.index : Scheme → BitVec 3
  | .dbpsk => 0
  | .dqpsk => 1
  | .d8psk => 2
  | .dbpskC => 3
  | .dqpskC => 4
  | .d8pskC => 5
  | .dbpskRobo => 6
  | .dqpskRobo => 7

/-- Every 3-bit value is a scheme (R102). -/
def Scheme.ofIndex (v : BitVec 3) : Scheme :=
  if v = 0 then .dbpsk else if v = 1 then .dqpsk else if v = 2 then .d8psk
  else if v = 3 then .dbpskC else if v = 4 then .dqpskC else if v = 5 then .d8pskC
  else if v = 6 then .dbpskRobo else .dqpskRobo

/-- The scheme a code names, if it is 0..7 (R105 (c)). -/
def Scheme.ofCode? (n : Nat) : Option Scheme :=
  if n < 8 then some (Scheme.ofIndex (BitVec.ofNat 3 n)) else none

/-- Header-type codes (R113). -/
def HeaderType.code : HeaderType → Nat
  | .generic => 0
  | .promotion => 1
  | .beacon => 2

def HeaderType.ofCode? : Nat → Option HeaderType
  | 0 => some .generic
  | 1 => some .promotion
  | 2 => some .beacon
  | _ => none

/-- The transmit results in the order of their codes, from 0 (R108). -/
def TxResult.byCode : List TxResult :=
  [.success, .wrongLength, .busyChannel, .busyPrevTx, .busyRx, .invalidScheme, .timeout, .inProcess]

/-- Transmit-result codes (R108). -/
def TxResult.code (r : TxResult) : Nat := TxResult.byCode.idxOf r

def TxResult.ofCode? (n : Nat) : Option TxResult := TxResult.byCode[n]?

/-- Impedance-state codes (R113). -/
def ImpedanceState.code : ImpedanceState → Nat
  | .high => 0
  | .low => 1
  | .veryLow => 2
  | .lowPeakCut => 3

def ImpedanceState.ofCode? : Nat → Option ImpedanceState
  | 0 => some .high
  | 1 => some .low
  | 2 => some .veryLow
  | 3 => some .lowPeakCut
  | _ => none

/-- Branch codes (R113). -/
def Branch.code : Branch → Nat
  | .driver1 => 0
  | .driver2 => 1
  | .both => 2

def Branch.ofCode? : Nat → Option Branch
  | 0 => some .driver1
  | 1 => some .driver2
  | 2 => some .both
  | _ => none

/-- The channels in the order of their numbers, from 1. -/
def Channel.inOrder : List Channel := [.c1, .c2, .c3, .c4, .c5, .c6, .c7, .c8]

/-- Channel numbers 1..8. -/
def Channel.number (c : Channel) : Nat := Channel.inOrder.idxOf c + 1

/-- The channel of a number, if it is 1..8. -/
def Channel.ofNumber? (n : Nat) : Option Channel := if n = 0 then none else Channel.inOrder[n - 1]?

/-- The width a CRC_ROLL operand code stands for in a written-down operation (log 2). -/
def CrcWidth.code : CrcWidth → Nat
  | .w8 => 0
  | .w16 => 1
  | .w24 => 2
  | .w32 => 3

def CrcWidth.ofCode? : Nat → Option CrcWidth
  | 0 => some .w8
  | 1 => some .w16
  | 2 => some .w24
  | 3 => some .w32
  | _ => none

/-- The errors in the order of the table of 60_exceptions.md R246. -/
def OpError.table : List OpError :=
  [.invalidBuffer, .invalidLength, .invalidScheme, .bufferBusy, .invalidCrcWidth, .invalidChannel,
   .invalidParam, .readOnly, .invalidValue, .invalidHeader]

/-- Error codes of a trace, from 1 (60_exceptions.md R246). -/
def OpError.code (e : OpError) : Nat := OpError.table.idxOf e + 1

/-! ## Layout of the header regions -/

/-- The Type A header region: bytes 0..3 are the big-endian word `sch << 24 | sym << 10 | pad`, then
`m0..m6`, the placeholder, the flush byte and three zero bytes (R92, R104). -/
def layoutA (h : FrameAHeader) : Bytes :=
  [(0#5 ++ h.sch.index : BitVec 8),
   (0#2 ++ h.sym.extractLsb' 6 6 : BitVec 8),
   (h.sym.extractLsb' 0 6 ++ 0#2 : BitVec 8),
   (0#2 ++ h.pad : BitVec 8),
   h.mac.m0, h.mac.m1, h.mac.m2, h.mac.m3, h.mac.m4, h.mac.m5, h.mac.m6,
   h.hcrc, h.flush, 0, 0, 0]

/-- The Type B header region: bytes 0..2 are the big-endian word `sch << 21 | sym << 9 | pad`, then three
placeholder bytes and ten zero bytes (R96, R104). -/
def layoutB (h : FrameBHeader) : Bytes :=
  [(h.sch.index ++ h.sym.extractLsb' 7 5 : BitVec 8),
   (h.sym.extractLsb' 0 7 ++ h.pad.extractLsb' 8 1 : BitVec 8),
   h.pad.extractLsb' 0 8,
   h.ph0, h.ph1, h.ph2, 0, 0, 0, 0, 0, 0, 0, 0, 0, 0]

/-- Type A `sch` = `byte0[2:0]` (R94). -/
def fieldSchA (b0 : Byte) : Scheme := Scheme.ofIndex (b0.extractLsb' 0 3)

/-- Type A `sym` = `byte1[5:0] << 6 | byte2[7:2]` (R94). -/
def fieldSymA (b1 b2 : Byte) : BitVec 12 := b1.extractLsb' 0 6 ++ b2.extractLsb' 2 6

/-- Type A `pad` = `byte3[5:0]` (R94). -/
def fieldPadA (b3 : Byte) : BitVec 6 := b3.extractLsb' 0 6

/-- Type B `sch` = `byte0[7:5]` (R98). -/
def fieldSchB (b0 : Byte) : Scheme := Scheme.ofIndex (b0.extractLsb' 5 3)

/-- Type B `sym` = `byte0[4:0] << 7 | byte1[7:1]` (R98). -/
def fieldSymB (b0 b1 : Byte) : BitVec 12 := b0.extractLsb' 0 5 ++ b1.extractLsb' 1 7

/-- Type B `pad` = `byte1[0] << 8 | byte2` (R98). -/
def fieldPadB (b1 b2 : Byte) : BitVec 9 := b1.extractLsb' 0 1 ++ b2

/-- The bytes of an address, byte 0 first. -/
def Sna.toBytes (a : Sna) : Bytes := [a.b0, a.b1, a.b2, a.b3, a.b4, a.b5]

/-- The bytes of a header region, byte 0 first. -/
def HeaderBytes.toBytes (h : HeaderBytes) : Bytes :=
  [h.h0, h.h1, h.h2, h.h3, h.h4, h.h5, h.h6, h.h7,
   h.h8, h.h9, h.h10, h.h11, h.h12, h.h13, h.h14, h.h15]

/-- A Type A header region read field by field; reserved bits and unused bytes are ignored (R94, R104). -/
def HeaderBytes.asTypeA (h : HeaderBytes) : FrameAHeader :=
  { sch := fieldSchA h.h0, sym := fieldSymA h.h1 h.h2, pad := fieldPadA h.h3,
    mac := ⟨h.h4, h.h5, h.h6, h.h7, h.h8, h.h9, h.h10⟩, hcrc := h.h11, flush := h.h12 }

/-- A Type B header region read field by field (R98, R104). -/
def HeaderBytes.asTypeB (h : HeaderBytes) : FrameBHeader :=
  { sch := fieldSchB h.h0, sym := fieldSymB h.h0 h.h1, pad := fieldPadB h.h1 h.h2,
    ph0 := h.h3, ph1 := h.h4, ph2 := h.h5 }

/-! ## The decoder -/

/-- Why bytes name no instruction. -/
inductive DecodeReject
  /-- There is no op byte. -/
  | empty
  /-- The op byte names no operation (R110: "a model's decoder of a trace refuses it"). -/
  | unknownOp (op : Nat)
  /-- The operands, or the header region of a frame image, end too soon. -/
  | truncated
  /-- A code outside the named enumeration (R113). -/
  | badCode (operand : String)
  /-- Bytes other than zero follow the last operand. -/
  | trailing
deriving DecidableEq, Repr

/-- A reader of operands: the value read and the bytes left, or the reason it names nothing. -/
abbrev Reader (α : Type) := Bytes → Except DecodeReject (α × Bytes)

/-- Read with `x`, then go on with what it gave. -/
def andThen {α β : Type} (x : Reader α) (k : α → Reader β) : Reader β := fun bs =>
  match x bs with
  | .error e => .error e
  | .ok (a, rest) => k a rest

/-- Read nothing and answer `a`. -/
def give {α : Type} (a : α) : Reader α := fun bs => .ok (a, bs)

/-- Refuse. -/
def reject {α : Type} (e : DecodeReject) : Reader α := fun _ => .error e

/-- One byte. -/
def readByte : Reader Byte
  | [] => .error .truncated
  | b :: rest => .ok (b, rest)

/-- A natural in groups of 7 bits, the least significant group first, bit 7 set on all but the last
(log 2). -/
def readNat : Reader Nat
  | [] => .error .truncated
  | b :: rest =>
    if b.toNat < 128 then .ok (b.toNat, rest)
    else match readNat rest with
      | .error e => .error e
      | .ok (n, rest') => .ok (b.toNat - 128 + 128 * n, rest')

/-- Exactly `n` bytes. -/
def readBytes : Nat → Reader Bytes
  | 0, bs => .ok ([], bs)
  | _ + 1, [] => .error .truncated
  | n + 1, b :: rest =>
    match readBytes n rest with
    | .error e => .error e
    | .ok (bs, rest') => .ok (b :: bs, rest')

/-- A byte string: its length, then its bytes. -/
def readString : Reader Bytes := andThen readNat readBytes

/-- A code of an enumeration, one byte. -/
def readCode {α : Type} (what : String) (ofCode : Nat → Option α) : Reader α :=
  andThen readByte fun b =>
    match ofCode b.toNat with
    | some a => give a
    | none => reject (.badCode what)

def readSlot : Reader SlotId := readCode "slot" SlotId.ofNat?

/-- One bit, as a byte 0 or 1. -/
def readBool : Reader Bool :=
  readCode "bit" fun n => if n = 0 then some false else if n = 1 then some true else none

/-- 16 bits, most significant byte first. -/
def read16 : Reader (BitVec 16) :=
  andThen readByte fun a => andThen readByte fun b => give (a ++ b)

/-- 32 bits, most significant byte first. -/
def read32 : Reader (BitVec 32) :=
  andThen read16 fun a => andThen read16 fun b => give (a ++ b)

def readSna : Reader Sna :=
  andThen readByte fun a => andThen readByte fun b => andThen readByte fun c =>
  andThen readByte fun d => andThen readByte fun e => andThen readByte fun f =>
  give ⟨a, b, c, d, e, f⟩

/-- The 16 bytes of a header region. -/
def readHeader : Reader HeaderBytes
  | h0 :: h1 :: h2 :: h3 :: h4 :: h5 :: h6 :: h7 :: h8 :: h9 :: h10 :: h11 :: h12 :: h13 :: h14 :: h15 :: rest =>
    .ok (⟨h0, h1, h2, h3, h4, h5, h6, h7, h8, h9, h10, h11, h12, h13, h14, h15⟩, rest)
  | _ => .error .truncated

def readQuality : Reader Quality :=
  andThen readByte fun a => andThen readByte fun b => andThen read16 fun c =>
  andThen read16 fun d => andThen read32 fun e => andThen read32 fun f =>
  give ⟨a, b, c, d, e, f⟩

/-- Kind 0 is Immediate, 1 RelativeDelay, 2 AbsoluteTime, the latter two followed by the ticks. -/
def readSchedule : Reader Schedule :=
  andThen readByte fun k =>
    if k = 0 then give .immediate
    else if k = 1 then andThen readNat fun d => give (.relativeDelay d)
    else if k = 2 then andThen readNat fun t => give (.absoluteTime t)
    else reject (.badCode "schedule")

def readRequest : Reader TxRequest :=
  andThen readByte fun buffer => andThen readByte fun att => andThen readByte fun scheme =>
  andThen (readCode "frame_mode" FrameMode.ofCode?) fun mode => andThen readBool fun dis =>
  andThen readString fun payload => andThen readSchedule fun sched =>
  give ⟨buffer, att, scheme, mode, dis, payload, sched⟩

def readScheme : Reader Scheme := readCode "scheme" Scheme.ofCode?

/-- The operands that follow the op byte `op` (R110). -/
def readOperands (op : Nat) : Reader Instr :=
  match op with
  | 0x01 => andThen readRequest fun r => give (.submit r)
  | 0x02 => andThen readByte fun s => give (.pollTxResult s)
  | 0x03 => give .pollRx
  | 0x04 => andThen readByte fun c => give (.setChannel c)
  | 0x05 => andThen readSna fun a => give (.setNetworkAddress a)
  | 0x06 => andThen read16 fun i => give (.getConfigParam i)
  | 0x07 => andThen read16 fun i => andThen readNat fun v => give (.setConfigParam i v)
  | 0x08 => andThen readNat fun w => andThen readString fun d =>
      andThen (readCode "header_type" HeaderType.ofCode?) fun h => give (.computeCrc w d h)
  | 0x09 => give .hardReset
  | 0x20 => andThen readSlot fun s => give (.txStart s)
  | 0x21 => andThen readSlot fun s => andThen (readCode "code" TxResult.ofCode?) fun c =>
      andThen readNat fun r => give (.txDone s c r)
  | 0x22 => andThen readSlot fun s => andThen (readCode "mode" FrameMode.ofCode?) fun m =>
      andThen readHeader fun h => give (.rxHeaderDone s m h)
  | 0x23 => andThen readSlot fun s => andThen readString fun b => andThen readNat fun t =>
      andThen readQuality fun q => give (.rxPayloadDone s b t q)
  | 0x24 => andThen readString fun b => andThen readNat fun t => give (.noiseDone b t)
  | 0x25 => andThen readSlot fun s => give (.rxError s)
  | 0x26 => andThen readNat fun d => give (.timeAdvance d)
  | 0x27 => andThen readSlot fun s => give (.timeoutExpire s)
  | 0x40 => give .irqDispatch
  | 0x41 => give .rxTask
  | 0x42 => give .txResultTask
  | 0x43 => andThen readSlot fun s => give (.txResultRead s)
  | 0x44 => andThen readNat fun r => give (.impUpdate r)
  | 0x45 => give .impReselect
  | 0x46 => andThen readSna fun a => give (.updateSnaSeed a)
  | 0x47 => give .softReset
  | 0x48 => andThen readNat fun n => andThen readScheme fun s => give (.symcalc n s)
  | 0x49 => andThen readScheme fun s => andThen readString fun d => give (.encodeA s d)
  | 0x4A => andThen readScheme fun s => andThen readString fun d => give (.encodeB s d)
  | 0x4B => andThen readScheme fun s => andThen readString fun d => give (.encodeBC s d)
  | 0x4C => andThen readSlot fun s => give (.decodeA s)
  | 0x4D => andThen readSlot fun s => give (.decodeB s)
  | 0x4E => andThen readSlot fun s => give (.decodeBC s)
  | 0x4F => andThen (readCode "width" CrcWidth.ofCode?) fun w => andThen read32 fun s =>
      andThen readString fun d => give (.crcRoll w s d)
  | other => reject (.unknownOp other)

/-- A written-down operation: the op byte, its operands, and then nothing but zero bytes (R109, R110). -/
def decodeOperation (bs : Bytes) : Except DecodeReject Instr :=
  match bs with
  | [] => .error .empty
  | op :: operands =>
    match readOperands op.toNat operands with
    | .error e => .error e
    | .ok (i, rest) => if rest.all (· == 0) then .ok i else .error .trailing

/-- A frame image of a given mode (R90, R92, R96, R100, R106). -/
def decodeFrame (mode : FrameMode) (image : Bytes) : Except DecodeReject Instr :=
  match mode with
  | .typeA =>
    match readHeader image with
    | .error e => .error e
    | .ok (h, body) => .ok (.frameA h.asTypeA body)
  | .typeB =>
    match readHeader image with
    | .error e => .error e
    | .ok (h, body) => .ok (.frameB h.asTypeB body)
  | .typeBC =>
    match readHeader image with
    | .error e => .error e
    | .ok (outer, rest) =>
      match readHeader rest with
      | .error e => .error e
      | .ok (inner, payload) => .ok (.frameBC outer.asTypeA inner.asTypeB payload)

/-- The instruction an item of the agenda names. -/
def decode : Item → Except DecodeReject Instr
  | .operation bs => decodeOperation bs
  | .frame mode image => decodeFrame mode image

/-! ## The encoder -/

/-- The groups of 7 bits of `n`, with `fuel` an upper bound on their number. -/
def writeNatGroups : Nat → Nat → Bytes
  | 0, n => [BitVec.ofNat 8 (n % 128)]
  | fuel + 1, n =>
    if n < 128 then [BitVec.ofNat 8 n]
    else BitVec.ofNat 8 (n % 128 + 128) :: writeNatGroups fuel (n / 128)

def writeNat (n : Nat) : Bytes := writeNatGroups n n

def writeString (bs : Bytes) : Bytes := writeNat bs.length ++ bs

def writeCode (n : Nat) : Bytes := [BitVec.ofNat 8 n]

def writeSlot (s : SlotId) : Bytes := writeCode s.toNat

def writeBool (b : Bool) : Bytes := writeCode (if b then 1 else 0)

def write16 (v : BitVec 16) : Bytes := [v.extractLsb' 8 8, v.extractLsb' 0 8]

def write32 (v : BitVec 32) : Bytes := write16 (v.extractLsb' 16 16) ++ write16 (v.extractLsb' 0 16)

def writeQuality (q : Quality) : Bytes :=
  [q.rssiAvg, q.cinrAvg] ++ write16 q.evmHeader ++ write16 q.evmPayload ++ write32 q.evmHeaderAcum ++
    write32 q.evmPayloadAcum

def writeSchedule : Schedule → Bytes
  | .immediate => [0]
  | .relativeDelay d => 1 :: writeNat d
  | .absoluteTime t => 2 :: writeNat t

def writeScheme (s : Scheme) : Bytes := writeCode s.index.toNat

def writeRequest (r : TxRequest) : Bytes :=
  [r.bufferId, r.attenuationLevel, r.schemeCode] ++ writeCode r.frameMode.code ++ writeBool r.disableRx ++
    writeString r.payload ++ writeSchedule r.schedule

/-- The written form of an instruction: an operation of R110, or the frame image of a format row. -/
def encode : Instr → Item
  | .submit r => .operation (0x01 :: writeRequest r)
  | .pollTxResult s => .operation [0x02, s]
  | .pollRx => .operation [0x03]
  | .setChannel c => .operation [0x04, c]
  | .setNetworkAddress a => .operation (0x05 :: a.toBytes)
  | .getConfigParam i => .operation (0x06 :: write16 i)
  | .setConfigParam i v => .operation (0x07 :: (write16 i ++ writeNat v))
  | .computeCrc w d h => .operation (0x08 :: (writeNat w ++ writeString d ++ writeCode h.code))
  | .hardReset => .operation [0x09]
  | .txStart s => .operation (0x20 :: writeSlot s)
  | .txDone s c r => .operation (0x21 :: (writeSlot s ++ writeCode c.code ++ writeNat r))
  | .rxHeaderDone s m h => .operation (0x22 :: (writeSlot s ++ writeCode m.code ++ h.toBytes))
  | .rxPayloadDone s b t q => .operation (0x23 :: (writeSlot s ++ writeString b ++ writeNat t ++ writeQuality q))
  | .noiseDone b t => .operation (0x24 :: (writeString b ++ writeNat t))
  | .rxError s => .operation (0x25 :: writeSlot s)
  | .timeAdvance d => .operation (0x26 :: writeNat d)
  | .timeoutExpire s => .operation (0x27 :: writeSlot s)
  | .irqDispatch => .operation [0x40]
  | .rxTask => .operation [0x41]
  | .txResultTask => .operation [0x42]
  | .txResultRead s => .operation (0x43 :: writeSlot s)
  | .impUpdate r => .operation (0x44 :: writeNat r)
  | .impReselect => .operation [0x45]
  | .updateSnaSeed a => .operation (0x46 :: a.toBytes)
  | .softReset => .operation [0x47]
  | .symcalc n s => .operation (0x48 :: (writeNat n ++ writeScheme s))
  | .encodeA s d => .operation (0x49 :: (writeScheme s ++ writeString d))
  | .encodeB s d => .operation (0x4A :: (writeScheme s ++ writeString d))
  | .encodeBC s d => .operation (0x4B :: (writeScheme s ++ writeString d))
  | .decodeA s => .operation (0x4C :: writeSlot s)
  | .decodeB s => .operation (0x4D :: writeSlot s)
  | .decodeBC s => .operation (0x4E :: writeSlot s)
  | .crcRoll w s d => .operation (0x4F :: (writeCode w.code ++ write32 s ++ writeString d))
  | .frameA h body => .frame .typeA (layoutA h ++ body)
  | .frameB h body => .frame .typeB (layoutB h ++ body)
  | .frameBC outer inner payload => .frame .typeBC (layoutA outer ++ (layoutB inner ++ payload))

/-! ## The opcode table's numbering -/

/-- The item that holds an instruction whose table bits are `w`. A row of 8 bits is an op byte, its
operands zero. A frame-format row is read "bytes 0..3 big-endian (byte 0 first)", as R92 and R96 write it,
every later byte zero; 24 bits are the Type B field bytes and 32 bits the Type A ones. The Type BC row has
the very bits of the Type A row and cannot be told from it (R106; log 12). -/
def itemOfTableWord (nbits w : Nat) : Option Item :=
  if nbits = 8 then some (.operation (BitVec.ofNat 8 w :: List.replicate 31 0))
  else if nbits = 24 then
    some (.frame .typeB
      ([BitVec.ofNat 8 (w / 65536), BitVec.ofNat 8 (w / 256), BitVec.ofNat 8 w] ++ List.replicate 13 0))
  else if nbits = 32 then
    some (.frame .typeA
      ([BitVec.ofNat 8 (w / 16777216), BitVec.ofNat 8 (w / 65536), BitVec.ofNat 8 (w / 256),
        BitVec.ofNat 8 w] ++ List.replicate 12 0))
  else none

/-- The instruction the decoder reads from a table row's bits. -/
def decodeTableWord (nbits w : Nat) : Option Instr :=
  match itemOfTableWord nbits w with
  | none => none
  | some item =>
    match decode item with
    | .ok i => some i
    | .error _ => none

end Sys2Proof
end

