-- ==== Sys2Proof/Machine/Tables.lean ====
section
/-! DEFINITION. Reading and writing the per-slot, per-scheme, per-state and per-channel tables; the
constraints of the parameters (00_scope.md R10) and of a configuration (70_reset_and_hazards.md R277); the
values an instance has at `State.reset` (log 3, log 4). -/

namespace Sys2Proof

/-! ## Table access -/

def PerSlot.get {α : Type} (t : PerSlot α) : SlotId → α
  | .s0 => t.s0
  | .s1 => t.s1
  | .s2 => t.s2
  | .s3 => t.s3

def PerSlot.set {α : Type} (t : PerSlot α) (i : SlotId) (v : α) : PerSlot α :=
  match i with
  | .s0 => { t with s0 := v }
  | .s1 => { t with s1 := v }
  | .s2 => { t with s2 := v }
  | .s3 => { t with s3 := v }

/-- The same value in every slot. -/
def PerSlot.all {α : Type} (v : α) : PerSlot α := ⟨v, v, v, v⟩

/-- The table whose entry for slot `s` is `f s`. -/
def PerSlot.ofFn {α : Type} (f : SlotId → α) : PerSlot α := ⟨f .s0, f .s1, f .s2, f .s3⟩

/-- The slot a natural selects modulo 4 (46_dispatcher.md R209). -/
def SlotId.ofNatMod (n : Nat) : SlotId :=
  if n % 4 = 0 then .s0 else if n % 4 = 1 then .s1 else if n % 4 = 2 then .s2 else .s3

def PerScheme.get {α : Type} (t : PerScheme α) : Scheme → α
  | .dbpsk => t.dbpsk
  | .dqpsk => t.dqpsk
  | .d8psk => t.d8psk
  | .dbpskC => t.dbpskC
  | .dqpskC => t.dqpskC
  | .d8pskC => t.d8pskC
  | .dbpskRobo => t.dbpskRobo
  | .dqpskRobo => t.dqpskRobo

def PerScheme.set {α : Type} (t : PerScheme α) (s : Scheme) (v : α) : PerScheme α :=
  match s with
  | .dbpsk => { t with dbpsk := v }
  | .dqpsk => { t with dqpsk := v }
  | .d8psk => { t with d8psk := v }
  | .dbpskC => { t with dbpskC := v }
  | .dqpskC => { t with dqpskC := v }
  | .d8pskC => { t with d8pskC := v }
  | .dbpskRobo => { t with dbpskRobo := v }
  | .dqpskRobo => { t with dqpskRobo := v }

def PerImpedance.get {α : Type} (t : PerImpedance α) : ImpedanceState → α
  | .high => t.high
  | .low => t.low
  | .veryLow => t.veryLow
  | .lowPeakCut => t.lowPeakCut

def PerImpedance.set {α : Type} (t : PerImpedance α) (i : ImpedanceState) (v : α) : PerImpedance α :=
  match i with
  | .high => { t with high := v }
  | .low => { t with low := v }
  | .veryLow => { t with veryLow := v }
  | .lowPeakCut => { t with lowPeakCut := v }

/-- The entry a state uses: LowPeakCut uses the Low pair (45_impedance.md R196). -/
def PerLoad.forState {α : Type} (t : PerLoad α) : ImpedanceState → α
  | .high => t.high
  | .low => t.low
  | .veryLow => t.veryLow
  | .lowPeakCut => t.low

def PerChannel.get {α : Type} (t : PerChannel α) : Channel → α
  | .c1 => t.c1
  | .c2 => t.c2
  | .c3 => t.c3
  | .c4 => t.c4
  | .c5 => t.c5
  | .c6 => t.c6
  | .c7 => t.c7
  | .c8 => t.c8

def PerChannel.set {α : Type} (t : PerChannel α) (c : Channel) (v : α) : PerChannel α :=
  match c with
  | .c1 => { t with c1 := v }
  | .c2 => { t with c2 := v }
  | .c3 => { t with c3 := v }
  | .c4 => { t with c4 := v }
  | .c5 => { t with c5 := v }
  | .c6 => { t with c6 := v }
  | .c7 => { t with c7 := v }
  | .c8 => { t with c8 := v }

def PerWidth.get (t : PerWidth) : CrcWidth → BitVec 32
  | .w8 => t.w8
  | .w16 => t.w16
  | .w24 => t.w24
  | .w32 => t.w32

/-! ## Constraints of the parameters and of a configuration -/

/-- The timeout of a frame of `n` transmitted symbols (44_tx_scheduler.md R168). -/
def timeoutTicks (p : Params) (n : Nat) : Nat :=
  (p.timeoutBaseSymbols + n * p.timeoutPerSymbolFactor) * p.timeoutTickScale

/-- The constraints the spec states of the parameters: 00_scope.md R10, R9 (the two bytes-per-symbol
values the source gives), 20_memory.md R70 (region sizes), 44_tx_scheduler.md R168 (timeouts),
40_crc.md R122 (each polynomial is a `w`-bit value). -/
structure Params.ok (p : Params) : Prop where
  encodeRange : 9 + p.txReserve ≤ p.maxPpduSize
  bpsPos : ∀ s, 0 < p.bps.get s
  bpsDbpsk : p.bps.dbpsk = 12
  bpsDqpskRobo : p.bps.dqpskRobo = 12
  polyWidth : ∀ w, (p.poly.get w).toNat < 2 ^ w.bits
  txbufBound : 2 * 16 + p.maxPpduSize + 4 ≤ p.txbufSize
  rxbulkBound : 16 + p.maxPpduSize ≤ p.rxbulkSize
  timeWidth : 2 ≤ p.timeW
  backdatePos : 1 ≤ p.immediateBackdate
  backdateBound : p.immediateBackdate < 2 ^ (p.timeW - 1)
  timeoutBound : timeoutTicks p 4095 < 2 ^ (p.timeW - 1)
  rrOffset : p.rrStartOffset ≤ 1
  resultWidth : 3 ≤ p.resultFieldW
  resultStride : p.resultFieldW ≤ p.resultFieldStride
  rmsWidth : 1 ≤ p.rmsW

/-- Every field of a profile is within its width (10_state.md R23). -/
def Profile.inRange (p : Params) (f : Profile) : Prop :=
  f.threshold1 < 2 ^ p.rmsW ∧ f.threshold2 < 2 ^ p.rmsW ∧ f.threshold3 < 2 ^ p.rmsW ∧
    f.threshold4 < 2 ^ p.rmsW

/-- A legal configuration: every field within its width (R277). The other conditions of R277 (the channel
is 1..8, the state and the branches exist) hold by type. -/
structure PhyConfig.legal (p : Params) (c : PhyConfig) : Prop where
  guardBefore : c.guardBefore < 2 ^ p.timeW
  guardAfter : c.guardAfter < 2 ^ p.timeW
  profile : ∀ ch, (c.profile.get ch).inRange p

/-! ## The values an instance has at `State.reset` -/

/-- The default parameters of 00_scope.md R10 and 41_codec_arith.md R130. The three region sizes have no
default in the spec: the two bounds of 20_memory.md R70, and 16 for the noise capture (log 3). -/
def defaultParams : Params :=
  { maxPpduSize := 512
    txReserve := 16
    bps := ⟨12, 24, 36, 6, 12, 18, 6, 12⟩
    conv := ⟨false, false, false, true, true, true, false, false⟩
    robust := ⟨false, false, false, false, false, false, true, true⟩
    poly := ⟨0x07, 0x1021, 0x864CFB, 0x04C11DB7⟩
    txbufSize := 548
    rxbulkSize := 528
    noiseSize := 16
    timeW := 32
    immediateBackdate := 1
    minDelayQuantum := 1
    timeoutBaseSymbols := 0
    timeoutPerSymbolFactor := 1
    timeoutTickScale := 1
    busyPolicy := .overwrite
    rrStartOffset := 1
    resultFieldW := 3
    resultFieldStride := 4
    rmsW := 16
    hcrcPlaceholder := 0
    flushByte := 0
    bPlaceholder0 := 0
    bPlaceholder1 := 0
    bPlaceholder2 := 0 }

/-- The profile of channel `c` in the vectors' configuration. -/
def vectorProfile (c : BitVec 8) : Profile :=
  { attChirp := ⟨0x10 + c, 0x20 + c, 0x30 + c⟩
    attSignal := ⟨0x40 + c, 0x50 + c, 0x60 + c⟩
    threshold1 := 1000
    threshold2 := 500
    threshold3 := 800
    threshold4 := 300 }

/-- The configuration `cfgT` of 95_test_vectors.md (log 4). -/
def vectorConfig : PhyConfig :=
  { macCrcEnable := false
    qualityReportMode := false
    peakCutMode := false
    defaultImpedance := .high
    sna := ⟨0x00, 0x80, 0xE1, 0x00, 0x00, 0x01⟩
    channel := .c1
    profile := ⟨vectorProfile 1, vectorProfile 2, vectorProfile 3, vectorProfile 4,
      vectorProfile 5, vectorProfile 6, vectorProfile 7, vectorProfile 8⟩
    gainTable := ⟨0, 0, 0, 0, 0, 0, 0, 0⟩
    guardBefore := 0
    guardAfter := 0
    driverFor := ⟨.driver1, .driver2, .both, .driver2⟩ }

end Sys2Proof
end

