-- ==== Sys2Proof/Machine/CrcCore.lean ====
section
/-! DEFINITION. The rolling CRC and the CRC type selector as functions of the parameters
(40_crc.md R121, R125, R127). A `w`-bit register is held in a 32-bit cell (10_state.md R37). -/

namespace Sys2Proof

/-- The post-mask `2^w - 1` (R121). -/
def crcMask : CrcWidth → BitVec 32
  | .w8 => 0xFF
  | .w16 => 0xFFFF
  | .w24 => 0xFFFFFF
  | .w32 => 0xFFFFFFFF

/-- One bit step: shift out bit `w-1`, exclusive-or the polynomial if it was set (R121). -/
def crcBit (p : Params) (w : CrcWidth) (reg : BitVec 32) : BitVec 32 :=
  if reg.getLsbD (w.bits - 1) then ((reg <<< 1) ^^^ p.poly.get w) &&& crcMask w
  else (reg <<< 1) &&& crcMask w

/-- `n` bit steps. -/
def crcBits (p : Params) (w : CrcWidth) : Nat → BitVec 32 → BitVec 32
  | 0, reg => reg
  | n + 1, reg => crcBits p w n (crcBit p w reg)

/-- One byte: exclusive-or it into the top byte of the register, then 8 bit steps (R121). -/
def crcByte (p : Params) (w : CrcWidth) (reg : BitVec 32) (b : Byte) : BitVec 32 :=
  crcBits p w 8 (reg ^^^ (b.zeroExtend 32 <<< (w.bits - 8)))

/-- `CRC_ROLL(w, seed, data)` (R121). -/
def crcRoll (p : Params) (w : CrcWidth) (seed : BitVec 32) (data : Bytes) : BitVec 32 :=
  (data.foldl (crcByte p w) (seed &&& crcMask w)) &&& crcMask w

/-- The four seeds of an address: each the zero-seeded CRC of its 6 bytes (R125). -/
def snaSeeds (p : Params) (a : Sna) : PerWidth :=
  { w8 := crcRoll p .w8 0 a.toBytes
    w16 := crcRoll p .w16 0 a.toBytes
    w24 := crcRoll p .w24 0 a.toBytes
    w32 := crcRoll p .w32 0 a.toBytes }

/-- The width a number names, if it is one of the four (R123, R124). -/
def CrcWidth.ofBits? (n : Nat) : Option CrcWidth :=
  if n = 8 then some .w8 else if n = 16 then some .w16 else if n = 24 then some .w24
  else if n = 32 then some .w32 else none

/-- The width of the MAC-CRC trailer (R127). -/
def crcWidthOf : HeaderType → CrcWidth
  | .generic => .w32
  | .promotion => .w8
  | .beacon => .w32

/-- The length of the MAC-CRC trailer in bytes (R127). -/
def crcLenOf (h : HeaderType) : Nat := (crcWidthOf h).bits / 8

/-- The initial register: the address residue for Generic, else zero (R123). -/
def crcSeedFor (seed : PerWidth) (w : CrcWidth) : HeaderType → BitVec 32
  | .generic => seed.get w
  | .promotion => 0
  | .beacon => 0

/-- The value of COMPUTE_CRC for a supported width (R123). -/
def crcOf (p : Params) (seed : PerWidth) (w : CrcWidth) (data : Bytes) (h : HeaderType) : BitVec 32 :=
  crcRoll p w (crcSeedFor seed w h) data

end Sys2Proof
end

