-- ==== Sys2Proof/Machine/Select.lean ====
section
/-! DEFINITION. The impedance controller as functions: the transition rule and the selection
(45_impedance.md R192 to R196). -/

namespace Sys2Proof

/-- The controller's selection outputs (10_state.md R36). -/
structure Selection where
  attChirp : BitVec 8
  attSignal : BitVec 8
  bitflip : Bool
  peakcutEn : Bool
  driver : Branch
  th1 : Nat
  th2 : Nat
  th3 : Nat
  th4 : Nat
deriving DecidableEq, Repr

/-- What IMP_RESELECT selects (R196). -/
def selectFor (c : PhyConfig) (imp : ImpedanceState) : Selection :=
  let f := c.profile.get c.channel
  { attChirp := f.attChirp.forState imp
    attSignal := f.attSignal.forState imp
    bitflip := decide (imp ≠ .high)
    peakcutEn := decide (imp = .lowPeakCut)
    driver := c.driverFor.get imp
    th1 := f.threshold1
    th2 := f.threshold2
    th3 := f.threshold3
    th4 := f.threshold4 }

/-- `next(old, 0, rms)`: peak-cut disabled (R192, R194). -/
def nextPlain (t : Selection) (rms : Nat) : ImpedanceState → ImpedanceState
  | .high => if t.th2 < rms ∧ rms < t.th1 then .veryLow else if rms < t.th2 then .low else .high
  | .low => if t.th3 < rms then .high else if rms < t.th4 then .veryLow else .low
  | .veryLow => .veryLow
  | .lowPeakCut => .lowPeakCut

/-- `next(old, 1, rms)`: peak-cut enabled (R193, R194). -/
def nextPeakCut (t : Selection) (rms : Nat) : ImpedanceState → ImpedanceState
  | .high => if t.th2 < rms ∧ rms < t.th1 then .veryLow else if rms < t.th2 then .lowPeakCut else .high
  | .lowPeakCut => if rms < t.th4 then .veryLow else .lowPeakCut
  | .veryLow => if t.th3 < rms then .high else .veryLow
  | .low => .low

/-- `next(old, m, rms)` with the loaded thresholds (R191). -/
def nextImpedance (t : Selection) (peakCut : Bool) (rms : Nat) (old : ImpedanceState) : ImpedanceState :=
  if peakCut then nextPeakCut t rms old else nextPlain t rms old

end Sys2Proof
end

