-- ==== Sys2Proof/Machine/State.lean ====
section
/-! DEFINITION. The machine state (10_state.md): `CFG`, `STAT`, `ENG`, `MDM`, the instance's parameters, and
the three fields that are the model's own; the reasons a step can stop; the state after reset (R43). -/

namespace Sys2Proof.Machine

/-- The known bytes of a region: (offset, byte) pairs in canonical form, offsets strictly rising. -/
abbrev Memory := List Host.Cell

/-- The canonical form. -/
abbrev Memory.wf (m : Memory) : Prop := (m.map Prod.fst).Pairwise (· < ·)

/-- A region of a buffer space. An offset that is not listed holds no known byte: it was never written, or
a rule made it unspecified, and it reads as a free byte. `epoch` is the draw of those free bytes: they stay
what they are until the region is made unspecified again (log 7). -/
structure Region where
  cells : Memory
  epoch : Nat
deriving DecidableEq, Repr

/-- A region of which nothing is known. -/
def Region.unknown (epoch : Nat) : Region := ⟨[], epoch⟩

/-- The transmit slot states (R25). -/
inductive SlotState
  | idle | armed | inFlight | success | error
deriving DecidableEq, Repr, Inhabited

/-- `STAT`: eight 32-bit counters, wrapping (R38). -/
structure Stats where
  busyTx : BitVec 32
  txWrongLength : BitVec 32
  txBusyChannel : BitVec 32
  txBusyPrevTx : BitVec 32
  txBusyRx : BitVec 32
  txInvalidScheme : BitVec 32
  txTimeout : BitVec 32
  rxDropped : BitVec 32
deriving DecidableEq, Repr

/-- `ENG.TX[s]`: the slot state, the outcome latch (R26), and the fields of `TxConfig` (R24). -/
structure TxSlot where
  state : SlotState
  outValid : Bool
  outResult : TxResult
  outRms : Option Nat
  conf : TxConfig
deriving DecidableEq, Repr

/-- `ENG.RX[s]` (R30), with the header cache `HDRCACHE[s]`. -/
structure RxSlot where
  ready : Bool
  hdrValid : Bool
  mode : FrameMode
  hdrCache : Region
deriving DecidableEq, Repr

/-- `ENG`: engine-private state (R24, R28, R30, R31, R35, R36, R37). -/
structure Eng where
  tx : PerSlot TxSlot
  txPend : SlotBits
  txLast : SlotId
  rx : PerSlot RxSlot
  noiseReady : Bool
  rxPendHdr : SlotBits
  rxPendPay : SlotBits
  rxPendNoise : Bool
  rxLast : SlotId
  imp : ImpedanceState
  sel : Selection
  seed : PerWidth
deriving DecidableEq, Repr

/-- `MDM`: modem-side state (R27, R29, R34, R39, R40). -/
structure Mdm where
  txInt : SlotBits
  txResult0 : Nat
  txResult1 : Nat
  rms : PerSlot Nat
  rxIntHdr : SlotBits
  rxIntPay : SlotBits
  rxIntNoise : Bool
  err : Bool
  irqReq : Bool
  maskTx : Bool
  maskRx : Bool
  rxOpen : SlotBits
  rxMode : PerSlot FrameMode
  rxTime : PerSlot Nat
  rxQ : PerSlot Quality
  noiseTime : Nat
  time : Nat
  txbuf : PerSlot Region
  rxhdr : PerSlot Region
  rxbulk : PerSlot Region
  noisebuf : Region
deriving DecidableEq, Repr

/-- A `TxOutcome` (R46). -/
structure TxOutcome where
  bufferId : SlotId
  result : TxResult
  measuredRms : Option Nat
deriving DecidableEq, Repr

/-- What a decoder returns (43_codec_decode.md R151, R153, R155). -/
structure FrameMsg where
  scheme : Scheme
  headerType : Option HeaderType
  payload : Bytes
deriving DecidableEq, Repr

/-- An `RxMessage`: a frame or a noise capture (R47). -/
inductive RxMessage
  | frame (bufferId : SlotId) (mode : FrameMode) (msg : FrameMsg) (rxTime : Nat) (quality : Option Quality)
  | noise (payload : Bytes) (rxTime : Nat)
deriving DecidableEq, Repr

/-- What an operation hands its caller (00_scope.md R15; the response column of 30_encoding.md R110). -/
inductive Response
  /-- No response: a modem event or a task. -/
  | silent
  | ok
  /-- The error of a failed operation (60_exceptions.md R245). -/
  | error (e : OpError)
  | outcome (o : Option TxOutcome)
  | message (m : Option RxMessage)
  /-- The value of a parameter (47_config.md R233). -/
  | value (v : Nat)
  /-- COMPUTE_CRC: the value beside the error indication (40_crc.md R123, R124). -/
  | crc (v : BitVec 32) (err : Option OpError)
  /-- TX_RESULT_TASK: the slot it served (44_tx_scheduler.md R176). -/
  | served (slot : Option SlotId)
  /-- SYMCALC: symbol count and pad (41_codec_arith.md R133). -/
  | symbols (sym pad : Nat)
  /-- An encoder: the image and the transmitted symbol count (42_codec_encode.md R140). -/
  | image (bytes : Bytes) (sym : Nat)
  /-- A decoder. -/
  | frame (msg : FrameMsg)
  /-- CRC_ROLL. -/
  | residue (v : BitVec 32)
deriving DecidableEq, Repr

/-- The machine state (R20). -/
structure State where
  /-- The parameters of the instance; no step writes them (00_scope.md R10; log 3). -/
  params : Params
  /-- The injected configuration a hard reset loads; no step writes it (R10, R275; log 4). -/
  cfg0 : PhyConfig
  cfg : PhyConfig
  stat : Stats
  eng : Eng
  mdm : Mdm
  /-- The model's own: what the scheduler picks next (R21; log 1). -/
  agenda : List Item
  /-- The model's own: the response of the last operation (R15; log 8). -/
  resp : Response
  /-- The model's own: how many times free values have been drawn (log 6). -/
  free : Nat
deriving DecidableEq, Repr

/-- Why the machine stops with a fault. -/
inductive Fault
  /-- Raised by `memRead` and `memWrite` for bytes outside a region, which the spec says do not exist
  (20_memory.md R70). Safe: no parameters that meet R70's bounds let an operation do it (R240). -/
  | outsideRegion
deriving DecidableEq, Repr

/-- Why the model takes no step. -/
inductive Refusal
  /-- An instruction without a meaning yet; `exec` alone answers it. Safe. -/
  | notModelled (mnemonic : String)
  /-- A modem event or a dispatch whose enabling condition does not hold (10_state.md R21; 93 U13).
  Raised by the meanings of the events and of IRQ_DISPATCH. Safe: the model says nothing about such a
  modem. -/
  | notEnabled
  /-- An operand outside its type (30_encoding.md R109). Raised by `step`. Safe. -/
  | illFormed
  /-- Bytes that name no operation and no frame (R110; 93 U17). Raised by `step`. Safe. -/
  | undecodable (why : DecodeReject)
  /-- The agenda is empty: no step has been picked. Raised by `step`. Safe. -/
  | nothingScheduled
deriving DecidableEq, Repr

/-! ## Reset -/

/-- The counters after a hard reset (R43). -/
def Stats.zero : Stats := ⟨0, 0, 0, 0, 0, 0, 0, 0⟩

/-- The value the model names for the fields of a slot record that R43 leaves unspecified (log 5). -/
def resetTxConfig : TxConfig :=
  { mode := .typeA, scheme := .dbpsk, symbols := 0, gain := 0, bitflip := false, peakcutEn := false,
    branch := .driver1, attLevel := 0, attChirp := 0, attSignal := 0, guardBefore := 0, guardAfter := 0,
    disableRx := false, schedTime := 0, force := false, timeout := 0 }

/-- A transmit slot after reset: Idle, no outcome (R43); the rest is named by log 5. -/
def resetTxSlot : TxSlot :=
  { state := .idle, outValid := false, outResult := .inProcess, outRms := none, conf := resetTxConfig }

/-- A receive slot after reset: not ready, no header (R43); the mode is named by log 5. -/
def resetRxSlot : RxSlot :=
  { ready := false, hdrValid := false, mode := .typeA, hdrCache := .unknown 0 }

/-- A packed result register whose two fields hold InProcess, code 7 (70_reset_and_hazards.md R279;
the other bits are named by log 15). -/
def resetResult (p : Params) : Nat := 7 <<< p.resultFieldStride + 7

/-- The state right after a hard reset of an instance with parameters `p` and configuration `c`
(R43, R275, R282). -/
def State.resetWith (p : Params) (c : PhyConfig) : State :=
  { params := p
    cfg0 := c
    cfg := c
    stat := Stats.zero
    eng :=
      { tx := .all resetTxSlot, txPend := 0, txLast := .s3, rx := .all resetRxSlot, noiseReady := false,
        rxPendHdr := 0, rxPendPay := 0, rxPendNoise := false, rxLast := .s3,
        imp := c.defaultImpedance, sel := selectFor c c.defaultImpedance, seed := snaSeeds p c.sna }
    mdm :=
      { txInt := 0, txResult0 := resetResult p, txResult1 := resetResult p, rms := .all 0,
        rxIntHdr := 0, rxIntPay := 0, rxIntNoise := false, err := false, irqReq := false,
        maskTx := false, maskRx := false, rxOpen := 0, rxMode := .all .typeA, rxTime := .all 0,
        rxQ := .all ⟨0, 0, 0, 0, 0, 0⟩, noiseTime := 0, time := 0, txbuf := .all (.unknown 0),
        rxhdr := .all (.unknown 0), rxbulk := .all (.unknown 0), noisebuf := .unknown 0 }
    agenda := []
    resp := .silent
    free := 0 }

/-- The machine right after reset, with the default parameters and the vectors' configuration (log 3,
log 4). -/
def State.reset : State := State.resetWith defaultParams vectorConfig

end Sys2Proof.Machine
end

