-- ==== Sys2Proof/Machine/Flags.lean ====
section
/-! DEFINITION. Flag bitmaps and the computations on them (10_state.md R34; 46_dispatcher.md R205, R206,
R209): one bit a slot. -/

namespace Sys2Proof.Machine

/-- Bit `i` of a bitmap. -/
def flag (b : SlotBits) (i : SlotId) : Bool := b.getLsbD i.toNat

/-- Set bit `i`. -/
def setFlag (b : SlotBits) (i : SlotId) : SlotBits := b ||| (1#4 <<< i.toNat)

/-- Clear bit `i`. -/
def clearFlag (b : SlotBits) (i : SlotId) : SlotBits := b &&& ~~~(1#4 <<< i.toNat)

/-- `popcount` (R206). -/
def popcount (b : SlotBits) : Nat :=
  (flag b .s0).toNat + (flag b .s1).toNat + (flag b .s2).toNat + (flag b .s3).toNat

/-- The payload flags not yet recorded: `(RX_INT_PAY XOR RX_PEND_PAY) AND RX_INT_PAY` (R206). -/
def newPayloadFlags (s : State) : SlotBits :=
  (s.mdm.rxIntPay ^^^ s.eng.rxPendPay) &&& s.mdm.rxIntPay

/-- Some flag of another kind is set and not recorded, so the error path must ask again (R206). -/
def unrecordedFlags (s : State) : Bool :=
  decide (s.mdm.txInt &&& ~~~s.eng.txPend ≠ 0) || decide (s.mdm.rxIntHdr ≠ 0) ||
    (s.mdm.rxIntNoise && !s.eng.rxPendNoise)

/-- Some receive or noise bit is pending (R205). -/
def rxPending (s : State) : Bool :=
  decide (s.eng.rxPendHdr ≠ 0) || decide (s.eng.rxPendPay ≠ 0) || s.eng.rxPendNoise

/-- Some transmit bit is pending (R205). -/
def txPending (s : State) : Bool := decide (s.eng.txPend ≠ 0)

/-- A dispatch is enabled: a request is pending and neither source is masked (60_exceptions.md R252). -/
def dispatchEnabled (s : State) : Bool := s.mdm.irqReq && !s.mdm.maskTx && !s.mdm.maskRx

/-- The slots in scan order: `(L + RR_START_OFFSET + k) mod 4` for `k` = 0, 1, 2, 3 (R209). -/
def scanOrder (p : Params) (last : SlotId) : List SlotId :=
  [SlotId.ofNatMod (last.toNat + p.rrStartOffset), SlotId.ofNatMod (last.toNat + p.rrStartOffset + 1),
   SlotId.ofNatMod (last.toNat + p.rrStartOffset + 2), SlotId.ofNatMod (last.toNat + p.rrStartOffset + 3)]

end Sys2Proof.Machine
end

