-- ==== Sys2Proof/Machine/Ops.lean ====
section
/-! DEFINITION. The named operations over the state that the meanings share: record updates, responses and
errors, entry to and return from the handler, buffer memory, the time reference, the packed result
registers, the outcome latch, the masked clears, and the two resets. -/

namespace Sys2Proof.Machine

/-- The outcome of one step. -/
abbrev Out := Host.Outcome State Fault Refusal

/-! ## Record updates -/

def State.withCfg (s : State) (c : PhyConfig) : State := { s with cfg := c }
def State.withStat (s : State) (x : Stats) : State := { s with stat := x }
def State.withEng (s : State) (e : Eng) : State := { s with eng := e }
def State.withMdm (s : State) (m : Mdm) : State := { s with mdm := m }
def State.withAgenda (s : State) (l : List Item) : State := { s with agenda := l }
def State.withResp (s : State) (r : Response) : State := { s with resp := r }

/-- A free value has been drawn, or some locations have become unspecified (log 6). -/
def State.bumpFree (s : State) : State := { s with free := s.free + 1 }

/-- Write the slot record `TX[i]`. -/
def State.setTx (s : State) (i : SlotId) (t : TxSlot) : State :=
  s.withEng { s.eng with tx := s.eng.tx.set i t }

/-- Write the slot record `RX[i]`. -/
def State.setRx (s : State) (i : SlotId) (r : RxSlot) : State :=
  s.withEng { s.eng with rx := s.eng.rx.set i r }

/-! ## Responses, errors, and the handler -/

/-- End the operation with response `r`. -/
def respond (r : Response) (s : State) : Out := .next (s.withResp r)

/-- `raise e`: the operation ends at once, changes nothing more, and returns `e` to its caller; the
machine goes on (60_exceptions.md R245). This is how every synchronous error is taken: no register saves
anything and there is no handler to go to. -/
def raise (e : OpError) (s : State) : Out := respond (.error e) s

/-- The error without a name of 93 U6: some error, no state change (log 9). -/
def raiseUnnamed (s : State) : Out := raise (Config.freeError s.free) s.bumpFree

/-- Entry to the interrupt handler: the request is cleared, nothing is saved and nothing is switched
(R254). -/
def enterHandler (s : State) : State := s.withMdm { s.mdm with irqReq := false }

/-- Return from the handler: the step ends, nothing is restored (R255). -/
def leaveHandler (s : State) : Out := respond .silent s

/-- A modem event or a dispatch: taken when enabled, else no step (10_state.md R21; 93 U13). -/
def whenEnabled (c : Bool) (o : Out) : Out := if c then o else .refused .notEnabled

/-! ## Buffer memory (20_memory.md R70; 00_scope.md R13) -/

/-- The byte listed at an offset. -/
def Memory.read? : Memory → Nat → Option Byte
  | [], _ => none
  | (a, b) :: m, o => if a = o then some b else Memory.read? m o

/-- The bytes of a string at rising offsets from `o`. -/
def cellsFrom : Nat → Bytes → Memory
  | _, [] => []
  | o, b :: bs => (o, b) :: cellsFrom (o + 1) bs

/-- The cells with the bytes `bs` stored from offset `o`. -/
def Memory.overwrite (m : Memory) (o : Nat) (bs : Bytes) : Memory :=
  m.filter (fun c => decide (c.1 < o)) ++
    (cellsFrom o bs ++ m.filter (fun c => decide (o + bs.length ≤ c.1)))

/-- The cells below offset `n`. -/
def Memory.truncate (m : Memory) (n : Nat) : Memory := m.filter (fun c => decide (c.1 < n))

/-- The size of a region of a space (R70). -/
def regionSize (p : Params) : Space → Nat
  | .txbuf => p.txbufSize
  | .rxhdr => 16
  | .rxbulk => p.rxbulkSize
  | .hdrcache => 16
  | .noisebuf => p.noiseSize

/-- A region; the noise space has the single region 0 (R13, R70). -/
def State.region (s : State) (sp : Space) (i : SlotId) : Region :=
  match sp with
  | .txbuf => s.mdm.txbuf.get i
  | .rxhdr => s.mdm.rxhdr.get i
  | .rxbulk => s.mdm.rxbulk.get i
  | .hdrcache => (s.eng.rx.get i).hdrCache
  | .noisebuf => s.mdm.noisebuf

/-- Replace a region. -/
def State.setRegion (s : State) (sp : Space) (i : SlotId) (m : Region) : State :=
  match sp with
  | .txbuf => s.withMdm { s.mdm with txbuf := s.mdm.txbuf.set i m }
  | .rxhdr => s.withMdm { s.mdm with rxhdr := s.mdm.rxhdr.set i m }
  | .rxbulk => s.withMdm { s.mdm with rxbulk := s.mdm.rxbulk.set i m }
  | .hdrcache => s.setRx i { s.eng.rx.get i with hdrCache := m }
  | .noisebuf => s.withMdm { s.mdm with noisebuf := m }

/-- The byte at (space, slot, offset): the listed byte, or a free byte where nothing is listed (log 7).
Reading has no side effect (R76). -/
def State.byteAt (s : State) (sp : Space) (i : SlotId) (o : Nat) : Byte :=
  match (s.region sp i).cells.read? o with
  | some b => b
  | none => Config.freeByte (s.region sp i).epoch sp i o

/-- The `n` bytes from offset `o`. -/
def State.bytesAt (s : State) (sp : Space) (i : SlotId) (o n : Nat) : Bytes :=
  (List.range n).map fun k => s.byteAt sp i (o + k)

/-- `MemRead(space, s, addr, n)` (R13); bytes outside the region do not exist. -/
def memRead (s : State) (sp : Space) (i : SlotId) (o n : Nat) : Except Fault Bytes :=
  if o + n ≤ regionSize s.params sp then .ok (s.bytesAt sp i o n) else .error .outsideRegion

/-- A region with the bytes `bs` stored from offset `o`. -/
def Region.store (r : Region) (o : Nat) (bs : Bytes) : Region := { r with cells := r.cells.overwrite o bs }

/-- `MemWrite(space, s, addr, len bs, bs)` (R13); bytes outside the region do not exist. -/
def memWrite (s : State) (sp : Space) (i : SlotId) (o : Nat) (bs : Bytes) : Except Fault State :=
  if o + bs.length ≤ regionSize s.params sp then .ok (s.setRegion sp i ((s.region sp i).store o bs))
  else .error .outsideRegion

/-- The bytes of a region from offset `n` on become unspecified (93 U5, U7): they are drawn anew. The
bytes below `n` have just been written. -/
def State.forget (s : State) (sp : Space) (i : SlotId) (n : Nat) : State :=
  s.bumpFree.setRegion sp i ⟨(s.region sp i).cells.truncate n, s.free + 1⟩

/-- Store a whole image at offset 0; the bytes after it become unspecified (20_memory.md R71;
46_dispatcher.md R216). -/
def storeImage (s : State) (sp : Space) (i : SlotId) (bs : Bytes) : Except Fault State :=
  match memWrite s sp i 0 bs with
  | .error f => .error f
  | .ok t => .ok (t.forget sp i bs.length)

/-! ## The time reference (44_tx_scheduler.md R167, R171) -/

/-- Reduce a tick count to `TIME_W` bits. -/
def wrapTime (p : Params) (n : Nat) : Nat := n % 2 ^ p.timeW

/-- `(now - t) mod 2^TIME_W`. -/
def ticksSince (p : Params) (now t : Nat) : Nat := (now + (2 ^ p.timeW - t % 2 ^ p.timeW)) % 2 ^ p.timeW

/-- `reached(t)`: the signed difference `TIME - t` is not negative (R171). -/
def reached (s : State) (t : Nat) : Bool :=
  decide (ticksSince s.params s.mdm.time t < 2 ^ (s.params.timeW - 1))

/-- Reduce a value to `RMS_W` bits. -/
def wrapRms (p : Params) (n : Nat) : Nat := n % 2 ^ p.rmsW

/-! ## The packed result registers (10_state.md R27; R177) -/

/-- The offset of slot `i`'s field, by slot parity. -/
def resultOffset (p : Params) (i : SlotId) : Nat := (i.toNat % 2) * p.resultFieldStride

/-- The field of width `RESULT_FIELD_W` at an offset. -/
def readField (p : Params) (reg off : Nat) : Nat := (reg >>> off) % 2 ^ p.resultFieldW

/-- Write that field and keep the other bits. -/
def writeField (p : Params) (reg off v : Nat) : Nat :=
  ((reg >>> (off + p.resultFieldW)) <<< (off + p.resultFieldW)) + ((v % 2 ^ p.resultFieldW) <<< off) +
    reg % 2 ^ off

/-- The result register of slot `i`, `i div 2`. -/
def State.resultReg (s : State) : SlotId → Nat
  | .s0 => s.mdm.txResult0
  | .s1 => s.mdm.txResult0
  | .s2 => s.mdm.txResult1
  | .s3 => s.mdm.txResult1

def State.setResultReg (s : State) (i : SlotId) (v : Nat) : State :=
  match i with
  | .s0 => s.withMdm { s.mdm with txResult0 := v }
  | .s1 => s.withMdm { s.mdm with txResult0 := v }
  | .s2 => s.withMdm { s.mdm with txResult1 := v }
  | .s3 => s.withMdm { s.mdm with txResult1 := v }

/-- A field value as a result; above 7 it is InProcess (30_encoding.md R108). -/
def resultOfField (n : Nat) : TxResult := (TxResult.ofCode? n).getD .inProcess

/-- The result in slot `i`'s field. -/
def State.resultCode (s : State) (i : SlotId) : TxResult :=
  resultOfField (readField s.params (s.resultReg i) (resultOffset s.params i))

/-- Write slot `i`'s field. -/
def State.setResultCode (s : State) (i : SlotId) (c : TxResult) : State :=
  s.setResultReg i (writeField s.params (s.resultReg i) (resultOffset s.params i) c.code)

/-- A register with both fields set to InProcess, the other bits kept (70_reset_and_hazards.md R279). -/
def inProcessFields (p : Params) (reg : Nat) : Nat :=
  writeField p (writeField p reg 0 TxResult.inProcess.code) p.resultFieldStride TxResult.inProcess.code

/-! ## Slots, latch, counters -/

/-- A slot is busy when it is Armed or InFlight (R162). -/
def SlotState.busy : SlotState → Bool
  | .armed => true
  | .inFlight => true
  | .idle => false
  | .success => false
  | .error => false

/-- Latch an outcome and complete the slot (R26, R177). -/
def TxSlot.complete (t : TxSlot) (r : TxResult) (rms : Option Nat) : TxSlot :=
  { t with state := (if r = .success then .success else .error), outValid := true, outResult := r,
           outRms := rms }

/-- The outcome is consumed: the latch is emptied and the slot is Idle (R179). -/
def TxSlot.consume (t : TxSlot) : TxSlot := { t with state := .idle, outValid := false }

/-- Count one result, or none (R180). -/
def Stats.tally (x : Stats) : TxResult → Stats
  | .success => x
  | .wrongLength => { x with txWrongLength := x.txWrongLength + 1 }
  | .busyChannel => { x with txBusyChannel := x.txBusyChannel + 1 }
  | .busyPrevTx => { x with txBusyPrevTx := x.txBusyPrevTx + 1 }
  | .busyRx => { x with txBusyRx := x.txBusyRx + 1 }
  | .invalidScheme => { x with txInvalidScheme := x.txInvalidScheme + 1 }
  | .timeout => { x with txTimeout := x.txTimeout + 1 }
  | .inProcess => x

/-- Count `n` dropped messages (46_dispatcher.md R206, R212). -/
def State.countDrops (s : State) (n : Nat) : State :=
  s.withStat { s.stat with rxDropped := s.stat.rxDropped + BitVec.ofNat 32 n }

/-! ## Masked clears (44_tx_scheduler.md R178; 46_dispatcher.md R213) -/

/-- A change of the modem's flags with the transmit source masked. -/
def underMaskTx (f : Mdm → Mdm) (s : State) : State :=
  let masked := { s.mdm with maskTx := true }
  s.withMdm { f masked with maskTx := false }

/-- A change of the modem's flags with the receive sources masked. -/
def underMaskRx (f : Mdm → Mdm) (s : State) : State :=
  let masked := { s.mdm with maskRx := true }
  s.withMdm { f masked with maskRx := false }

/-! ## Resets (70_reset_and_hazards.md R275, R278, R279) -/

/-- The opaque times of a slot configuration as `TIME_W`-bit values. -/
def clipTimes (p : Params) (c : TxConfig) : TxConfig :=
  { c with guardBefore := wrapTime p c.guardBefore, guardAfter := wrapTime p c.guardAfter,
           schedTime := wrapTime p c.schedTime }

/-- The slot fields a reset leaves unspecified (10_state.md R43). -/
def unspecifiedTxConfig (s : State) (i : SlotId) : TxConfig :=
  clipTimes s.params (Config.freeTxConfig s.free i)

/-- A transmit slot after a hard reset: Idle, no outcome, the rest unspecified (R43, R275). -/
def hardResetTx (s : State) (i : SlotId) : TxSlot :=
  { state := .idle, outValid := false, outResult := Config.freeOutResult s.free i,
    outRms := (Config.freeOutRms s.free i).map (wrapRms s.params), conf := unspecifiedTxConfig s i }

/-- A transmit slot after a soft reset: an armed or in-flight slot is abandoned, the latch is kept, the
rest is unspecified (R43, R278). -/
def softResetTx (s : State) (i : SlotId) : TxSlot :=
  let t := s.eng.tx.get i
  { t with state := (if t.state.busy then .idle else t.state), conf := unspecifiedTxConfig s i }

/-- A receive slot after either reset (R43, R278). -/
def resetRx (s : State) (i : SlotId) : RxSlot :=
  { ready := false, hdrValid := false, mode := Config.freeCachedMode s.free i,
    hdrCache := .unknown (s.free + 1) }

/-- The engine's event state after either reset, with the slot records `tx` (R275, R278). -/
def resetEvents (s : State) (tx : PerSlot TxSlot) : Eng :=
  { s.eng with
    tx := tx, txPend := 0, txLast := .s3, rx := .ofFn (resetRx s), noiseReady := false,
    rxPendHdr := 0, rxPendPay := 0, rxPendNoise := false, rxLast := .s3 }

/-- Low-level re-initialisation (R279): the flags, masks, request and open receptions are cleared, the
result fields read InProcess, the buffers and the modem's values become unspecified (R43). The time
reference keeps running. -/
def reinitMdm (s : State) : Mdm :=
  { txInt := 0
    txResult0 := inProcessFields s.params s.mdm.txResult0
    txResult1 := inProcessFields s.params s.mdm.txResult1
    rms := .ofFn fun i => wrapRms s.params (Config.freeRms s.free i)
    rxIntHdr := 0
    rxIntPay := 0
    rxIntNoise := false
    err := false
    irqReq := false
    maskTx := false
    maskRx := false
    rxOpen := 0
    rxMode := .ofFn fun i => Config.freeRxMode s.free i
    rxTime := .ofFn fun i => wrapTime s.params (Config.freeRxTime s.free i)
    rxQ := .ofFn fun i => Config.freeQuality s.free i
    noiseTime := wrapTime s.params (Config.freeNoiseTime s.free)
    time := s.mdm.time
    txbuf := .all (.unknown (s.free + 1))
    rxhdr := .all (.unknown (s.free + 1))
    rxbulk := .all (.unknown (s.free + 1))
    noisebuf := .unknown (s.free + 1) }

/-- `SOFT_RESET` (R278). -/
def softReset (s : State) : State :=
  ((s.withEng (resetEvents s (.ofFn (softResetTx s)))).withMdm (reinitMdm s)).bumpFree

/-- `HARD_RESET` (R275): the configuration is reloaded, the counters are zeroed, the seeds and the
selection are computed from the configuration loaded. -/
def hardReset (s : State) : State :=
  let c := s.cfg0
  let e := resetEvents s (.ofFn (hardResetTx s))
  ((((s.withCfg c).withStat Stats.zero).withEng
      { e with imp := c.defaultImpedance, sel := selectFor c c.defaultImpedance,
               seed := snaSeeds s.params c.sna }).withMdm (reinitMdm s)).bumpFree

end Sys2Proof.Machine
end

