-- ==== Sys2Proof/Machine/Operands.lean ====
section
/-! DEFINITION. The operand forms: the header type of a payload, the schedule of a request, the split of a
payload into embedded and appended MAC bytes, big-endian trailers, and header regions read from bytes. -/

namespace Sys2Proof.Machine

/-- `HeaderTypeOf(m0)`: bits 5:4 of MAC-header byte 0, code 3 reserved (30_encoding.md R103;
42_codec_encode.md R147). -/
def headerTypeOf (m0 : Byte) : Option HeaderType := HeaderType.ofCode? (m0.extractLsb' 4 2).toNat

/-- The scheduled start and the force flag of a request (44_tx_scheduler.md R167), all modulo
`2^TIME_W`. -/
def scheduleTime (p : Params) (now : Nat) : Schedule → Nat × Bool
  | .immediate => (ticksSince p now p.immediateBackdate, true)
  | .relativeDelay d => (wrapTime p (now + max d p.minDelayQuantum), false)
  | .absoluteTime t => (wrapTime p t, false)

/-- The first 7 bytes of a payload (a byte that is not there counts as zero; a legal payload has 9). -/
def macBytesOf (payload : Bytes) : MacBytes :=
  { m0 := payload.getD 0 0, m1 := payload.getD 1 0, m2 := payload.getD 2 0, m3 := payload.getD 3 0,
    m4 := payload.getD 4 0, m5 := payload.getD 5 0, m6 := payload.getD 6 0 }

/-- `m0..m6` in order. -/
def macByteList (m : MacBytes) : Bytes := [m.m0, m.m1, m.m2, m.m3, m.m4, m.m5, m.m6]

/-- A 16-byte header region from its bytes (a byte that is not there counts as zero). -/
def headerOf (bs : Bytes) : HeaderBytes :=
  { h0 := bs.getD 0 0, h1 := bs.getD 1 0, h2 := bs.getD 2 0, h3 := bs.getD 3 0, h4 := bs.getD 4 0,
    h5 := bs.getD 5 0, h6 := bs.getD 6 0, h7 := bs.getD 7 0, h8 := bs.getD 8 0, h9 := bs.getD 9 0,
    h10 := bs.getD 10 0, h11 := bs.getD 11 0, h12 := bs.getD 12 0, h13 := bs.getD 13 0,
    h14 := bs.getD 14 0, h15 := bs.getD 15 0 }

/-- A CRC of a width as bytes, most significant first (20_memory.md R73; 42_codec_encode.md R142). -/
def crcBytes (w : CrcWidth) (c : BitVec 32) : Bytes :=
  match w with
  | .w8 => [c.extractLsb' 0 8]
  | .w16 => [c.extractLsb' 8 8, c.extractLsb' 0 8]
  | .w24 => [c.extractLsb' 16 8, c.extractLsb' 8 8, c.extractLsb' 0 8]
  | .w32 => [c.extractLsb' 24 8, c.extractLsb' 16 8, c.extractLsb' 8 8, c.extractLsb' 0 8]

/-- The slot an 8-bit `buffer_id` or `slot` operand selects (10_state.md R45; R179). -/
def slotOperand (v : BitVec 8) : Option SlotId := SlotId.ofNat? v.toNat

/-- The channel an 8-bit operand selects (45_impedance.md R198). -/
def channelOperand (v : BitVec 8) : Option Channel := Channel.ofNumber? v.toNat

/-- A 48-bit number as an address, its most significant byte being byte 0 (47_config.md R231). -/
def snaOfNat (v : Nat) : Sna :=
  { b0 := BitVec.ofNat 8 (v / 2 ^ 40), b1 := BitVec.ofNat 8 (v / 2 ^ 32), b2 := BitVec.ofNat 8 (v / 2 ^ 24),
    b3 := BitVec.ofNat 8 (v / 2 ^ 16), b4 := BitVec.ofNat 8 (v / 2 ^ 8), b5 := BitVec.ofNat 8 v }

/-- An address as its 48-bit number (R231). -/
def snaToNat (a : Sna) : Nat :=
  a.b0.toNat * 2 ^ 40 + a.b1.toNat * 2 ^ 32 + a.b2.toNat * 2 ^ 24 + a.b3.toNat * 2 ^ 16 +
    a.b4.toNat * 2 ^ 8 + a.b5.toNat

end Sys2Proof.Machine
end

