-- ==== Sys2Proof/Machine/CodecCore.lean ====
section
/-! DEFINITION. The frame codec as functions: lengths and symbol arithmetic (41_codec_arith.md), the
encoders (42_codec_encode.md) and the decoders (43_codec_decode.md). -/

namespace Sys2Proof.Machine

/-! ## Lengths and symbol arithmetic -/

/-- `ceil_div(a, b) = (a + b - 1) div b` (00_scope.md R13). -/
def ceilDiv (a b : Nat) : Nat := (a + b - 1) / b

/-- The flush byte of a convolutional scheme (R131). -/
def flushLen (p : Params) (sch : Scheme) : Nat := if p.conv.get sch then 1 else 0

/-- `total_len` (R134), with `crc` the length of the MAC-CRC trailer (0 where there is none). -/
def totalLen (p : Params) (sch : Scheme) (dataLen crc : Nat) : Nat := dataLen + crc + flushLen p sch

/-- `len_ok_tx(n)`: `MAC_HEADER_SIZE <= n <= MAX_PPDU_SIZE - TX_RESERVE` on integers (R135). -/
def lenOkTx (p : Params) (n : Nat) : Bool := decide (9 ≤ n) && decide (n + p.txReserve ≤ p.maxPpduSize)

/-- `len_ok_rx(n)`: `2 <= n <= MAX_PPDU_SIZE` on integers (R135). -/
def lenOkRx (p : Params) (n : Int) : Bool := decide (2 ≤ n) && decide (n ≤ (p.maxPpduSize : Int))

/-- The number of symbols before repetition (R133). -/
def rawSymbols (p : Params) (sch : Scheme) (total : Nat) : Nat := ceilDiv total (p.bps.get sch)

/-- The pad length, normalised to 0 (R133). -/
def padLen (p : Params) (sch : Scheme) (total : Nat) : Nat :=
  let pad := p.bps.get sch - total % p.bps.get sch
  if pad = p.bps.get sch then 0 else pad

/-- The transmitted symbol count: times 4 for a robust scheme (R133). -/
def txSymbols (p : Params) (sch : Scheme) (total : Nat) : Nat :=
  if p.robust.get sch then rawSymbols p sch total <<< 2 else rawSymbols p sch total

/-- `SYMCALC(total_len, scheme)` (R133). -/
def symcalc (p : Params) (total : Nat) (sch : Scheme) : Nat × Nat :=
  (txSymbols p sch total, padLen p sch total)

/-- `field_ok` for the Type A layout (R136; 30_encoding.md R107). -/
def fieldOkA (sym pad : Nat) : Bool := decide (sym ≤ 4095) && decide (pad ≤ 63)

/-- `field_ok` for the Type B layout. -/
def fieldOkB (sym pad : Nat) : Bool := decide (sym ≤ 4095) && decide (pad ≤ 511)

/-! ## Encoders -/

/-- What an encoder answers (R140). -/
inductive Encoded
  | image (bytes : Bytes) (sym : Nat)
  | raised (e : OpError)
  /-- Type A, MAC-CRC enabled, header-type code 3: an error without a name (93 U6). -/
  | unnamed
deriving DecidableEq, Repr

/-- The header region an encoder writes in the Type A layout (30_encoding.md R92). -/
def headerA (p : Params) (sch : Scheme) (sym pad : Nat) (mac : MacBytes) : Bytes :=
  layoutA { sch := sch, sym := BitVec.ofNat 12 sym, pad := BitVec.ofNat 6 pad, mac := mac,
            hcrc := p.hcrcPlaceholder, flush := p.flushByte }

/-- The header region an encoder writes in the Type B layout (R96). -/
def headerB (p : Params) (sch : Scheme) (sym pad : Nat) : Bytes :=
  layoutB { sch := sch, sym := BitVec.ofNat 12 sym, pad := BitVec.ofNat 9 pad,
            ph0 := p.bPlaceholder0, ph1 := p.bPlaceholder1, ph2 := p.bPlaceholder2 }

/-- The MAC-CRC trailer of a payload of header type `h` (R142). -/
def macCrcTrailer (p : Params) (seed : PerWidth) (h : HeaderType) (payload : Bytes) : Bytes :=
  crcBytes (crcWidthOf h) (crcOf p seed (crcWidthOf h) payload h)

/-- The Type A image once the trailer is known (R141, from the total length on). -/
def imageA (p : Params) (sch : Scheme) (payload trailer : Bytes) : Encoded :=
  let total := totalLen p sch payload.length trailer.length
  let sym := txSymbols p sch total
  let pad := padLen p sch total
  if fieldOkA sym pad then
    .image (headerA p sch sym pad (macBytesOf payload) ++ (payload.drop 7 ++ trailer)) sym
  else .raised .invalidLength

/-- `ENCODE_A(scheme, payload)` (R141, R146). -/
def encodeTypeA (p : Params) (macCrc : Bool) (seed : PerWidth) (sch : Scheme) (payload : Bytes) : Encoded :=
  if !lenOkTx p payload.length then .raised .invalidLength
  else if p.robust.get sch then .raised .invalidScheme
  else if macCrc then
    match headerTypeOf (payload.getD 0 0) with
    | none => .unnamed
    | some h => imageA p sch payload (macCrcTrailer p seed h payload)
  else imageA p sch payload []

/-- `ENCODE_B(scheme, payload)` (R143). -/
def encodeTypeB (p : Params) (sch : Scheme) (payload : Bytes) : Encoded :=
  if !lenOkTx p payload.length then .raised .invalidLength
  else
    let total := totalLen p sch payload.length 0
    let sym := txSymbols p sch total
    let pad := padLen p sch total
    if fieldOkB sym pad then .image (headerB p sch sym pad ++ payload) sym
    else .raised .invalidLength

/-- `ENCODE_BC(scheme, payload)` (R145): the outer header describes the combined length
`HDR_B_LEN + total_len_B` (30_encoding.md R101). -/
def encodeTypeBC (p : Params) (sch : Scheme) (payload : Bytes) : Encoded :=
  if !lenOkTx p payload.length then .raised .invalidLength
  else
    let totalB := totalLen p sch payload.length 0
    let symB := txSymbols p sch totalB
    let padB := padLen p sch totalB
    if !fieldOkB symB padB then .raised .invalidLength
    else
      let symC := txSymbols p sch (6 + totalB)
      let padC := padLen p sch (6 + totalB)
      if fieldOkA symC padC then
        .image (headerA p sch symC padC ⟨0, 0, 0, 0, 0, 0, 0⟩ ++ (headerB p sch symB padB ++ payload)) symC
      else .raised .invalidLength

/-- The encoder the request's frame mode selects (R161). -/
def encodeFrame (s : State) (mode : FrameMode) (sch : Scheme) (payload : Bytes) : Encoded :=
  match mode with
  | .typeA => encodeTypeA s.params s.cfg.macCrcEnable s.eng.seed sch payload
  | .typeB => encodeTypeB s.params sch payload
  | .typeBC => encodeTypeBC s.params sch payload

/-! ## Decoders -/

/-- What a decoder answers: a message, an error, or the fault of a read outside the region. -/
inductive Decoded
  | message (m : FrameMsg)
  | raised (e : OpError)
  | stopped (f : Fault)
deriving DecidableEq, Repr

/-- `declen`: an integer that may be negative (R150). The trailer length is `crc`. -/
def decLen (p : Params) (sch : Scheme) (sym pad crc : Nat) : Int :=
  (((if p.robust.get sch then sym / 4 else sym) * p.bps.get sch : Nat) : Int) - (pad : Int)
    - (flushLen p sch : Int) - (crc : Int)

/-- The trailer length a Type A decoder takes off (R151). -/
def trailerLen (macCrc : Bool) (h : HeaderType) : Nat := if macCrc then crcLenOf h else 0

/-- `DECODE_A` on the fields of its header, with `bulk o n` the `n` bulk bytes from offset `o` (R151,
R152). The length check precedes the bulk read. -/
def decodeTypeA (p : Params) (macCrc : Bool) (hdr : FrameAHeader) (bulk : Nat → Nat → Except Fault Bytes) :
    Decoded :=
  if p.robust.get hdr.sch then .raised .invalidScheme
  else match headerTypeOf hdr.mac.m0 with
  | none => .raised .invalidHeader
  | some h =>
    let dl := decLen p hdr.sch hdr.sym.toNat hdr.pad.toNat (trailerLen macCrc h)
    if !lenOkRx p dl then .raised .invalidLength
    else match bulk 0 (dl.toNat - 7) with
    | .error f => .stopped f
    | .ok body => .message ⟨hdr.sch, some h, (macByteList hdr.mac ++ body).take dl.toNat⟩

/-- `DECODE_B` on the fields of its header; the payload starts at bulk offset `o` (R153, R155). -/
def decodeTypeB (p : Params) (hdr : FrameBHeader) (o : Nat) (bulk : Nat → Nat → Except Fault Bytes) :
    Decoded :=
  let dl := decLen p hdr.sch hdr.sym.toNat hdr.pad.toNat 0
  if !lenOkRx p dl then .raised .invalidLength
  else match bulk o dl.toNat with
  | .error f => .stopped f
  | .ok payload => .message ⟨hdr.sch, none, payload⟩

/-- The cached header of slot `i` (R210: decoders read `HDRCACHE`, never `RXHDR`). -/
def cachedHeader (s : State) (i : SlotId) : HeaderBytes := headerOf (s.bytesAt .hdrcache i 0 16)

/-- `DECODE_A(s)` (R151). -/
def decodeSlotA (s : State) (i : SlotId) : Decoded :=
  decodeTypeA s.params s.cfg.macCrcEnable (cachedHeader s i).asTypeA (memRead s .rxbulk i)

/-- `DECODE_B(s)` (R153). -/
def decodeSlotB (s : State) (i : SlotId) : Decoded :=
  decodeTypeB s.params (cachedHeader s i).asTypeB 0 (memRead s .rxbulk i)

/-- `DECODE_BC(s)` (R155): the nested Type B header alone, read from bulk offset 0. -/
def decodeSlotBC (s : State) (i : SlotId) : Decoded :=
  match memRead s .rxbulk i 0 16 with
  | .error f => .stopped f
  | .ok inner => decodeTypeB s.params (headerOf inner).asTypeB 16 (memRead s .rxbulk i)

/-- The decoder the captured frame mode selects (46_dispatcher.md R211). -/
def decodeSlot (s : State) (mode : FrameMode) (i : SlotId) : Decoded :=
  match mode with
  | .typeA => decodeSlotA s i
  | .typeB => decodeSlotB s i
  | .typeBC => decodeSlotBC s i

/-- The bytes of a frame image's body as the decoder reads them; past its end they are unspecified
(93 U5; log 11). -/
def frameBody (s : State) (body : Bytes) (o n : Nat) : Except Fault Bytes :=
  .ok ((List.range n).map fun k => (body[o + k]?).getD (Config.freeFrameByte s.free (o + k)))

end Sys2Proof.Machine
end

