-- ==== Sys2Proof/Machine/Codec.lean ====
section
/-! DEFINITION. The frame codec's operations SYMCALC, ENCODE_*, DECODE_* (41_codec_arith.md,
42_codec_encode.md, 43_codec_decode.md), and the three frame formats read by the decoder of their mode
(30_encoding.md R90 to R106; log 11). None changes any state but the response; reading a frame image draws
the free values of the bytes past its end. -/

namespace Sys2Proof.Machine

/-- Hand an encoder's answer to the caller. -/
def respondEncoded (r : Encoded) (s : State) : Out :=
  match r with
  | .image bytes sym => respond (.image bytes sym) s
  | .raised e => raise e s
  | .unnamed => raiseUnnamed s

/-- Hand a decoder's answer to the caller. -/
def respondDecoded (r : Decoded) (s : State) : Out :=
  match r with
  | .message m => respond (.frame m) s
  | .raised e => raise e s
  | .stopped f => .fault f

/-- SYMCALC (R133). -/
def execSymcalc (total : Nat) (sch : Scheme) (s : State) : Out :=
  respond (.symbols (symcalc s.params total sch).1 (symcalc s.params total sch).2) s

/-- ENCODE_A (R141). -/
def execEncodeA (sch : Scheme) (payload : Bytes) (s : State) : Out :=
  respondEncoded (encodeTypeA s.params s.cfg.macCrcEnable s.eng.seed sch payload) s

/-- ENCODE_B (R143). -/
def execEncodeB (sch : Scheme) (payload : Bytes) (s : State) : Out :=
  respondEncoded (encodeTypeB s.params sch payload) s

/-- ENCODE_BC (R145). -/
def execEncodeBC (sch : Scheme) (payload : Bytes) (s : State) : Out :=
  respondEncoded (encodeTypeBC s.params sch payload) s

/-- DECODE_A (R151). -/
def execDecodeA (i : SlotId) (s : State) : Out := respondDecoded (decodeSlotA s i) s

/-- DECODE_B (R153). -/
def execDecodeB (i : SlotId) (s : State) : Out := respondDecoded (decodeSlotB s i) s

/-- DECODE_BC (R155). -/
def execDecodeBC (i : SlotId) (s : State) : Out := respondDecoded (decodeSlotBC s i) s

/-- FRAME_A: what the Type A decoder reads from this image (R92 to R94, R151). -/
def execFrameA (hdr : FrameAHeader) (body : Bytes) (s : State) : Out :=
  respondDecoded (decodeTypeA s.params s.cfg.macCrcEnable hdr (frameBody s body)) s.bumpFree

/-- FRAME_B: what the Type B decoder reads from this image (R96 to R98, R153). -/
def execFrameB (hdr : FrameBHeader) (body : Bytes) (s : State) : Out :=
  respondDecoded (decodeTypeB s.params hdr 0 (frameBody s body)) s.bumpFree

/-- FRAME_BC: what the Type BC decoder reads from this image; the nested header alone describes the
payload and the outer one is not used (R100, R106, R155). -/
def execFrameBC (_outer : FrameAHeader) (inner : FrameBHeader) (payload : Bytes) (s : State) : Out :=
  respondDecoded (decodeTypeB s.params inner 0 (frameBody s payload)) s.bumpFree

end Sys2Proof.Machine
end

