-- ==== Sys2Proof/Machine/Crc.lean ====
section
/-! DEFINITION. The CRC engine's operations: CRC_ROLL, COMPUTE_CRC, UPDATE_SNA_SEED (40_crc.md). -/

namespace Sys2Proof.Machine

/-- Recompute the four seeds from an address (R125). -/
def updateSeeds (s : State) (a : Sna) : State := s.withEng { s.eng with seed := snaSeeds s.params a }

/-- CRC_ROLL (R121). -/
def execCrcRoll (w : CrcWidth) (seed : BitVec 32) (data : Bytes) (s : State) : Out :=
  respond (.residue (crcRoll s.params w seed data)) s

/-- COMPUTE_CRC (R123); an unsupported width gives 0 and the error indication (R124). -/
def execComputeCrc (width : Nat) (data : Bytes) (ht : HeaderType) (s : State) : Out :=
  match CrcWidth.ofBits? width with
  | none => respond (.crc 0 (some .invalidCrcWidth)) s
  | some w => respond (.crc (crcOf s.params s.eng.seed w data ht) none) s

/-- UPDATE_SNA_SEED (R125). -/
def execUpdateSnaSeed (a : Sna) (s : State) : Out := respond .silent (updateSeeds s a)

end Sys2Proof.Machine
end

