-- ==== Sys2Proof/Machine/Impedance.lean ====
section
/-! DEFINITION. The impedance/attenuation controller's operations IMP_UPDATE, IMP_RESELECT, SET_CHANNEL
(45_impedance.md). -/

namespace Sys2Proof.Machine

/-- Re-select the outputs from the state, the channel and the configuration (R196). No slot record is
written (R197). -/
def reselect (s : State) : State := s.withEng { s.eng with sel := selectFor s.cfg s.eng.imp }

/-- The controller's step on a measured RMS (R191); holding the state re-selects nothing (R194 (d)). -/
def updateImpedance (s : State) (rms : Nat) : State :=
  let new := nextImpedance s.eng.sel s.cfg.peakCutMode rms s.eng.imp
  if new = s.eng.imp then s else reselect (s.withEng { s.eng with imp := new })

/-- Switch the active channel and re-select; the impedance state stays (R198). -/
def switchChannel (s : State) (c : Channel) : State := reselect (s.withCfg { s.cfg with channel := c })

/-- IMP_UPDATE (R191). -/
def execImpUpdate (rms : Nat) (s : State) : Out := respond .silent (updateImpedance s rms)

/-- IMP_RESELECT (R196). -/
def execImpReselect (s : State) : Out := respond .silent (reselect s)

/-- SET_CHANNEL (R198). -/
def execSetChannel (ch : BitVec 8) (s : State) : Out :=
  match channelOperand ch with
  | none => raise .invalidChannel s
  | some c => respond .ok (switchChannel s c)

end Sys2Proof.Machine
end

