-- ==== Sys2Proof/Machine/ConfigAccess.lean ====
section
/-! DEFINITION. Configuration and statistics access: SET_NETWORK_ADDRESS, GET_CONFIG_PARAM,
SET_CONFIG_PARAM and the parameter map (47_config.md). -/

namespace Sys2Proof.Machine

/-! ## The parameter map (R232) -/

/-- The three loads of a profile. -/
inductive LoadKey
  | high | low | veryLow
deriving DecidableEq, Repr

/-- The four thresholds of a profile. -/
inductive ThresholdKey
  | t1 | t2 | t3 | t4
deriving DecidableEq, Repr

/-- The eight counters. -/
inductive StatKey
  | busyTx | txWrongLength | txBusyChannel | txBusyPrevTx | txBusyRx | txInvalidScheme | txTimeout | rxDropped
deriving DecidableEq, Repr

/-- The parameters of R232. -/
inductive ParamKey
  | macCrcEnable | qualityReportMode | peakCutMode | defaultImpedance | sna | channel
  | guardBefore | guardAfter | impedanceState
  | gain (s : Scheme)
  | driverFor (i : ImpedanceState)
  | attChirp (c : Channel) (k : LoadKey)
  | attSignal (c : Channel) (k : LoadKey)
  | threshold (c : Channel) (k : ThresholdKey)
  | stat (k : StatKey)
deriving DecidableEq, Repr

/-- Group 0x00 of the map, in the order of its identifiers. -/
def generalGroup : List ParamKey :=
  [.macCrcEnable, .qualityReportMode, .peakCutMode, .defaultImpedance, .sna, .channel, .guardBefore,
   .guardAfter, .impedanceState]

/-- The groups 0x11 .. 0x18 of the map: the profile of channel `c`. -/
def profileGroup (c : Channel) : List ParamKey :=
  [LoadKey.high, .low, .veryLow].map (.attChirp c) ++ [LoadKey.high, .low, .veryLow].map (.attSignal c) ++
    [ThresholdKey.t1, .t2, .t3, .t4].map (.threshold c)

/-- Group 0x20 of the map: the counters. -/
def statGroup : List ParamKey :=
  [StatKey.busyTx, .txWrongLength, .txBusyChannel, .txBusyPrevTx, .txBusyRx, .txInvalidScheme, .txTimeout,
   .rxDropped].map .stat

/-- The parameter of group `g` and index `k`. -/
def paramAt (g k : Nat) : Option ParamKey :=
  if g = 0x00 then generalGroup[k]?
  else if g = 0x01 then (Scheme.ofCode? k).map .gain
  else if g = 0x02 then (ImpedanceState.ofCode? k).map .driverFor
  else if g = 0x20 then statGroup[k]?
  else if 0x11 ≤ g then
    match Channel.ofNumber? (g - 0x10) with
    | some c => (profileGroup c)[k]?
    | none => none
  else none

/-- The parameter an identifier names: `id[15:8]` is the group, `id[7:0]` the index (R231, R232). -/
def paramOfId (id : BitVec 16) : Option ParamKey :=
  paramAt (id.extractLsb' 8 8).toNat (id.extractLsb' 0 8).toNat

/-! ## Reading -/

def loadOf {α : Type} (t : PerLoad α) : LoadKey → α
  | .high => t.high
  | .low => t.low
  | .veryLow => t.veryLow

def thresholdOf (f : Profile) : ThresholdKey → Nat
  | .t1 => f.threshold1
  | .t2 => f.threshold2
  | .t3 => f.threshold3
  | .t4 => f.threshold4

def statOf (x : Stats) : StatKey → BitVec 32
  | .busyTx => x.busyTx
  | .txWrongLength => x.txWrongLength
  | .txBusyChannel => x.txBusyChannel
  | .txBusyPrevTx => x.txBusyPrevTx
  | .txBusyRx => x.txBusyRx
  | .txInvalidScheme => x.txInvalidScheme
  | .txTimeout => x.txTimeout
  | .rxDropped => x.rxDropped

/-- The current value of a parameter, zero-extended, enumerations by their codes (R233). -/
def paramValue (s : State) : ParamKey → Nat
  | .macCrcEnable => s.cfg.macCrcEnable.toNat
  | .qualityReportMode => s.cfg.qualityReportMode.toNat
  | .peakCutMode => s.cfg.peakCutMode.toNat
  | .defaultImpedance => s.cfg.defaultImpedance.code
  | .sna => snaToNat s.cfg.sna
  | .channel => s.cfg.channel.number
  | .guardBefore => s.cfg.guardBefore
  | .guardAfter => s.cfg.guardAfter
  | .impedanceState => s.eng.imp.code
  | .gain sch => (s.cfg.gainTable.get sch).toNat
  | .driverFor i => (s.cfg.driverFor.get i).code
  | .attChirp c k => (loadOf (s.cfg.profile.get c).attChirp k).toNat
  | .attSignal c k => (loadOf (s.cfg.profile.get c).attSignal k).toNat
  | .threshold c k => thresholdOf (s.cfg.profile.get c) k
  | .stat k => (statOf s.stat k).toNat

/-! ## Writing -/

/-- The parameters that cannot be written: ENG.IMP alone (R232, R234). -/
def readOnlyParam (k : ParamKey) : Bool := decide (k = .impedanceState)

/-- The legal values of a parameter on a write (R232). -/
def legalValue (p : Params) (k : ParamKey) (v : Nat) : Bool :=
  match k with
  | .macCrcEnable => decide (v < 2)
  | .qualityReportMode => decide (v < 2)
  | .peakCutMode => decide (v < 2)
  | .defaultImpedance => decide (v < 4)
  | .sna => decide (v < 2 ^ 48)
  | .channel => decide (1 ≤ v) && decide (v ≤ 8)
  | .guardBefore => decide (v < 2 ^ p.timeW)
  | .guardAfter => decide (v < 2 ^ p.timeW)
  | .impedanceState => false
  | .gain _ => decide (v < 2 ^ 32)
  | .driverFor _ => decide (v < 3)
  | .attChirp _ _ => decide (v < 2 ^ 8)
  | .attSignal _ _ => decide (v < 2 ^ 8)
  | .threshold _ _ => decide (v < 2 ^ p.rmsW)
  | .stat _ => decide (v < 2 ^ 32)

def setLoad {α : Type} (t : PerLoad α) (k : LoadKey) (v : α) : PerLoad α :=
  match k with
  | .high => { t with high := v }
  | .low => { t with low := v }
  | .veryLow => { t with veryLow := v }

def setThreshold (f : Profile) (k : ThresholdKey) (v : Nat) : Profile :=
  match k with
  | .t1 => { f with threshold1 := v }
  | .t2 => { f with threshold2 := v }
  | .t3 => { f with threshold3 := v }
  | .t4 => { f with threshold4 := v }

def setStat (x : Stats) (k : StatKey) (v : BitVec 32) : Stats :=
  match k with
  | .busyTx => { x with busyTx := v }
  | .txWrongLength => { x with txWrongLength := v }
  | .txBusyChannel => { x with txBusyChannel := v }
  | .txBusyPrevTx => { x with txBusyPrevTx := v }
  | .txBusyRx => { x with txBusyRx := v }
  | .txInvalidScheme => { x with txInvalidScheme := v }
  | .txTimeout => { x with txTimeout := v }
  | .rxDropped => { x with rxDropped := v }

/-- A change of the profile of channel `c`. -/
def changeProfile (s : State) (c : Channel) (f : Profile → Profile) : State :=
  s.withCfg { s.cfg with profile := s.cfg.profile.set c (f (s.cfg.profile.get c)) }

/-- Set the network address and recompute the seeds (R230; 40_crc.md R126). -/
def setAddress (s : State) (a : Sna) : State := updateSeeds (s.withCfg { s.cfg with sna := a }) a

/-- Write the field of a parameter, with its side effect (R232, R234): SNA recomputes the seeds, CHANNEL
re-selects. The value is legal and the parameter is not read-only. -/
def writeParam (s : State) (k : ParamKey) (v : Nat) : State :=
  match k with
  | .macCrcEnable => s.withCfg { s.cfg with macCrcEnable := decide (v = 1) }
  | .qualityReportMode => s.withCfg { s.cfg with qualityReportMode := decide (v = 1) }
  | .peakCutMode => s.withCfg { s.cfg with peakCutMode := decide (v = 1) }
  | .defaultImpedance => s.withCfg { s.cfg with defaultImpedance := (ImpedanceState.ofCode? v).getD .high }
  | .sna => setAddress s (snaOfNat v)
  | .channel => switchChannel s ((Channel.ofNumber? v).getD .c1)
  | .guardBefore => s.withCfg { s.cfg with guardBefore := v }
  | .guardAfter => s.withCfg { s.cfg with guardAfter := v }
  | .impedanceState => s
  | .gain sch => s.withCfg { s.cfg with gainTable := s.cfg.gainTable.set sch (BitVec.ofNat 32 v) }
  | .driverFor i =>
    s.withCfg { s.cfg with driverFor := s.cfg.driverFor.set i ((Branch.ofCode? v).getD .driver1) }
  | .attChirp c l => changeProfile s c fun f => { f with attChirp := setLoad f.attChirp l (BitVec.ofNat 8 v) }
  | .attSignal c l => changeProfile s c fun f => { f with attSignal := setLoad f.attSignal l (BitVec.ofNat 8 v) }
  | .threshold c t => changeProfile s c fun f => setThreshold f t v
  | .stat c => s.withStat (setStat s.stat c (BitVec.ofNat 32 v))

/-! ## The operations -/

/-- SET_NETWORK_ADDRESS (R230). -/
def execSetNetworkAddress (a : Sna) (s : State) : Out := respond .ok (setAddress s a)

/-- GET_CONFIG_PARAM (R233). -/
def execGetConfigParam (id : BitVec 16) (s : State) : Out :=
  match paramOfId id with
  | none => raise .invalidParam s
  | some k => respond (.value (paramValue s k)) s

/-- SET_CONFIG_PARAM (R234), with the checks in the order of 60_exceptions.md R247. -/
def execSetConfigParam (id : BitVec 16) (v : Nat) (s : State) : Out :=
  match paramOfId id with
  | none => raise .invalidParam s
  | some k =>
    if readOnlyParam k then raise .readOnly s
    else if !legalValue s.params k v then raise .invalidValue s
    else respond .ok (writeParam s k v)

end Sys2Proof.Machine
end

