-- ==== Sys2Proof/Machine/Transmit.lean ====
section
/-! DEFINITION. The transmit scheduler's operations SUBMIT, POLL_TX_RESULT, TX_START, TX_DONE,
TIME_ADVANCE, TIMEOUT_EXPIRE, TX_RESULT_TASK, TX_RESULT_READ (44_tx_scheduler.md). -/

namespace Sys2Proof.Machine

/-! ## SUBMIT -/

/-- The per-slot configuration a submit writes: frame, selection current at this submit, guards, schedule
and timeout (R161, R165, R167, R168). -/
def submitConfig (s : State) (req : TxRequest) (sch : Scheme) (sym : Nat) : TxConfig :=
  { mode := req.frameMode
    scheme := sch
    symbols := BitVec.ofNat 12 sym
    gain := s.cfg.gainTable.get sch
    bitflip := s.eng.sel.bitflip
    peakcutEn := s.eng.sel.peakcutEn
    branch := s.eng.sel.driver
    attLevel := req.attenuationLevel
    attChirp := s.eng.sel.attChirp
    attSignal := s.eng.sel.attSignal
    guardBefore := s.cfg.guardBefore
    guardAfter := s.cfg.guardAfter
    disableRx := req.disableRx
    schedTime := (scheduleTime s.params s.mdm.time req.schedule).1
    force := (scheduleTime s.params s.mdm.time req.schedule).2
    timeout := timeoutTicks s.params sym }

/-- Write the configuration, discard an unconsumed outcome, and arm the slot, the last write (R163,
R166). -/
def armSlot (s : State) (i : SlotId) (c : TxConfig) : State :=
  s.setTx i { s.eng.tx.get i with state := .armed, outValid := false, conf := c }

/-- Count a submit to a busy slot (R162). -/
def countBusy (s : State) (i : SlotId) : State :=
  if (s.eng.tx.get i).state.busy then s.withStat { s.stat with busyTx := s.stat.busyTx + 1 } else s

/-- The part of SUBMIT after the frame is built: the busy check, the image, the slot (R161, R162). -/
def submitImage (s : State) (i : SlotId) (req : TxRequest) (sch : Scheme) (img : Bytes) (sym : Nat) : Out :=
  if (s.eng.tx.get i).state.busy && decide (s.params.busyPolicy = .reject) then
    raise .bufferBusy (countBusy s i)
  else match storeImage (countBusy s i) .txbuf i img with
  | .error f => .fault f
  | .ok t => respond .ok (armSlot t i (submitConfig s req sch sym))

/-- SUBMIT (R161), with the checks in the order of 60_exceptions.md R247. -/
def execSubmit (req : TxRequest) (s : State) : Out :=
  match slotOperand req.bufferId with
  | none => raise .invalidBuffer s
  | some i =>
    if !lenOkTx s.params req.payload.length then raise .invalidLength s
    else match Scheme.ofCode? req.schemeCode.toNat with
    | none => raise .invalidScheme s
    | some sch =>
      match encodeFrame s req.frameMode sch req.payload with
      | .raised e => raise e s
      | .unnamed => raiseUnnamed s
      | .image img sym => submitImage s i req sch img sym

/-! ## Reading results -/

/-- The clear of a consumed completion flag, transmit source masked (R178). -/
def clearTxInt (s : State) (i : SlotId) : State :=
  underMaskTx (fun m => { m with txInt := clearFlag m.txInt i }) s

/-- The outcome latched and counted, before the controller runs (R177). -/
def latchResult (s : State) (i : SlotId) : State :=
  let code := s.resultCode i
  let rms := if s.cfg.qualityReportMode then some (s.mdm.rms.get i) else none
  (s.setTx i ((s.eng.tx.get i).complete code rms)).withStat (s.stat.tally code)

/-- `TX_RESULT_READ(i)` (R177): latch, tally, the controller on success, then the masked clear. -/
def readResult (s : State) (i : SlotId) : State :=
  let t := latchResult s i
  clearTxInt (if s.resultCode i = .success then updateImpedance t (s.mdm.rms.get i) else t) i

/-- The slot the transmit scan serves next, if any (R176). -/
def nextTxSlot (s : State) : Option SlotId :=
  (scanOrder s.params s.eng.txLast).find? fun i => flag s.eng.txPend i

/-- `TX_RESULT_TASK` (R176): serve at most one pending completion. -/
def resultTask (s : State) : State :=
  match nextTxSlot s with
  | none => s
  | some i => readResult (s.withEng { s.eng with txPend := clearFlag s.eng.txPend i, txLast := i }) i

/-- TX_RESULT_READ. -/
def execTxResultRead (i : SlotId) (s : State) : Out := respond .silent (readResult s i)

/-- TX_RESULT_TASK; the response is the slot served. -/
def execTxResultTask (s : State) : Out := respond (.served (nextTxSlot s)) (resultTask s)

/-- Hand over the outcome latched for slot `i`, if there is one (R179). -/
def takeOutcome (s : State) (i : SlotId) : Out :=
  let t := s.eng.tx.get i
  if t.outValid then
    respond (.outcome (some ⟨i, t.outResult, t.outRms⟩)) (s.setTx i t.consume)
  else respond (.outcome none) s

/-- POLL_TX_RESULT (R179): one run of the task if any completion is pending, then the latch. -/
def execPollTxResult (slot : BitVec 8) (s : State) : Out :=
  match slotOperand slot with
  | none => raise .invalidBuffer s
  | some i => takeOutcome (if txPending s then resultTask s else s) i

/-! ## The modem's transmit events -/

/-- TX_START (R172). -/
def execTxStart (i : SlotId) (s : State) : Out :=
  let t := s.eng.tx.get i
  whenEnabled (decide (t.state = .armed) && (t.conf.force || reached s t.conf.schedTime))
    (respond .silent (s.setTx i { t with state := .inFlight }))

/-- The results a modem may report (R174): the six that are neither Timeout nor InProcess. -/
def reportable : TxResult → Bool
  | .success => true
  | .wrongLength => true
  | .busyChannel => true
  | .busyPrevTx => true
  | .busyRx => true
  | .invalidScheme => true
  | .timeout => false
  | .inProcess => false

/-- The enabling condition of TX_DONE (R174). -/
def txDoneEnabled (s : State) (i : SlotId) (code : TxResult) : Bool :=
  reportable code && !flag s.mdm.txInt i &&
    (decide ((s.eng.tx.get i).state = .inFlight) ||
      (decide ((s.eng.tx.get i).state = .armed) && decide (code ≠ .success)))

/-- The effect of TX_DONE: result field, RMS, flag, request (R174). -/
def completeTransmission (s : State) (i : SlotId) (code : TxResult) (rms : Nat) : State :=
  let t := s.setResultCode i code
  t.withMdm { t.mdm with rms := t.mdm.rms.set i (wrapRms s.params rms), txInt := setFlag t.mdm.txInt i,
                         irqReq := true }

/-- TX_DONE (R174). -/
def execTxDone (i : SlotId) (code : TxResult) (rms : Nat) (s : State) : Out :=
  whenEnabled (txDoneEnabled s i code) (respond .silent (completeTransmission s i code rms))

/-- TIME_ADVANCE (R173). -/
def execTimeAdvance (delta : Nat) (s : State) : Out :=
  whenEnabled (decide (1 ≤ delta) && decide (delta < 2 ^ (s.params.timeW - 1)))
    (respond .silent (s.withMdm { s.mdm with time := wrapTime s.params (s.mdm.time + delta) }))

/-- The enabling condition of TIMEOUT_EXPIRE (R175). -/
def timeoutEnabled (s : State) (i : SlotId) : Bool :=
  let t := s.eng.tx.get i
  t.state.busy && !flag s.mdm.txInt i && !flag s.eng.txPend i &&
    reached s (wrapTime s.params (t.conf.schedTime + t.conf.timeout))

/-- The Timeout outcome latched and counted, before the soft reset (R175). -/
def latchTimeout (s : State) (i : SlotId) : State :=
  (s.setTx i ((s.eng.tx.get i).complete .timeout none)).withStat (s.stat.tally .timeout)

/-- TIMEOUT_EXPIRE (R175). -/
def execTimeoutExpire (i : SlotId) (s : State) : Out :=
  whenEnabled (timeoutEnabled s i) (respond .silent (softReset (latchTimeout s i)))

end Sys2Proof.Machine
end

