-- ==== Sys2Proof/Machine/Receive.lean ====
section
/-! DEFINITION. The dispatcher and the receive path: IRQ_DISPATCH, RX_TASK, POLL_RX and the modem's events
RX_HEADER_DONE, RX_PAYLOAD_DONE, NOISE_DONE, RX_ERROR (46_dispatcher.md). -/

namespace Sys2Proof.Machine

/-! ## The receive task -/

/-- Take slot `i`'s header: cache it with its mode, clear the header flag under mask, and drop the pending
bit (R208). What `RXHDR[i]` holds afterwards is unspecified (R210; 93 U7). -/
def cacheHeader (s : State) (i : SlotId) : State :=
  let cached := s.setRx i
    { s.eng.rx.get i with
      hdrCache := (s.eng.rx.get i).hdrCache.store 0 (s.bytesAt .rxhdr i 0 16),
      mode := s.mdm.rxMode.get i, hdrValid := true }
  let cleared := underMaskRx (fun m => { m with rxIntHdr := clearFlag m.rxIntHdr i }) cached
  (cleared.withEng { cleared.eng with rxPendHdr := clearFlag cleared.eng.rxPendHdr i }).forget .rxhdr i 0

/-- Mark slot `i` ready (R208). -/
def markReady (s : State) (i : SlotId) : State := s.setRx i { s.eng.rx.get i with ready := true }

/-- What the receive task does for one slot: the header step, then the payload step (R208). -/
def rxTaskSlot (s : State) (i : SlotId) : State :=
  let t := if flag s.eng.rxPendHdr i then cacheHeader s i else s
  if flag t.eng.rxPendPay i then markReady t i else t

/-- The last line of the receive task: a pending noise capture is ready (R208). -/
def markNoise (s : State) : State :=
  if s.eng.rxPendNoise then s.withEng { s.eng with noiseReady := true } else s

/-- `RX_TASK` (R208): all four slots in scan order, then the noise capture. -/
def receiveTask (s : State) : State :=
  markNoise ((scanOrder s.params s.eng.rxLast).foldl rxTaskSlot s)

/-- RX_TASK. -/
def execRxTask (s : State) : Out := respond .silent (receiveTask s)

/-! ## The dispatcher -/

/-- Record every hardware flag in the pending bitmaps, read once (R205). -/
def recordFlags (s : State) : State :=
  s.withEng
    { s.eng with
      txPend := s.eng.txPend ||| s.mdm.txInt,
      rxPendHdr := s.eng.rxPendHdr ||| s.mdm.rxIntHdr,
      rxPendPay := s.eng.rxPendPay ||| s.mdm.rxIntPay,
      rxPendNoise := s.eng.rxPendNoise || s.mdm.rxIntNoise }

/-- The error path (R206): clear the payload flags not yet recorded, acknowledge, count the drops, and ask
again if other flags are unrecorded. -/
def errorPath (s : State) : State :=
  let new := newPayloadFlags s
  let t := underMaskRx (fun m => { m with rxIntPay := m.rxIntPay &&& ~~~new, err := false }) s
  let counted := t.countDrops (popcount new)
  if unrecordedFlags counted then counted.withMdm { counted.mdm with irqReq := true } else counted

/-- The two tasks of a dispatch without an error, receive first (R205; 60_exceptions.md R253). -/
def runTasks (s : State) : State :=
  let t := if rxPending s then receiveTask s else s
  if txPending t then resultTask t else t

/-- The dispatcher's body after entry (R205). -/
def dispatchBody (s : State) : State :=
  if s.mdm.err then errorPath s else runTasks (recordFlags s)

/-- IRQ_DISPATCH (R205), enabled by R252: entry, body, return. -/
def execIrqDispatch (s : State) : Out :=
  whenEnabled (dispatchEnabled s) (leaveHandler (dispatchBody (enterHandler s)))

/-! ## POLL_RX -/

/-- The slot the receive scan serves next, if any (R211). -/
def nextRxSlot (s : State) : Option SlotId :=
  (scanOrder s.params s.eng.rxLast).find? fun i => (s.eng.rx.get i).ready

/-- Slot `i` is consumed: ready, header-valid and pending bits cleared, the index advanced, the hardware
payload flag cleared under mask (R211, R213). -/
def consumeRx (s : State) (i : SlotId) : State :=
  let t := s.setRx i { s.eng.rx.get i with ready := false, hdrValid := false }
  let u := t.withEng { t.eng with rxPendPay := clearFlag t.eng.rxPendPay i, rxLast := i }
  underMaskRx (fun m => { m with rxIntPay := clearFlag m.rxIntPay i }) u

/-- The noise capture is consumed (R211). -/
def consumeNoise (s : State) : State :=
  underMaskRx (fun m => { m with rxIntNoise := false })
    (s.withEng { s.eng with noiseReady := false, rxPendNoise := false })

/-- The decode of a ready slot by its captured mode; a slot found ready without a header is dropped
(R211, R212). -/
def decodeReady (s : State) (i : SlotId) : Decoded :=
  if (s.eng.rx.get i).hdrValid then decodeSlot s (s.eng.rx.get i).mode i else .raised .invalidHeader

/-- The quality metrics of a message, when they are reported (R211). -/
def reportedQuality (s : State) (i : SlotId) : Option Quality :=
  if s.cfg.qualityReportMode then some (s.mdm.rxQ.get i) else none

/-- Serve ready slot `i`: a message, or a counted drop (R211, R212). -/
def serveSlot (s : State) (i : SlotId) : Out :=
  match decodeReady s i with
  | .stopped f => .fault f
  | .raised _ => respond (.message none) ((consumeRx s i).countDrops 1)
  | .message m =>
    respond (.message (some (.frame i (s.eng.rx.get i).mode m (s.mdm.rxTime.get i) (reportedQuality s i))))
      (consumeRx s i)

/-- Deliver the noise capture whole (R211). -/
def serveNoise (s : State) : Out :=
  respond (.message (some (.noise (s.bytesAt .noisebuf .s0 0 s.params.noiseSize) s.mdm.noiseTime)))
    (consumeNoise s)

/-- POLL_RX (R211). -/
def execPollRx (s : State) : Out :=
  match nextRxSlot s with
  | some i => serveSlot s i
  | none => if s.eng.noiseReady then serveNoise s else respond (.message none) s

/-! ## The modem's receive events -/

/-- RX_HEADER_DONE (R215). -/
def execRxHeaderDone (i : SlotId) (mode : FrameMode) (hdr : HeaderBytes) (s : State) : Out :=
  whenEnabled (!flag s.mdm.rxOpen i && !flag s.mdm.rxIntHdr i && !flag s.mdm.rxIntPay i)
    (match memWrite s .rxhdr i 0 hdr.toBytes with
      | .error f => .fault f
      | .ok t =>
        respond .silent
          (t.withMdm { t.mdm with rxMode := t.mdm.rxMode.set i mode, rxOpen := setFlag t.mdm.rxOpen i,
                                  rxIntHdr := setFlag t.mdm.rxIntHdr i, irqReq := true }))

/-- RX_PAYLOAD_DONE (R216); the bytes beyond those delivered become unspecified. -/
def execRxPayloadDone (i : SlotId) (bulk : Bytes) (rxTime : Nat) (q : Quality) (s : State) : Out :=
  whenEnabled (flag s.mdm.rxOpen i && !flag s.mdm.rxIntPay i)
    (match storeImage s .rxbulk i bulk with
      | .error f => .fault f
      | .ok t =>
        respond .silent
          (t.withMdm { t.mdm with rxTime := t.mdm.rxTime.set i (wrapTime s.params rxTime),
                                  rxQ := t.mdm.rxQ.set i q, rxOpen := clearFlag t.mdm.rxOpen i,
                                  rxIntPay := setFlag t.mdm.rxIntPay i, irqReq := true }))

/-- NOISE_DONE (R217). -/
def execNoiseDone (bytes : Bytes) (rxTime : Nat) (s : State) : Out :=
  whenEnabled (!s.mdm.rxIntNoise)
    (match storeImage s .noisebuf .s0 bytes with
      | .error f => .fault f
      | .ok t =>
        respond .silent
          (t.withMdm { t.mdm with noiseTime := wrapTime s.params rxTime, rxIntNoise := true, irqReq := true }))

/-- The effect of RX_ERROR: the error and payload flags are set, the reception is closed, and the slot's
bulk region, time and metrics become unspecified (R218). -/
def failReception (s : State) (i : SlotId) : State :=
  let t := s.withMdm
    { s.mdm with
      err := true, rxIntPay := setFlag s.mdm.rxIntPay i, rxOpen := clearFlag s.mdm.rxOpen i, irqReq := true,
      rxTime := s.mdm.rxTime.set i (wrapTime s.params (Config.freeRxTime s.free i)),
      rxQ := s.mdm.rxQ.set i (Config.freeQuality s.free i) }
  t.forget .rxbulk i 0

/-- RX_ERROR (R218). -/
def execRxError (i : SlotId) (s : State) : Out :=
  whenEnabled (flag s.mdm.rxOpen i && !flag s.mdm.rxIntPay i) (respond .silent (failReception s i))

end Sys2Proof.Machine
end

