-- ==== Sys2Proof/Machine/Resets.lean ====
section
/-! DEFINITION. The reset operations HARD_RESET and SOFT_RESET (70_reset_and_hazards.md). -/

namespace Sys2Proof.Machine

/-- HARD_RESET (R275). -/
def execHardReset (s : State) : Out := respond .ok (hardReset s)

/-- SOFT_RESET (R278). -/
def execSoftReset (s : State) : Out := respond .silent (softReset s)

end Sys2Proof.Machine
end

