-- ==== Sys2Proof/Machine/Dispatch.lean ====
section
/-! DEFINITION. One arm for each instruction: the call of its meaning. -/

namespace Sys2Proof.Machine

def exec (i : Instr) (s : State) : Host.Outcome State Fault Refusal :=
  match i with
  | .submit req => Sys2Proof.Machine.execSubmit req s
  | .pollTxResult slot => Sys2Proof.Machine.execPollTxResult slot s
  | .pollRx => Sys2Proof.Machine.execPollRx s
  | .setChannel ch => Sys2Proof.Machine.execSetChannel ch s
  | .setNetworkAddress a => Sys2Proof.Machine.execSetNetworkAddress a s
  | .getConfigParam id => Sys2Proof.Machine.execGetConfigParam id s
  | .setConfigParam id v => Sys2Proof.Machine.execSetConfigParam id v s
  | .computeCrc width data ht => Sys2Proof.Machine.execComputeCrc width data ht s
  | .hardReset => Sys2Proof.Machine.execHardReset s
  | .txStart slot => Sys2Proof.Machine.execTxStart slot s
  | .txDone slot code rms => Sys2Proof.Machine.execTxDone slot code rms s
  | .rxHeaderDone slot mode hdr => Sys2Proof.Machine.execRxHeaderDone slot mode hdr s
  | .rxPayloadDone slot bulk rxTime q => Sys2Proof.Machine.execRxPayloadDone slot bulk rxTime q s
  | .noiseDone bytes rxTime => Sys2Proof.Machine.execNoiseDone bytes rxTime s
  | .rxError slot => Sys2Proof.Machine.execRxError slot s
  | .timeAdvance delta => Sys2Proof.Machine.execTimeAdvance delta s
  | .timeoutExpire slot => Sys2Proof.Machine.execTimeoutExpire slot s
  | .irqDispatch => Sys2Proof.Machine.execIrqDispatch s
  | .rxTask => Sys2Proof.Machine.execRxTask s
  | .txResultTask => Sys2Proof.Machine.execTxResultTask s
  | .txResultRead slot => Sys2Proof.Machine.execTxResultRead slot s
  | .impUpdate rms => Sys2Proof.Machine.execImpUpdate rms s
  | .impReselect => Sys2Proof.Machine.execImpReselect s
  | .updateSnaSeed sna => Sys2Proof.Machine.execUpdateSnaSeed sna s
  | .softReset => Sys2Proof.Machine.execSoftReset s
  | .symcalc totalLen scheme => Sys2Proof.Machine.execSymcalc totalLen scheme s
  | .encodeA scheme payload => Sys2Proof.Machine.execEncodeA scheme payload s
  | .encodeB scheme payload => Sys2Proof.Machine.execEncodeB scheme payload s
  | .encodeBC scheme payload => Sys2Proof.Machine.execEncodeBC scheme payload s
  | .decodeA slot => Sys2Proof.Machine.execDecodeA slot s
  | .decodeB slot => Sys2Proof.Machine.execDecodeB slot s
  | .decodeBC slot => Sys2Proof.Machine.execDecodeBC slot s
  | .crcRoll width seed data => Sys2Proof.Machine.execCrcRoll width seed data s
  | .frameA hdr body => Sys2Proof.Machine.execFrameA hdr body s
  | .frameB hdr body => Sys2Proof.Machine.execFrameB hdr body s
  | .frameBC outer inner payload => Sys2Proof.Machine.execFrameBC outer inner payload s

end Sys2Proof.Machine
end

