-- ==== Sys2Proof/Machine/Step.lean ====
section
/-! DEFINITION. One step: the operation the agenda names next (10_state.md R21; 00_scope.md R14; log 1). -/

namespace Sys2Proof.Machine

/-- Run what the scheduler picked: decode the head of the agenda, check its operand types, and execute it
on the state with that item taken off. -/
def step (s : State) : Host.Outcome State Fault Refusal :=
  match s.agenda with
  | [] => .refused .nothingScheduled
  | item :: rest =>
    match decode item with
    | .error why => .refused (.undecodable why)
    | .ok i => if i.wellFormed s.params then exec i (s.withAgenda rest) else .refused .illFormed

/-- `s` with the instruction of a table row put at the head of the agenda, so that the next step runs it
(log 1, log 12). -/
def State.withFetchWord (s : State) (nbits w : Nat) : State :=
  match itemOfTableWord nbits w with
  | some item => s.withAgenda (item :: s.agenda)
  | none => s.withAgenda (.operation [] :: s.agenda)

end Sys2Proof.Machine
end

