-- ==== Sys2Proof/Safety.lean ====
section
/-! DEFINITION. The terms the statements are written in: the steps the agents take, what a safe step is, the
invariants of the machine, and three readings of the spec that do not go through the model's own functions
(the `w`-bit CRC, the numbers of the opcode and parameter tables, the big-endian number of a header). -/

namespace Sys2Proof.Machine

/-! ## Agents and safe steps -/

/-- The steps the three agents take: host operations, modem events, the dispatcher (10_state.md R21). The
internal tasks and functions run inside them, and run alone only in a trace (log 13). -/
def agentStep : Instr → Bool
  | .submit _ => true
  | .pollTxResult _ => true
  | .pollRx => true
  | .setChannel _ => true
  | .setNetworkAddress _ => true
  | .getConfigParam _ => true
  | .setConfigParam _ _ => true
  | .computeCrc _ _ _ => true
  | .hardReset => true
  | .txStart _ => true
  | .txDone _ _ _ => true
  | .rxHeaderDone _ _ _ => true
  | .rxPayloadDone _ _ _ _ => true
  | .noiseDone _ _ => true
  | .rxError _ => true
  | .timeAdvance _ => true
  | .timeoutExpire _ => true
  | .irqDispatch => true
  | .rxTask => false
  | .txResultTask => false
  | .txResultRead _ => false
  | .impUpdate _ => false
  | .impReselect => false
  | .updateSnaSeed _ => false
  | .softReset => false
  | .symcalc _ _ => false
  | .encodeA _ _ => false
  | .encodeB _ _ => false
  | .encodeBC _ _ => false
  | .decodeA _ => false
  | .decodeB _ => false
  | .decodeBC _ => false
  | .crcRoll _ _ _ => false
  | .frameA _ _ => false
  | .frameB _ _ => false
  | .frameBC _ _ _ => false

/-- What is picked next is a step of an agent. -/
def NextIsAgentStep (s : State) : Prop :=
  ∀ item rest i, s.agenda = item :: rest → decode item = .ok i → agentStep i = true

/-- A safe step: the machine does not fault. A refusal takes no step and is safe. -/
def SafeStep (s : State) : Prop := ∀ f, step s ≠ .fault f

/-! ## Invariants -/

/-- Every region is in canonical form, and lists no byte outside its size (20_memory.md R70). -/
def MemoryOk (s : State) : Prop :=
  ∀ sp i, (s.region sp i).cells.wf ∧ ∀ c ∈ (s.region sp i).cells, c.1 < regionSize s.params sp

/-- A slot holds an outcome exactly in `Success` and `Error` (10_state.md R26). -/
def LatchOk (s : State) : Prop :=
  ∀ i, (s.eng.tx.get i).outValid = true ↔
    ((s.eng.tx.get i).state = .success ∨ (s.eng.tx.get i).state = .error)

/-- The seed cache is the cache of the configured address (10_state.md R37; 40_crc.md R126). -/
def SeedsOk (s : State) : Prop := s.eng.seed = snaSeeds s.params s.cfg.sna

/-- The masks are held only inside critical sections, so they are clear between operations (60_exceptions.md
R251). -/
def MasksClear (s : State) : Prop := s.mdm.maskTx = false ∧ s.mdm.maskRx = false

/-- A hardware flag that no dispatch has recorded (46_dispatcher.md R205, R206). -/
def Unrecorded (s : State) : Prop :=
  (∃ i, flag s.mdm.txInt i = true ∧ flag s.eng.txPend i = false) ∨
  (∃ i, flag s.mdm.rxIntHdr i = true ∧ flag s.eng.rxPendHdr i = false) ∨
  (∃ i, flag s.mdm.rxIntPay i = true ∧ flag s.eng.rxPendPay i = false) ∨
  (s.mdm.rxIntNoise = true ∧ s.eng.rxPendNoise = false) ∨ s.mdm.err = true

/-- While a flag is unrecorded a dispatch is asked for (46_dispatcher.md R206, R207). -/
def RequestOk (s : State) : Prop := Unrecorded s → s.mdm.irqReq = true

/-- The receive invariants of 46_dispatcher.md R220. -/
def ReceiveOk (s : State) : Prop :=
  (∀ i, (s.eng.rx.get i).ready = true →
    (s.eng.rx.get i).hdrValid = true ∧ flag s.eng.rxPendPay i = true ∧ flag s.mdm.rxIntPay i = true) ∧
  (∀ i, flag s.eng.rxPendPay i = true → flag s.mdm.rxIntPay i = true) ∧
  (s.eng.noiseReady = true → s.mdm.rxIntNoise = true)

/-- What the events' enabling conditions add to R220: a slot receives or has a payload only behind a header
of its own, never both, and a recorded payload has its header cached or recorded (46_dispatcher.md R215,
R216, R220). -/
def ReceiveOrderOk (s : State) : Prop :=
  (∀ i, flag s.mdm.rxIntPay i = true ∨ flag s.mdm.rxOpen i = true →
    flag s.mdm.rxIntHdr i = true ∨ flag s.eng.rxPendHdr i = true ∨ (s.eng.rx.get i).hdrValid = true) ∧
  (∀ i, flag s.mdm.rxOpen i = true → flag s.mdm.rxIntPay i = false) ∧
  (∀ i, flag s.eng.rxPendPay i = true →
    (s.eng.rx.get i).hdrValid = true ∨ flag s.eng.rxPendHdr i = true) ∧
  (s.eng.noiseReady = true → s.eng.rxPendNoise = true) ∧
  (s.eng.rxPendNoise = true → s.mdm.rxIntNoise = true)

/-- A completion is flagged or pending only for an armed or in-flight slot, and a pending one is still
flagged (44_tx_scheduler.md R174, R177; 46_dispatcher.md R205). -/
def CompletionOk (s : State) : Prop :=
  (∀ i, flag s.mdm.txInt i = true → (s.eng.tx.get i).state.busy = true) ∧
  (∀ i, flag s.eng.txPend i = true → flag s.mdm.txInt i = true)

/-- Every value is within its width (10_state.md R22, R23, R24, R27, R29, R36, R37, R39; 70_reset_and_hazards.md
R277). -/
structure WidthsOk (s : State) : Prop where
  cfg0 : s.cfg0.legal s.params
  cfg : s.cfg.legal s.params
  time : s.mdm.time < 2 ^ s.params.timeW
  noiseTime : s.mdm.noiseTime < 2 ^ s.params.timeW
  rxTime : ∀ i, s.mdm.rxTime.get i < 2 ^ s.params.timeW
  schedTime : ∀ i, (s.eng.tx.get i).conf.schedTime < 2 ^ s.params.timeW
  guards : ∀ i, (s.eng.tx.get i).conf.guardBefore < 2 ^ s.params.timeW ∧
    (s.eng.tx.get i).conf.guardAfter < 2 ^ s.params.timeW
  rms : ∀ i, s.mdm.rms.get i < 2 ^ s.params.rmsW
  outRms : ∀ i v, (s.eng.tx.get i).outRms = some v → v < 2 ^ s.params.rmsW
  thresholds : s.eng.sel.th1 < 2 ^ s.params.rmsW ∧ s.eng.sel.th2 < 2 ^ s.params.rmsW ∧
    s.eng.sel.th3 < 2 ^ s.params.rmsW ∧ s.eng.sel.th4 < 2 ^ s.params.rmsW
  seeds : ∀ w, (s.eng.seed.get w).toNat < 2 ^ w.bits

/-! ## What statements compare -/

/-- Every byte of every space reads in `t` as it reads in `s`, but for the region of slot `i` in `sp`. -/
def OtherBytesSame (s t : State) (sp : Space) (i : SlotId) : Prop :=
  ∀ sp' j o, ¬(sp' = sp ∧ (j = i ∨ sp = .noisebuf)) → t.byteAt sp' j o = s.byteAt sp' j o

/-- Every byte of every space reads in `t` as it reads in `s`. -/
def BytesSame (s t : State) : Prop := ∀ sp j o, t.byteAt sp j o = s.byteAt sp j o

/-- The state `s` with the response `r`, nothing else changed. -/
def answered (s : State) (r : Response) : State := { s with resp := r }

/-- Slot `i` has received the frame image `img`: its header region is cached and its body, with whatever
follows it, is in the bulk region (20_memory.md R72). -/
def Received (s : State) (i : SlotId) (img : Bytes) : Prop :=
  ∀ o b, img[o]? = some b →
    (o < 16 → s.byteAt .hdrcache i o = b) ∧ (16 ≤ o → s.byteAt .rxbulk i (o - 16) = b)

/-! ## Readings of the spec's tables -/

/-- One bit of the `n`-bit rolling CRC (40_crc.md R121). -/
def crcBitW {n : Nat} (poly reg : BitVec n) : BitVec n :=
  if reg.msb then (reg <<< 1) ^^^ poly else reg <<< 1

/-- One byte of the `n`-bit rolling CRC (R121). -/
def crcByteW {n : Nat} (poly reg : BitVec n) (b : Byte) : BitVec n :=
  let r := reg ^^^ (b.zeroExtend n <<< (n - 8))
  crcBitW poly (crcBitW poly (crcBitW poly (crcBitW poly
    (crcBitW poly (crcBitW poly (crcBitW poly (crcBitW poly r)))))))

/-- The `n`-bit rolling CRC (R121). -/
def crcW {n : Nat} (poly seed : BitVec n) (data : Bytes) : BitVec n := data.foldl (crcByteW poly) seed

/-- The operation codes of 30_encoding.md R110. -/
def opCodes : List Nat :=
  [0x01, 0x02, 0x03, 0x04, 0x05, 0x06, 0x07, 0x08, 0x09, 0x20, 0x21, 0x22, 0x23, 0x24, 0x25, 0x26, 0x27,
   0x40, 0x41, 0x42, 0x43, 0x44, 0x45, 0x46, 0x47, 0x48, 0x49, 0x4A, 0x4B, 0x4C, 0x4D, 0x4E, 0x4F]

/-- `n` is an identifier of the table of 47_config.md R232. -/
def knownId (n : Nat) : Bool :=
  decide (n ≤ 0x0008) || (decide (0x0100 ≤ n) && decide (n ≤ 0x0107)) ||
    (decide (0x0200 ≤ n) && decide (n ≤ 0x0203)) ||
    (decide (0x1100 ≤ n) && decide (n ≤ 0x1809) && decide (n % 256 ≤ 9)) ||
    (decide (0x2000 ≤ n) && decide (n ≤ 0x2007))

/-- The width in bits of the parameter with identifier `n`, where "any" value below it is legal (R232). -/
def anyWidth (p : Params) (n : Nat) : Option Nat :=
  if n = 0x0004 then some 48
  else if n = 0x0006 ∨ n = 0x0007 then some p.timeW
  else if 0x0100 ≤ n ∧ n ≤ 0x0107 then some 32
  else if 0x1100 ≤ n ∧ n ≤ 0x1809 ∧ n % 256 ≤ 5 then some 8
  else if 0x1100 ≤ n ∧ n ≤ 0x1809 ∧ n % 256 ≤ 9 then some p.rmsW
  else if 0x2000 ≤ n ∧ n ≤ 0x2007 then some 32
  else none

/-- `v` is a legal value of the writable parameter with identifier `n` (R232). -/
def legalFor (p : Params) (n v : Nat) : Prop :=
  (n ≤ 0x0002 ∧ v ≤ 1) ∨ (n = 0x0003 ∧ v ≤ 3) ∨ (n = 0x0005 ∧ 1 ≤ v ∧ v ≤ 8) ∨
    (0x0200 ≤ n ∧ n ≤ 0x0203 ∧ v ≤ 2) ∨ ∃ w, anyWidth p n = some w ∧ v < 2 ^ w

/-- The big-endian number of a byte string (20_memory.md R73). -/
def beNat (bs : Bytes) : Nat := bs.foldl (fun n b => n * 256 + b.toNat) 0

/-- The encoder a frame mode selects, as an instruction (44_tx_scheduler.md R161). -/
def encoderOf (mode : FrameMode) (sch : Scheme) (payload : Bytes) : Instr :=
  match mode with
  | .typeA => .encodeA sch payload
  | .typeB => .encodeB sch payload
  | .typeBC => .encodeBC sch payload

/-- The decoder a frame mode selects, as an instruction (46_dispatcher.md R211). -/
def decoderOf (mode : FrameMode) (i : SlotId) : Instr :=
  match mode with
  | .typeA => .decodeA i
  | .typeB => .decodeB i
  | .typeBC => .decodeBC i

/-- The symbol count and the pad of a total length fit their fields (41_codec_arith.md R136). -/
def FieldsFit (p : Params) (sch : Scheme) (total maxPad : Nat) : Prop :=
  (symcalc p total sch).1 ≤ 4095 ∧ (symcalc p total sch).2 ≤ maxPad

/-- The payload can be framed: its length is legal, and what its mode asks of the scheme, of the header type
and of the fields holds (42_codec_encode.md R141, R143, R145, R146). -/
def Encodable (s : State) (mode : FrameMode) (sch : Scheme) (payload : Bytes) : Prop :=
  9 ≤ payload.length ∧ payload.length + s.params.txReserve ≤ s.params.maxPpduSize ∧
  match mode with
  | .typeA => s.params.robust.get sch = false ∧ ∃ c : Nat,
      ((s.cfg.macCrcEnable = false ∧ c = 0) ∨
        (s.cfg.macCrcEnable = true ∧ ∃ h, headerTypeOf (payload.getD 0 0) = some h ∧
          c = if h = .promotion then 1 else 4)) ∧
      FieldsFit s.params sch (payload.length + c + if s.params.conv.get sch then 1 else 0) 63
  | .typeB => FieldsFit s.params sch (payload.length + if s.params.conv.get sch then 1 else 0) 511
  | .typeBC => FieldsFit s.params sch (payload.length + if s.params.conv.get sch then 1 else 0) 511 ∧
      FieldsFit s.params sch (6 + (payload.length + if s.params.conv.get sch then 1 else 0)) 63

/-- The field of slot `i` in the two packed result registers (10_state.md R27; 44_tx_scheduler.md R177). -/
def resultField (s : State) (i : SlotId) : Nat :=
  (if i.toNat / 2 = 0 then s.mdm.txResult0 else s.mdm.txResult1) / 2 ^ (i.toNat % 2 * s.params.resultFieldStride) %
    2 ^ s.params.resultFieldW

/-- The result a field value stands for (30_encoding.md R108). -/
def ResultIs (n : Nat) (c : TxResult) : Prop := n = c.code ∨ (7 < n ∧ c = .inProcess)

/-- The counters after one result is counted (44_tx_scheduler.md R180). -/
def tallied (x : Stats) (c : TxResult) : Stats :=
  { x with
    txWrongLength := x.txWrongLength + if c = .wrongLength then 1 else 0
    txBusyChannel := x.txBusyChannel + if c = .busyChannel then 1 else 0
    txBusyPrevTx := x.txBusyPrevTx + if c = .busyPrevTx then 1 else 0
    txBusyRx := x.txBusyRx + if c = .busyRx then 1 else 0
    txInvalidScheme := x.txInvalidScheme + if c = .invalidScheme then 1 else 0
    txTimeout := x.txTimeout + if c = .timeout then 1 else 0 }

/-- `i` is the first slot of the round-robin scan from `last` for which `P` holds (46_dispatcher.md R209). -/
def FirstInScan (p : Params) (last : SlotId) (P : SlotId → Prop) (i : SlotId) : Prop :=
  ∃ k, k < 4 ∧ i.toNat = (last.toNat + p.rrStartOffset + k) % 4 ∧ P i ∧
    ∀ k' j, k' < k → j.toNat = (last.toNat + p.rrStartOffset + k') % 4 → ¬P j

/-- The outcome `o` comes out of at most `n` polls with operand `v` from `s`, and the machine is then in a
state `t`. -/
def PollsDeliver (v : BitVec 8) (o : TxOutcome) (t : State) : Nat → State → Prop
  | 0, _ => False
  | n + 1, s => exec (.pollTxResult v) s = .next (answered t (.outcome (some o))) ∨
      ∃ u, exec (.pollTxResult v) s = .next (answered u (.outcome none)) ∧
        PollsDeliver v o t n (answered u (.outcome none))

/-- The new impedance state on a measured RMS, as the tables of 45_impedance.md R192 (peak-cut disabled) and
R193 (enabled) have it, with the conditions tested in the order of the rows. -/
def NextImpedanceIs (t : Selection) (peakCut : Bool) (rms : Nat) (old new : ImpedanceState) : Prop :=
  (old = .high ∧ ((t.th2 < rms ∧ rms < t.th1 ∧ new = .veryLow) ∨
    (rms < t.th2 ∧ new = if peakCut then .lowPeakCut else .low) ∨
    (¬(t.th2 < rms ∧ rms < t.th1) ∧ ¬rms < t.th2 ∧ new = .high))) ∨
  (old = .low ∧ peakCut = false ∧ ((t.th3 < rms ∧ new = .high) ∨
    (¬t.th3 < rms ∧ rms < t.th4 ∧ new = .veryLow) ∨
    (¬t.th3 < rms ∧ ¬rms < t.th4 ∧ new = .low))) ∨
  (old = .lowPeakCut ∧ peakCut = true ∧ ((rms < t.th4 ∧ new = .veryLow) ∨
    (¬rms < t.th4 ∧ new = .lowPeakCut))) ∨
  (old = .veryLow ∧ ((peakCut = true ∧ t.th3 < rms ∧ new = .high) ∨
    (¬(peakCut = true ∧ t.th3 < rms) ∧ new = .veryLow))) ∨
  (old = .low ∧ peakCut = true ∧ new = .low) ∨
  (old = .lowPeakCut ∧ peakCut = false ∧ new = .lowPeakCut)

/-- The entry of a profile a state selects (45_impedance.md R196). -/
def loadFor {α : Type} (t : PerLoad α) (i : ImpedanceState) : α :=
  match i with
  | .high => t.high
  | .low => t.low
  | .lowPeakCut => t.low
  | .veryLow => t.veryLow

/-- The rows of the profile of channel `c` in the table of 47_config.md R232. -/
def profileRows (s : State) (c : Channel) : List (Nat × Nat) :=
  let f := s.cfg.profile.get c
  let base := 0x1000 + 0x100 * c.number
  [(base, f.attChirp.high.toNat), (base + 1, f.attChirp.low.toNat), (base + 2, f.attChirp.veryLow.toNat),
   (base + 3, f.attSignal.high.toNat), (base + 4, f.attSignal.low.toNat), (base + 5, f.attSignal.veryLow.toNat),
   (base + 6, f.threshold1), (base + 7, f.threshold2), (base + 8, f.threshold3), (base + 9, f.threshold4)]

/-- The table of 47_config.md R232: each identifier with the current value of its field. -/
def paramTable (s : State) : List (Nat × Nat) :=
  [(0x0000, s.cfg.macCrcEnable.toNat), (0x0001, s.cfg.qualityReportMode.toNat),
   (0x0002, s.cfg.peakCutMode.toNat), (0x0003, s.cfg.defaultImpedance.code),
   (0x0004, beNat s.cfg.sna.toBytes), (0x0005, s.cfg.channel.number),
   (0x0006, s.cfg.guardBefore), (0x0007, s.cfg.guardAfter), (0x0008, s.eng.imp.code),
   (0x0100, s.cfg.gainTable.dbpsk.toNat), (0x0101, s.cfg.gainTable.dqpsk.toNat),
   (0x0102, s.cfg.gainTable.d8psk.toNat), (0x0103, s.cfg.gainTable.dbpskC.toNat),
   (0x0104, s.cfg.gainTable.dqpskC.toNat), (0x0105, s.cfg.gainTable.d8pskC.toNat),
   (0x0106, s.cfg.gainTable.dbpskRobo.toNat), (0x0107, s.cfg.gainTable.dqpskRobo.toNat),
   (0x0200, s.cfg.driverFor.high.code), (0x0201, s.cfg.driverFor.low.code),
   (0x0202, s.cfg.driverFor.veryLow.code), (0x0203, s.cfg.driverFor.lowPeakCut.code)] ++
  (profileRows s .c1 ++ profileRows s .c2 ++ profileRows s .c3 ++ profileRows s .c4 ++
   profileRows s .c5 ++ profileRows s .c6 ++ profileRows s .c7 ++ profileRows s .c8) ++
  [(0x2000, s.stat.busyTx.toNat), (0x2001, s.stat.txWrongLength.toNat), (0x2002, s.stat.txBusyChannel.toNat),
   (0x2003, s.stat.txBusyPrevTx.toNat), (0x2004, s.stat.txBusyRx.toNat), (0x2005, s.stat.txInvalidScheme.toNat),
   (0x2006, s.stat.txTimeout.toNat), (0x2007, s.stat.rxDropped.toNat)]

/-- The slots. -/
def allSlots : List SlotId := [.s0, .s1, .s2, .s3]

/-! ## What consumes an event (46_dispatcher.md R207, R214) -/

/-- The instructions that reset the machine: TIMEOUT_EXPIRE does so through SOFT_RESET (44_tx_scheduler.md R175;
70_reset_and_hazards.md R275, R278). -/
def IsReset (i : Instr) : Prop := i = .hardReset ∨ i = .softReset ∨ ∃ k, i = .timeoutExpire k

/-- The flag `f` is set in `s` and clear in `t`. -/
def Fell (s t : State) (f : State → Bool) : Prop := f s = true ∧ f t = false

/-- Slot `j`'s outcome, with the code and the RMS that `s` holds for it, is latched in `t` or was just handed over
(44_tx_scheduler.md R177, R179). -/
def CompletionDelivered (s t : State) (j : SlotId) : Prop :=
  ResultIs (resultField s j) (t.eng.tx.get j).outResult ∧
  (t.eng.tx.get j).outRms = (if s.cfg.qualityReportMode then some (s.mdm.rms.get j) else none) ∧
  ((t.eng.tx.get j).outValid = true ∨
    t.resp = .outcome (some ⟨j, (t.eng.tx.get j).outResult, (t.eng.tx.get j).outRms⟩))

/-- Slot `j`'s header is cached in `t` as the modem holds it in `s`, with its mode (46_dispatcher.md R208). -/
def HeaderDelivered (s t : State) (j : SlotId) : Prop :=
  (t.eng.rx.get j).hdrValid = true ∧ (t.eng.rx.get j).mode = s.mdm.rxMode.get j ∧
    ∀ o, o < 16 → t.byteAt .hdrcache j o = s.byteAt .rxhdr j o

/-- Slot `j` was ready in `s`, and its message was returned or counted as a drop (46_dispatcher.md R211, R212). -/
def PayloadDelivered (s t : State) (j : SlotId) : Prop :=
  (s.eng.rx.get j).ready = true ∧
  ((∃ m q, t.resp = .message (some (.frame j (s.eng.rx.get j).mode m (s.mdm.rxTime.get j) q))) ∨
    (t.resp = .message none ∧ t.stat.rxDropped = s.stat.rxDropped + 1))

/-- The noise capture was ready in `s` and was returned whole (46_dispatcher.md R211). -/
def NoiseDelivered (s t : State) : Prop :=
  s.eng.noiseReady = true ∧
    t.resp = .message (some (.noise (s.bytesAt .noisebuf .s0 0 s.params.noiseSize) s.mdm.noiseTime))

/-! ## What a reset leaves -/

/-- No slot is received into or ready, nothing is pending, and the scans start over (70_reset_and_hazards.md
R275, R278). -/
structure EventsCleared (t : State) : Prop where
  rx : ∀ i, (t.eng.rx.get i).ready = false ∧ (t.eng.rx.get i).hdrValid = false
  pending : t.eng.txPend = 0 ∧ t.eng.rxPendHdr = 0 ∧ t.eng.rxPendPay = 0 ∧ t.eng.rxPendNoise = false
  noiseReady : t.eng.noiseReady = false
  last : t.eng.txLast.toNat = 3 ∧ t.eng.rxLast.toNat = 3

/-- The low-level re-initialisation (70_reset_and_hazards.md R279). -/
structure ModemCleared (t : State) : Prop where
  flags : t.mdm.txInt = 0 ∧ t.mdm.rxIntHdr = 0 ∧ t.mdm.rxIntPay = 0 ∧ t.mdm.rxIntNoise = false ∧ t.mdm.err = false
  request : t.mdm.irqReq = false ∧ t.mdm.maskTx = false ∧ t.mdm.maskRx = false
  rxOpen : t.mdm.rxOpen = 0
  results : ∀ i, resultField t i = 7

end Sys2Proof.Machine
end

