-- ==== Sys2Proof/Certificates/Slice0/Obligations.lean ====
section
/-! DEFINITION. The statements for the provers. A next state is written as the whole state with the fields an
operation changes replaced, so that every field not named is stated to be unchanged. `answered s r` is `s`
with the response `r`. -/

open Sys2Proof Sys2Proof.Machine

/-! ## Encodings -/

/-- Decoding what is encoded gives the instruction back, for every instruction and every operand value (the
operand layout of a written-down operation is the model's, log 2; the header layouts are 30_encoding.md R92
and R96). -/
def Obligations.DecodeInvertsEncode : Prop :=
  ∀ (p : Params) (i : Instr), i.wellFormed p = true → decode (encode i) = .ok i

/-- An op byte outside the table of 30_encoding.md R110 names no operation. -/
def Obligations.UnknownOpsAreRefused : Prop :=
  ∀ (op : Byte) (operands : Bytes), op.toNat ∉ opCodes →
    decode (.operation (op :: operands)) = .error (.unknownOp op.toNat)

/-- Some words decode to the instructions they stand for: operations by their codes (R110), the frame images
of the examples of 42_codec_encode.md R141 and R143. -/
def Obligations.WordsDecode : Prop :=
  decode (.operation [0x09]) = .ok .hardReset ∧
  decode (.operation [0x04, 0x05]) = .ok (.setChannel 5) ∧
  decode (.operation [0x07, 0x11, 0x06, 0xB0, 0x09]) = .ok (.setConfigParam 0x1106 1200) ∧
  decode (.operation [0x21, 0x02, 0x02, 0xBC, 0x05]) = .ok (.txDone .s2 .busyChannel 700) ∧
  decode (.operation [0x48, 0x32, 0x07]) = .ok (.symcalc 50 .dqpskRobo) ∧
  decode (.frame .typeA [0, 0, 4, 3, 0, 1, 2, 3, 4, 5, 6, 0, 0, 0, 0, 0, 7, 8]) =
    .ok (.frameA ⟨.dbpsk, 1, 3, ⟨0, 1, 2, 3, 4, 5, 6⟩, 0, 0⟩ [7, 8]) ∧
  decode (.frame .typeB [0xE0, 0x28, 0x0A, 0, 0, 0, 0, 0, 0, 0, 0, 0, 0, 0, 0, 0, 1]) =
    .ok (.frameB ⟨.dqpskRobo, 20, 10, 0, 0, 0⟩ [1])

/-- The fields a decoder reads from the bytes of a header region, as numbers: reserved bits, unused bytes and
placeholders do not enter (30_encoding.md R94, R98, R104). -/
def Obligations.HeaderFieldsAreTheseBits : Prop :=
  ∀ h : HeaderBytes,
    (h.asTypeA.sch.index.toNat = h.h0.toNat % 8 ∧
      h.asTypeA.sym.toNat = h.h1.toNat % 64 * 64 + h.h2.toNat / 4 ∧
      h.asTypeA.pad.toNat = h.h3.toNat % 64 ∧
      h.asTypeA.mac = ⟨h.h4, h.h5, h.h6, h.h7, h.h8, h.h9, h.h10⟩) ∧
    (h.asTypeB.sch.index.toNat = h.h0.toNat / 32 ∧
      h.asTypeB.sym.toNat = h.h0.toNat % 32 * 128 + h.h1.toNat / 2 ∧
      h.asTypeB.pad.toNat = h.h1.toNat % 2 * 256 + h.h2.toNat)

/-- A step takes the head off the agenda and runs the instruction it decodes to. There is no step, and the
refusal says why, where the instruction's operands are outside their types, where the head names no
instruction, and where nothing is scheduled. The agenda and the refusal of an empty one are the model's (log 1),
and so is refusing ill-formed operands before the instruction runs (log 25). -/
def Obligations.StepRunsTheDecodedInstruction : Prop :=
  ∀ s : State, (s.agenda = [] → step s = .refused .nothingScheduled) ∧
    ∀ (item : Item) (rest : List Item), s.agenda = item :: rest →
      (∀ i : Instr, decode item = .ok i →
        (i.wellFormed s.params = true → step s = exec i { s with agenda := rest }) ∧
        (i.wellFormed s.params = false → step s = .refused .illFormed)) ∧
      ∀ why : DecodeReject, decode item = .error why → step s = .refused (.undecodable why)

/-! ## CRC engine -/

/-- CRC_ROLL answers the `w`-bit CRC of 40_crc.md R121, computed in `w`-bit registers: every width, every
seed, every byte string; nothing but the response changes. -/
def Obligations.CrcRollIsTheWidthBitCrc : Prop :=
  ∀ (s : State) (w : CrcWidth) (seed : BitVec 32) (data : Bytes),
    ∃ v : BitVec 32, exec (.crcRoll w seed data) s = .next (answered s (.residue v)) ∧
      v.toNat = (crcW (n := w.bits) ((s.params.poly.get w).setWidth w.bits) (seed.setWidth w.bits) data).toNat

/-- The rolling property: a CRC goes on where another ended, and a Generic CRC is the zero-seeded CRC of the
network address followed by the data (40_crc.md R128). -/
def Obligations.CrcRolls : Prop :=
  (∀ (s : State) (w : CrcWidth) (seed r : BitVec 32) (a b : Bytes),
    exec (.crcRoll w seed a) s = .next (answered s (.residue r)) →
      exec (.crcRoll w r b) s = exec (.crcRoll w seed (a ++ b)) s) ∧
  ∀ (s : State) (w : CrcWidth) (d : Bytes), SeedsOk s →
    ∃ v, exec (.computeCrc w.bits d .generic) s = .next (answered s (.crc v none)) ∧
      exec (.crcRoll w 0 (s.cfg.sna.toBytes ++ d)) s = .next (answered s (.residue v))

/-- COMPUTE_CRC runs the rolling CRC from the seed its header type selects; an unsupported width gives the
value 0 and the error indication (40_crc.md R123, R124). -/
def Obligations.ComputeCrcSelectsTheSeed : Prop :=
  (∀ (s : State) (w : CrcWidth) (d : Bytes) (h : HeaderType),
    ∃ v, exec (.computeCrc w.bits d h) s = .next (answered s (.crc v none)) ∧
      exec (.crcRoll w (if h = .generic then s.eng.seed.get w else 0) d) s =
        .next (answered s (.residue v))) ∧
  ∀ (s : State) (n : Nat) (d : Bytes) (h : HeaderType), n ≠ 8 → n ≠ 16 → n ≠ 24 → n ≠ 32 →
    exec (.computeCrc n d h) s = .next (answered s (.crc 0 (some .invalidCrcWidth)))

/-- UPDATE_SNA_SEED and SET_NETWORK_ADDRESS leave each seed the zero-seeded CRC of the address, whatever the
old seeds were; a second run changes nothing (40_crc.md R125; 47_config.md R230). -/
def Obligations.SeedsAreRecomputed : Prop :=
  ∀ (s : State) (a : Sna), ∃ seeds : PerWidth,
    exec (.updateSnaSeed a) s = .next (answered { s with eng := { s.eng with seed := seeds } } .silent) ∧
    exec (.setNetworkAddress a) s =
      .next (answered { s with cfg := { s.cfg with sna := a }, eng := { s.eng with seed := seeds } } .ok) ∧
    (∀ w, exec (.crcRoll w 0 a.toBytes) s = .next (answered s (.residue (seeds.get w)))) ∧
    exec (.updateSnaSeed a) (answered { s with eng := { s.eng with seed := seeds } } .silent) =
      .next (answered { s with eng := { s.eng with seed := seeds } } .silent)

/-! ## Frame codec -/

/-- SYMCALC and its inverse: symbols before repetition times bytes per symbol, less the pad, is the length
(41_codec_arith.md R133, R137, R138). -/
def Obligations.SymcalcHasAnInverse : Prop :=
  ∀ (s : State) (n : Nat) (sch : Scheme), 0 < s.params.bps.get sch →
    ∃ sym pad, exec (.symcalc n sch) s = .next (answered s (.symbols sym pad)) ∧
      (if s.params.robust.get sch then sym / 4 else sym) * s.params.bps.get sch - pad = n ∧
      (if s.params.robust.get sch then sym / 4 else sym) * s.params.bps.get sch = n + pad ∧
      pad < s.params.bps.get sch ∧ (s.params.robust.get sch = true → sym % 4 = 0)

/-- ENCODE_A: on a payload of legal length, a scheme that is not robust, a header type where MAC-CRC is
enabled, and fields in range, the image is the header region of 30_encoding.md R92, then the payload from
byte 7 on, then the MAC-CRC trailer most significant byte first (42_codec_encode.md R141, R142). `c` is the
length of the trailer. -/
def Obligations.EncodeABuildsTheImage : Prop :=
  ∀ (s : State) (sch : Scheme) (payload : Bytes) (c sym pad : Nat),
    9 ≤ payload.length → payload.length + s.params.txReserve ≤ s.params.maxPpduSize →
    s.params.robust.get sch = false →
    ((s.cfg.macCrcEnable = false ∧ c = 0) ∨
      (s.cfg.macCrcEnable = true ∧ ∃ h, headerTypeOf (payload.getD 0 0) = some h ∧
        c = if h = .promotion then 1 else 4)) →
    symcalc s.params (payload.length + c + if s.params.conv.get sch then 1 else 0) sch = (sym, pad) →
    sym ≤ 4095 → pad ≤ 63 →
    ∃ header trailer,
      exec (.encodeA sch payload) s =
        .next (answered s (.image (header ++ (payload.drop 7 ++ trailer)) sym)) ∧
      header.length = 16 ∧
      beNat (header.take 4) = sch.index.toNat * 2 ^ 24 + sym * 2 ^ 10 + pad ∧
      (header.drop 4).take 7 = payload.take 7 ∧
      header.drop 11 = [s.params.hcrcPlaceholder, s.params.flushByte, 0, 0, 0] ∧
      trailer.length = c ∧
      (s.cfg.macCrcEnable = true → ∃ h v, headerTypeOf (payload.getD 0 0) = some h ∧
        exec (.computeCrc (8 * c) payload h) s = .next (answered s (.crc v none)) ∧
        beNat trailer = v.toNat)

/-- ENCODE_B and ENCODE_BC: the Type B header region describes the payload, the outer header of a Type BC
image describes 6 bytes more and embeds no MAC byte; the payload follows verbatim (42_codec_encode.md R143,
R145; 30_encoding.md R96, R97, R100, R101). -/
def Obligations.EncodeBAndBCBuildTheImage : Prop :=
  ∀ (s : State) (sch : Scheme) (payload : Bytes) (sym pad : Nat),
    9 ≤ payload.length → payload.length + s.params.txReserve ≤ s.params.maxPpduSize →
    symcalc s.params (payload.length + if s.params.conv.get sch then 1 else 0) sch = (sym, pad) →
    sym ≤ 4095 → pad ≤ 511 →
    ∃ headerB,
      exec (.encodeB sch payload) s = .next (answered s (.image (headerB ++ payload) sym)) ∧
      headerB.length = 16 ∧
      beNat (headerB.take 3) = sch.index.toNat * 2 ^ 21 + sym * 2 ^ 9 + pad ∧
      headerB.drop 3 = [s.params.bPlaceholder0, s.params.bPlaceholder1, s.params.bPlaceholder2,
        0, 0, 0, 0, 0, 0, 0, 0, 0, 0] ∧
      ∀ symC padC,
        symcalc s.params (6 + (payload.length + if s.params.conv.get sch then 1 else 0)) sch = (symC, padC) →
        symC ≤ 4095 → padC ≤ 63 →
        ∃ headerC,
          exec (.encodeBC sch payload) s =
            .next (answered s (.image (headerC ++ (headerB ++ payload)) symC)) ∧
          headerC.length = 16 ∧
          beNat (headerC.take 4) = sch.index.toNat * 2 ^ 24 + symC * 2 ^ 10 + padC ∧
          headerC.drop 4 = [0, 0, 0, 0, 0, 0, 0, s.params.hcrcPlaceholder, s.params.flushByte, 0, 0, 0]

/-- What an encoder refuses, and in which order: length, then a robust scheme in Type A, then a missing
header type (some error, 93 U6), then a field out of range, with or without a MAC-CRC trailer of length `c`, and
in a Type BC image in the nested header or in the outer one; nothing is truncated and no state changes but for the
counter of free values where the error is not named (logs 6, 9; 42_codec_encode.md R141, R145, R146;
30_encoding.md R105, R107). -/
def Obligations.EncodersRefuse : Prop :=
  ∀ (s : State) (sch : Scheme) (payload : Bytes),
    (¬(9 ≤ payload.length ∧ payload.length + s.params.txReserve ≤ s.params.maxPpduSize) →
      exec (.encodeA sch payload) s = .next (answered s (.error .invalidLength)) ∧
      exec (.encodeB sch payload) s = .next (answered s (.error .invalidLength)) ∧
      exec (.encodeBC sch payload) s = .next (answered s (.error .invalidLength))) ∧
    (9 ≤ payload.length → payload.length + s.params.txReserve ≤ s.params.maxPpduSize →
      (s.params.robust.get sch = true →
        exec (.encodeA sch payload) s = .next (answered s (.error .invalidScheme))) ∧
      (s.params.robust.get sch = false → s.cfg.macCrcEnable = true →
        headerTypeOf (payload.getD 0 0) = none →
        ∃ e, exec (.encodeA sch payload) s = .next (answered { s with free := s.free + 1 } (.error e))) ∧
      (∀ c sym pad, s.params.robust.get sch = false →
        ((s.cfg.macCrcEnable = false ∧ c = 0) ∨
          (s.cfg.macCrcEnable = true ∧ ∃ h, headerTypeOf (payload.getD 0 0) = some h ∧
            c = if h = .promotion then 1 else 4)) →
        symcalc s.params (payload.length + c + if s.params.conv.get sch then 1 else 0) sch = (sym, pad) →
        (4095 < sym ∨ 63 < pad) →
        exec (.encodeA sch payload) s = .next (answered s (.error .invalidLength))) ∧
      (∀ sym pad symC padC,
        symcalc s.params (payload.length + if s.params.conv.get sch then 1 else 0) sch = (sym, pad) →
        symcalc s.params (6 + (payload.length + if s.params.conv.get sch then 1 else 0)) sch = (symC, padC) →
        ((4095 < sym ∨ 511 < pad) →
          exec (.encodeB sch payload) s = .next (answered s (.error .invalidLength))) ∧
        ((4095 < sym ∨ 511 < pad ∨ 4095 < symC ∨ 63 < padC) →
          exec (.encodeBC sch payload) s = .next (answered s (.error .invalidLength)))))

/-- DECODE_A: with a header that passes the checks, the payload is the embedded bytes followed by the bulk
bytes, cut at the recovered length; nothing but the response changes (43_codec_decode.md R150, R151, R152). -/
def Obligations.DecodeAReadsTheFrame : Prop :=
  ∀ (s : State) (i : SlotId) (h : FrameAHeader) (ht : HeaderType) (n : Nat), s.params.ok →
    h = (cachedHeader s i).asTypeA → s.params.robust.get h.sch = false →
    headerTypeOf h.mac.m0 = some ht →
    (n : Int) = (h.sym.toNat * s.params.bps.get h.sch : Nat) - (h.pad.toNat : Int) -
      (if s.params.conv.get h.sch then 1 else 0) -
      (if s.cfg.macCrcEnable then (if ht = .promotion then 1 else 4) else 0) →
    2 ≤ n → n ≤ s.params.maxPpduSize →
    exec (.decodeA i) s = .next (answered s (.frame ⟨h.sch, some ht,
      (s.bytesAt .hdrcache i 4 7 ++ s.bytesAt .rxbulk i 0 (n - 7)).take n⟩))

/-- DECODE_B and DECODE_BC: the length comes from the Type B header, which is the cached one or the nested
one at bulk offset 0; a robust count is divided by 4, rounding down; the payload is read at bulk offset 0 or
16 (43_codec_decode.md R150, R153, R155). -/
def Obligations.DecodeBAndBCReadTheFrame : Prop :=
  ∀ (s : State) (i : SlotId) (h : FrameBHeader) (n : Nat), s.params.ok →
    (n : Int) = ((if s.params.robust.get h.sch then h.sym.toNat / 4 else h.sym.toNat) *
        s.params.bps.get h.sch : Nat) - (h.pad.toNat : Int) - (if s.params.conv.get h.sch then 1 else 0) →
    2 ≤ n → n ≤ s.params.maxPpduSize →
    (h = (cachedHeader s i).asTypeB →
      exec (.decodeB i) s = .next (answered s (.frame ⟨h.sch, none, s.bytesAt .rxbulk i 0 n⟩))) ∧
    (h = (headerOf (s.bytesAt .rxbulk i 0 16)).asTypeB →
      exec (.decodeBC i) s = .next (answered s (.frame ⟨h.sch, none, s.bytesAt .rxbulk i 16 n⟩)))

/-- What the decoders refuse, and in which order: a robust scheme in Type A, then header-type code 3, then a
recovered length outside the bounds (43_codec_decode.md R151, R153, R155, R156; 60_exceptions.md R247). -/
def Obligations.DecodersRefuse : Prop :=
  ∀ (s : State) (i : SlotId) (a : FrameAHeader) (b : FrameBHeader), s.params.ok →
    a = (cachedHeader s i).asTypeA →
    (s.params.robust.get a.sch = true →
      exec (.decodeA i) s = .next (answered s (.error .invalidScheme))) ∧
    (s.params.robust.get a.sch = false → headerTypeOf a.mac.m0 = none →
      exec (.decodeA i) s = .next (answered s (.error .invalidHeader))) ∧
    (∀ (ht : HeaderType) (dl : Int), s.params.robust.get a.sch = false →
      headerTypeOf a.mac.m0 = some ht →
      dl = (a.sym.toNat * s.params.bps.get a.sch : Nat) - (a.pad.toNat : Int) -
        (if s.params.conv.get a.sch then 1 else 0) -
        (if s.cfg.macCrcEnable then (if ht = .promotion then 1 else 4) else 0) →
      (dl < 2 ∨ (s.params.maxPpduSize : Int) < dl) →
      exec (.decodeA i) s = .next (answered s (.error .invalidLength))) ∧
    (∀ dl : Int,
      dl = ((if s.params.robust.get b.sch then b.sym.toNat / 4 else b.sym.toNat) *
        s.params.bps.get b.sch : Nat) - (b.pad.toNat : Int) - (if s.params.conv.get b.sch then 1 else 0) →
      (dl < 2 ∨ (s.params.maxPpduSize : Int) < dl) →
      (b = (cachedHeader s i).asTypeB →
        exec (.decodeB i) s = .next (answered s (.error .invalidLength))) ∧
      (b = (headerOf (s.bytesAt .rxbulk i 0 16)).asTypeB →
        exec (.decodeBC i) s = .next (answered s (.error .invalidLength))))

/-- The round trip: what an encoder builds, received into a slot with any bytes after it, the decoder of the
same mode gives back, with its scheme, its payload and, for Type A, its header type (43_codec_decode.md
R157). The receiving state need only have the parameters and the MAC-CRC setting of the sending one. -/
def Obligations.EncodedFramesDecode : Prop :=
  ∀ (s r : State) (i : SlotId) (sch : Scheme) (payload img : Bytes) (sym : Nat), s.params.ok →
    r.params = s.params → r.cfg.macCrcEnable = s.cfg.macCrcEnable → Received r i img →
    (∀ ht, exec (.encodeA sch payload) s = .next (answered s (.image img sym)) →
      headerTypeOf (payload.getD 0 0) = some ht →
      exec (.decodeA i) r = .next (answered r (.frame ⟨sch, some ht, payload⟩))) ∧
    (exec (.encodeB sch payload) s = .next (answered s (.image img sym)) →
      exec (.decodeB i) r = .next (answered r (.frame ⟨sch, none, payload⟩))) ∧
    (exec (.encodeBC sch payload) s = .next (answered s (.image img sym)) →
      exec (.decodeBC i) r = .next (answered r (.frame ⟨sch, none, payload⟩)))

/-- The frame formats as instructions (log 11): an image whose body holds the bytes its header announces
reads as the decoder of its mode reads it; the outer header of a Type BC image is not used (30_encoding.md
R92 to R100, R106). -/
def Obligations.FrameImagesRead : Prop :=
  ∀ (s : State) (a : FrameAHeader) (b : FrameBHeader) (body : Bytes) (n : Nat),
    2 ≤ n → n ≤ s.params.maxPpduSize →
    (∀ ht, s.params.robust.get a.sch = false → headerTypeOf a.mac.m0 = some ht →
      (n : Int) = (a.sym.toNat * s.params.bps.get a.sch : Nat) - (a.pad.toNat : Int) -
        (if s.params.conv.get a.sch then 1 else 0) -
        (if s.cfg.macCrcEnable then (if ht = .promotion then 1 else 4) else 0) →
      n - 7 ≤ body.length →
      exec (.frameA a body) s = .next (answered { s with free := s.free + 1 } (.frame ⟨a.sch, some ht,
        ([a.mac.m0, a.mac.m1, a.mac.m2, a.mac.m3, a.mac.m4, a.mac.m5, a.mac.m6] ++ body).take n⟩))) ∧
    ((n : Int) = ((if s.params.robust.get b.sch then b.sym.toNat / 4 else b.sym.toNat) *
        s.params.bps.get b.sch : Nat) - (b.pad.toNat : Int) - (if s.params.conv.get b.sch then 1 else 0) →
      n ≤ body.length →
      exec (.frameB b body) s =
        .next (answered { s with free := s.free + 1 } (.frame ⟨b.sch, none, body.take n⟩)) ∧
      exec (.frameBC a b body) s =
        .next (answered { s with free := s.free + 1 } (.frame ⟨b.sch, none, body.take n⟩)))

/-! ## Buffer memory -/

/-- What is stored in a region reads back, and no other byte of any space changes (20_memory.md R70, R76;
00_scope.md R13). An access that leaves its region stops with the fault outsideRegion: that is the model's reading
of R70's "does not exist" (log 24). -/
def Obligations.MemoryReadsBackWhatIsWritten : Prop :=
  ∀ (s : State) (sp : Space) (i : SlotId) (o : Nat) (bs : Bytes),
    (o + bs.length ≤ regionSize s.params sp →
      ∃ t, memWrite s sp i o bs = .ok t ∧ memRead t sp i o bs.length = .ok bs ∧
        (∀ x, x < o ∨ o + bs.length ≤ x → t.byteAt sp i x = s.byteAt sp i x) ∧
        OtherBytesSame s t sp i) ∧
    (regionSize s.params sp < o + bs.length →
      memWrite s sp i o bs = .error .outsideRegion ∧
      memRead s sp i o bs.length = .error .outsideRegion)

/-- Every step keeps every region in its canonical form and inside its size. -/
def Obligations.StepsKeepMemoryCanonical : Prop :=
  ∀ s t : State, MemoryOk s → step s = .next t → MemoryOk t

/-- With parameters that meet the constraints of 00_scope.md R10 and 20_memory.md R70 no step faults: no
access leaves its region, whatever the state and whatever the modem delivers (48_control_and_access.md
R240). -/
def Obligations.NoStepFaults : Prop :=
  ∀ s : State, s.params.ok → SafeStep s

/-! ## Transmit scheduler -/

/-- SUBMIT arms the slot: the image its encoder builds is stored at offset 0 of the slot's region and every byte
outside that region reads as before, the slot record holds the frame, the selection and the configuration of this
moment, the schedule and the timeout, an unread outcome is discarded, a busy slot is counted, and nothing else
changes (44_tx_scheduler.md R161, R162, R163, R165, R166, R167, R168; 20_memory.md R71). Of the bytes of the
slot's region past the image nothing is stated: the model makes them unspecified (R71; 93 U5; log 16), which
advances its counter of free values (log 6). -/
def Obligations.SubmitArms : Prop :=
  ∀ (s : State) (req : TxRequest) (i : SlotId) (sch : Scheme), s.params.ok →
    req.bufferId.toNat = i.toNat → req.schemeCode.toNat = sch.index.toNat →
    Encodable s req.frameMode sch req.payload →
    ¬((s.eng.tx.get i).state.busy = true ∧ s.params.busyPolicy = .reject) →
    ∃ (img : Bytes) (sym sched : Nat) (buf : Region) (t : State),
      exec (encoderOf req.frameMode sch req.payload) s = .next (answered s (.image img sym)) ∧
      exec (.submit req) s = .next (answered t .ok) ∧
      t = { s with
        stat := { s.stat with busyTx := s.stat.busyTx + if (s.eng.tx.get i).state.busy then 1 else 0 }
        eng := { s.eng with
          tx := s.eng.tx.set i
           { s.eng.tx.get i with
            state := .armed
            outValid := false
            conf :=
              { mode := req.frameMode
                scheme := sch
                symbols := BitVec.ofNat 12 sym
                gain := s.cfg.gainTable.get sch
                bitflip := s.eng.sel.bitflip
                peakcutEn := s.eng.sel.peakcutEn
                branch := s.eng.sel.driver
                attLevel := req.attenuationLevel
                attChirp := s.eng.sel.attChirp
                attSignal := s.eng.sel.attSignal
                guardBefore := s.cfg.guardBefore
                guardAfter := s.cfg.guardAfter
                disableRx := req.disableRx
                schedTime := sched
                force := decide (req.schedule = .immediate)
                timeout := (s.params.timeoutBaseSymbols + sym * s.params.timeoutPerSymbolFactor) *
                  s.params.timeoutTickScale } } }
        mdm := { s.mdm with txbuf := s.mdm.txbuf.set i buf }
        free := s.free + 1 } ∧
      sym ≤ 4095 ∧
      (sched : Int) = (match req.schedule with
        | .immediate => (s.mdm.time : Int) - (s.params.immediateBackdate : Int)
        | .relativeDelay d => (s.mdm.time : Int) + (max d s.params.minDelayQuantum : Nat)
        | .absoluteTime a => (a : Int)) % (2 : Int) ^ s.params.timeW ∧
      (∀ o b, img[o]? = some b → t.byteAt .txbuf i o = b) ∧ OtherBytesSame s t .txbuf i

/-- What SUBMIT refuses, in the order of 60_exceptions.md R247: the buffer id, the payload length, the scheme
code, what the encoder refuses (some error where no header type selects a CRC width, 93 U6), and last a busy
slot under the Reject policy. An error leaves the state as it was, but for the busy counter under Reject
(44_tx_scheduler.md R162; 60_exceptions.md R245). -/
def Obligations.SubmitErrors : Prop :=
  ∀ (s : State) (req : TxRequest),
    (3 < req.bufferId.toNat → exec (.submit req) s = .next (answered s (.error .invalidBuffer))) ∧
    (req.bufferId.toNat ≤ 3 →
      (¬(9 ≤ req.payload.length ∧ req.payload.length + s.params.txReserve ≤ s.params.maxPpduSize) →
        exec (.submit req) s = .next (answered s (.error .invalidLength))) ∧
      (9 ≤ req.payload.length → req.payload.length + s.params.txReserve ≤ s.params.maxPpduSize →
        (7 < req.schemeCode.toNat → exec (.submit req) s = .next (answered s (.error .invalidScheme))) ∧
        ∀ sch : Scheme, req.schemeCode.toNat = sch.index.toNat →
          (∀ e, exec (encoderOf req.frameMode sch req.payload) s = .next (answered s (.error e)) →
            exec (.submit req) s = .next (answered s (.error e))) ∧
          (req.frameMode = .typeA → s.params.robust.get sch = false → s.cfg.macCrcEnable = true →
            headerTypeOf (req.payload.getD 0 0) = none →
            ∃ e, exec (.submit req) s = .next (answered { s with free := s.free + 1 } (.error e))) ∧
          (∀ i : SlotId, req.bufferId.toNat = i.toNat → Encodable s req.frameMode sch req.payload →
            (s.eng.tx.get i).state.busy = true → s.params.busyPolicy = .reject →
            exec (.submit req) s = .next (answered
              { s with stat := { s.stat with busyTx := s.stat.busyTx + 1 } } (.error .bufferBusy)))))

/-- TX_START: an armed slot whose time has come, or that is forced, goes in flight, and nothing else is
written; otherwise the event is not enabled (44_tx_scheduler.md R172). -/
def Obligations.TxStartFlies : Prop :=
  ∀ (s : State) (i : SlotId),
    ((s.eng.tx.get i).state = .armed →
      ((s.eng.tx.get i).conf.force = true ∨ reached s (s.eng.tx.get i).conf.schedTime = true) →
      exec (.txStart i) s = .next (answered { s with eng := { s.eng with
        tx := s.eng.tx.set i { s.eng.tx.get i with state := .inFlight } } } .silent)) ∧
    (¬((s.eng.tx.get i).state = .armed ∧
        ((s.eng.tx.get i).conf.force = true ∨ reached s (s.eng.tx.get i).conf.schedTime = true)) →
      exec (.txStart i) s = .refused .notEnabled)

/-- The time comparison: the difference modulo the counter's range is in its lower half, that is, the signed
difference of the two counts is not negative (44_tx_scheduler.md R171). -/
def Obligations.ReachedIsTheHalfRangeTest : Prop :=
  ∀ (s : State) (t : Nat), 1 ≤ s.params.timeW →
    (reached s t = true ↔
      ((s.mdm.time : Int) - (t : Int)) % (2 : Int) ^ s.params.timeW < (2 : Int) ^ (s.params.timeW - 1)) ∧
    (reached s t = true ↔
      0 ≤ (BitVec.ofNat s.params.timeW s.mdm.time - BitVec.ofNat s.params.timeW t).toInt)

/-- TIME_ADVANCE adds its operand to the time reference, modulo its range, and no other instruction writes the
time reference (44_tx_scheduler.md R173; 10_state.md R39). Two clauses are the model's reading: outside its bounds
the event is refused as not enabled (log 10); and HARD_RESET leaves the time as it is, where 10_state.md R43 calls
its value unspecified (log 17). -/
def Obligations.TimePassesByTimeAdvance : Prop :=
  (∀ (s : State) (d : Nat), 1 ≤ d → d < 2 ^ (s.params.timeW - 1) →
    exec (.timeAdvance d) s =
      .next (answered { s with mdm := { s.mdm with time := (s.mdm.time + d) % 2 ^ s.params.timeW } } .silent)) ∧
  (∀ (s : State) (d : Nat), (d = 0 ∨ 2 ^ (s.params.timeW - 1) ≤ d) →
    exec (.timeAdvance d) s = .refused .notEnabled) ∧
  (∀ (s t : State) (i : Instr), (∀ d, i ≠ .timeAdvance d) → exec i s = .next t → t.mdm.time = s.mdm.time)

/-- TX_DONE: the slot's result field and RMS take the operands, its completion flag and the request are set;
the other result fields and everything else stay; the slot's state does not change (44_tx_scheduler.md R174;
10_state.md R27). Otherwise the event is refused as not enabled; that this holds of the codes Timeout and
InProcess, which R174 does not list, is the model's reading (log 10). -/
def Obligations.TxDoneFlagsTheCompletion : Prop :=
  ∀ (s : State) (i : SlotId) (code : TxResult) (rms : Nat), s.params.ok → rms < 2 ^ s.params.rmsW →
    (code ≠ .timeout → code ≠ .inProcess → flag s.mdm.txInt i = false →
      ((s.eng.tx.get i).state = .inFlight ∨ ((s.eng.tx.get i).state = .armed ∧ code ≠ .success)) →
      ∃ (r0 r1 : Nat) (t : State),
        t = { s with mdm := { s.mdm with
          txResult0 := r0, txResult1 := r1, rms := s.mdm.rms.set i rms, txInt := setFlag s.mdm.txInt i,
          irqReq := true } } ∧
        exec (.txDone i code rms) s = .next (answered t .silent) ∧
        (∀ j, resultField t j = if j = i then code.code else resultField s j)) ∧
    ((code = .timeout ∨ code = .inProcess ∨ flag s.mdm.txInt i = true ∨
        ¬((s.eng.tx.get i).state = .inFlight ∨ ((s.eng.tx.get i).state = .armed ∧ code ≠ .success))) →
      exec (.txDone i code rms) s = .refused .notEnabled)

/-- TX_RESULT_READ: the outcome is latched with the code of the slot's field (above 7: InProcess) and, where
quality is reported, the RMS; the code is counted; the controller runs on a success and only then; the
completion flag is cleared with the mask released (44_tx_scheduler.md R177, R178, R180, R181;
30_encoding.md R108; 45_impedance.md R195). -/
def Obligations.TxResultReadLatches : Prop :=
  ∀ (s : State) (i : SlotId) (code : TxResult), ResultIs (resultField s i) code →
    ∃ (imp : ImpedanceState) (sel : Selection),
      (code = .success → exec (.impUpdate (s.mdm.rms.get i)) s =
        .next (answered { s with eng := { s.eng with imp := imp, sel := sel } } .silent)) ∧
      (code ≠ .success → imp = s.eng.imp ∧ sel = s.eng.sel) ∧
      exec (.txResultRead i) s = .next (answered { s with
        stat := tallied s.stat code
        eng := { s.eng with
          imp := imp
          sel := sel
          tx := s.eng.tx.set i
            { s.eng.tx.get i with
              state := if code = .success then .success else .error
              outValid := true
              outResult := code
              outRms := if s.cfg.qualityReportMode then some (s.mdm.rms.get i) else none } }
        mdm := { s.mdm with txInt := clearFlag s.mdm.txInt i, maskTx := false } } .silent)

/-- TX_RESULT_TASK serves the first pending slot of the scan: its pending bit is cleared, it becomes the
last served, its result is read; with nothing pending nothing happens (44_tx_scheduler.md R176;
46_dispatcher.md R209). -/
def Obligations.TxResultTaskServesRoundRobin : Prop :=
  ∀ s : State,
    (s.eng.txPend = 0 → exec .txResultTask s = .next (answered s (.served none))) ∧
    (s.eng.txPend ≠ 0 → ∃ i, FirstInScan s.params s.eng.txLast (fun j => flag s.eng.txPend j = true) i) ∧
    ∀ i, FirstInScan s.params s.eng.txLast (fun j => flag s.eng.txPend j = true) i →
      ∃ t, exec (.txResultRead i)
          { s with eng := { s.eng with txPend := clearFlag s.eng.txPend i, txLast := i } } =
            .next (answered t .silent) ∧
        exec .txResultTask s = .next (answered t (.served (some i)))

/-- POLL_TX_RESULT: one run of the task if a completion is pending, then the slot's outcome if one is latched,
consumed as it is handed over, else none. An outcome is not handed over twice: unless a new completion of the same
slot is pending, a second poll, which may serve another slot, answers none (44_tx_scheduler.md R179). -/
def Obligations.PollTxResultHandsOver : Prop :=
  ∀ (s : State) (v : BitVec 8),
    (3 < v.toNat → exec (.pollTxResult v) s = .next (answered s (.error .invalidBuffer))) ∧
    ∀ i : SlotId, v.toNat = i.toNat → ∃ u : State,
      (if s.eng.txPend = 0 then u = s else ∃ r, exec .txResultTask s = .next (answered u r)) ∧
      ((u.eng.tx.get i).outValid = false → exec (.pollTxResult v) s = .next (answered u (.outcome none))) ∧
      ((u.eng.tx.get i).outValid = true → ∃ t : State,
        t = { u with eng := { u.eng with
          tx := u.eng.tx.set i { u.eng.tx.get i with state := .idle, outValid := false } } } ∧
        exec (.pollTxResult v) s = .next (answered t (.outcome (some
          ⟨i, (u.eng.tx.get i).outResult, (u.eng.tx.get i).outRms⟩))) ∧
        (flag t.eng.txPend i = false → ∃ u' : State,
          (if t.eng.txPend = 0 then u' = t else ∃ r, exec .txResultTask t = .next (answered u' r)) ∧
          exec (.pollTxResult v) t = .next (answered u' (.outcome none))))

/-- A completion that a dispatch has recorded reaches the host within four polls of its slot, whatever else
is pending and wherever the scan stands, with the code the modem reported (44_tx_scheduler.md R179;
46_dispatcher.md R207). -/
def Obligations.FourPollsDeliverTheOutcome : Prop :=
  ∀ (s : State) (i : SlotId) (v : BitVec 8) (code : TxResult), v.toNat = i.toNat → LatchOk s →
    CompletionOk s → flag s.eng.txPend i = true → ResultIs (resultField s i) code →
    ∃ t : State, PollsDeliver v
        ⟨i, code, if s.cfg.qualityReportMode then some (s.mdm.rms.get i) else none⟩ t 4 s ∧
      (t.eng.tx.get i).state = .idle ∧ flag t.eng.txPend i = false ∧ flag t.mdm.txInt i = false

/-- TIMEOUT_EXPIRE: the slot's Timeout is latched and counted, then the machine is soft reset, which keeps
that outcome; it needs a busy slot without a completion whose deadline is reached (44_tx_scheduler.md
R175). -/
def Obligations.TimeoutExpireResets : Prop :=
  ∀ (s : State) (i : SlotId),
    ((s.eng.tx.get i).state.busy = true → flag s.mdm.txInt i = false → flag s.eng.txPend i = false →
      reached s ((s.eng.tx.get i).conf.schedTime + (s.eng.tx.get i).conf.timeout) = true →
      ∃ t : State,
        exec .softReset { s with
          stat := { s.stat with txTimeout := s.stat.txTimeout + 1 }
          eng := { s.eng with
            tx := s.eng.tx.set i
             { s.eng.tx.get i with
               state := .error
               outValid := true
               outResult := .timeout
               outRms := none } } } = .next (answered t .silent) ∧
        exec (.timeoutExpire i) s = .next (answered t .silent) ∧
        (t.eng.tx.get i).state = .error ∧ (t.eng.tx.get i).outValid = true ∧
        (t.eng.tx.get i).outResult = .timeout ∧ (t.eng.tx.get i).outRms = none) ∧
    (¬((s.eng.tx.get i).state.busy = true ∧ flag s.mdm.txInt i = false ∧ flag s.eng.txPend i = false ∧
        reached s ((s.eng.tx.get i).conf.schedTime + (s.eng.tx.get i).conf.timeout) = true) →
      exec (.timeoutExpire i) s = .refused .notEnabled)

/-- The slot state machine: under the latch and completion invariants, an agent's step moves a slot only along
an edge of the table of 44_tx_scheduler.md R160 (a poll may take two: the result is read, then the outcome
consumed); a submit re-arms a busy slot only under the Overwrite policy. -/
def Obligations.SlotsMoveAlongTheTable : Prop :=
  ∀ (s t : State) (i : Instr) (j : SlotId), LatchOk s → CompletionOk s → agentStep i = true → exec i s = .next t →
    (t.eng.tx.get j).state ≠ (s.eng.tx.get j).state →
    (∃ req, i = .submit req ∧ req.bufferId.toNat = j.toNat ∧ (t.eng.tx.get j).state = .armed ∧
      ((s.eng.tx.get j).state.busy = true → s.params.busyPolicy = .overwrite)) ∨
    (i = .txStart j ∧ (s.eng.tx.get j).state = .armed ∧ (t.eng.tx.get j).state = .inFlight) ∨
    ((i = .irqDispatch ∨ ∃ v, i = .pollTxResult v) ∧ (s.eng.tx.get j).state.busy = true ∧
      ((resultField s j = 0 ∧ (t.eng.tx.get j).state = .success) ∨
        (resultField s j ≠ 0 ∧ (t.eng.tx.get j).state = .error))) ∨
    (∃ v : BitVec 8, i = .pollTxResult v ∧ v.toNat = j.toNat ∧ (t.eng.tx.get j).state = .idle ∧
      ((s.eng.tx.get j).state = .success ∨ (s.eng.tx.get j).state = .error ∨
        ((s.eng.tx.get j).state.busy = true ∧ flag s.eng.txPend j = true))) ∨
    (∃ k, i = .timeoutExpire k ∧ (s.eng.tx.get j).state.busy = true ∧
      (t.eng.tx.get j).state = if j = k then .error else .idle) ∨
    (i = .hardReset ∧ (t.eng.tx.get j).state = .idle)

/-- A slot holds an outcome exactly in Success and Error: every step keeps this (10_state.md R26). With it,
the agents' steps keep that a completion is flagged only for a busy slot and pending only while flagged. -/
def Obligations.OutcomesAreLatchedExactlyWhenComplete : Prop :=
  (∀ s t : State, LatchOk s → step s = .next t → LatchOk t) ∧
  ∀ s t : State, LatchOk s → CompletionOk s → NextIsAgentStep s → step s = .next t → CompletionOk t

/-! ## Impedance controller -/

/-- IMP_UPDATE moves the state as the tables have it; a transition re-selects the outputs, holding the state
changes nothing (45_impedance.md R191, R192, R193, R194). -/
def Obligations.ImpUpdateFollowsTheTables : Prop :=
  ∀ (s : State) (rms : Nat), ∃ new : ImpedanceState,
    NextImpedanceIs s.eng.sel s.cfg.peakCutMode rms s.eng.imp new ∧
    (∀ other, NextImpedanceIs s.eng.sel s.cfg.peakCutMode rms s.eng.imp other → other = new) ∧
    (new = s.eng.imp → exec (.impUpdate rms) s = .next (answered s .silent)) ∧
    (new ≠ s.eng.imp → ∃ t,
      exec .impReselect { s with eng := { s.eng with imp := new } } = .next (answered t .silent) ∧
      exec (.impUpdate rms) s = .next (answered t .silent))

/-- IMP_RESELECT loads the outputs from the state, the channel's profile and the driver table, and writes
nothing else, no slot in particular; SET_CHANNEL re-selects for the new channel and keeps the state, and
refuses a channel outside 1..8 (45_impedance.md R196, R197, R198). -/
def Obligations.ReselectionFollowsChannelAndState : Prop :=
  (∀ s : State, exec .impReselect s = .next (answered { s with eng := { s.eng with
      sel :=
      { attChirp := loadFor (s.cfg.profile.get s.cfg.channel).attChirp s.eng.imp
        attSignal := loadFor (s.cfg.profile.get s.cfg.channel).attSignal s.eng.imp
        bitflip := if s.eng.imp = .high then false else true
        peakcutEn := if s.eng.imp = .lowPeakCut then true else false
        driver := s.cfg.driverFor.get s.eng.imp
        th1 := (s.cfg.profile.get s.cfg.channel).threshold1
        th2 := (s.cfg.profile.get s.cfg.channel).threshold2
        th3 := (s.cfg.profile.get s.cfg.channel).threshold3
        th4 := (s.cfg.profile.get s.cfg.channel).threshold4 } } } .silent)) ∧
  ∀ (s : State) (v : BitVec 8),
    (v.toNat < 1 ∨ 8 < v.toNat → exec (.setChannel v) s = .next (answered s (.error .invalidChannel))) ∧
    ∀ c : Channel, v.toNat = c.number → ∃ t,
      exec .impReselect { s with cfg := { s.cfg with channel := c } } = .next (answered t .silent) ∧
      exec (.setChannel v) s = .next (answered t .ok)

/-- From High, a value below threshold 2 leads in exactly one transition to Low, or to LowPeakCut where
peak-cut is enabled, never to VeryLow; a further value below threshold 2 leads on to VeryLow only if it is also
below threshold 4 (45_impedance.md R199). -/
def Obligations.LowValuesNeverReachVeryLowDirectly : Prop :=
  ∀ (s : State) (rms : Nat), s.eng.imp = .high → rms < s.eng.sel.th2 →
    ∃ t, exec (.impUpdate rms) s = .next t ∧
      t.eng.imp = (if s.cfg.peakCutMode then .lowPeakCut else .low) ∧
      ∀ rms' u, rms' < t.eng.sel.th2 → exec (.impUpdate rms') t = .next u → u.eng.imp = .veryLow →
        rms' < t.eng.sel.th4

/-- An agent's step changes the controller only by reading a result that is a success, by a channel change
(the outputs alone), or by a hard reset (45_impedance.md R195, R201). -/
def Obligations.ControllerMovesOnlyAfterSuccess : Prop :=
  ∀ (s t : State) (i : Instr), agentStep i = true → exec i s = .next t →
    (t.eng.imp = s.eng.imp ∧ t.eng.sel = s.eng.sel) ∨
    ((i = .irqDispatch ∨ ∃ v, i = .pollTxResult v) ∧ ∃ j, resultField s j = 0 ∧
      (flag s.eng.txPend j = true ∨ flag s.mdm.txInt j = true) ∧
      exec (.impUpdate (s.mdm.rms.get j)) s =
        .next (answered { s with eng := { s.eng with imp := t.eng.imp, sel := t.eng.sel } } .silent)) ∨
    (((∃ v, i = .setChannel v) ∨ ∃ v, i = .setConfigParam 0x0005 v) ∧ t.eng.imp = s.eng.imp) ∨
    i = .hardReset

/-! ## Dispatcher -/

/-- IRQ_DISPATCH without an error flag: the request is taken, every hardware flag is recorded, then the
receive task runs if anything of its kind is pending, and after it the result task if a completion is; with
nothing flagged and nothing pending only the request changes. It is enabled exactly when a request is up and
no source is masked (46_dispatcher.md R205; 60_exceptions.md R252, R253, R254, R255). -/
def Obligations.DispatchRecordsAndServes : Prop :=
  (∀ s : State, s.mdm.irqReq = true → s.mdm.maskTx = false → s.mdm.maskRx = false → s.mdm.err = false →
    ∃ u v t : State,
      u = { s with
        mdm := { s.mdm with irqReq := false }
        eng := { s.eng with
          txPend := s.eng.txPend ||| s.mdm.txInt
          rxPendHdr := s.eng.rxPendHdr ||| s.mdm.rxIntHdr
          rxPendPay := s.eng.rxPendPay ||| s.mdm.rxIntPay
          rxPendNoise := s.eng.rxPendNoise || s.mdm.rxIntNoise } } ∧
      (if u.eng.rxPendHdr ≠ 0 ∨ u.eng.rxPendPay ≠ 0 ∨ u.eng.rxPendNoise = true then
        exec .rxTask u = .next (answered v .silent) else v = u) ∧
      (if u.eng.txPend ≠ 0 then ∃ r, exec .txResultTask v = .next (answered t r) else t = v) ∧
      exec .irqDispatch s = .next (answered t .silent)) ∧
  (∀ s : State, ¬(s.mdm.irqReq = true ∧ s.mdm.maskTx = false ∧ s.mdm.maskRx = false) →
    exec .irqDispatch s = .refused .notEnabled)

/-- IRQ_DISPATCH with the error flag set: the payload flags not yet recorded are cleared and counted as drops,
the error is acknowledged, no task runs and no pending bit changes, and a new request is made if another flag
is not recorded (46_dispatcher.md R206). -/
def Obligations.ErrorPathDropsNewPayloads : Prop :=
  ∀ s : State, s.mdm.irqReq = true → s.mdm.maskTx = false → s.mdm.maskRx = false → s.mdm.err = true →
    ∃ (pay : SlotBits) (again : Bool),
      exec .irqDispatch s = .next (answered
        { s with
          stat := { s.stat with
            rxDropped := s.stat.rxDropped + BitVec.ofNat 32
              (allSlots.countP fun i => flag s.mdm.rxIntPay i && !flag s.eng.rxPendPay i) }
          mdm := { s.mdm with rxIntPay := pay, err := false, irqReq := again } } .silent) ∧
      (∀ i, flag pay i = (flag s.mdm.rxIntPay i && flag s.eng.rxPendPay i)) ∧
      (again = true ↔ (∃ i, flag s.mdm.txInt i = true ∧ flag s.eng.txPend i = false) ∨
        (∃ i, flag s.mdm.rxIntHdr i = true) ∨ (s.mdm.rxIntNoise = true ∧ s.eng.rxPendNoise = false))

/-- RX_TASK: for every slot, a pending header is cached with its mode and its flag cleared at once, and a
recorded payload makes the slot ready; a recorded noise capture is ready; nothing else changes, the scan index
and the payload flags in particular (46_dispatcher.md R208). What an unserved header region holds is kept;
after the flag is cleared it is unspecified (R210; 93 U7). -/
def Obligations.RxTaskServesEverySlot : Prop :=
  ∀ s : State, s.mdm.maskRx = false →
    ∃ (rx : PerSlot RxSlot) (hdr : SlotBits) (regions : PerSlot Region) (n : Nat) (t : State),
      t = { s with
        eng := { s.eng with rx := rx, rxPendHdr := 0, noiseReady := s.eng.noiseReady || s.eng.rxPendNoise }
        mdm := { s.mdm with rxIntHdr := hdr, rxhdr := regions }
        free := n } ∧
      exec .rxTask s = .next (answered t .silent) ∧
      ∀ i, (rx.get i).ready = ((s.eng.rx.get i).ready || flag s.eng.rxPendPay i) ∧
        (flag s.eng.rxPendHdr i = true →
          (rx.get i).hdrValid = true ∧ (rx.get i).mode = s.mdm.rxMode.get i ∧ flag hdr i = false ∧
          ∀ o, o < 16 → t.byteAt .hdrcache i o = s.byteAt .rxhdr i o) ∧
        (flag s.eng.rxPendHdr i = false →
          (rx.get i).hdrValid = (s.eng.rx.get i).hdrValid ∧ (rx.get i).mode = (s.eng.rx.get i).mode ∧
          (rx.get i).hdrCache = (s.eng.rx.get i).hdrCache ∧ flag hdr i = flag s.mdm.rxIntHdr i ∧
          regions.get i = s.mdm.rxhdr.get i)

/-- While a flag is unrecorded a dispatch is asked for, and no step leaves a source masked (46_dispatcher.md
R206, R207; 60_exceptions.md R251). That a flag stays until it is consumed is `FlagsStayUntilConsumed`. -/
def Obligations.UnrecordedFlagsRequestADispatch : Prop :=
  ∀ s t : State, MasksClear s → RequestOk s → step s = .next t → MasksClear t ∧ RequestOk t

/-! ## Receive path -/

/-- POLL_RX serves the first ready slot of the scan: it decodes the slot by its captured mode, consumes it, and
returns the message, with its metrics where quality is reported; a frame the decoder refuses, or one without a
header, is consumed all the same, counted, and returned as none (46_dispatcher.md R209, R211, R212, R213). -/
def Obligations.PollRxServesTheReadySlot : Prop :=
  ∀ (s : State) (i : SlotId), s.params.ok →
    FirstInScan s.params s.eng.rxLast (fun j => (s.eng.rx.get j).ready = true) i →
    ∃ (r : Response) (u : State),
      exec (decoderOf (s.eng.rx.get i).mode i) s = .next (answered s r) ∧
      ((∃ m, r = .frame m) ∨ ∃ e, r = .error e) ∧
      u = { s with
        eng := { s.eng with
          rx := s.eng.rx.set i { s.eng.rx.get i with ready := false, hdrValid := false }
          rxPendPay := clearFlag s.eng.rxPendPay i
          rxLast := i }
        mdm := { s.mdm with rxIntPay := clearFlag s.mdm.rxIntPay i, maskRx := false } } ∧
      (∀ m, (s.eng.rx.get i).hdrValid = true → r = .frame m →
        exec .pollRx s = .next (answered u (.message (some (.frame i (s.eng.rx.get i).mode m
          (s.mdm.rxTime.get i) (if s.cfg.qualityReportMode then some (s.mdm.rxQ.get i) else none)))))) ∧
      (((s.eng.rx.get i).hdrValid = false ∨ ∃ e, r = .error e) →
        exec .pollRx s = .next (answered
          { u with stat := { s.stat with rxDropped := s.stat.rxDropped + 1 } } (.message none)))

/-- POLL_RX delivers the noise capture whole only when no slot is ready, and answers none when there is
nothing (46_dispatcher.md R211). -/
def Obligations.PollRxDeliversNoiseLast : Prop :=
  ∀ s : State, (∀ i, (s.eng.rx.get i).ready = false) →
    (s.eng.noiseReady = true →
      exec .pollRx s = .next (answered
        { s with
          eng := { s.eng with noiseReady := false, rxPendNoise := false }
          mdm := { s.mdm with rxIntNoise := false, maskRx := false } }
        (.message (some (.noise (s.bytesAt .noisebuf .s0 0 s.params.noiseSize) s.mdm.noiseTime))))) ∧
    (s.eng.noiseReady = false → exec .pollRx s = .next (answered s (.message none)))

/-- RX_HEADER_DONE stores the 16 bytes and the mode, opens the reception and flags the header; a slot that
receives, or whose header or payload is still flagged, cannot (46_dispatcher.md R215). -/
def Obligations.HeaderArrives : Prop :=
  ∀ (s : State) (i : SlotId) (mode : FrameMode) (h : HeaderBytes),
    (flag s.mdm.rxOpen i = false → flag s.mdm.rxIntHdr i = false → flag s.mdm.rxIntPay i = false →
      ∃ (region : Region) (t : State),
        t = { s with mdm := { s.mdm with
          rxhdr := s.mdm.rxhdr.set i region, rxMode := s.mdm.rxMode.set i mode,
          rxOpen := setFlag s.mdm.rxOpen i, rxIntHdr := setFlag s.mdm.rxIntHdr i, irqReq := true } } ∧
        exec (.rxHeaderDone i mode h) s = .next (answered t .silent) ∧
        t.bytesAt .rxhdr i 0 16 = h.toBytes ∧ OtherBytesSame s t .rxhdr i) ∧
    ((flag s.mdm.rxOpen i = true ∨ flag s.mdm.rxIntHdr i = true ∨ flag s.mdm.rxIntPay i = true) →
      exec (.rxHeaderDone i mode h) s = .refused .notEnabled)

/-- RX_PAYLOAD_DONE stores what was received, its time and metrics, closes the reception and flags the
payload; RX_ERROR closes it with the error flag and leaves bulk bytes, time and metrics unspecified; both need
an open reception without a payload flag (46_dispatcher.md R216, R218). -/
def Obligations.PayloadArrivesOrFails : Prop :=
  ∀ (s : State) (i : SlotId) (bulk : Bytes) (time : Nat) (q : Quality),
    (flag s.mdm.rxOpen i = true → flag s.mdm.rxIntPay i = false →
      (bulk.length ≤ s.params.rxbulkSize → time < 2 ^ s.params.timeW →
        ∃ (region : Region) (t : State),
          t = { s with
            mdm := { s.mdm with
              rxbulk := s.mdm.rxbulk.set i region, rxTime := s.mdm.rxTime.set i time,
              rxQ := s.mdm.rxQ.set i q, rxOpen := clearFlag s.mdm.rxOpen i,
              rxIntPay := setFlag s.mdm.rxIntPay i, irqReq := true }
            free := s.free + 1 } ∧
          exec (.rxPayloadDone i bulk time q) s = .next (answered t .silent) ∧
          (∀ o b, bulk[o]? = some b → t.byteAt .rxbulk i o = b) ∧ OtherBytesSame s t .rxbulk i) ∧
      ∃ (region : Region) (time' : Nat) (q' : Quality) (t : State),
        t = { s with
          mdm := { s.mdm with
            rxbulk := s.mdm.rxbulk.set i region, rxTime := s.mdm.rxTime.set i time',
            rxQ := s.mdm.rxQ.set i q', rxOpen := clearFlag s.mdm.rxOpen i,
            rxIntPay := setFlag s.mdm.rxIntPay i, err := true, irqReq := true }
          free := s.free + 1 } ∧
        time' < 2 ^ s.params.timeW ∧
        exec (.rxError i) s = .next (answered t .silent) ∧ OtherBytesSame s t .rxbulk i) ∧
    ((flag s.mdm.rxOpen i = false ∨ flag s.mdm.rxIntPay i = true) →
      exec (.rxPayloadDone i bulk time q) s = .refused .notEnabled ∧
      exec (.rxError i) s = .refused .notEnabled)

/-- NOISE_DONE stores the capture and its time and flags it, unless a capture is still flagged
(46_dispatcher.md R217). -/
def Obligations.NoiseArrives : Prop :=
  ∀ (s : State) (bytes : Bytes) (time : Nat), bytes.length = s.params.noiseSize →
    time < 2 ^ s.params.timeW →
    (s.mdm.rxIntNoise = false →
      ∃ (region : Region) (t : State),
        t = { s with
          mdm := { s.mdm with noisebuf := region, noiseTime := time, rxIntNoise := true, irqReq := true }
          free := s.free + 1 } ∧
        exec (.noiseDone bytes time) s = .next (answered t .silent) ∧
        t.bytesAt .noisebuf .s0 0 s.params.noiseSize = bytes ∧ OtherBytesSame s t .noisebuf .s0) ∧
    (s.mdm.rxIntNoise = true → exec (.noiseDone bytes time) s = .refused .notEnabled)

/-- The receive invariants of 46_dispatcher.md R220, with what the events' enabling conditions add to them, are
kept by every step. -/
def Obligations.StepsKeepTheReceiveInvariants : Prop :=
  ∀ s t : State, ReceiveOk s → ReceiveOrderOk s → step s = .next t → ReceiveOk t ∧ ReceiveOrderOk t

/-- What was received stays as it is until its payload flag is cleared: no instruction writes the bulk region,
the time or the metrics of a slot whose payload is flagged before and after it (46_dispatcher.md R210). -/
def Obligations.ReceivedDataIsKeptWhileFlagged : Prop :=
  ∀ (s t : State) (i : Instr) (j : SlotId), exec i s = .next t →
    flag s.mdm.rxIntPay j = true → flag t.mdm.rxIntPay j = true →
    t.mdm.rxbulk.get j = s.mdm.rxbulk.get j ∧ t.mdm.rxTime.get j = s.mdm.rxTime.get j ∧
      t.mdm.rxQ.get j = s.mdm.rxQ.get j

/-! ## Configuration -/

/-- GET_CONFIG_PARAM answers the current value of the field an identifier of the table names, and refuses every
other identifier; it changes nothing (47_config.md R231, R232, R233). -/
def Obligations.GetConfigParamReadsTheTable : Prop :=
  ∀ (s : State) (id : BitVec 16),
    (∀ row ∈ paramTable s, id.toNat = row.1 →
      exec (.getConfigParam id) s = .next (answered s (.value row.2))) ∧
    (knownId id.toNat = true ↔ ∃ row ∈ paramTable s, id.toNat = row.1) ∧
    (knownId id.toNat = false → exec (.getConfigParam id) s = .next (answered s (.error .invalidParam)))

/-- SET_CONFIG_PARAM writes a legal value: the parameter then reads as it, every other parameter reads as
before, the address recomputes the seeds, the channel re-selects, and nothing else changes. An unknown
identifier, the read-only impedance state, a value that is not legal are refused in this order (47_config.md
R232, R234; 60_exceptions.md R247). -/
def Obligations.SetConfigParamWritesTheTable : Prop :=
  ∀ (s : State) (id : BitVec 16) (v : Nat),
    (knownId id.toNat = false → exec (.setConfigParam id v) s = .next (answered s (.error .invalidParam))) ∧
    (id.toNat = 0x0008 → exec (.setConfigParam id v) s = .next (answered s (.error .readOnly))) ∧
    (knownId id.toNat = true → id.toNat ≠ 0x0008 → ¬legalFor s.params id.toNat v →
      exec (.setConfigParam id v) s = .next (answered s (.error .invalidValue))) ∧
    (knownId id.toNat = true → id.toNat ≠ 0x0008 → legalFor s.params id.toNat v →
      ∃ (cfg : PhyConfig) (stat : Stats) (sel : Selection) (seed : PerWidth) (t : State),
        t = { s with cfg := cfg, stat := stat, eng := { s.eng with sel := sel, seed := seed } } ∧
        exec (.setConfigParam id v) s = .next (answered t .ok) ∧
        (∀ row ∈ paramTable t, if row.1 = id.toNat then row.2 = v else row ∈ paramTable s) ∧
        (if id.toNat = 0x0004 then SeedsOk t else seed = s.eng.seed) ∧
        (if id.toNat = 0x0005 then exec .impReselect t = .next (answered t .silent) else sel = s.eng.sel))

/-- The seeds stay those of the configured address under every step of an agent (40_crc.md R126). -/
def Obligations.SeedsFollowTheAddress : Prop :=
  ∀ s t : State, SeedsOk s → NextIsAgentStep s → step s = .next t → SeedsOk t

/-- Who writes what: no instruction writes the parameters or the injected configuration; the configuration is
written by its accessors, by a channel change and by a hard reset; a slot's configuration and its image are
written by a submit to that slot and made unspecified by a reset, and by nothing else, so that no later
transition, write or submit reaches an armed slot (10_state.md R22; 44_tx_scheduler.md R166, R169;
45_impedance.md R197; 47_config.md R236). -/
def Obligations.ArmedSlotsKeepTheirConfiguration : Prop :=
  ∀ (s t : State) (i : Instr), exec i s = .next t →
    t.params = s.params ∧ t.cfg0 = s.cfg0 ∧
    (t.cfg = s.cfg ∨ (∃ a, i = .setNetworkAddress a) ∨ (∃ id v, i = .setConfigParam id v) ∨
      (∃ v, i = .setChannel v) ∨ i = .hardReset) ∧
    ∀ j : SlotId,
      ((t.eng.tx.get j).conf = (s.eng.tx.get j).conf ∧ t.mdm.txbuf.get j = s.mdm.txbuf.get j) ∨
      (∃ req, i = .submit req ∧ req.bufferId.toNat = j.toNat) ∨
      i = .hardReset ∨ i = .softReset ∨ ∃ k, i = .timeoutExpire k

/-! ## Resets, errors, widths -/

/-- HARD_RESET: the injected configuration is loaded, the counters are zero, the state, the outputs and the
seeds are those of that configuration, no slot holds anything, nothing is pending, the modem's flags are
cleared and every result field reads InProcess; the time reference goes on (70_reset_and_hazards.md R275,
R279). -/
def Obligations.HardResetLeaves : Prop :=
  ∀ s : State, s.params.ok → ∃ t : State, exec .hardReset s = .next (answered t .ok) ∧
    t.params = s.params ∧ t.cfg0 = s.cfg0 ∧ t.cfg = s.cfg0 ∧ t.stat = ⟨0, 0, 0, 0, 0, 0, 0, 0⟩ ∧
    t.agenda = s.agenda ∧ t.mdm.time = s.mdm.time ∧
    t.eng.imp = s.cfg0.defaultImpedance ∧
    exec .impReselect t = .next (answered t .silent) ∧
    exec (.updateSnaSeed s.cfg0.sna) t = .next (answered t .silent) ∧
    (∀ i, (t.eng.tx.get i).state = .idle ∧ (t.eng.tx.get i).outValid = false) ∧
    EventsCleared t ∧ ModemCleared t

/-- SOFT_RESET: armed and in-flight slots are abandoned without an outcome, latched outcomes, the
configuration, the counters, the controller and the seeds are kept, everything else is cleared as in a hard
reset (70_reset_and_hazards.md R278, R279; 60_exceptions.md R249). -/
def Obligations.SoftResetLeaves : Prop :=
  ∀ s : State, s.params.ok → ∃ t : State, exec .softReset s = .next (answered t .silent) ∧
    t.params = s.params ∧ t.cfg0 = s.cfg0 ∧ t.cfg = s.cfg ∧ t.stat = s.stat ∧
    t.agenda = s.agenda ∧ t.mdm.time = s.mdm.time ∧
    t.eng.imp = s.eng.imp ∧ t.eng.sel = s.eng.sel ∧ t.eng.seed = s.eng.seed ∧
    (∀ i, (t.eng.tx.get i).state =
        (if (s.eng.tx.get i).state = .armed ∨ (s.eng.tx.get i).state = .inFlight then .idle
          else (s.eng.tx.get i).state) ∧
      (t.eng.tx.get i).outValid = (s.eng.tx.get i).outValid ∧
      (t.eng.tx.get i).outResult = (s.eng.tx.get i).outResult ∧
      (t.eng.tx.get i).outRms = (s.eng.tx.get i).outRms) ∧
    EventsCleared t ∧ ModemCleared t

/-- The values the spec states for the state after reset, for every instance (10_state.md R43;
70_reset_and_hazards.md R275, R282). The fields R43 leaves unspecified are not stated. -/
def Obligations.ResetLeavesTheStatedValues : Prop :=
  ∀ (p : Params) (c : PhyConfig), p.ok →
    (State.resetWith p c).params = p ∧ (State.resetWith p c).cfg0 = c ∧ (State.resetWith p c).cfg = c ∧
    (State.resetWith p c).stat = ⟨0, 0, 0, 0, 0, 0, 0, 0⟩ ∧
    (State.resetWith p c).eng.imp = c.defaultImpedance ∧
    exec .impReselect (State.resetWith p c) = .next (answered (State.resetWith p c) .silent) ∧
    exec (.updateSnaSeed c.sna) (State.resetWith p c) = .next (answered (State.resetWith p c) .silent) ∧
    (∀ i, ((State.resetWith p c).eng.tx.get i).state = .idle ∧
      ((State.resetWith p c).eng.tx.get i).outValid = false) ∧
    EventsCleared (State.resetWith p c) ∧ ModemCleared (State.resetWith p c)

/-- The invariants of the other statements hold after reset, for every instance whose parameters meet their
constraints and whose configuration is legal; the model's own instance is one. -/
def Obligations.InvariantsHoldAtReset : Prop :=
  (∀ (p : Params) (c : PhyConfig), p.ok → c.legal p →
    MemoryOk (State.resetWith p c) ∧ LatchOk (State.resetWith p c) ∧ CompletionOk (State.resetWith p c) ∧
    SeedsOk (State.resetWith p c) ∧ MasksClear (State.resetWith p c) ∧ RequestOk (State.resetWith p c) ∧
    ReceiveOk (State.resetWith p c) ∧ ReceiveOrderOk (State.resetWith p c) ∧ WidthsOk (State.resetWith p c)) ∧
  State.reset = State.resetWith defaultParams vectorConfig ∧ defaultParams.ok ∧
  vectorConfig.legal defaultParams

/-- Every value stays within its width under every step (10_state.md R22, R23, R24, R27, R29, R37, R39;
70_reset_and_hazards.md R277). -/
def Obligations.StepsKeepWidths : Prop :=
  ∀ s t : State, s.params.ok → WidthsOk s → step s = .next t → WidthsOk t

/-- A failed operation changes nothing but the response. The exceptions: a busy submit under Reject is
counted; and a free value is drawn for the error of 93 U6 and for the bytes past the end of a frame image
(60_exceptions.md R245; log 6, log 8). -/
def Obligations.FailedOperationsChangeNothing : Prop :=
  ∀ (s t : State) (i : Instr) (e : OpError), exec i s = .next t → t.resp = .error e →
    t = answered s (.error e) ∨
    (∃ req, i = .submit req ∧ e = .bufferBusy ∧ s.params.busyPolicy = .reject ∧
      t = answered { s with stat := { s.stat with busyTx := s.stat.busyTx + 1 } } (.error e)) ∨
    (t = answered { s with free := s.free + 1 } (.error e) ∧
      ((s.cfg.macCrcEnable = true ∧
          ((∃ sch payload, i = .encodeA sch payload) ∨ ∃ req, i = .submit req ∧ req.frameMode = .typeA)) ∨
        (∃ h body, i = .frameA h body) ∨ (∃ h body, i = .frameB h body) ∨ ∃ o h body, i = .frameBC o h body))

/-! ## No event is lost -/

/-- No event is lost: outside the resets, a flag or a pending bit that is set stays set until the path that
consumes it has delivered what it stands for. A completion is latched, or handed over, with the code and the metrics
the modem reported; a header is cached; a ready or recorded payload leaves as a message or a counted drop of
POLL_RX, an unrecorded one as a counted drop of the error path; a noise capture is delivered whole; the error flag
is acknowledged by a dispatch. A dispatch without an error flag leaves no flag unrecorded (46_dispatcher.md R205,
R206, R207, R214; 10_state.md R34). -/
def Obligations.FlagsStayUntilConsumed : Prop :=
  (∀ (s t : State) (i : Instr), exec i s = .next t → ¬IsReset i →
    (∀ j, Fell s t (fun u => flag u.mdm.txInt j) ∨ Fell s t (fun u => flag u.eng.txPend j) →
      (i = .irqDispatch ∨ i = .txResultTask ∨ i = .txResultRead j ∨ ∃ v, i = .pollTxResult v) ∧
        CompletionDelivered s t j) ∧
    (∀ j, Fell s t (fun u => flag u.mdm.rxIntHdr j) ∨ Fell s t (fun u => flag u.eng.rxPendHdr j) →
      (i = .irqDispatch ∨ i = .rxTask) ∧ HeaderDelivered s t j) ∧
    (∀ j, Fell s t (fun u => flag u.eng.rxPendPay j) ∨ Fell s t (fun u => (u.eng.rx.get j).ready) →
      i = .pollRx ∧ PayloadDelivered s t j) ∧
    (∀ j, Fell s t (fun u => flag u.mdm.rxIntPay j) → (i = .pollRx ∧ PayloadDelivered s t j) ∨
      (i = .irqDispatch ∧ s.mdm.err = true ∧ flag s.eng.rxPendPay j = false ∧
        t.stat.rxDropped = s.stat.rxDropped + BitVec.ofNat 32
          (allSlots.countP fun k => flag s.mdm.rxIntPay k && !flag s.eng.rxPendPay k))) ∧
    (Fell s t (·.mdm.rxIntNoise) ∨ Fell s t (·.eng.rxPendNoise) ∨ Fell s t (·.eng.noiseReady) →
      i = .pollRx ∧ NoiseDelivered s t) ∧
    (Fell s t (·.mdm.err) → i = .irqDispatch)) ∧
  ∀ s t : State, exec .irqDispatch s = .next t → s.mdm.err = false → ¬Unrecorded t
end

