-- ==== Sys2Proof/Laws/State.lean ====
section
/-! SUPPORT. One lemma for each field and each record update, true by `rfl`, so that no later proof unfolds
an update; then what the composed updates write. -/

namespace Sys2Proof.Machine

variable (s : State)

/-! ## withCfg -/

@[simp] theorem withCfg_params (c : PhyConfig) : (s.withCfg c).params = s.params := rfl
@[simp] theorem withCfg_cfg0 (c : PhyConfig) : (s.withCfg c).cfg0 = s.cfg0 := rfl
@[simp] theorem withCfg_cfg (c : PhyConfig) : (s.withCfg c).cfg = c := rfl
@[simp] theorem withCfg_stat (c : PhyConfig) : (s.withCfg c).stat = s.stat := rfl
@[simp] theorem withCfg_eng (c : PhyConfig) : (s.withCfg c).eng = s.eng := rfl
@[simp] theorem withCfg_mdm (c : PhyConfig) : (s.withCfg c).mdm = s.mdm := rfl
@[simp] theorem withCfg_agenda (c : PhyConfig) : (s.withCfg c).agenda = s.agenda := rfl
@[simp] theorem withCfg_resp (c : PhyConfig) : (s.withCfg c).resp = s.resp := rfl
@[simp] theorem withCfg_free (c : PhyConfig) : (s.withCfg c).free = s.free := rfl

/-! ## withStat -/

@[simp] theorem withStat_params (x : Stats) : (s.withStat x).params = s.params := rfl
@[simp] theorem withStat_cfg0 (x : Stats) : (s.withStat x).cfg0 = s.cfg0 := rfl
@[simp] theorem withStat_cfg (x : Stats) : (s.withStat x).cfg = s.cfg := rfl
@[simp] theorem withStat_stat (x : Stats) : (s.withStat x).stat = x := rfl
@[simp] theorem withStat_eng (x : Stats) : (s.withStat x).eng = s.eng := rfl
@[simp] theorem withStat_mdm (x : Stats) : (s.withStat x).mdm = s.mdm := rfl
@[simp] theorem withStat_agenda (x : Stats) : (s.withStat x).agenda = s.agenda := rfl
@[simp] theorem withStat_resp (x : Stats) : (s.withStat x).resp = s.resp := rfl
@[simp] theorem withStat_free (x : Stats) : (s.withStat x).free = s.free := rfl

/-! ## withEng -/

@[simp] theorem withEng_params (e : Eng) : (s.withEng e).params = s.params := rfl
@[simp] theorem withEng_cfg0 (e : Eng) : (s.withEng e).cfg0 = s.cfg0 := rfl
@[simp] theorem withEng_cfg (e : Eng) : (s.withEng e).cfg = s.cfg := rfl
@[simp] theorem withEng_stat (e : Eng) : (s.withEng e).stat = s.stat := rfl
@[simp] theorem withEng_eng (e : Eng) : (s.withEng e).eng = e := rfl
@[simp] theorem withEng_mdm (e : Eng) : (s.withEng e).mdm = s.mdm := rfl
@[simp] theorem withEng_agenda (e : Eng) : (s.withEng e).agenda = s.agenda := rfl
@[simp] theorem withEng_resp (e : Eng) : (s.withEng e).resp = s.resp := rfl
@[simp] theorem withEng_free (e : Eng) : (s.withEng e).free = s.free := rfl

/-! ## withMdm -/

@[simp] theorem withMdm_params (m : Mdm) : (s.withMdm m).params = s.params := rfl
@[simp] theorem withMdm_cfg0 (m : Mdm) : (s.withMdm m).cfg0 = s.cfg0 := rfl
@[simp] theorem withMdm_cfg (m : Mdm) : (s.withMdm m).cfg = s.cfg := rfl
@[simp] theorem withMdm_stat (m : Mdm) : (s.withMdm m).stat = s.stat := rfl
@[simp] theorem withMdm_eng (m : Mdm) : (s.withMdm m).eng = s.eng := rfl
@[simp] theorem withMdm_mdm (m : Mdm) : (s.withMdm m).mdm = m := rfl
@[simp] theorem withMdm_agenda (m : Mdm) : (s.withMdm m).agenda = s.agenda := rfl
@[simp] theorem withMdm_resp (m : Mdm) : (s.withMdm m).resp = s.resp := rfl
@[simp] theorem withMdm_free (m : Mdm) : (s.withMdm m).free = s.free := rfl

/-! ## withAgenda -/

@[simp] theorem withAgenda_params (l : List Item) : (s.withAgenda l).params = s.params := rfl
@[simp] theorem withAgenda_cfg0 (l : List Item) : (s.withAgenda l).cfg0 = s.cfg0 := rfl
@[simp] theorem withAgenda_cfg (l : List Item) : (s.withAgenda l).cfg = s.cfg := rfl
@[simp] theorem withAgenda_stat (l : List Item) : (s.withAgenda l).stat = s.stat := rfl
@[simp] theorem withAgenda_eng (l : List Item) : (s.withAgenda l).eng = s.eng := rfl
@[simp] theorem withAgenda_mdm (l : List Item) : (s.withAgenda l).mdm = s.mdm := rfl
@[simp] theorem withAgenda_agenda (l : List Item) : (s.withAgenda l).agenda = l := rfl
@[simp] theorem withAgenda_resp (l : List Item) : (s.withAgenda l).resp = s.resp := rfl
@[simp] theorem withAgenda_free (l : List Item) : (s.withAgenda l).free = s.free := rfl

/-! ## withResp -/

@[simp] theorem withResp_params (r : Response) : (s.withResp r).params = s.params := rfl
@[simp] theorem withResp_cfg0 (r : Response) : (s.withResp r).cfg0 = s.cfg0 := rfl
@[simp] theorem withResp_cfg (r : Response) : (s.withResp r).cfg = s.cfg := rfl
@[simp] theorem withResp_stat (r : Response) : (s.withResp r).stat = s.stat := rfl
@[simp] theorem withResp_eng (r : Response) : (s.withResp r).eng = s.eng := rfl
@[simp] theorem withResp_mdm (r : Response) : (s.withResp r).mdm = s.mdm := rfl
@[simp] theorem withResp_agenda (r : Response) : (s.withResp r).agenda = s.agenda := rfl
@[simp] theorem withResp_resp (r : Response) : (s.withResp r).resp = r := rfl
@[simp] theorem withResp_free (r : Response) : (s.withResp r).free = s.free := rfl

/-! ## bumpFree -/

@[simp] theorem bumpFree_params : s.bumpFree.params = s.params := rfl
@[simp] theorem bumpFree_cfg0 : s.bumpFree.cfg0 = s.cfg0 := rfl
@[simp] theorem bumpFree_cfg : s.bumpFree.cfg = s.cfg := rfl
@[simp] theorem bumpFree_stat : s.bumpFree.stat = s.stat := rfl
@[simp] theorem bumpFree_eng : s.bumpFree.eng = s.eng := rfl
@[simp] theorem bumpFree_mdm : s.bumpFree.mdm = s.mdm := rfl
@[simp] theorem bumpFree_agenda : s.bumpFree.agenda = s.agenda := rfl
@[simp] theorem bumpFree_resp : s.bumpFree.resp = s.resp := rfl
@[simp] theorem bumpFree_free : s.bumpFree.free = s.free + 1 := rfl

/-! ## setTx -/

@[simp] theorem setTx_params (i : SlotId) (r : TxSlot) : (s.setTx i r).params = s.params := rfl
@[simp] theorem setTx_cfg0 (i : SlotId) (r : TxSlot) : (s.setTx i r).cfg0 = s.cfg0 := rfl
@[simp] theorem setTx_cfg (i : SlotId) (r : TxSlot) : (s.setTx i r).cfg = s.cfg := rfl
@[simp] theorem setTx_stat (i : SlotId) (r : TxSlot) : (s.setTx i r).stat = s.stat := rfl
@[simp] theorem setTx_eng (i : SlotId) (r : TxSlot) : (s.setTx i r).eng = { s.eng with tx := s.eng.tx.set i r } := rfl
@[simp] theorem setTx_mdm (i : SlotId) (r : TxSlot) : (s.setTx i r).mdm = s.mdm := rfl
@[simp] theorem setTx_agenda (i : SlotId) (r : TxSlot) : (s.setTx i r).agenda = s.agenda := rfl
@[simp] theorem setTx_resp (i : SlotId) (r : TxSlot) : (s.setTx i r).resp = s.resp := rfl
@[simp] theorem setTx_free (i : SlotId) (r : TxSlot) : (s.setTx i r).free = s.free := rfl

/-! ## setRx -/

@[simp] theorem setRx_params (i : SlotId) (r : RxSlot) : (s.setRx i r).params = s.params := rfl
@[simp] theorem setRx_cfg0 (i : SlotId) (r : RxSlot) : (s.setRx i r).cfg0 = s.cfg0 := rfl
@[simp] theorem setRx_cfg (i : SlotId) (r : RxSlot) : (s.setRx i r).cfg = s.cfg := rfl
@[simp] theorem setRx_stat (i : SlotId) (r : RxSlot) : (s.setRx i r).stat = s.stat := rfl
@[simp] theorem setRx_eng (i : SlotId) (r : RxSlot) : (s.setRx i r).eng = { s.eng with rx := s.eng.rx.set i r } := rfl
@[simp] theorem setRx_mdm (i : SlotId) (r : RxSlot) : (s.setRx i r).mdm = s.mdm := rfl
@[simp] theorem setRx_agenda (i : SlotId) (r : RxSlot) : (s.setRx i r).agenda = s.agenda := rfl
@[simp] theorem setRx_resp (i : SlotId) (r : RxSlot) : (s.setRx i r).resp = s.resp := rfl
@[simp] theorem setRx_free (i : SlotId) (r : RxSlot) : (s.setRx i r).free = s.free := rfl

/-! ## setRegion -/

@[simp] theorem setRegion_params (sp : Space) (i : SlotId) (r : Region) :
    (s.setRegion sp i r).params = s.params := by cases sp <;> rfl
@[simp] theorem setRegion_cfg0 (sp : Space) (i : SlotId) (r : Region) :
    (s.setRegion sp i r).cfg0 = s.cfg0 := by cases sp <;> rfl
@[simp] theorem setRegion_cfg (sp : Space) (i : SlotId) (r : Region) :
    (s.setRegion sp i r).cfg = s.cfg := by cases sp <;> rfl
@[simp] theorem setRegion_stat (sp : Space) (i : SlotId) (r : Region) :
    (s.setRegion sp i r).stat = s.stat := by cases sp <;> rfl
@[simp] theorem setRegion_agenda (sp : Space) (i : SlotId) (r : Region) :
    (s.setRegion sp i r).agenda = s.agenda := by cases sp <;> rfl
@[simp] theorem setRegion_resp (sp : Space) (i : SlotId) (r : Region) :
    (s.setRegion sp i r).resp = s.resp := by cases sp <;> rfl
@[simp] theorem setRegion_free (sp : Space) (i : SlotId) (r : Region) :
    (s.setRegion sp i r).free = s.free := by cases sp <;> rfl

/-! ## setResultReg -/

@[simp] theorem setResultReg_params (i : SlotId) (v : Nat) :
    (s.setResultReg i v).params = s.params := by cases i <;> rfl
@[simp] theorem setResultReg_cfg0 (i : SlotId) (v : Nat) :
    (s.setResultReg i v).cfg0 = s.cfg0 := by cases i <;> rfl
@[simp] theorem setResultReg_cfg (i : SlotId) (v : Nat) :
    (s.setResultReg i v).cfg = s.cfg := by cases i <;> rfl
@[simp] theorem setResultReg_stat (i : SlotId) (v : Nat) :
    (s.setResultReg i v).stat = s.stat := by cases i <;> rfl
@[simp] theorem setResultReg_eng (i : SlotId) (v : Nat) :
    (s.setResultReg i v).eng = s.eng := by cases i <;> rfl
@[simp] theorem setResultReg_agenda (i : SlotId) (v : Nat) :
    (s.setResultReg i v).agenda = s.agenda := by cases i <;> rfl
@[simp] theorem setResultReg_resp (i : SlotId) (v : Nat) :
    (s.setResultReg i v).resp = s.resp := by cases i <;> rfl
@[simp] theorem setResultReg_free (i : SlotId) (v : Nat) :
    (s.setResultReg i v).free = s.free := by cases i <;> rfl

/-! ## countDrops and answered -/

@[simp] theorem countDrops_params (n : Nat) : (s.countDrops n).params = s.params := rfl
@[simp] theorem countDrops_cfg0 (n : Nat) : (s.countDrops n).cfg0 = s.cfg0 := rfl
@[simp] theorem countDrops_cfg (n : Nat) : (s.countDrops n).cfg = s.cfg := rfl
@[simp] theorem countDrops_eng (n : Nat) : (s.countDrops n).eng = s.eng := rfl
@[simp] theorem countDrops_mdm (n : Nat) : (s.countDrops n).mdm = s.mdm := rfl
@[simp] theorem countDrops_agenda (n : Nat) : (s.countDrops n).agenda = s.agenda := rfl
@[simp] theorem countDrops_resp (n : Nat) : (s.countDrops n).resp = s.resp := rfl
@[simp] theorem countDrops_free (n : Nat) : (s.countDrops n).free = s.free := rfl
@[simp] theorem answered_params (r : Response) : (answered s r).params = s.params := rfl
@[simp] theorem answered_cfg0 (r : Response) : (answered s r).cfg0 = s.cfg0 := rfl
@[simp] theorem answered_cfg (r : Response) : (answered s r).cfg = s.cfg := rfl
@[simp] theorem answered_stat (r : Response) : (answered s r).stat = s.stat := rfl
@[simp] theorem answered_eng (r : Response) : (answered s r).eng = s.eng := rfl
@[simp] theorem answered_mdm (r : Response) : (answered s r).mdm = s.mdm := rfl
@[simp] theorem answered_agenda (r : Response) : (answered s r).agenda = s.agenda := rfl
@[simp] theorem answered_resp (r : Response) : (answered s r).resp = r := rfl
@[simp] theorem answered_free (r : Response) : (answered s r).free = s.free := rfl

/-- The response of an operation is the state with that response. -/
@[simp] theorem withResp_eq_answered (r : Response) : s.withResp r = answered s r := rfl

@[simp] theorem respond_eq (r : Response) : respond r s = .next (answered s r) := rfl

@[simp] theorem raise_eq (e : OpError) : raise e s = .next (answered s (.error e)) := rfl

@[simp] theorem answered_answered (r r' : Response) : answered (answered s r) r' = answered s r' := rfl

@[simp] theorem whenEnabled_true (o : Out) : whenEnabled true o = o := rfl

@[simp] theorem whenEnabled_false (o : Out) : whenEnabled false o = .refused .notEnabled := rfl

/-- An event that took a step was enabled. -/
theorem whenEnabled_next {c : Bool} {o : Out} {t : State} (h : whenEnabled c o = .next t) :
    c = true ∧ o = .next t := by
  cases c
  · cases h
  · exact ⟨rfl, h⟩

/-! ## Masked changes of the modem -/

@[simp] theorem underMaskTx_params (f : Mdm → Mdm) : (underMaskTx f s).params = s.params := rfl
@[simp] theorem underMaskTx_cfg0 (f : Mdm → Mdm) : (underMaskTx f s).cfg0 = s.cfg0 := rfl
@[simp] theorem underMaskTx_cfg (f : Mdm → Mdm) : (underMaskTx f s).cfg = s.cfg := rfl
@[simp] theorem underMaskTx_stat (f : Mdm → Mdm) : (underMaskTx f s).stat = s.stat := rfl
@[simp] theorem underMaskTx_eng (f : Mdm → Mdm) : (underMaskTx f s).eng = s.eng := rfl
@[simp] theorem underMaskTx_agenda (f : Mdm → Mdm) : (underMaskTx f s).agenda = s.agenda := rfl
@[simp] theorem underMaskTx_resp (f : Mdm → Mdm) : (underMaskTx f s).resp = s.resp := rfl
@[simp] theorem underMaskTx_free (f : Mdm → Mdm) : (underMaskTx f s).free = s.free := rfl
@[simp] theorem underMaskTx_mdm (f : Mdm → Mdm) :
    (underMaskTx f s).mdm = { f { s.mdm with maskTx := true } with maskTx := false } := rfl

@[simp] theorem underMaskRx_params (f : Mdm → Mdm) : (underMaskRx f s).params = s.params := rfl
@[simp] theorem underMaskRx_cfg0 (f : Mdm → Mdm) : (underMaskRx f s).cfg0 = s.cfg0 := rfl
@[simp] theorem underMaskRx_cfg (f : Mdm → Mdm) : (underMaskRx f s).cfg = s.cfg := rfl
@[simp] theorem underMaskRx_stat (f : Mdm → Mdm) : (underMaskRx f s).stat = s.stat := rfl
@[simp] theorem underMaskRx_eng (f : Mdm → Mdm) : (underMaskRx f s).eng = s.eng := rfl
@[simp] theorem underMaskRx_agenda (f : Mdm → Mdm) : (underMaskRx f s).agenda = s.agenda := rfl
@[simp] theorem underMaskRx_resp (f : Mdm → Mdm) : (underMaskRx f s).resp = s.resp := rfl
@[simp] theorem underMaskRx_free (f : Mdm → Mdm) : (underMaskRx f s).free = s.free := rfl
@[simp] theorem underMaskRx_mdm (f : Mdm → Mdm) :
    (underMaskRx f s).mdm = { f { s.mdm with maskRx := true } with maskRx := false } := rfl

end Sys2Proof.Machine
end

