-- ==== Sys2Proof/Laws/Crc.lean ====
section
/-! SUPPORT. Laws of the rolling CRC: the register stays inside its width, and a CRC goes on where another
ended. -/

namespace Sys2Proof

theorem crcMask_toNat (w : CrcWidth) : (crcMask w).toNat = 2 ^ w.bits - 1 := by cases w <;> decide

/-- A register inside its width. -/
def InWidth (w : CrcWidth) (r : BitVec 32) : Prop := r &&& crcMask w = r

theorem inWidth_mask (w : CrcWidth) (r : BitVec 32) : InWidth w (r &&& crcMask w) := by
  unfold InWidth; rw [BitVec.and_assoc, BitVec.and_self]

theorem inWidth_iff (w : CrcWidth) (r : BitVec 32) : InWidth w r ↔ r.toNat < 2 ^ w.bits := by
  unfold InWidth
  constructor
  · intro h
    rw [← h, BitVec.toNat_and, crcMask_toNat, Nat.and_two_pow_sub_one_eq_mod]
    exact Nat.mod_lt _ (Nat.two_pow_pos _)
  · intro h
    apply BitVec.eq_of_toNat_eq
    rw [BitVec.toNat_and, crcMask_toNat, Nat.and_two_pow_sub_one_eq_mod, Nat.mod_eq_of_lt h]

theorem inWidth_crcBit (p : Params) (w : CrcWidth) (r : BitVec 32) : InWidth w (crcBit p w r) := by
  unfold crcBit; split <;> exact inWidth_mask _ _

theorem inWidth_crcBits (p : Params) (w : CrcWidth) (n : Nat) (r : BitVec 32) :
    InWidth w (crcBits p w (n + 1) r) := by
  induction n generalizing r with
  | zero => exact inWidth_crcBit p w r
  | succ n ih => exact ih (crcBit p w r)

theorem inWidth_crcByte (p : Params) (w : CrcWidth) (r : BitVec 32) (b : Byte) : InWidth w (crcByte p w r b) :=
  inWidth_crcBits p w 7 _

theorem inWidth_foldl (p : Params) (w : CrcWidth) (d : Bytes) (r : BitVec 32) (h : InWidth w r) :
    InWidth w (d.foldl (crcByte p w) r) := by
  induction d generalizing r with
  | nil => exact h
  | cons b d ih => exact ih _ (inWidth_crcByte p w r b)

/-- The mask on the way out changes nothing. -/
theorem crcRoll_eq (p : Params) (w : CrcWidth) (s : BitVec 32) (d : Bytes) :
    crcRoll p w s d = d.foldl (crcByte p w) (s &&& crcMask w) :=
  inWidth_foldl p w d _ (inWidth_mask w s)

theorem inWidth_crcRoll (p : Params) (w : CrcWidth) (s : BitVec 32) (d : Bytes) :
    InWidth w (crcRoll p w s d) := inWidth_mask _ _

theorem crcRoll_lt (p : Params) (w : CrcWidth) (s : BitVec 32) (d : Bytes) :
    (crcRoll p w s d).toNat < 2 ^ w.bits := (inWidth_iff w _).1 (inWidth_crcRoll p w s d)

/-- A CRC goes on where another ended (40_crc.md R128). -/
theorem crcRoll_append (p : Params) (w : CrcWidth) (s : BitVec 32) (a b : Bytes) :
    crcRoll p w (crcRoll p w s a) b = crcRoll p w s (a ++ b) := by
  have h : crcRoll p w s a &&& crcMask w = crcRoll p w s a := inWidth_crcRoll p w s a
  rw [crcRoll_eq p w (crcRoll p w s a), h, crcRoll_eq, crcRoll_eq, List.foldl_append]

/-- The CRC of no data is the seed. -/
theorem crcRoll_nil (p : Params) (w : CrcWidth) (s : BitVec 32) : crcRoll p w s [] = s &&& crcMask w := by
  rw [crcRoll_eq]; rfl

/-- The cached seed of a width is the zero-seeded CRC of the address. -/
theorem snaSeeds_get (p : Params) (a : Sna) (w : CrcWidth) :
    (snaSeeds p a).get w = crcRoll p w 0 a.toBytes := by
  cases w <;> rfl

theorem ofBits?_bits (w : CrcWidth) : CrcWidth.ofBits? w.bits = some w := by cases w <;> rfl

theorem ofBits?_none {n : Nat} (h : n ∉ [8, 16, 24, 32]) : CrcWidth.ofBits? n = none := by
  simp only [List.mem_cons, List.not_mem_nil, or_false, not_or] at h
  simp [CrcWidth.ofBits?, h.1, h.2.1, h.2.2.1, h.2.2.2]

end Sys2Proof
end

