-- ==== Sys2Proof/Laws/Tables.lean ====
section
/-! SUPPORT. Laws of the tables (read after write) and of the flag bitmaps. -/

namespace Sys2Proof

/-! ## Tables -/

theorem PerSlot.get_set {α : Type} (t : PerSlot α) (i j : SlotId) (v : α) :
    (t.set i v).get j = if j = i then v else t.get j := by
  cases i <;> cases j <;> rfl

@[simp] theorem PerSlot.get_set_self {α : Type} (t : PerSlot α) (i : SlotId) (v : α) :
    (t.set i v).get i = v := by
  cases i <;> rfl

theorem PerSlot.get_set_ne {α : Type} (t : PerSlot α) {i j : SlotId} (v : α) (h : j ≠ i) :
    (t.set i v).get j = t.get j := by
  rw [PerSlot.get_set, if_neg h]

@[simp] theorem PerSlot.get_all {α : Type} (v : α) (i : SlotId) : (PerSlot.all v).get i = v := by
  cases i <;> rfl

@[simp] theorem PerSlot.get_ofFn {α : Type} (f : SlotId → α) (i : SlotId) :
    (PerSlot.ofFn f).get i = f i := by
  cases i <;> rfl

theorem PerSlot.ext_get {α : Type} {t u : PerSlot α} (h : ∀ i, t.get i = u.get i) : t = u := by
  obtain ⟨a, b, c, d⟩ := t
  obtain ⟨a', b', c', d'⟩ := u
  have h0 := h .s0; have h1 := h .s1; have h2 := h .s2; have h3 := h .s3
  simp only [PerSlot.get] at h0 h1 h2 h3
  rw [h0, h1, h2, h3]

theorem PerScheme.get_set {α : Type} (t : PerScheme α) (i j : Scheme) (v : α) :
    (t.set i v).get j = if j = i then v else t.get j := by
  cases i <;> cases j <;> rfl

theorem PerImpedance.get_set {α : Type} (t : PerImpedance α) (i j : ImpedanceState) (v : α) :
    (t.set i v).get j = if j = i then v else t.get j := by
  cases i <;> cases j <;> rfl

theorem PerChannel.get_set {α : Type} (t : PerChannel α) (i j : Channel) (v : α) :
    (t.set i v).get j = if j = i then v else t.get j := by
  cases i <;> cases j <;> rfl

/-- The scan visits every slot (46_dispatcher.md R209). -/
theorem Machine.mem_scanOrder (p : Params) (l i : SlotId) : i ∈ Machine.scanOrder p l := by
  have h : ∀ n : Nat, i ∈ [SlotId.ofNatMod n, SlotId.ofNatMod (n + 1), SlotId.ofNatMod (n + 2),
      SlotId.ofNatMod (n + 3)] := by
    intro n
    have hn : n % 4 = 0 ∨ n % 4 = 1 ∨ n % 4 = 2 ∨ n % 4 = 3 := by omega
    have e : ∀ k, SlotId.ofNatMod (n + k) = SlotId.ofNatMod (n % 4 + k) := by
      intro k; simp [SlotId.ofNatMod]
    have e0 : SlotId.ofNatMod n = SlotId.ofNatMod (n % 4) := by simpa using e 0
    rw [e0, e 1, e 2, e 3]
    rcases hn with h | h | h | h <;> rw [h] <;> cases i <;> decide
  exact h _

/-- A scan visits each slot once (R209). -/
theorem Machine.scanOrder_nodup (p : Params) (l : SlotId) : (Machine.scanOrder p l).Nodup := by
  have h : ∀ n : Nat, [SlotId.ofNatMod n, SlotId.ofNatMod (n + 1), SlotId.ofNatMod (n + 2),
      SlotId.ofNatMod (n + 3)].Nodup := by
    intro n
    have hn : n % 4 = 0 ∨ n % 4 = 1 ∨ n % 4 = 2 ∨ n % 4 = 3 := by omega
    have e : ∀ k, SlotId.ofNatMod (n + k) = SlotId.ofNatMod (n % 4 + k) := by
      intro k; simp [SlotId.ofNatMod]
    have e0 : SlotId.ofNatMod n = SlotId.ofNatMod (n % 4) := by simpa using e 0
    rw [e0, e 1, e 2, e 3]
    rcases hn with h | h | h | h <;> rw [h] <;> decide
  exact h _

namespace Machine

/-! ## Flags -/

@[simp] theorem flag_zero (i : SlotId) : flag 0#4 i = false := by cases i <;> rfl

@[simp] theorem flag_or (a b : SlotBits) (i : SlotId) : flag (a ||| b) i = (flag a i || flag b i) := by
  simp [flag]

@[simp] theorem flag_and (a b : SlotBits) (i : SlotId) : flag (a &&& b) i = (flag a i && flag b i) := by
  simp [flag]

@[simp] theorem flag_xor (a b : SlotBits) (i : SlotId) : flag (a ^^^ b) i = (flag a i ^^ flag b i) := by
  simp [flag]

@[simp] theorem flag_not (a : SlotBits) (i : SlotId) : flag (~~~a) i = !flag a i := by
  cases i <;> simp [flag, SlotId.toNat]

theorem flag_setFlag (b : SlotBits) (i j : SlotId) : flag (setFlag b i) j = (decide (j = i) || flag b j) := by
  cases i <;> cases j <;> simp [flag, setFlag, SlotId.toNat]

theorem flag_clearFlag (b : SlotBits) (i j : SlotId) :
    flag (clearFlag b i) j = (!decide (j = i) && flag b j) := by
  cases i <;> cases j <;> simp [flag, clearFlag, SlotId.toNat]

@[simp] theorem flag_setFlag_self (b : SlotBits) (i : SlotId) : flag (setFlag b i) i = true := by
  simp [flag_setFlag]

@[simp] theorem flag_clearFlag_self (b : SlotBits) (i : SlotId) : flag (clearFlag b i) i = false := by
  simp [flag_clearFlag]

theorem flag_setFlag_ne (b : SlotBits) {i j : SlotId} (h : j ≠ i) : flag (setFlag b i) j = flag b j := by
  simp [flag_setFlag, h]

theorem flag_clearFlag_ne (b : SlotBits) {i j : SlotId} (h : j ≠ i) :
    flag (clearFlag b i) j = flag b j := by
  simp [flag_clearFlag, h]

/-- Two bitmaps with the same flags are equal. -/
theorem bits_ext {a b : SlotBits} (h : ∀ i, flag a i = flag b i) : a = b := by
  have h0 := h .s0; have h1 := h .s1; have h2 := h .s2; have h3 := h .s3
  simp only [flag, SlotId.toNat] at h0 h1 h2 h3
  apply BitVec.eq_of_getLsbD_eq
  intro i hi
  have : i = 0 ∨ i = 1 ∨ i = 2 ∨ i = 3 := by omega
  rcases this with rfl | rfl | rfl | rfl <;> assumption

/-- A bitmap is not zero exactly when some flag is set. -/
theorem bits_ne_zero {a : SlotBits} : a ≠ 0 ↔ ∃ i, flag a i = true := by
  constructor
  · intro h
    by_contra hc
    apply h
    apply bits_ext
    intro i
    cases hf : flag a i
    · simp
    · exact absurd ⟨i, hf⟩ hc
  · rintro ⟨i, hi⟩ rfl
    simp at hi

theorem bits_eq_zero {a : SlotBits} : a = 0 ↔ ∀ i, flag a i = false := by
  constructor
  · rintro rfl i; simp
  · intro h; apply bits_ext; intro i; simp [h i]

end Machine

end Sys2Proof
end

