-- ==== Sys2Proof/Laws/Memory.lean ====
section
/-! SUPPORT. Laws of the buffer memory: read after write, the canonical form kept by every operation on
regions, and what each named operation does, said once. -/

namespace Sys2Proof.Machine

/-! ## Cells -/

theorem read?_append (a b : Memory) (x : Nat) :
    Memory.read? (a ++ b) x = (Memory.read? a x).or (Memory.read? b x) := by
  induction a with
  | nil => simp [Memory.read?]
  | cons c a ih =>
    obtain ⟨k, v⟩ := c
    simp only [List.cons_append, Memory.read?]
    split
    · simp
    · exact ih

theorem read?_filter (m : Memory) (q : Nat → Bool) (x : Nat) :
    Memory.read? (m.filter fun c => q c.1) x = if q x then Memory.read? m x else none := by
  induction m with
  | nil => simp [Memory.read?]
  | cons c m ih =>
    obtain ⟨k, v⟩ := c
    simp only [List.filter_cons]
    by_cases hk : k = x
    · subst hk
      cases hq : q k
      · simp [ih, hq]
      · simp [Memory.read?]
    · cases hq : q k
      · simp [ih, Memory.read?, hk]
      · simp [Memory.read?, hk, ih]

theorem read?_cellsFrom (o : Nat) (bs : Bytes) (x : Nat) :
    Memory.read? (cellsFrom o bs) x = if o ≤ x then bs[x - o]? else none := by
  induction bs generalizing o with
  | nil => simp [cellsFrom, Memory.read?]
  | cons b bs ih =>
    simp only [cellsFrom, Memory.read?, ih]
    by_cases h : o = x
    · subst h; simp
    · by_cases h' : o ≤ x
      · have h1 : o + 1 ≤ x := by omega
        have h2 : x - o = (x - (o + 1)) + 1 := by omega
        rw [if_neg h, if_pos h1, if_pos h', h2]; simp
      · have h1 : ¬ o + 1 ≤ x := by omega
        rw [if_neg h, if_neg h1, if_neg h']

/-- Reading after a write: the byte written, or what stood there. -/
theorem read?_overwrite (m : Memory) (o : Nat) (bs : Bytes) (x : Nat) :
    (m.overwrite o bs).read? x = if o ≤ x ∧ x < o + bs.length then bs[x - o]? else m.read? x := by
  have e1 : Memory.read? (m.filter fun c => decide (c.1 < o)) x = if decide (x < o) then m.read? x else none :=
    read?_filter m (fun k => decide (k < o)) x
  have e2 : Memory.read? (m.filter fun c => decide (o + bs.length ≤ c.1)) x =
      if decide (o + bs.length ≤ x) then m.read? x else none :=
    read?_filter m (fun k => decide (o + bs.length ≤ k)) x
  unfold Memory.overwrite
  rw [read?_append, read?_append, e1, e2, read?_cellsFrom]
  by_cases h1 : x < o
  · have : ¬ o ≤ x := by omega
    have h3 : ¬ o + bs.length ≤ x := by omega
    simp [h1, this, h3]
  · have h2 : o ≤ x := by omega
    by_cases h3 : x < o + bs.length
    · have h4 : ¬ o + bs.length ≤ x := by omega
      simp [h1, h2, h3, h4]
    · have h4 : o + bs.length ≤ x := by omega
      have h5 : bs[x - o]? = none := by simp; omega
      simp [h1, h2, h3, h4, h5]

theorem read?_truncate (m : Memory) (n x : Nat) :
    (m.truncate n).read? x = if x < n then m.read? x else none := by
  have := read?_filter m (fun k => decide (k < n)) x
  simpa [Memory.truncate] using this

theorem mem_cellsFrom {o : Nat} {bs : Bytes} {c : Host.Cell} (h : c ∈ cellsFrom o bs) :
    o ≤ c.1 ∧ c.1 < o + bs.length := by
  induction bs generalizing o with
  | nil => cases h
  | cons b bs ih =>
    simp only [cellsFrom, List.mem_cons] at h
    rcases h with rfl | h
    · simp
    · have := ih h; simp only [List.length_cons]; omega

theorem wf_cellsFrom (o : Nat) (bs : Bytes) : Memory.wf (cellsFrom o bs) := by
  induction bs generalizing o with
  | nil => simp [cellsFrom, Memory.wf]
  | cons b bs ih =>
    have h := ih (o + 1)
    simp only [Memory.wf, cellsFrom, List.map_cons, List.pairwise_cons] at h ⊢
    refine ⟨?_, h⟩
    intro k hk
    obtain ⟨c, hc, rfl⟩ := List.mem_map.1 hk
    have := mem_cellsFrom hc
    omega

theorem wf_filter {m : Memory} (h : m.wf) (q : Host.Cell → Bool) : Memory.wf (m.filter q) :=
  List.Pairwise.sublist (List.Sublist.map _ List.filter_sublist) h

/-- Truncating keeps the canonical form. -/
theorem wf_truncate {m : Memory} (h : m.wf) (n : Nat) : (m.truncate n).wf := wf_filter h _

/-- Overwriting keeps the canonical form. -/
theorem wf_overwrite {m : Memory} (h : m.wf) (o : Nat) (bs : Bytes) : (m.overwrite o bs).wf := by
  unfold Memory.overwrite
  simp only [Memory.wf, List.map_append]
  rw [List.pairwise_append, List.pairwise_append]
  refine ⟨wf_filter h _, ⟨wf_cellsFrom o bs, wf_filter h _, ?_⟩, ?_⟩
  · intro a ha b hb
    obtain ⟨c, hc, rfl⟩ := List.mem_map.1 ha
    obtain ⟨d, hd, rfl⟩ := List.mem_map.1 hb
    have h1 := mem_cellsFrom hc
    have h2 := (List.mem_filter.1 hd).2
    simp only [decide_eq_true_eq] at h2
    omega
  · intro a ha b hb
    obtain ⟨c, hc, rfl⟩ := List.mem_map.1 ha
    have h1 := (List.mem_filter.1 hc).2
    simp only [decide_eq_true_eq] at h1
    rcases List.mem_append.1 hb with hb | hb
    · obtain ⟨d, hd, rfl⟩ := List.mem_map.1 hb
      have h2 := mem_cellsFrom hd
      omega
    · obtain ⟨d, hd, rfl⟩ := List.mem_map.1 hb
      have h2 := (List.mem_filter.1 hd).2
      simp only [decide_eq_true_eq] at h2
      omega

theorem mem_overwrite {m : Memory} {o : Nat} {bs : Bytes} {c : Host.Cell} (h : c ∈ m.overwrite o bs) :
    c ∈ m ∨ c.1 < o + bs.length := by
  unfold Memory.overwrite at h
  simp only [List.mem_append, List.mem_filter] at h
  rcases h with h | h | h
  · exact .inl h.1
  · exact .inr (mem_cellsFrom h).2
  · exact .inl h.1

theorem mem_truncate {m : Memory} {n : Nat} {c : Host.Cell} (h : c ∈ m.truncate n) : c ∈ m :=
  (List.mem_filter.1 h).1

/-! ## Regions -/

@[simp] theorem store_epoch (r : Region) (o : Nat) (bs : Bytes) : (r.store o bs).epoch = r.epoch := rfl

@[simp] theorem store_cells (r : Region) (o : Nat) (bs : Bytes) :
    (r.store o bs).cells = r.cells.overwrite o bs := rfl

@[simp] theorem unknown_cells (n : Nat) : (Region.unknown n).cells = [] := rfl

@[simp] theorem unknown_epoch (n : Nat) : (Region.unknown n).epoch = n := rfl

@[simp] theorem region_txbuf (s : State) (i : SlotId) : s.region .txbuf i = s.mdm.txbuf.get i := rfl

@[simp] theorem region_rxhdr (s : State) (i : SlotId) : s.region .rxhdr i = s.mdm.rxhdr.get i := rfl

@[simp] theorem region_rxbulk (s : State) (i : SlotId) : s.region .rxbulk i = s.mdm.rxbulk.get i := rfl

@[simp] theorem region_hdrcache (s : State) (i : SlotId) :
    s.region .hdrcache i = (s.eng.rx.get i).hdrCache := rfl

@[simp] theorem region_noisebuf (s : State) (i : SlotId) : s.region .noisebuf i = s.mdm.noisebuf := rfl

/-- Reading a region back after replacing one. -/
theorem region_setRegion (s : State) (sp sp' : Space) (i j : SlotId) (r : Region) :
    (s.setRegion sp i r).region sp' j =
      if sp' = sp ∧ (j = i ∨ sp = .noisebuf) then r else s.region sp' j := by
  cases sp <;> cases sp' <;>
    (simp [State.setRegion, State.setRx, PerSlot.get_set]; try (split <;> simp_all))

@[simp] theorem region_setRegion_self (s : State) (sp : Space) (i : SlotId) (r : Region) :
    (s.setRegion sp i r).region sp i = r := by
  rw [region_setRegion]; simp

/-- A byte is determined by its region. -/
theorem byteAt_congr {s t : State} {sp : Space} {i : SlotId} (h : t.region sp i = s.region sp i) (o : Nat) :
    t.byteAt sp i o = s.byteAt sp i o := by
  unfold State.byteAt; rw [h]

/-- Every region of `t` is that of `s` when the modem's buffers and the header caches are. -/
theorem bytesSame_of_regions {s t : State} (h : ∀ sp i, t.region sp i = s.region sp i) : BytesSame s t :=
  fun sp i o => byteAt_congr (h sp i) o

/-- The bytes read after storing a string in a region. -/
theorem byteAt_store (s : State) (sp : Space) (i : SlotId) (o : Nat) (bs : Bytes) (x : Nat) :
    (s.setRegion sp i ((s.region sp i).store o bs)).byteAt sp i x =
      if h : o ≤ x ∧ x < o + bs.length then bs[x - o]'(by omega) else s.byteAt sp i x := by
  unfold State.byteAt
  rw [region_setRegion_self]
  simp only [store_cells, store_epoch, read?_overwrite]
  by_cases h : o ≤ x ∧ x < o + bs.length
  · have hx : x - o < bs.length := by omega
    rw [dif_pos h, if_pos h, List.getElem?_eq_getElem hx]
  · rw [dif_neg h, if_neg h]

/-! ## The named operations -/

/-- What `memWrite` does when it answers: the region is stored into, nothing else is changed. -/
theorem memWrite_ok {s t : State} {sp : Space} {i : SlotId} {o : Nat} {bs : Bytes}
    (h : memWrite s sp i o bs = .ok t) :
    o + bs.length ≤ regionSize s.params sp ∧ t = s.setRegion sp i ((s.region sp i).store o bs) := by
  unfold memWrite at h
  split at h
  · next hb => exact ⟨hb, (Except.ok.inj h).symm⟩
  · cases h

/-- `memWrite` answers when the bytes are inside the region. -/
theorem memWrite_eq {s : State} {sp : Space} {o : Nat} {bs : Bytes}
    (h : o + bs.length ≤ regionSize s.params sp) (i : SlotId) :
    memWrite s sp i o bs = .ok (s.setRegion sp i ((s.region sp i).store o bs)) := by
  unfold memWrite; rw [if_pos h]

/-- `memRead` answers the bytes when they are inside the region. -/
theorem memRead_eq {s : State} {sp : Space} {o n : Nat} (h : o + n ≤ regionSize s.params sp) (i : SlotId) :
    memRead s sp i o n = .ok (s.bytesAt sp i o n) := by
  unfold memRead; rw [if_pos h]

@[simp] theorem length_bytesAt (s : State) (sp : Space) (i : SlotId) (o n : Nat) :
    (s.bytesAt sp i o n).length = n := by
  simp [State.bytesAt]

theorem getElem?_bytesAt (s : State) (sp : Space) (i : SlotId) (o n k : Nat) :
    (s.bytesAt sp i o n)[k]? = if k < n then some (s.byteAt sp i (o + k)) else none := by
  unfold State.bytesAt
  by_cases h : k < n
  · simp [h]
  · simp [h]

/-- The state after `storeImage`: the image stored, the bytes after it drawn anew. -/
def imageStored (s : State) (sp : Space) (i : SlotId) (bs : Bytes) : State :=
  s.bumpFree.setRegion sp i ⟨((s.region sp i).cells.overwrite 0 bs).truncate bs.length, s.free + 1⟩

theorem setRegion_setRegion (s : State) (sp : Space) (i : SlotId) (r r' : Region) :
    (s.setRegion sp i r).setRegion sp i r' = s.setRegion sp i r' := by
  cases sp <;> cases i <;> rfl

theorem bumpFree_setRegion (s : State) (sp : Space) (i : SlotId) (r : Region) :
    (s.setRegion sp i r).bumpFree = s.bumpFree.setRegion sp i r := by
  cases sp <;> rfl

/-- `storeImage` answers when the image fits. -/
theorem storeImage_eq {s : State} {sp : Space} {bs : Bytes} (h : bs.length ≤ regionSize s.params sp)
    (i : SlotId) : storeImage s sp i bs = .ok (imageStored s sp i bs) := by
  unfold storeImage
  rw [memWrite_eq (by omega)]
  simp only [State.forget, bumpFree_setRegion, setRegion_setRegion, region_setRegion_self, imageStored,
    setRegion_free, store_cells]

/-- What `storeImage` does when it answers. -/
theorem storeImage_ok {s t : State} {sp : Space} {i : SlotId} {bs : Bytes}
    (h : storeImage s sp i bs = .ok t) :
    bs.length ≤ regionSize s.params sp ∧ t = imageStored s sp i bs := by
  by_cases hb : bs.length ≤ regionSize s.params sp
  · rw [storeImage_eq hb] at h; exact ⟨hb, (Except.ok.inj h).symm⟩
  · unfold storeImage memWrite at h
    rw [if_neg (by omega)] at h
    cases h

@[simp] theorem imageStored_params (s : State) (sp : Space) (i : SlotId) (bs : Bytes) :
    (imageStored s sp i bs).params = s.params := by simp [imageStored]

theorem region_imageStored (s : State) (sp sp' : Space) (i j : SlotId) (bs : Bytes) :
    (imageStored s sp i bs).region sp' j =
      if sp' = sp ∧ (j = i ∨ sp = .noisebuf) then
        ⟨((s.region sp i).cells.overwrite 0 bs).truncate bs.length, s.free + 1⟩
      else s.region sp' j := by
  unfold imageStored
  rw [region_setRegion]
  rfl

/-- The bytes of a stored image read back. -/
theorem byteAt_imageStored (s : State) (sp : Space) (i : SlotId) (bs : Bytes) (x : Nat) (h : x < bs.length) :
    (imageStored s sp i bs).byteAt sp i x = bs[x] := by
  unfold State.byteAt
  rw [region_imageStored]
  simp [read?_truncate, read?_overwrite, h]

/-- Storing an image changes no byte outside its region. -/
theorem imageStored_other (s : State) (sp : Space) (i : SlotId) (bs : Bytes) :
    OtherBytesSame s (imageStored s sp i bs) sp i := by
  intro sp' j o h
  apply byteAt_congr
  rw [region_imageStored, if_neg h]

/-- `forget` changes no byte outside its region. -/
theorem region_forget (s : State) (sp sp' : Space) (i j : SlotId) (n : Nat) :
    (s.forget sp i n).region sp' j =
      if sp' = sp ∧ (j = i ∨ sp = .noisebuf) then ⟨(s.region sp i).cells.truncate n, s.free + 1⟩
      else s.region sp' j := by
  unfold State.forget
  rw [region_setRegion]
  rfl

/-! ## The canonical form of the whole memory -/

/-- Replacing a region by one in canonical form keeps the memory canonical. -/
theorem memoryOk_setRegion {s : State} (h : MemoryOk s) {sp : Space} {r : Region} (i : SlotId)
    (hr : r.cells.wf ∧ ∀ c ∈ r.cells, c.1 < regionSize s.params sp) : MemoryOk (s.setRegion sp i r) := by
  intro sp' j
  rw [region_setRegion, setRegion_params]
  split
  · next hc => rw [hc.1]; exact hr
  · exact h sp' j

/-- The memory is canonical when its regions are those of a canonical memory. -/
theorem memoryOk_congr {s t : State} (h : MemoryOk s) (hp : t.params = s.params)
    (hr : ∀ sp i, t.region sp i = s.region sp i) : MemoryOk t := by
  intro sp i
  rw [hr, hp]; exact h sp i

theorem memoryOk_imageStored {s : State} (h : MemoryOk s) {sp : Space} {bs : Bytes}
    (hb : bs.length ≤ regionSize s.params sp) (i : SlotId) : MemoryOk (imageStored s sp i bs) := by
  refine memoryOk_setRegion (s := s.bumpFree) h i ⟨wf_truncate (wf_overwrite (h sp i).1 _ _) _, ?_⟩
  intro c hc
  rcases mem_overwrite (mem_truncate hc) with h' | h'
  · exact (h sp i).2 c h'
  · simp only [bumpFree_params]; omega

theorem memoryOk_forget {s : State} (h : MemoryOk s) (sp : Space) (i : SlotId) (n : Nat) :
    MemoryOk (s.forget sp i n) :=
  memoryOk_setRegion (s := s.bumpFree) h i
    ⟨wf_truncate (h sp i).1 n, fun c hc => (h sp i).2 c (mem_truncate hc)⟩

/-- The memory after reset is canonical: nothing is listed. -/
theorem memoryOk_resetWith (p : Params) (c : PhyConfig) : MemoryOk (State.resetWith p c) := by
  intro sp i
  have : ((State.resetWith p c).region sp i).cells = [] := by cases sp <;> cases i <;> rfl
  rw [this]
  exact ⟨List.Pairwise.nil, by simp⟩

end Sys2Proof.Machine
end

