-- ==== Sys2Proof/Laws/Encoding.lean ====
section
/-! SUPPORT. Laws of the decoder and the encoder: each reader reads back what its writer wrote, and the header
layouts are read back field by field. -/

namespace Sys2Proof

/-- `r` reads the value `a` from the bytes `w`, whatever follows them. -/
def Reads {α : Type} (r : Reader α) (w : Bytes) (a : α) : Prop := ∀ rest, r (w ++ rest) = .ok (a, rest)

theorem reads_give {α : Type} (a : α) : Reads (give a) [] a := fun _ => rfl

theorem reads_andThen {α β : Type} {x : Reader α} {k : α → Reader β} {w w' : Bytes} {a : α} {b : β}
    (h : Reads x w a) (h' : Reads (k a) w' b) : Reads (andThen x k) (w ++ w') b := by
  intro rest
  unfold andThen
  rw [List.append_assoc, h]
  exact h' rest

/-- The last reader of a chain. -/
theorem reads_last {α β : Type} {x : Reader α} {k : α → Reader β} {w : Bytes} {a : α} {b : β}
    (h : Reads x w a) (h' : Reads (k a) [] b) : Reads (andThen x k) w b := by
  have := reads_andThen h h'
  rwa [List.append_nil] at this

theorem reads_byte (b : Byte) : Reads readByte [b] b := fun _ => rfl

theorem reads_natGroups : ∀ fuel n, n ≤ fuel → Reads readNat (writeNatGroups fuel n) n := by
  intro fuel
  induction fuel with
  | zero =>
    intro n h rest
    have : n = 0 := by omega
    subst this; rfl
  | succ fuel ih =>
    intro n h rest
    unfold writeNatGroups
    by_cases hn : n < 128
    · rw [if_pos hn]
      have e : (BitVec.ofNat 8 n).toNat = n := by simp; omega
      simp only [List.cons_append, List.nil_append, readNat, e, if_pos hn]
    · rw [if_neg hn]
      have e : (BitVec.ofNat 8 (n % 128 + 128)).toNat = n % 128 + 128 := by simp; omega
      have h2 : ¬ n % 128 + 128 < 128 := by omega
      have := ih (n / 128) (by omega) rest
      simp only [List.cons_append, readNat, e, if_neg h2, this]
      have : n % 128 + 128 - 128 + 128 * (n / 128) = n := by omega
      rw [this]

theorem reads_nat (n : Nat) : Reads readNat (writeNat n) n := reads_natGroups n n (Nat.le_refl n)

theorem reads_bytes (bs : Bytes) : Reads (readBytes bs.length) bs bs := by
  induction bs with
  | nil => intro rest; cases rest <;> rfl
  | cons b bs ih =>
    intro rest
    simp only [List.cons_append, List.length_cons, readBytes, ih rest]

theorem reads_string (bs : Bytes) : Reads readString (writeString bs) bs :=
  reads_andThen (reads_nat bs.length) (reads_bytes bs)

theorem reads_code {α : Type} (what : String) {ofCode : Nat → Option α} {n : Nat} {a : α} (hn : n < 256)
    (h : ofCode n = some a) : Reads (readCode what ofCode) (writeCode n) a := by
  have e : (BitVec.ofNat 8 n).toNat = n := by simp; omega
  refine reads_last (reads_byte _) ?_
  rw [e, h]
  exact reads_give a

theorem reads_slot (s : SlotId) : Reads readSlot (writeSlot s) s :=
  reads_code _ (by cases s <;> decide) (by cases s <;> rfl)

theorem reads_bool (b : Bool) : Reads readBool (writeBool b) b :=
  reads_code _ (by cases b <;> decide) (by cases b <;> rfl)

theorem reads_scheme (s : Scheme) : Reads readScheme (writeScheme s) s :=
  reads_code _ (by cases s <;> decide) (by cases s <;> decide)

theorem reads_mode (m : FrameMode) : Reads (readCode "frame_mode" FrameMode.ofCode?) (writeCode m.code) m :=
  reads_code _ (by cases m <;> decide) (by cases m <;> rfl)

theorem reads_16 (v : BitVec 16) : Reads read16 (write16 v) v := by
  refine reads_andThen (w := [v.extractLsb' 8 8]) (reads_byte _) (reads_last (reads_byte _) ?_)
  have : (v.extractLsb' 8 8 ++ v.extractLsb' 0 8 : BitVec 16) = v := by
    apply BitVec.eq_of_getLsbD_eq
    intro i hi
    simp only [BitVec.getLsbD_append, BitVec.getLsbD_extractLsb']
    by_cases h : i < 8
    · simp [h]
    · have h1 : i - 8 < 8 := by omega
      have h2 : 8 + (i - 8) = i := by omega
      simp [h, h1, h2]
  rw [this]; exact reads_give v

theorem reads_32 (v : BitVec 32) : Reads read32 (write32 v) v := by
  refine reads_andThen (reads_16 _) (reads_last (reads_16 _) ?_)
  have : (v.extractLsb' 16 16 ++ v.extractLsb' 0 16 : BitVec 32) = v := by
    apply BitVec.eq_of_getLsbD_eq
    intro i hi
    simp only [BitVec.getLsbD_append, BitVec.getLsbD_extractLsb']
    by_cases h : i < 16
    · simp [h]
    · have h1 : i - 16 < 16 := by omega
      have h2 : 16 + (i - 16) = i := by omega
      simp [h, h1, h2]
  rw [this]; exact reads_give v

theorem reads_sna (a : Sna) : Reads readSna a.toBytes a := fun _ => rfl

theorem reads_header (h : HeaderBytes) : Reads readHeader h.toBytes h := fun _ => rfl

theorem reads_quality (q : Quality) : Reads readQuality (writeQuality q) q := by
  have e : writeQuality q = [q.rssiAvg] ++ ([q.cinrAvg] ++ (write16 q.evmHeader ++ (write16 q.evmPayload ++
      (write32 q.evmHeaderAcum ++ write32 q.evmPayloadAcum)))) := by
    simp [writeQuality]
  rw [e]
  exact reads_andThen (reads_byte _) (reads_andThen (reads_byte _) (reads_andThen (reads_16 _)
    (reads_andThen (reads_16 _) (reads_andThen (reads_32 _) (reads_last (reads_32 _) (reads_give _))))))

theorem reads_schedule (s : Schedule) : Reads readSchedule (writeSchedule s) s := by
  cases s with
  | immediate => intro rest; rfl
  | relativeDelay d =>
    refine reads_andThen (w := [1]) (reads_byte _) ?_
    exact reads_last (reads_nat d) (reads_give _)
  | absoluteTime t =>
    refine reads_andThen (w := [2]) (reads_byte _) ?_
    exact reads_last (reads_nat t) (reads_give _)

theorem reads_request (r : TxRequest) : Reads readRequest (writeRequest r) r := by
  have e : writeRequest r = [r.bufferId] ++ ([r.attenuationLevel] ++ ([r.schemeCode] ++
      (writeCode r.frameMode.code ++ (writeBool r.disableRx ++ (writeString r.payload ++
        writeSchedule r.schedule))))) := by
    simp [writeRequest]
  rw [e]
  exact reads_andThen (reads_byte _) (reads_andThen (reads_byte _) (reads_andThen (reads_byte _)
    (reads_andThen (reads_mode _) (reads_andThen (reads_bool _) (reads_andThen (reads_string _)
      (reads_last (reads_schedule _) (reads_give _)))))))

/-- An operation whose operands are read back is decoded. -/
theorem decodeOperation_eq {op : Byte} {w : Bytes} {i : Instr} (h : Reads (readOperands op.toNat) w i) :
    decodeOperation (op :: w) = .ok i := by
  have := h []
  rw [List.append_nil] at this
  simp [decodeOperation, this]

/-! ## Header layouts -/

@[simp] theorem ofIndex_index (s : Scheme) : Scheme.ofIndex s.index = s := by cases s <;> decide

/-- Reading the bytes of a Type A header region gives the contents laid out (30_encoding.md R92, R94). -/
theorem asTypeA_layoutA (h : FrameAHeader) (rest : Bytes) :
    ∃ hb, readHeader (layoutA h ++ rest) = .ok (hb, rest) ∧ hb.asTypeA = h ∧ hb.toBytes = layoutA h := by
  refine ⟨_, rfl, ?_, rfl⟩
  obtain ⟨sch, sym, pad, ⟨m0, m1, m2, m3, m4, m5, m6⟩, c, f⟩ := h
  have e1 : (0#5 ++ sch.index : BitVec 8).extractLsb' 0 3 = sch.index := by
    apply BitVec.eq_of_getLsbD_eq; intro i hi
    simp only [BitVec.getLsbD_append, BitVec.getLsbD_extractLsb']; simp [hi]
  have e2 : (0#2 ++ sym.extractLsb' 6 6 : BitVec 8).extractLsb' 0 6 ++
      (sym.extractLsb' 0 6 ++ 0#2 : BitVec 8).extractLsb' 2 6 = sym := by
    apply BitVec.eq_of_getLsbD_eq; intro i hi
    simp only [BitVec.getLsbD_append, BitVec.getLsbD_extractLsb']
    by_cases h : i < 6
    · have : ¬ 2 + i < 2 := by omega
      simp [h, this]
    · have h6 : i - 6 < 6 := by omega
      have : 6 + (i - 6) = i := by omega
      simp [h, h6, this]
  have e3 : (0#2 ++ pad : BitVec 8).extractLsb' 0 6 = pad := by
    apply BitVec.eq_of_getLsbD_eq; intro i hi
    simp only [BitVec.getLsbD_append, BitVec.getLsbD_extractLsb']; simp [hi]
  simp only [HeaderBytes.asTypeA, fieldSchA, fieldSymA, fieldPadA, e1, e2, e3, ofIndex_index]

/-- Reading the bytes of a Type B header region gives the contents laid out (R96, R98). -/
theorem asTypeB_layoutB (h : FrameBHeader) (rest : Bytes) :
    ∃ hb, readHeader (layoutB h ++ rest) = .ok (hb, rest) ∧ hb.asTypeB = h ∧ hb.toBytes = layoutB h := by
  refine ⟨_, rfl, ?_, rfl⟩
  obtain ⟨sch, sym, pad, p0, p1, p2⟩ := h
  have e1 : (sch.index ++ sym.extractLsb' 7 5 : BitVec 8).extractLsb' 5 3 = sch.index := by
    apply BitVec.eq_of_getLsbD_eq; intro i hi
    have : ¬ 5 + i < 5 := by omega
    simp only [BitVec.getLsbD_append, BitVec.getLsbD_extractLsb']; simp [hi]
  have e2 : (sch.index ++ sym.extractLsb' 7 5 : BitVec 8).extractLsb' 0 5 ++
      (sym.extractLsb' 0 7 ++ pad.extractLsb' 8 1 : BitVec 8).extractLsb' 1 7 = sym := by
    apply BitVec.eq_of_getLsbD_eq; intro i hi
    simp only [BitVec.getLsbD_append, BitVec.getLsbD_extractLsb']
    by_cases h : i < 7
    · have : ¬ 1 + i < 1 := by omega
      simp [h, this]
    · have h6 : i - 7 < 5 := by omega
      have : 7 + (i - 7) = i := by omega
      simp [h, h6, this]
  have e3 : (sym.extractLsb' 0 7 ++ pad.extractLsb' 8 1 : BitVec 8).extractLsb' 0 1 ++
      (pad.extractLsb' 0 8 : BitVec 8) = pad := by
    apply BitVec.eq_of_getLsbD_eq; intro i hi
    simp only [BitVec.getLsbD_append, BitVec.getLsbD_extractLsb']
    by_cases h : i < 8
    · simp [h]
    · have : i = 8 := by omega
      subst this; simp
  simp only [HeaderBytes.asTypeB, fieldSchB, fieldSymB, fieldPadB, e1, e2, e3, ofIndex_index]

@[simp] theorem length_layoutA (h : FrameAHeader) : (layoutA h).length = 16 := rfl

@[simp] theorem length_layoutB (h : FrameBHeader) : (layoutB h).length = 16 := rfl

end Sys2Proof
end

