-- ==== Sys2Proof/Laws/Codec.lean ====
section
/-! SUPPORT. Laws of the frame codec: the symbol arithmetic, what each encoder and decoder can answer, and the
length a decoder recovers from the fields an encoder writes. -/

namespace Sys2Proof.Machine

/-! ## Symbol arithmetic -/

/-- Symbols times bytes per symbol is the length plus the pad (41_codec_arith.md R137). -/
theorem rawSymbols_mul (p : Params) (sch : Scheme) (n : Nat) (h : 0 < p.bps.get sch) :
    rawSymbols p sch n * p.bps.get sch = n + padLen p sch n ∧ padLen p sch n < p.bps.get sch := by
  unfold rawSymbols padLen ceilDiv
  generalize p.bps.get sch = b at h ⊢
  have hm := Nat.mod_lt n h
  have hd := Nat.div_add_mod n b
  by_cases h0 : n % b = 0
  · have e1 : (n + b - 1) / b = n / b := by
      have : n + b - 1 = b * (n / b) + (b - 1) := by omega
      rw [this, Nat.mul_add_div h, Nat.div_eq_of_lt (show b - 1 < b by omega)]; rfl
    simp only [h0, Nat.sub_zero, if_true, Nat.add_zero, e1]
    refine ⟨?_, h⟩
    rw [Nat.mul_comm]; omega
  · have e1 : (n + b - 1) / b = n / b + 1 := by
      have : n + b - 1 = b * (n / b + 1) + (n % b - 1) := by rw [Nat.mul_add]; omega
      rw [this, Nat.mul_add_div h, Nat.div_eq_of_lt (show n % b - 1 < b by omega)]
    have hne : ¬ b - n % b = b := by omega
    simp only [hne, if_false, e1]
    refine ⟨?_, by omega⟩
    rw [Nat.add_mul, Nat.mul_comm]; omega

/-- The transmitted count of a robust scheme is four times the raw count (R133). -/
theorem txSymbols_div (p : Params) (sch : Scheme) (n : Nat) :
    (if p.robust.get sch then txSymbols p sch n / 4 else txSymbols p sch n) = rawSymbols p sch n := by
  unfold txSymbols
  by_cases h : p.robust.get sch = true
  · simp only [h, if_true, Nat.shiftLeft_eq]; omega
  · simp only [h, Bool.false_eq_true, if_false]

/-- The decode length recovers the encoded length (R138; 43_codec_decode.md R150). -/
theorem decLen_symcalc (p : Params) (sch : Scheme) (n c : Nat) (h : 0 < p.bps.get sch) :
    decLen p sch (txSymbols p sch (totalLen p sch n c)) (padLen p sch (totalLen p sch n c)) c = n := by
  unfold decLen
  rw [txSymbols_div, (rawSymbols_mul p sch _ h).1]
  unfold totalLen
  push_cast
  ring

/-! ## Field values -/

theorem toNat_sym {sym : Nat} (h : sym ≤ 4095) : (BitVec.ofNat 12 sym).toNat = sym := by
  simp; omega

theorem toNat_padA {pad : Nat} (h : pad ≤ 63) : (BitVec.ofNat 6 pad).toNat = pad := by
  simp; omega

theorem toNat_padB {pad : Nat} (h : pad ≤ 511) : (BitVec.ofNat 9 pad).toNat = pad := by
  simp; omega

theorem fieldOkA_iff {sym pad : Nat} : fieldOkA sym pad = true ↔ sym ≤ 4095 ∧ pad ≤ 63 := by
  simp [fieldOkA]

theorem fieldOkB_iff {sym pad : Nat} : fieldOkB sym pad = true ↔ sym ≤ 4095 ∧ pad ≤ 511 := by
  simp [fieldOkB]

theorem lenOkTx_iff {p : Params} {n : Nat} : lenOkTx p n = true ↔ 9 ≤ n ∧ n + p.txReserve ≤ p.maxPpduSize := by
  simp [lenOkTx]

theorem lenOkRx_iff {p : Params} {n : Int} : lenOkRx p n = true ↔ 2 ≤ n ∧ n ≤ (p.maxPpduSize : Int) := by
  simp [lenOkRx]

/-! ## Headers read back from bytes -/

/-- A header region is determined by its 16 bytes. -/
theorem headerOf_toBytes (h : HeaderBytes) : headerOf h.toBytes = h := rfl

/-- Reading bytes as a header looks at the first 16 only. -/
theorem headerOf_congr {a b : Bytes} (h : ∀ k, k < 16 → a.getD k 0 = b.getD k 0) : headerOf a = headerOf b := by
  unfold headerOf
  rw [h 0 (by omega), h 1 (by omega), h 2 (by omega), h 3 (by omega), h 4 (by omega), h 5 (by omega),
    h 6 (by omega), h 7 (by omega), h 8 (by omega), h 9 (by omega), h 10 (by omega), h 11 (by omega),
    h 12 (by omega), h 13 (by omega), h 14 (by omega), h 15 (by omega)]

theorem asTypeA_headerOf (h : FrameAHeader) (rest : Bytes) : (headerOf (layoutA h ++ rest)).asTypeA = h := by
  obtain ⟨hb, _, h2, h3⟩ := asTypeA_layoutA h []
  have : headerOf (layoutA h ++ rest) = hb := by
    rw [← headerOf_toBytes hb, h3]
    apply headerOf_congr
    intro k hk
    simp only [List.getD_eq_getElem?_getD]
    rw [List.getElem?_append_left (by simpa using hk)]
  rw [this, h2]

theorem asTypeB_headerOf (h : FrameBHeader) (rest : Bytes) : (headerOf (layoutB h ++ rest)).asTypeB = h := by
  obtain ⟨hb, _, h2, h3⟩ := asTypeB_layoutB h []
  have : headerOf (layoutB h ++ rest) = hb := by
    rw [← headerOf_toBytes hb, h3]
    apply headerOf_congr
    intro k hk
    simp only [List.getD_eq_getElem?_getD]
    rw [List.getElem?_append_left (by simpa using hk)]
  rw [this, h2]

/-! ## Headers and lengths as numbers -/

theorem shiftLeft_or (a b k : Nat) (hb : b < 2 ^ k) : (a <<< k ||| b) = a * 2 ^ k + b := by
  rw [← Nat.shiftLeft_add_eq_or_of_lt hb, Nat.shiftLeft_eq]

/-- The field bytes of a Type A header are one big-endian word (30_encoding.md R92). -/
theorem beNat_layoutA (h : FrameAHeader) :
    beNat ((layoutA h).take 4) = h.sch.index.toNat * 2 ^ 24 + h.sym.toNat * 2 ^ 10 + h.pad.toNat := by
  have h1 := h.sym.isLt
  have h2 := h.pad.isLt
  have h3 := h.sch.index.isLt
  simp only [layoutA, List.take, beNat, List.foldl_cons, List.foldl_nil, BitVec.toNat_append,
    BitVec.extractLsb'_toNat, Nat.shiftRight_eq_div_pow, BitVec.toNat_ofNat]
  rw [shiftLeft_or _ _ _ (by omega), shiftLeft_or _ _ _ (by omega), shiftLeft_or _ _ _ (by omega),
    shiftLeft_or _ _ _ (by omega)]
  omega

/-- The field bytes of a Type B header are one big-endian word (R96). -/
theorem beNat_layoutB (h : FrameBHeader) :
    beNat ((layoutB h).take 3) = h.sch.index.toNat * 2 ^ 21 + h.sym.toNat * 2 ^ 9 + h.pad.toNat := by
  have h1 := h.sym.isLt
  have h2 := h.pad.isLt
  have h3 := h.sch.index.isLt
  simp only [layoutB, List.take, beNat, List.foldl_cons, List.foldl_nil, BitVec.toNat_append,
    BitVec.extractLsb'_toNat, Nat.shiftRight_eq_div_pow]
  rw [shiftLeft_or _ _ _ (by omega), shiftLeft_or _ _ _ (by omega)]
  omega

theorem macByteList_macBytesOf {payload : Bytes} (h : 7 ≤ payload.length) :
    macByteList (macBytesOf payload) = payload.take 7 := by
  match payload, h with
  | _ :: _ :: _ :: _ :: _ :: _ :: _ :: _, _ => rfl

theorem crcLenOf_eq (ht : HeaderType) : crcLenOf ht = if ht = .promotion then 1 else 4 := by
  cases ht <;> rfl

/-- The decode length of a Type A header, as 43_codec_decode.md R150 writes it. -/
theorem decLen_typeA (p : Params) (macCrc : Bool) (h : FrameAHeader) (ht : HeaderType)
    (hr : p.robust.get h.sch = false) :
    decLen p h.sch h.sym.toNat h.pad.toNat (trailerLen macCrc ht) =
      (h.sym.toNat * p.bps.get h.sch : Nat) - (h.pad.toNat : Int) - (if p.conv.get h.sch then 1 else 0) -
        (if macCrc then (if ht = .promotion then 1 else 4) else 0) := by
  unfold decLen trailerLen flushLen
  rw [crcLenOf_eq]
  simp only [hr, Bool.false_eq_true, if_false]
  split <;> split <;> (try split) <;> simp

/-- The decode length of a Type B header, as R150 writes it. -/
theorem decLen_typeB (p : Params) (h : FrameBHeader) :
    decLen p h.sch h.sym.toNat h.pad.toNat 0 =
      ((if p.robust.get h.sch then h.sym.toNat / 4 else h.sym.toNat) * p.bps.get h.sch : Nat) -
        (h.pad.toNat : Int) - (if p.conv.get h.sch then 1 else 0) := by
  unfold decLen flushLen
  split <;> split <;> simp

/-- The embedded MAC bytes of a cached header are its bytes 4 to 10 (R152). -/
theorem mac_cachedHeader (s : State) (i : SlotId) :
    macByteList (cachedHeader s i).asTypeA.mac = s.bytesAt .hdrcache i 4 7 := by
  simp [cachedHeader, headerOf, HeaderBytes.asTypeA, macByteList, State.bytesAt, List.range, List.range.loop]

/-! ## CRC trailers -/

theorem length_crcBytes (w : CrcWidth) (c : BitVec 32) : (crcBytes w c).length = w.bits / 8 := by
  cases w <;> simp [crcBytes, CrcWidth.bits]

theorem toNat_byte_of (c : BitVec 32) (k : Nat) : (c.extractLsb' k 8).toNat = c.toNat / 2 ^ k % 256 := by
  rw [BitVec.extractLsb'_toNat, Nat.shiftRight_eq_div_pow]

/-- The trailer holds the CRC most significant byte first (42_codec_encode.md R142). -/
theorem beNat_crcBytes (w : CrcWidth) (c : BitVec 32) (h : c.toNat < 2 ^ w.bits) :
    beNat (crcBytes w c) = c.toNat := by
  cases w <;> simp only [crcBytes, beNat, List.foldl_cons, List.foldl_nil, toNat_byte_of, CrcWidth.bits] at h ⊢ <;>
    omega

@[simp] theorem length_macCrcTrailer (p : Params) (seed : PerWidth) (h : HeaderType) (d : Bytes) :
    (macCrcTrailer p seed h d).length = crcLenOf h := length_crcBytes _ _

/-! ## What the encoders answer -/

/-- The trailer of a Type A frame: nothing, or the MAC-CRC of the payload's header type (30_encoding.md
R93; 42_codec_encode.md R142). -/
def typeATrailer (p : Params) (macCrc : Bool) (seed : PerWidth) (payload : Bytes) : Option Bytes :=
  if macCrc then
    match headerTypeOf (payload.getD 0 0) with
    | none => none
    | some h => some (macCrcTrailer p seed h payload)
  else some []

theorem encodeTypeA_eq (p : Params) (macCrc : Bool) (seed : PerWidth) (sch : Scheme) (payload : Bytes) :
    encodeTypeA p macCrc seed sch payload =
      if lenOkTx p payload.length = false then .raised .invalidLength
      else if p.robust.get sch = true then .raised .invalidScheme
      else match typeATrailer p macCrc seed payload with
        | none => .unnamed
        | some tr => imageA p sch payload tr := by
  unfold encodeTypeA typeATrailer
  cases lenOkTx p payload.length <;> cases p.robust.get sch <;> cases macCrc <;> try rfl
  simp only [Bool.not_true, Bool.false_eq_true, if_false, if_true, reduceCtorEq]
  cases headerTypeOf (payload.getD 0 0) <;> rfl

/-- When ENCODE_A answers an image, and which (R141). -/
theorem encodeTypeA_image {p : Params} {macCrc : Bool} {seed : PerWidth} {sch : Scheme} {payload img : Bytes}
    {sym : Nat} (h : encodeTypeA p macCrc seed sch payload = .image img sym) :
    lenOkTx p payload.length = true ∧ p.robust.get sch = false ∧
      ∃ tr, typeATrailer p macCrc seed payload = some tr ∧
        sym = txSymbols p sch (totalLen p sch payload.length tr.length) ∧ sym ≤ 4095 ∧
        padLen p sch (totalLen p sch payload.length tr.length) ≤ 63 ∧
        img = headerA p sch sym (padLen p sch (totalLen p sch payload.length tr.length)) (macBytesOf payload) ++
          (payload.drop 7 ++ tr) := by
  rw [encodeTypeA_eq] at h
  split at h
  · cases h
  · next hl =>
    split at h
    · cases h
    · next hr =>
      split at h
      · cases h
      · next tr htr =>
        unfold imageA at h
        simp only at h
        split at h
        · next hf =>
          cases h
          have := fieldOkA_iff.1 hf
          exact ⟨by simpa using hl, by simpa using hr, tr, htr, rfl, this.1, this.2, rfl⟩
        · cases h

/-- When ENCODE_B answers an image, and which (R143). -/
theorem encodeTypeB_image {p : Params} {sch : Scheme} {payload img : Bytes} {sym : Nat}
    (h : encodeTypeB p sch payload = .image img sym) :
    lenOkTx p payload.length = true ∧ sym = txSymbols p sch (totalLen p sch payload.length 0) ∧ sym ≤ 4095 ∧
      padLen p sch (totalLen p sch payload.length 0) ≤ 511 ∧
      img = headerB p sch sym (padLen p sch (totalLen p sch payload.length 0)) ++ payload := by
  unfold encodeTypeB at h
  simp only at h
  split at h
  · cases h
  · next hl =>
    split at h
    · next hf =>
      cases h
      have := fieldOkB_iff.1 hf
      exact ⟨by simpa using hl, rfl, this.1, this.2, rfl⟩
    · cases h

/-- When ENCODE_BC answers an image, and which (R145). -/
theorem encodeTypeBC_image {p : Params} {sch : Scheme} {payload img : Bytes} {sym : Nat}
    (h : encodeTypeBC p sch payload = .image img sym) :
    lenOkTx p payload.length = true ∧
      txSymbols p sch (totalLen p sch payload.length 0) ≤ 4095 ∧
      padLen p sch (totalLen p sch payload.length 0) ≤ 511 ∧
      sym = txSymbols p sch (6 + totalLen p sch payload.length 0) ∧ sym ≤ 4095 ∧
      padLen p sch (6 + totalLen p sch payload.length 0) ≤ 63 ∧
      img = headerA p sch sym (padLen p sch (6 + totalLen p sch payload.length 0)) ⟨0, 0, 0, 0, 0, 0, 0⟩ ++
        (headerB p sch (txSymbols p sch (totalLen p sch payload.length 0))
          (padLen p sch (totalLen p sch payload.length 0)) ++ payload) := by
  unfold encodeTypeBC at h
  simp only at h
  split at h
  · cases h
  · next hl =>
    split at h
    · cases h
    · next hb =>
      split at h
      · next hf =>
        cases h
        have h1 := fieldOkB_iff.1 (by simpa using hb)
        have h2 := fieldOkA_iff.1 hf
        exact ⟨by simpa using hl, h1.1, h1.2, rfl, h2.1, h2.2, rfl⟩
      · cases h

@[simp] theorem length_headerA (p : Params) (sch : Scheme) (sym pad : Nat) (m : MacBytes) :
    (headerA p sch sym pad m).length = 16 := rfl

@[simp] theorem length_headerB (p : Params) (sch : Scheme) (sym pad : Nat) :
    (headerB p sch sym pad).length = 16 := rfl

theorem length_typeATrailer {p : Params} {macCrc : Bool} {seed : PerWidth} {payload tr : Bytes}
    (h : typeATrailer p macCrc seed payload = some tr) : tr.length ≤ 4 := by
  unfold typeATrailer at h
  split at h
  · split at h
    · cases h
    · next ht _ =>
      cases h
      rw [length_macCrcTrailer]
      cases ht <;> decide
  · cases h; simp

/-- Every image fits its region (20_memory.md R70). -/
theorem encodeFrame_length {s : State} (hp : s.params.ok) {mode : FrameMode} {sch : Scheme}
    {payload img : Bytes} {sym : Nat} (h : encodeFrame s mode sch payload = .image img sym) :
    img.length ≤ s.params.txbufSize := by
  have hb := hp.txbufBound
  cases mode with
  | typeA =>
    obtain ⟨hl, _, tr, ht, _, _, _, rfl⟩ := encodeTypeA_image h
    have := length_typeATrailer ht
    have := lenOkTx_iff.1 hl
    simp only [List.length_append, length_headerA, List.length_drop]
    omega
  | typeB =>
    obtain ⟨hl, _, _, _, rfl⟩ := encodeTypeB_image h
    have := lenOkTx_iff.1 hl
    simp only [List.length_append, length_headerB]
    omega
  | typeBC =>
    obtain ⟨hl, _, _, _, _, _, rfl⟩ := encodeTypeBC_image h
    have := lenOkTx_iff.1 hl
    simp only [List.length_append, length_headerA, length_headerB]
    omega

/-! ## What the decoders answer -/

/-- DECODE_A on fields that pass its checks (43_codec_decode.md R151). -/
theorem decodeTypeA_message {p : Params} {macCrc : Bool} {hdr : FrameAHeader} {ht : HeaderType} {n : Nat}
    {bulk : Nat → Nat → Except Fault Bytes} {body : Bytes}
    (hr : p.robust.get hdr.sch = false) (hh : headerTypeOf hdr.mac.m0 = some ht)
    (hd : decLen p hdr.sch hdr.sym.toNat hdr.pad.toNat (trailerLen macCrc ht) = n)
    (h2 : 2 ≤ n) (hm : n ≤ p.maxPpduSize) (hb : bulk 0 (n - 7) = .ok body) :
    decodeTypeA p macCrc hdr bulk = .message ⟨hdr.sch, some ht, (macByteList hdr.mac ++ body).take n⟩ := by
  have hl : lenOkRx p (n : Int) = true := lenOkRx_iff.2 ⟨by omega, by omega⟩
  simp [decodeTypeA, hr, hh, hd, hl, hb]

/-- DECODE_B on fields that pass its check (R153). -/
theorem decodeTypeB_message {p : Params} {hdr : FrameBHeader} {n o : Nat}
    {bulk : Nat → Nat → Except Fault Bytes} {payload : Bytes}
    (hd : decLen p hdr.sch hdr.sym.toNat hdr.pad.toNat 0 = n)
    (h2 : 2 ≤ n) (hm : n ≤ p.maxPpduSize) (hb : bulk o n = .ok payload) :
    decodeTypeB p hdr o bulk = .message ⟨hdr.sch, none, payload⟩ := by
  have hl : lenOkRx p (n : Int) = true := lenOkRx_iff.2 ⟨by omega, by omega⟩
  simp [decodeTypeB, hd, hl, hb]

/-- A decoder reads the bulk only within the bound on lengths; so with a bulk that answers there, no decoder
stops (48_control_and_access.md R240). -/
theorem decodeTypeA_ne_stopped {p : Params} {macCrc : Bool} {hdr : FrameAHeader}
    {bulk : Nat → Nat → Except Fault Bytes} {f : Fault}
    (hb : ∀ n, n ≤ p.maxPpduSize → ∃ b, bulk 0 n = .ok b) : decodeTypeA p macCrc hdr bulk ≠ .stopped f := by
  intro h
  unfold decodeTypeA at h
  split at h
  · cases h
  · split at h
    · cases h
    · simp only at h
      split at h
      · cases h
      · next hl =>
        have hl := lenOkRx_iff.1 (by simpa using hl)
        split at h
        · next g hg =>
          generalize decLen p hdr.sch _ _ _ = dl at hl hg
          obtain ⟨b, hbb⟩ := hb (dl.toNat - 7) (by omega)
          rw [hbb] at hg; cases hg
        · cases h

theorem decodeTypeB_ne_stopped {p : Params} {hdr : FrameBHeader} {o : Nat}
    {bulk : Nat → Nat → Except Fault Bytes} {f : Fault}
    (hb : ∀ n, n ≤ p.maxPpduSize → ∃ b, bulk o n = .ok b) : decodeTypeB p hdr o bulk ≠ .stopped f := by
  intro h
  unfold decodeTypeB at h
  simp only at h
  split at h
  · cases h
  · next hl =>
    have hl := lenOkRx_iff.1 (by simpa using hl)
    split at h
    · next g hg =>
      generalize decLen p hdr.sch _ _ _ = dl at hl hg
      obtain ⟨b, hbb⟩ := hb dl.toNat (by omega)
      rw [hbb] at hg; cases hg
    · cases h

/-- With regions of the sizes of 20_memory.md R70 no decoder stops. -/
theorem decodeSlot_ne_stopped {s : State} (hp : s.params.ok) (mode : FrameMode) (i : SlotId) (f : Fault) :
    decodeSlot s mode i ≠ .stopped f := by
  have hb := hp.rxbulkBound
  have hr : ∀ o n, o ≤ 16 → n ≤ s.params.maxPpduSize → ∃ b, memRead s .rxbulk i o n = .ok b := fun o n ho hn =>
    ⟨_, memRead_eq (by simp only [regionSize]; omega) i⟩
  cases mode with
  | typeA => exact decodeTypeA_ne_stopped fun n hn => hr 0 n (by omega) hn
  | typeB => exact decodeTypeB_ne_stopped fun n hn => hr 0 n (by omega) hn
  | typeBC =>
    simp only [decodeSlot, decodeSlotBC]
    rw [memRead_eq (by simp only [regionSize]; omega)]
    exact decodeTypeB_ne_stopped fun n hn => hr 16 n (by omega) hn

end Sys2Proof.Machine
end

