-- ==== Sys2Proof/Laws/Config.lean ====
section
/-! SUPPORT. The parameter map: each parameter's identifier, which identifiers are known, and which values are
legal (47_config.md R232). -/

namespace Sys2Proof.Machine

/-- The index of a load inside a profile group. -/
def LoadKey.index : LoadKey → Nat
  | .high => 0
  | .low => 1
  | .veryLow => 2

def ThresholdKey.index : ThresholdKey → Nat
  | .t1 => 6
  | .t2 => 7
  | .t3 => 8
  | .t4 => 9

def StatKey.index (k : StatKey) : Nat := statGroup.idxOf (.stat k)

/-- The identifier of a parameter (R232). -/
def ParamKey.ident : ParamKey → Nat
  | .gain s => 0x0100 + s.index.toNat
  | .driverFor i => 0x0200 + i.code
  | .attChirp c k => 0x1000 + 0x100 * c.number + k.index
  | .attSignal c k => 0x1000 + 0x100 * c.number + 3 + k.index
  | .threshold c k => 0x1000 + 0x100 * c.number + k.index
  | .stat k => 0x2000 + k.index
  | general => generalGroup.idxOf general

theorem paramOfId_eq (id : BitVec 16) : paramOfId id = paramAt (id.toNat / 256) (id.toNat % 256) := by
  unfold paramOfId
  have h1 : (id.extractLsb' 8 8).toNat = id.toNat / 256 := by
    rw [BitVec.extractLsb'_toNat, Nat.shiftRight_eq_div_pow]
    have := id.isLt
    omega
  have h2 : (id.extractLsb' 0 8).toNat = id.toNat % 256 := by
    rw [BitVec.extractLsb'_toNat]
    simp
  rw [h1, h2]

theorem paramAt_ident (k : ParamKey) : paramAt (k.ident / 256) (k.ident % 256) = some k := by
  cases k with
  | gain s => cases s <;> rfl
  | driverFor i => cases i <;> rfl
  | attChirp c k => cases c <;> cases k <;> rfl
  | attSignal c k => cases c <;> cases k <;> rfl
  | threshold c k => cases c <;> cases k <;> rfl
  | stat k => cases k <;> rfl
  | _ => rfl

/-- What a group of the map holds at `n` has identifier `base + n`, if this is so of its every entry. -/
theorem group_ident {l : List ParamKey} {base n : Nat} {k : ParamKey} (h : l[n]? = some k)
    (hl : ∀ i : Fin l.length, l[i].ident = base + i) : k.ident = base + n := by
  obtain ⟨hn, rfl⟩ := List.getElem?_eq_some_iff.1 h
  exact hl ⟨n, hn⟩

theorem generalGroup_ident {n : Nat} {k : ParamKey} (h : generalGroup[n]? = some k) : k.ident = n := by
  simpa using group_ident (base := 0) h (by decide)

theorem statGroup_ident {n : Nat} {k : ParamKey} (h : statGroup[n]? = some k) : k.ident = 0x2000 + n :=
  group_ident h (by decide)

theorem profileGroup_ident {n : Nat} {c : Channel} {k : ParamKey} (h : (profileGroup c)[n]? = some k) :
    k.ident = 0x1000 + 0x100 * c.number + n :=
  group_ident h (by cases c <;> decide)

theorem scheme_ofCode? {n : Nat} {s : Scheme} (h : Scheme.ofCode? n = some s) : s.index.toNat = n := by
  unfold Scheme.ofCode? at h
  split at h
  · next hn =>
    cases h
    exact (by decide : ∀ i : Fin 8, (Scheme.ofIndex (BitVec.ofNat 3 i)).index.toNat = i) ⟨n, hn⟩
  · cases h

theorem impedance_ofCode? {n : Nat} {i : ImpedanceState} (h : ImpedanceState.ofCode? n = some i) :
    i.code = n := by
  match n, h with
  | 0, h => cases h; rfl
  | 1, h => cases h; rfl
  | 2, h => cases h; rfl
  | 3, h => cases h; rfl

theorem channel_ofNumber? {n : Nat} {c : Channel} (h : Channel.ofNumber? n = some c) : c.number = n := by
  unfold Channel.ofNumber? at h
  split at h
  · cases h
  · next hn =>
    obtain ⟨hk, rfl⟩ := List.getElem?_eq_some_iff.1 h
    have := (by decide : ∀ i : Fin Channel.inOrder.length, (Channel.inOrder.get i).number = i + 1) ⟨n - 1, hk⟩
    exact this.trans (by change n - 1 + 1 = n; omega)

theorem ident_of_paramAt {g n : Nat} {k : ParamKey} (h : paramAt g n = some k) : k.ident = 256 * g + n := by
  unfold paramAt at h
  split at h
  · next hg => subst hg; rw [generalGroup_ident h]; omega
  · split at h
    · next hg =>
      obtain ⟨s, hs, rfl⟩ := Option.map_eq_some_iff.1 h
      subst hg
      rw [← scheme_ofCode? hs]
      rfl
    · split at h
      · next hg =>
        obtain ⟨i, hi, rfl⟩ := Option.map_eq_some_iff.1 h
        subst hg
        rw [← impedance_ofCode? hi]
        rfl
      · split at h
        · next hg => subst hg; rw [statGroup_ident h]
        · split at h
          · next hg =>
            split at h
            · next c hc =>
              rw [profileGroup_ident h, channel_ofNumber? hc]
              omega
            · cases h
          · cases h

/-- An identifier names the parameter whose identifier it is, and no other (R232). -/
theorem paramOfId_iff {id : BitVec 16} {k : ParamKey} : paramOfId id = some k ↔ id.toNat = k.ident := by
  rw [paramOfId_eq]
  constructor
  · intro h
    have := ident_of_paramAt h
    omega
  · intro h
    rw [h]
    exact paramAt_ident k

/-- The known identifiers are those of the parameters (R232). -/
theorem knownId_ident (k : ParamKey) : knownId k.ident = true := by
  cases k with
  | gain s => cases s <;> rfl
  | driverFor i => cases i <;> rfl
  | attChirp c k => cases c <;> cases k <;> rfl
  | attSignal c k => cases c <;> cases k <;> rfl
  | threshold c k => cases c <;> cases k <;> rfl
  | stat k => cases k <;> rfl
  | _ => rfl

end Sys2Proof.Machine
end

