-- ==== Sys2Proof/Laws/PerInstr.lean ====
section
/-! SUPPORT. Statements made for each instruction as syntax, one lemma a constructor. -/

namespace Sys2Proof.Laws

open Sys2Proof Sys2Proof.Machine

/-- The written form of an instruction starts with an op byte of the table of 30_encoding.md R110, or is a
frame image of at least one header region (R90). -/
def Written.Statement (i : Instr) : Prop :=
  match encode i with
  | .operation bytes => ∃ op rest, bytes = op :: rest ∧ op.toNat ∈ opCodes
  | .frame _ image => 16 ≤ image.length

theorem Written.submit (req : TxRequest) : Written.Statement (.submit req) :=
  ⟨_, _, rfl, by decide⟩

theorem Written.pollTxResult (slot : BitVec 8) : Written.Statement (.pollTxResult slot) :=
  ⟨_, _, rfl, by decide⟩

theorem Written.pollRx : Written.Statement .pollRx :=
  ⟨_, _, rfl, by decide⟩

theorem Written.setChannel (ch : BitVec 8) : Written.Statement (.setChannel ch) :=
  ⟨_, _, rfl, by decide⟩

theorem Written.setNetworkAddress (a : Sna) : Written.Statement (.setNetworkAddress a) :=
  ⟨_, _, rfl, by decide⟩

theorem Written.getConfigParam (id : BitVec 16) : Written.Statement (.getConfigParam id) :=
  ⟨_, _, rfl, by decide⟩

theorem Written.setConfigParam (id : BitVec 16) (v : Nat) : Written.Statement (.setConfigParam id v) :=
  ⟨_, _, rfl, by decide⟩

theorem Written.computeCrc (width : Nat) (data : Bytes) (ht : HeaderType) : Written.Statement (.computeCrc width data ht) :=
  ⟨_, _, rfl, by decide⟩

theorem Written.hardReset : Written.Statement .hardReset :=
  ⟨_, _, rfl, by decide⟩

theorem Written.txStart (slot : SlotId) : Written.Statement (.txStart slot) :=
  ⟨_, _, rfl, by decide⟩

theorem Written.txDone (slot : SlotId) (code : TxResult) (rms : Nat) : Written.Statement (.txDone slot code rms) :=
  ⟨_, _, rfl, by decide⟩

theorem Written.rxHeaderDone (slot : SlotId) (mode : FrameMode) (hdr : HeaderBytes) : Written.Statement (.rxHeaderDone slot mode hdr) :=
  ⟨_, _, rfl, by decide⟩

theorem Written.rxPayloadDone (slot : SlotId) (bulk : Bytes) (rxTime : Nat) (q : Quality) : Written.Statement (.rxPayloadDone slot bulk rxTime q) :=
  ⟨_, _, rfl, by decide⟩

theorem Written.noiseDone (bytes : Bytes) (rxTime : Nat) : Written.Statement (.noiseDone bytes rxTime) :=
  ⟨_, _, rfl, by decide⟩

theorem Written.rxError (slot : SlotId) : Written.Statement (.rxError slot) :=
  ⟨_, _, rfl, by decide⟩

theorem Written.timeAdvance (delta : Nat) : Written.Statement (.timeAdvance delta) :=
  ⟨_, _, rfl, by decide⟩

theorem Written.timeoutExpire (slot : SlotId) : Written.Statement (.timeoutExpire slot) :=
  ⟨_, _, rfl, by decide⟩

theorem Written.irqDispatch : Written.Statement .irqDispatch :=
  ⟨_, _, rfl, by decide⟩

theorem Written.rxTask : Written.Statement .rxTask :=
  ⟨_, _, rfl, by decide⟩

theorem Written.txResultTask : Written.Statement .txResultTask :=
  ⟨_, _, rfl, by decide⟩

theorem Written.txResultRead (slot : SlotId) : Written.Statement (.txResultRead slot) :=
  ⟨_, _, rfl, by decide⟩

theorem Written.impUpdate (rms : Nat) : Written.Statement (.impUpdate rms) :=
  ⟨_, _, rfl, by decide⟩

theorem Written.impReselect : Written.Statement .impReselect :=
  ⟨_, _, rfl, by decide⟩

theorem Written.updateSnaSeed (sna : Sna) : Written.Statement (.updateSnaSeed sna) :=
  ⟨_, _, rfl, by decide⟩

theorem Written.softReset : Written.Statement .softReset :=
  ⟨_, _, rfl, by decide⟩

theorem Written.symcalc (totalLen : Nat) (scheme : Scheme) : Written.Statement (.symcalc totalLen scheme) :=
  ⟨_, _, rfl, by decide⟩

theorem Written.encodeA (scheme : Scheme) (payload : Bytes) : Written.Statement (.encodeA scheme payload) :=
  ⟨_, _, rfl, by decide⟩

theorem Written.encodeB (scheme : Scheme) (payload : Bytes) : Written.Statement (.encodeB scheme payload) :=
  ⟨_, _, rfl, by decide⟩

theorem Written.encodeBC (scheme : Scheme) (payload : Bytes) : Written.Statement (.encodeBC scheme payload) :=
  ⟨_, _, rfl, by decide⟩

theorem Written.decodeA (slot : SlotId) : Written.Statement (.decodeA slot) :=
  ⟨_, _, rfl, by decide⟩

theorem Written.decodeB (slot : SlotId) : Written.Statement (.decodeB slot) :=
  ⟨_, _, rfl, by decide⟩

theorem Written.decodeBC (slot : SlotId) : Written.Statement (.decodeBC slot) :=
  ⟨_, _, rfl, by decide⟩

theorem Written.crcRoll (width : CrcWidth) (seed : BitVec 32) (data : Bytes) : Written.Statement (.crcRoll width seed data) :=
  ⟨_, _, rfl, by decide⟩

theorem Written.frameA (hdr : FrameAHeader) (body : Bytes) : Written.Statement (.frameA hdr body) := by
  simp [Written.Statement, encode]

theorem Written.frameB (hdr : FrameBHeader) (body : Bytes) : Written.Statement (.frameB hdr body) := by
  simp [Written.Statement, encode]

theorem Written.frameBC (outer : FrameAHeader) (inner : FrameBHeader) (payload : Bytes) : Written.Statement (.frameBC outer inner payload) := by
  simp [Written.Statement, encode]

end Sys2Proof.Laws
end

