-- ==== Sys2Proof/Laws/Transmit.lean ====
section
/-! SUPPORT. What the shared operations of the transmit scheduler and of the controller can do, said once; and
what each transmit operation answers. -/

namespace Sys2Proof.Machine

/-! ## Times -/

theorem ticksSince_lt (p : Params) (now t : Nat) : ticksSince p now t < 2 ^ p.timeW :=
  Nat.mod_lt _ (Nat.two_pow_pos _)

theorem wrapTime_lt (p : Params) (n : Nat) : wrapTime p n < 2 ^ p.timeW := Nat.mod_lt _ (Nat.two_pow_pos _)

theorem wrapRms_lt (p : Params) (n : Nat) : wrapRms p n < 2 ^ p.rmsW := Nat.mod_lt _ (Nat.two_pow_pos _)

theorem wrapTime_of_lt {p : Params} {n : Nat} (h : n < 2 ^ p.timeW) : wrapTime p n = n := Nat.mod_eq_of_lt h

theorem wrapRms_of_lt {p : Params} {n : Nat} (h : n < 2 ^ p.rmsW) : wrapRms p n = n := Nat.mod_eq_of_lt h

/-- `ticksSince` is the difference of the integers, modulo the counter's range. -/
theorem ticksSince_eq (p : Params) (now t : Nat) :
    (ticksSince p now t : Int) = ((now : Int) - (t : Int)) % (2 : Int) ^ p.timeW := by
  unfold ticksSince
  have hpos : 0 < 2 ^ p.timeW := Nat.two_pow_pos _
  generalize hM : 2 ^ p.timeW = M at hpos ⊢
  have hMI : (2 : Int) ^ p.timeW = (M : Int) := by rw [← hM]; simp
  rw [hMI]
  have h1 : t % M < M := Nat.mod_lt _ hpos
  push_cast [Nat.cast_sub (Nat.le_of_lt h1)]
  rw [show (now : Int) + ((M : Int) - (t : Int) % M) = ((now : Int) - t % M) + M by ring, Int.add_emod_right]
  rw [Int.sub_emod, Int.emod_emod_of_dvd _ (dvd_refl _), ← Int.sub_emod]

theorem scheduleTime_lt (p : Params) (now : Nat) (x : Schedule) : (scheduleTime p now x).1 < 2 ^ p.timeW := by
  cases x
  · exact ticksSince_lt _ _ _
  · exact wrapTime_lt _ _
  · exact wrapTime_lt _ _

/-! ## The packed result registers -/

theorem readField_lt (p : Params) (reg off : Nat) : readField p reg off < 2 ^ p.resultFieldW :=
  Nat.mod_lt _ (Nat.two_pow_pos _)

/-- The field written reads back (10_state.md R27). -/
theorem readField_writeField (p : Params) (reg off v : Nat) (hv : v < 2 ^ p.resultFieldW) :
    readField p (writeField p reg off v) off = v := by
  unfold readField writeField
  rw [Nat.mod_eq_of_lt hv, Nat.shiftRight_eq_div_pow, Nat.shiftRight_eq_div_pow, Nat.shiftLeft_eq,
    Nat.shiftLeft_eq]
  have h0 : 0 < 2 ^ off := Nat.two_pow_pos _
  have h1 : reg % 2 ^ off < 2 ^ off := Nat.mod_lt _ h0
  rw [Nat.pow_add]
  have : reg / (2 ^ off * 2 ^ p.resultFieldW) * (2 ^ off * 2 ^ p.resultFieldW) + v * 2 ^ off + reg % 2 ^ off =
      reg % 2 ^ off + 2 ^ off * (v + 2 ^ p.resultFieldW * (reg / (2 ^ off * 2 ^ p.resultFieldW))) := by ring
  rw [this, Nat.add_mul_div_left _ _ h0, Nat.div_eq_of_lt h1, Nat.zero_add, Nat.add_mul_mod_self_left,
    Nat.mod_eq_of_lt hv]

/-- A field above the written one keeps its value. -/
theorem readField_writeField_above (p : Params) (reg off off' v : Nat) (h : off + p.resultFieldW ≤ off') :
    readField p (writeField p reg off v) off' = readField p reg off' := by
  unfold readField writeField
  congr 1
  obtain ⟨k, rfl⟩ : ∃ k, off' = off + p.resultFieldW + k := ⟨off' - (off + p.resultFieldW), by omega⟩
  simp only [Nat.shiftRight_eq_div_pow, Nat.shiftLeft_eq]
  have h0 : 0 < 2 ^ off := Nat.two_pow_pos _
  have hW : 0 < 2 ^ p.resultFieldW := Nat.two_pow_pos _
  have hv : v % 2 ^ p.resultFieldW < 2 ^ p.resultFieldW := Nat.mod_lt _ hW
  have h1 : reg % 2 ^ off < 2 ^ off := Nat.mod_lt _ h0
  rw [Nat.pow_add _ _ k, ← Nat.div_div_eq_div_mul, ← Nat.div_div_eq_div_mul]
  congr 1
  have hlow : (v % 2 ^ p.resultFieldW) * 2 ^ off + reg % 2 ^ off < 2 ^ (off + p.resultFieldW) := by
    rw [Nat.pow_add]
    have : (v % 2 ^ p.resultFieldW + 1) * 2 ^ off ≤ 2 ^ p.resultFieldW * 2 ^ off := Nat.mul_le_mul_right _ hv
    nlinarith
  rw [Nat.add_assoc, Nat.add_comm, Nat.add_mul_div_right _ _ (Nat.two_pow_pos _), Nat.div_eq_of_lt hlow,
    Nat.zero_add]

/-- A field below the written one keeps its value. -/
theorem readField_writeField_below (p : Params) (reg off off' v : Nat) (h : off' + p.resultFieldW ≤ off) :
    readField p (writeField p reg off v) off' = readField p reg off' := by
  have key : writeField p reg off v % 2 ^ off = reg % 2 ^ off := by
    unfold writeField
    simp only [Nat.shiftLeft_eq, Nat.shiftRight_eq_div_pow]
    rw [Nat.pow_add]
    have : reg / (2 ^ off * 2 ^ p.resultFieldW) * (2 ^ off * 2 ^ p.resultFieldW) +
        v % 2 ^ p.resultFieldW * 2 ^ off + reg % 2 ^ off =
        reg % 2 ^ off + 2 ^ off * (v % 2 ^ p.resultFieldW + 2 ^ p.resultFieldW *
          (reg / (2 ^ off * 2 ^ p.resultFieldW))) := by ring
    rw [this, Nat.add_mul_mod_self_left, Nat.mod_mod]
  have gen : ∀ n, readField p n off' = readField p (n % 2 ^ off) off' := by
    intro n
    unfold readField
    simp only [Nat.shiftRight_eq_div_pow]
    obtain ⟨k, rfl⟩ : ∃ k, off = off' + p.resultFieldW + k := ⟨off - (off' + p.resultFieldW), by omega⟩
    rw [show off' + p.resultFieldW + k = off' + (p.resultFieldW + k) by omega, Nat.pow_add 2 off',
      Nat.mod_mul_right_div_self, Nat.pow_add 2 p.resultFieldW, Nat.mod_mod_of_dvd _ (Dvd.intro _ rfl)]
  rw [gen, key, ← gen]

theorem resultOfField_code (c : TxResult) : resultOfField c.code = c := by cases c <;> rfl

theorem code_lt (c : TxResult) : c.code < 8 := by cases c <;> decide

theorem code_lt_field {p : Params} (h : 3 ≤ p.resultFieldW) (c : TxResult) : c.code < 2 ^ p.resultFieldW :=
  Nat.lt_of_lt_of_le (code_lt c) (by
    have := Nat.pow_le_pow_right (n := 2) (by decide) h
    simpa using this)

theorem resultReg_setResultReg (s : State) (i j : SlotId) (v : Nat) :
    (s.setResultReg i v).resultReg j = if j.toNat / 2 = i.toNat / 2 then v else s.resultReg j := by
  cases i <;> cases j <;> rfl

/-- Writing a slot's result: its own field reads the code, the other three keep theirs (R27, R108). -/
theorem resultCode_setResultCode {s : State} (hw : 3 ≤ s.params.resultFieldW)
    (hs : s.params.resultFieldW ≤ s.params.resultFieldStride) (i j : SlotId) (c : TxResult) :
    (s.setResultCode i c).resultCode j = if j = i then c else s.resultCode j := by
  unfold State.setResultCode State.resultCode
  rw [setResultReg_params, resultReg_setResultReg]
  by_cases hj : j = i
  · subst hj
    rw [if_pos rfl, if_pos rfl, readField_writeField _ _ _ _ (code_lt_field hw c), resultOfField_code]
  · rw [if_neg hj]
    by_cases hr : j.toNat / 2 = i.toNat / 2
    · rw [if_pos hr]
      have hreg : s.resultReg j = s.resultReg i := by
        cases i <;> cases j <;> first | rfl | (simp [SlotId.toNat] at hr)
      have ho : resultOffset s.params i + s.params.resultFieldW ≤ resultOffset s.params j ∨
          resultOffset s.params j + s.params.resultFieldW ≤ resultOffset s.params i := by
        cases i <;> cases j <;>
          first
            | exact absurd rfl hj
            | (simp [SlotId.toNat] at hr; done)
            | (simp only [resultOffset, SlotId.toNat]; omega)
      rw [hreg]
      rcases ho with ho | ho
      · rw [readField_writeField_above _ _ _ _ _ ho]
      · rw [readField_writeField_below _ _ _ _ _ ho]
    · rw [if_neg hr]

@[simp] theorem setResultCode_eng (s : State) (i : SlotId) (c : TxResult) :
    (s.setResultCode i c).eng = s.eng := by simp [State.setResultCode]

/-- What `setResultReg` writes: the two result registers and nothing else. -/
theorem setResultReg_eq (s : State) (i : SlotId) (v : Nat) :
    s.setResultReg i v = { s with mdm := { s.mdm with
      txResult0 := (s.setResultReg i v).mdm.txResult0, txResult1 := (s.setResultReg i v).mdm.txResult1 } } := by
  cases i <;> rfl

/-! ## The controller -/

/-- What `updateImpedance` does: nothing, or a transition with its re-selection (45_impedance.md R191). -/
theorem updateImpedance_eq (s : State) (rms : Nat) :
    updateImpedance s rms =
      if nextImpedance s.eng.sel s.cfg.peakCutMode rms s.eng.imp = s.eng.imp then s
      else s.withEng { s.eng with
        imp := nextImpedance s.eng.sel s.cfg.peakCutMode rms s.eng.imp
        sel := selectFor s.cfg (nextImpedance s.eng.sel s.cfg.peakCutMode rms s.eng.imp) } := rfl

/-- The controller writes its own state and outputs, nothing else. -/
theorem updateImpedance_frame (s : State) (rms : Nat) :
    updateImpedance s rms = s.withEng { s.eng with
      imp := (updateImpedance s rms).eng.imp, sel := (updateImpedance s rms).eng.sel } := by
  rw [updateImpedance_eq]
  split <;> rfl

/-! ## Reading a result -/

/-- What `readResult` does, field by field (44_tx_scheduler.md R177). -/
theorem readResult_eq (s : State) (i : SlotId) :
    readResult s i =
      { s with
        stat := s.stat.tally (s.resultCode i)
        eng := { s.eng with
          tx := s.eng.tx.set i ((s.eng.tx.get i).complete (s.resultCode i)
            (if s.cfg.qualityReportMode then some (s.mdm.rms.get i) else none))
          imp := (if s.resultCode i = .success then updateImpedance s (s.mdm.rms.get i) else s).eng.imp
          sel := (if s.resultCode i = .success then updateImpedance s (s.mdm.rms.get i) else s).eng.sel }
        mdm := { s.mdm with txInt := clearFlag s.mdm.txInt i, maskTx := false } } := by
  unfold readResult
  by_cases hc : s.resultCode i = .success
  · simp only [hc, if_true]
    have h1 : ∀ r, updateImpedance (latchResult s i) r =
        (latchResult s i).withEng { (latchResult s i).eng with
          imp := (updateImpedance s r).eng.imp, sel := (updateImpedance s r).eng.sel } := by
      intro r
      rw [updateImpedance_eq, updateImpedance_eq]
      have e1 : (latchResult s i).eng.sel = s.eng.sel := rfl
      have e2 : (latchResult s i).eng.imp = s.eng.imp := rfl
      have e3 : (latchResult s i).cfg = s.cfg := rfl
      rw [e1, e2, e3]
      split <;> rfl
    rw [h1]
    simp only [clearTxInt, underMaskTx, latchResult, hc]
    rfl
  · simp only [hc, if_false]
    rfl

/-- The slot a scan finds is pending, and it is the first such slot in scan order (R176). -/
theorem nextTxSlot_some {s : State} {i : SlotId} (h : nextTxSlot s = some i) : flag s.eng.txPend i = true :=
  List.find?_some (p := fun i => flag s.eng.txPend i) h

theorem nextTxSlot_none {s : State} : nextTxSlot s = none ↔ s.eng.txPend = 0 := by
  unfold nextTxSlot
  rw [List.find?_eq_none, bits_eq_zero]
  constructor
  · intro h i
    have := h i (mem_scanOrder _ _ i)
    simpa using this
  · intro h i _
    simp [h i]

/-- What `resultTask` does (R176). -/
theorem resultTask_eq (s : State) :
    resultTask s = match nextTxSlot s with
      | none => s
      | some i => readResult (s.withEng { s.eng with txPend := clearFlag s.eng.txPend i, txLast := i }) i := rfl

/-! ## What the transmit operations answer -/

/-- A submit to a busy slot that is not turned away runs under the Overwrite policy (44_tx_scheduler.md R160,
R162). -/
theorem overwrite_of_accepted {busy : Bool} {pol : BusyPolicy} (h : ¬(busy && decide (pol = .reject)) = true) :
    busy = true → pol = .overwrite := by
  rintro rfl
  cases pol
  · rfl
  · exact absurd rfl h

/-- SUBMIT answers an error, or it is turned away busy, or it arms the slot (R161). -/
theorem execSubmit_next {req : TxRequest} {s t : State} (h : execSubmit req s = .next t) :
    (∃ e, t = answered s (.error e)) ∨
    t = answered s.bumpFree (.error (Config.freeError s.free)) ∨
    ∃ i sch img sym, slotOperand req.bufferId = some i ∧ Scheme.ofCode? req.schemeCode.toNat = some sch ∧
      encodeFrame s req.frameMode sch req.payload = .image img sym ∧
      ((s.eng.tx.get i).state.busy = true ∧ s.params.busyPolicy = .reject ∧
          t = answered (countBusy s i) (.error .bufferBusy) ∨
        img.length ≤ s.params.txbufSize ∧
          ((s.eng.tx.get i).state.busy = true → s.params.busyPolicy = .overwrite) ∧
          t = answered (armSlot (imageStored (countBusy s i) .txbuf i img) i (submitConfig s req sch sym)) .ok) := by
  unfold execSubmit at h
  split at h
  · exact .inl ⟨_, (Host.Outcome.next.inj h).symm⟩
  · next i hi =>
    split at h
    · exact .inl ⟨_, (Host.Outcome.next.inj h).symm⟩
    · split at h
      · exact .inl ⟨_, (Host.Outcome.next.inj h).symm⟩
      · next sch hs =>
        split at h
        · exact .inl ⟨_, (Host.Outcome.next.inj h).symm⟩
        · exact .inr (.inl (Host.Outcome.next.inj h).symm)
        · next img sym he =>
          refine .inr (.inr ⟨i, sch, img, sym, hi, hs, he, ?_⟩)
          unfold submitImage at h
          split at h
          · next hb =>
            simp only [Bool.and_eq_true, decide_eq_true_eq] at hb
            exact .inl ⟨hb.1, hb.2, (Host.Outcome.next.inj h).symm⟩
          · next hb =>
            split at h
            · cases h
            · next u hu =>
              have := storeImage_ok hu
              have hp : (countBusy s i).params = s.params := by unfold countBusy; split <;> rfl
              rw [hp] at this
              refine .inr ⟨this.1, overwrite_of_accepted hb, ?_⟩
              rw [← this.2]
              exact (Host.Outcome.next.inj h).symm

/-- POLL_TX_RESULT answers an error, or hands over what is latched after at most one run of the task
(R179). -/
theorem execPollTxResult_next {v : BitVec 8} {s t : State} (h : execPollTxResult v s = .next t) :
    t = answered s (.error .invalidBuffer) ∨
    ∃ i u, slotOperand v = some i ∧ u = (if txPending s then resultTask s else s) ∧
      (((u.eng.tx.get i).outValid = true ∧
          t = answered (u.setTx i (u.eng.tx.get i).consume)
            (.outcome (some ⟨i, (u.eng.tx.get i).outResult, (u.eng.tx.get i).outRms⟩))) ∨
        ((u.eng.tx.get i).outValid = false ∧ t = answered u (.outcome none))) := by
  unfold execPollTxResult at h
  split at h
  · exact .inl (Host.Outcome.next.inj h).symm
  · next i hi =>
    refine .inr ⟨i, _, hi, rfl, ?_⟩
    generalize (if txPending s then resultTask s else s) = u at h ⊢
    unfold takeOutcome at h
    simp only at h
    split at h
    · next hv => exact .inl ⟨hv, (Host.Outcome.next.inj h).symm⟩
    · next hv => exact .inr ⟨by simpa using hv, (Host.Outcome.next.inj h).symm⟩

theorem execTxStart_next {i : SlotId} {s t : State} (h : execTxStart i s = .next t) :
    (s.eng.tx.get i).state = .armed ∧
      ((s.eng.tx.get i).conf.force = true ∨ reached s (s.eng.tx.get i).conf.schedTime = true) ∧
      t = answered (s.setTx i { s.eng.tx.get i with state := .inFlight }) .silent := by
  obtain ⟨hc, hn⟩ := whenEnabled_next h
  simp only [Bool.and_eq_true, decide_eq_true_eq, Bool.or_eq_true] at hc
  exact ⟨hc.1, hc.2, (Host.Outcome.next.inj hn).symm⟩

theorem execTxDone_next {i : SlotId} {c : TxResult} {r : Nat} {s t : State}
    (h : execTxDone i c r s = .next t) :
    txDoneEnabled s i c = true ∧ t = answered (completeTransmission s i c r) .silent := by
  obtain ⟨hc, hn⟩ := whenEnabled_next h
  exact ⟨hc, (Host.Outcome.next.inj hn).symm⟩

theorem execTimeAdvance_next {d : Nat} {s t : State} (h : execTimeAdvance d s = .next t) :
    1 ≤ d ∧ d < 2 ^ (s.params.timeW - 1) ∧
      t = answered (s.withMdm { s.mdm with time := wrapTime s.params (s.mdm.time + d) }) .silent := by
  obtain ⟨hc, hn⟩ := whenEnabled_next h
  simp only [Bool.and_eq_true, decide_eq_true_eq] at hc
  exact ⟨hc.1, hc.2, (Host.Outcome.next.inj hn).symm⟩

theorem execTimeoutExpire_next {i : SlotId} {s t : State} (h : execTimeoutExpire i s = .next t) :
    timeoutEnabled s i = true ∧ t = answered (softReset (latchTimeout s i)) .silent := by
  obtain ⟨hc, hn⟩ := whenEnabled_next h
  exact ⟨hc, (Host.Outcome.next.inj hn).symm⟩

end Sys2Proof.Machine
end

