-- ==== Sys2Proof/Laws/Receive.lean ====
section
/-! SUPPORT. What the shared operations of the receive path and of the dispatcher can do, said once; and what
each receive operation answers. -/

namespace Sys2Proof.Machine

/-! ## The receive task -/

theorem cacheHeader_eq (s : State) (i : SlotId) :
    cacheHeader s i =
      { s with
        eng := { s.eng with
          rx := s.eng.rx.set i { s.eng.rx.get i with
            hdrCache := (s.eng.rx.get i).hdrCache.store 0 (s.bytesAt .rxhdr i 0 16)
            mode := s.mdm.rxMode.get i
            hdrValid := true }
          rxPendHdr := clearFlag s.eng.rxPendHdr i }
        mdm := { s.mdm with
          rxIntHdr := clearFlag s.mdm.rxIntHdr i
          maskRx := false
          rxhdr := s.mdm.rxhdr.set i ⟨(s.mdm.rxhdr.get i).cells.truncate 0, s.free + 1⟩ }
        free := s.free + 1 } := rfl

/-- What slot `i` looks like after the receive task has served it, from what it was before (46_dispatcher.md
R208). -/
structure SlotServed (s t : State) (i : SlotId) : Prop where
  ready : (t.eng.rx.get i).ready = ((s.eng.rx.get i).ready || flag s.eng.rxPendPay i)
  hdrValid : (t.eng.rx.get i).hdrValid = ((s.eng.rx.get i).hdrValid || flag s.eng.rxPendHdr i)
  mode : (t.eng.rx.get i).mode =
    if flag s.eng.rxPendHdr i then s.mdm.rxMode.get i else (s.eng.rx.get i).mode
  cache : (t.eng.rx.get i).hdrCache =
    if flag s.eng.rxPendHdr i then (s.eng.rx.get i).hdrCache.store 0 (s.bytesAt .rxhdr i 0 16)
    else (s.eng.rx.get i).hdrCache
  pendHdr : flag t.eng.rxPendHdr i = false
  intHdr : flag t.mdm.rxIntHdr i = (flag s.mdm.rxIntHdr i && !flag s.eng.rxPendHdr i)
  headerKept : flag s.eng.rxPendHdr i = false → t.mdm.rxhdr.get i = s.mdm.rxhdr.get i
  headerGone : flag s.eng.rxPendHdr i = true → (t.mdm.rxhdr.get i).cells = []

/-- Slot `i` has not been touched. -/
structure SlotKept (s t : State) (i : SlotId) : Prop where
  rx : t.eng.rx.get i = s.eng.rx.get i
  pendHdr : flag t.eng.rxPendHdr i = flag s.eng.rxPendHdr i
  intHdr : flag t.mdm.rxIntHdr i = flag s.mdm.rxIntHdr i
  header : t.mdm.rxhdr.get i = s.mdm.rxhdr.get i

/-- What the receive task leaves alone whatever slots it serves. -/
structure TaskFrame (s t : State) : Prop where
  same : t = { s with
    eng := { s.eng with rx := t.eng.rx, rxPendHdr := t.eng.rxPendHdr }
    mdm := { s.mdm with rxIntHdr := t.mdm.rxIntHdr, maskRx := t.mdm.maskRx, rxhdr := t.mdm.rxhdr }
    free := t.free }
  mask : t.mdm.maskRx = s.mdm.maskRx ∨ t.mdm.maskRx = false

theorem TaskFrame.refl (s : State) : TaskFrame s s := ⟨rfl, .inl rfl⟩

theorem TaskFrame.trans {s t u : State} (h : TaskFrame s t) (h' : TaskFrame t u) : TaskFrame s u := by
  refine ⟨?_, ?_⟩
  · have h1 := h.same
    have h2 := h'.same
    generalize hx : t.eng.rx = a at h1
    generalize hy : t.eng.rxPendHdr = b at h1
    generalize hz : t.mdm.rxIntHdr = c at h1
    generalize hw : t.mdm.maskRx = d at h1
    generalize hv : t.mdm.rxhdr = e at h1
    generalize hf : t.free = f at h1
    subst h1
    exact h2
  · rcases h'.mask with h2 | h2
    · rcases h.mask with h1 | h1
      · exact .inl (h2.trans h1)
      · exact .inr (h2.trans h1)
    · exact .inr h2

theorem truncate_zero (m : Memory) : m.truncate 0 = [] := by
  simp [Memory.truncate]

/-- One slot of the receive task (R208). -/
theorem rxTaskSlot_spec (s : State) (i : SlotId) :
    TaskFrame s (rxTaskSlot s i) ∧ SlotServed s (rxTaskSlot s i) i ∧
      ∀ j, j ≠ i → SlotKept s (rxTaskSlot s i) j := by
  unfold rxTaskSlot
  by_cases hh : flag s.eng.rxPendHdr i = true
  · simp only [hh, if_true, cacheHeader_eq]
    by_cases hp : flag s.eng.rxPendPay i = true
    · simp only [hp, if_true, markReady]
      refine ⟨⟨rfl, .inr rfl⟩, ?_, ?_⟩
      · constructor <;> simp [State.setRx, State.withEng, hh, hp, truncate_zero]
      · intro j hj
        constructor <;>
          simp [State.setRx, State.withEng, PerSlot.get_set_ne _ _ hj, flag_clearFlag_ne _ hj]
    · simp only [hp]
      refine ⟨⟨rfl, .inr rfl⟩, ?_, ?_⟩
      · constructor <;> simp [hh, hp, truncate_zero]
      · intro j hj
        constructor <;> simp [PerSlot.get_set_ne _ _ hj, flag_clearFlag_ne _ hj]
  · simp only [hh, Bool.false_eq_true, if_false]
    by_cases hp : flag s.eng.rxPendPay i = true
    · simp only [hp, if_true, markReady]
      refine ⟨⟨rfl, .inl rfl⟩, ?_, ?_⟩
      · constructor <;> simp [State.setRx, State.withEng, hh, hp]
      · intro j hj
        constructor <;> simp [State.setRx, State.withEng, PerSlot.get_set_ne _ _ hj]
    · simp only [hp, Bool.false_eq_true, if_false]
      refine ⟨TaskFrame.refl s, ?_, ?_⟩
      · constructor <;> simp [hh, hp]
      · intro j _
        constructor <;> rfl

theorem TaskFrame.rxPendPay {s t : State} (h : TaskFrame s t) : t.eng.rxPendPay = s.eng.rxPendPay := by
  rw [h.same]

theorem TaskFrame.rxMode {s t : State} (h : TaskFrame s t) : t.mdm.rxMode = s.mdm.rxMode := by
  rw [h.same]

/-- The bytes of a header region are those of the region. -/
theorem bytesAt_congr {s t : State} {sp : Space} {i : SlotId} (h : t.region sp i = s.region sp i)
    (o n : Nat) : t.bytesAt sp i o n = s.bytesAt sp i o n := by
  unfold State.bytesAt
  congr 1
  funext k
  exact byteAt_congr h _

/-- The receive task over a list of slots: each is served once, the others are kept (R208: the order does
not matter). -/
theorem foldl_rxTaskSlot_spec (l : List SlotId) (hl : l.Nodup) (s : State) :
    TaskFrame s (l.foldl rxTaskSlot s) ∧ (∀ i ∈ l, SlotServed s (l.foldl rxTaskSlot s) i) ∧
      ∀ j, j ∉ l → SlotKept s (l.foldl rxTaskSlot s) j := by
  induction l generalizing s with
  | nil => exact ⟨TaskFrame.refl s, by simp, fun j _ => ⟨rfl, rfl, rfl, rfl⟩⟩
  | cons i l ih =>
    obtain ⟨hi, hl⟩ := List.nodup_cons.1 hl
    obtain ⟨f1, v1, k1⟩ := rxTaskSlot_spec s i
    obtain ⟨f2, v2, k2⟩ := ih hl (rxTaskSlot s i)
    simp only [List.foldl_cons]
    refine ⟨f1.trans f2, ?_, ?_⟩
    · intro j hj
      rcases List.mem_cons.1 hj with rfl | hj
      · have k := k2 j hi
        obtain ⟨a1, a2, a3, a4, a5, a6, a7, a8⟩ := v1
        refine ⟨?_, ?_, ?_, ?_, ?_, ?_, ?_, ?_⟩
        · rw [k.rx]; exact a1
        · rw [k.rx]; exact a2
        · rw [k.rx]; exact a3
        · rw [k.rx]; exact a4
        · rw [k.pendHdr]; exact a5
        · rw [k.intHdr]; exact a6
        · intro h; rw [k.header]; exact a7 h
        · intro h; rw [k.header]; exact a8 h
      · have hne : j ≠ i := fun e => hi (e ▸ hj)
        have k := k1 j hne
        obtain ⟨a1, a2, a3, a4, a5, a6, a7, a8⟩ := v2 j hj
        have eb : (rxTaskSlot s i).bytesAt .rxhdr j 0 16 = s.bytesAt .rxhdr j 0 16 :=
          bytesAt_congr (by simpa using k.header) _ _
        rw [f1.rxPendPay, k.rx] at a1
        rw [k.rx, k.pendHdr] at a2
        rw [k.pendHdr, f1.rxMode, k.rx] at a3
        rw [k.pendHdr, k.rx, eb] at a4
        rw [k.intHdr, k.pendHdr] at a6
        rw [k.pendHdr, k.header] at a7
        rw [k.pendHdr] at a8
        exact ⟨a1, a2, a3, a4, a5, a6, a7, a8⟩
    · intro j hj
      simp only [List.mem_cons, not_or] at hj
      have a := k1 j hj.1
      have b := k2 j hj.2
      exact ⟨b.rx.trans a.rx, b.pendHdr.trans a.pendHdr, b.intHdr.trans a.intHdr, b.header.trans a.header⟩

/-- What `receiveTask` does: every slot is served, a pending noise capture is marked ready, and nothing else
changes (R208). -/
theorem receiveTask_spec (s : State) :
    (∀ i, SlotServed s (receiveTask s) i) ∧
    (receiveTask s).eng.noiseReady = (s.eng.noiseReady || s.eng.rxPendNoise) ∧
    (receiveTask s) = { s with
      eng := { s.eng with rx := (receiveTask s).eng.rx, rxPendHdr := (receiveTask s).eng.rxPendHdr,
                          noiseReady := (receiveTask s).eng.noiseReady }
      mdm := { s.mdm with rxIntHdr := (receiveTask s).mdm.rxIntHdr, maskRx := (receiveTask s).mdm.maskRx,
                          rxhdr := (receiveTask s).mdm.rxhdr }
      free := (receiveTask s).free } ∧
    ((receiveTask s).mdm.maskRx = s.mdm.maskRx ∨ (receiveTask s).mdm.maskRx = false) := by
  obtain ⟨f, v, _⟩ := foldl_rxTaskSlot_spec (scanOrder s.params s.eng.rxLast) (scanOrder_nodup _ _) s
  unfold receiveTask markNoise
  generalize (scanOrder s.params s.eng.rxLast).foldl rxTaskSlot s = u at f v
  have hn : u.eng.rxPendNoise = s.eng.rxPendNoise := by rw [f.same]
  have hr : u.eng.noiseReady = s.eng.noiseReady := by rw [f.same]
  by_cases h : s.eng.rxPendNoise = true
  · rw [hn, if_pos h]
    refine ⟨?_, ?_, ?_, f.mask⟩
    · intro i
      obtain ⟨a1, a2, a3, a4, a5, a6, a7, a8⟩ := v i (mem_scanOrder _ _ i)
      exact ⟨a1, a2, a3, a4, a5, a6, a7, a8⟩
    · simp [h]
    · have := f.same
      generalize hx : u.eng.rx = a at this ⊢
      generalize hy : u.eng.rxPendHdr = b at this ⊢
      generalize hz : u.mdm.rxIntHdr = c at this ⊢
      generalize hw : u.mdm.maskRx = d at this ⊢
      generalize hv : u.mdm.rxhdr = e at this ⊢
      generalize hf : u.free = g at this ⊢
      subst this
      rfl
  · rw [hn, if_neg h]
    refine ⟨fun i => v i (mem_scanOrder _ _ i), ?_, ?_, f.mask⟩
    · rw [hr]; simp [h]
    · have := f.same
      generalize hx : u.eng.rx = a at this ⊢
      generalize hy : u.eng.rxPendHdr = b at this ⊢
      generalize hz : u.mdm.rxIntHdr = c at this ⊢
      generalize hw : u.mdm.maskRx = d at this ⊢
      generalize hv : u.mdm.rxhdr = e at this ⊢
      generalize hf : u.free = g at this ⊢
      subst this
      rfl

/-! What the receive task leaves alone, field by field. -/

@[simp] theorem receiveTask_params (s : State) : (receiveTask s).params = s.params := by
  have h := congrArg (fun u : State => u.params) (receiveTask_spec s).2.2.1; exact h
@[simp] theorem receiveTask_cfg0 (s : State) : (receiveTask s).cfg0 = s.cfg0 := by
  have h := congrArg (fun u : State => u.cfg0) (receiveTask_spec s).2.2.1; exact h
@[simp] theorem receiveTask_cfg (s : State) : (receiveTask s).cfg = s.cfg := by
  have h := congrArg (fun u : State => u.cfg) (receiveTask_spec s).2.2.1; exact h
@[simp] theorem receiveTask_stat (s : State) : (receiveTask s).stat = s.stat := by
  have h := congrArg (fun u : State => u.stat) (receiveTask_spec s).2.2.1; exact h
@[simp] theorem receiveTask_agenda (s : State) : (receiveTask s).agenda = s.agenda := by
  have h := congrArg (fun u : State => u.agenda) (receiveTask_spec s).2.2.1; exact h
@[simp] theorem receiveTask_resp (s : State) : (receiveTask s).resp = s.resp := by
  have h := congrArg (fun u : State => u.resp) (receiveTask_spec s).2.2.1; exact h
@[simp] theorem receiveTask_tx (s : State) : (receiveTask s).eng.tx = s.eng.tx := by
  have h := congrArg (fun u : State => u.eng.tx) (receiveTask_spec s).2.2.1; exact h
@[simp] theorem receiveTask_txPend (s : State) : (receiveTask s).eng.txPend = s.eng.txPend := by
  have h := congrArg (fun u : State => u.eng.txPend) (receiveTask_spec s).2.2.1; exact h
@[simp] theorem receiveTask_txLast (s : State) : (receiveTask s).eng.txLast = s.eng.txLast := by
  have h := congrArg (fun u : State => u.eng.txLast) (receiveTask_spec s).2.2.1; exact h
@[simp] theorem receiveTask_rxPendPay (s : State) : (receiveTask s).eng.rxPendPay = s.eng.rxPendPay := by
  have h := congrArg (fun u : State => u.eng.rxPendPay) (receiveTask_spec s).2.2.1; exact h
@[simp] theorem receiveTask_rxPendNoise (s : State) : (receiveTask s).eng.rxPendNoise = s.eng.rxPendNoise := by
  have h := congrArg (fun u : State => u.eng.rxPendNoise) (receiveTask_spec s).2.2.1; exact h
@[simp] theorem receiveTask_rxLast (s : State) : (receiveTask s).eng.rxLast = s.eng.rxLast := by
  have h := congrArg (fun u : State => u.eng.rxLast) (receiveTask_spec s).2.2.1; exact h
@[simp] theorem receiveTask_imp (s : State) : (receiveTask s).eng.imp = s.eng.imp := by
  have h := congrArg (fun u : State => u.eng.imp) (receiveTask_spec s).2.2.1; exact h
@[simp] theorem receiveTask_sel (s : State) : (receiveTask s).eng.sel = s.eng.sel := by
  have h := congrArg (fun u : State => u.eng.sel) (receiveTask_spec s).2.2.1; exact h
@[simp] theorem receiveTask_seed (s : State) : (receiveTask s).eng.seed = s.eng.seed := by
  have h := congrArg (fun u : State => u.eng.seed) (receiveTask_spec s).2.2.1; exact h
@[simp] theorem receiveTask_txInt (s : State) : (receiveTask s).mdm.txInt = s.mdm.txInt := by
  have h := congrArg (fun u : State => u.mdm.txInt) (receiveTask_spec s).2.2.1; exact h
@[simp] theorem receiveTask_txResult0 (s : State) : (receiveTask s).mdm.txResult0 = s.mdm.txResult0 := by
  have h := congrArg (fun u : State => u.mdm.txResult0) (receiveTask_spec s).2.2.1; exact h
@[simp] theorem receiveTask_txResult1 (s : State) : (receiveTask s).mdm.txResult1 = s.mdm.txResult1 := by
  have h := congrArg (fun u : State => u.mdm.txResult1) (receiveTask_spec s).2.2.1; exact h
@[simp] theorem receiveTask_rms (s : State) : (receiveTask s).mdm.rms = s.mdm.rms := by
  have h := congrArg (fun u : State => u.mdm.rms) (receiveTask_spec s).2.2.1; exact h
@[simp] theorem receiveTask_rxIntPay (s : State) : (receiveTask s).mdm.rxIntPay = s.mdm.rxIntPay := by
  have h := congrArg (fun u : State => u.mdm.rxIntPay) (receiveTask_spec s).2.2.1; exact h
@[simp] theorem receiveTask_rxIntNoise (s : State) : (receiveTask s).mdm.rxIntNoise = s.mdm.rxIntNoise := by
  have h := congrArg (fun u : State => u.mdm.rxIntNoise) (receiveTask_spec s).2.2.1; exact h
@[simp] theorem receiveTask_err (s : State) : (receiveTask s).mdm.err = s.mdm.err := by
  have h := congrArg (fun u : State => u.mdm.err) (receiveTask_spec s).2.2.1; exact h
@[simp] theorem receiveTask_irqReq (s : State) : (receiveTask s).mdm.irqReq = s.mdm.irqReq := by
  have h := congrArg (fun u : State => u.mdm.irqReq) (receiveTask_spec s).2.2.1; exact h
@[simp] theorem receiveTask_maskTx (s : State) : (receiveTask s).mdm.maskTx = s.mdm.maskTx := by
  have h := congrArg (fun u : State => u.mdm.maskTx) (receiveTask_spec s).2.2.1; exact h
@[simp] theorem receiveTask_rxOpen (s : State) : (receiveTask s).mdm.rxOpen = s.mdm.rxOpen := by
  have h := congrArg (fun u : State => u.mdm.rxOpen) (receiveTask_spec s).2.2.1; exact h
@[simp] theorem receiveTask_rxMode (s : State) : (receiveTask s).mdm.rxMode = s.mdm.rxMode := by
  have h := congrArg (fun u : State => u.mdm.rxMode) (receiveTask_spec s).2.2.1; exact h
@[simp] theorem receiveTask_rxTime (s : State) : (receiveTask s).mdm.rxTime = s.mdm.rxTime := by
  have h := congrArg (fun u : State => u.mdm.rxTime) (receiveTask_spec s).2.2.1; exact h
@[simp] theorem receiveTask_rxQ (s : State) : (receiveTask s).mdm.rxQ = s.mdm.rxQ := by
  have h := congrArg (fun u : State => u.mdm.rxQ) (receiveTask_spec s).2.2.1; exact h
@[simp] theorem receiveTask_noiseTime (s : State) : (receiveTask s).mdm.noiseTime = s.mdm.noiseTime := by
  have h := congrArg (fun u : State => u.mdm.noiseTime) (receiveTask_spec s).2.2.1; exact h
@[simp] theorem receiveTask_time (s : State) : (receiveTask s).mdm.time = s.mdm.time := by
  have h := congrArg (fun u : State => u.mdm.time) (receiveTask_spec s).2.2.1; exact h
@[simp] theorem receiveTask_txbuf (s : State) : (receiveTask s).mdm.txbuf = s.mdm.txbuf := by
  have h := congrArg (fun u : State => u.mdm.txbuf) (receiveTask_spec s).2.2.1; exact h
@[simp] theorem receiveTask_rxbulk (s : State) : (receiveTask s).mdm.rxbulk = s.mdm.rxbulk := by
  have h := congrArg (fun u : State => u.mdm.rxbulk) (receiveTask_spec s).2.2.1; exact h
@[simp] theorem receiveTask_noisebuf (s : State) : (receiveTask s).mdm.noisebuf = s.mdm.noisebuf := by
  have h := congrArg (fun u : State => u.mdm.noisebuf) (receiveTask_spec s).2.2.1; exact h

/-! ## The dispatcher -/

theorem runTasks_eq (s : State) :
    runTasks s =
      if txPending s then resultTask (if rxPending s then receiveTask s else s)
      else if rxPending s then receiveTask s else s := by
  have : txPending (if rxPending s then receiveTask s else s) = txPending s := by
    split
    · simp [txPending]
    · rfl
  unfold runTasks
  simp only [this]

theorem dispatchBody_eq (s : State) :
    dispatchBody s = if s.mdm.err then errorPath s else runTasks (recordFlags s) := rfl

/-- What the error path does (R206). -/
theorem errorPath_eq (s : State) :
    errorPath s =
      { s with
        stat := { s.stat with
          rxDropped := s.stat.rxDropped + BitVec.ofNat 32 (popcount (newPayloadFlags s)) }
        mdm := { s.mdm with
          rxIntPay := s.mdm.rxIntPay &&& ~~~(newPayloadFlags s)
          err := false
          maskRx := false
          irqReq := unrecordedFlags s || s.mdm.irqReq } } := by
  have e : unrecordedFlags ((underMaskRx (fun m => { m with
      rxIntPay := m.rxIntPay &&& ~~~(newPayloadFlags s), err := false }) s).countDrops
        (popcount (newPayloadFlags s))) = unrecordedFlags s := rfl
  unfold errorPath
  simp only [e]
  by_cases h : unrecordedFlags s = true
  · rw [if_pos h, h]; rfl
  · have h' : unrecordedFlags s = false := by simpa using h
    rw [if_neg h, h']; rfl

theorem flag_newPayloadFlags (s : State) (i : SlotId) :
    flag (newPayloadFlags s) i = (flag s.mdm.rxIntPay i && !flag s.eng.rxPendPay i) := by
  simp only [newPayloadFlags, flag_and, flag_xor]
  cases flag s.mdm.rxIntPay i <;> cases flag s.eng.rxPendPay i <;> rfl

theorem execIrqDispatch_next {s t : State} (h : execIrqDispatch s = .next t) :
    s.mdm.irqReq = true ∧ s.mdm.maskTx = false ∧ s.mdm.maskRx = false ∧
      t = answered (dispatchBody (enterHandler s)) .silent := by
  obtain ⟨hc, hn⟩ := whenEnabled_next h
  simp only [dispatchEnabled, Bool.and_eq_true, Bool.not_eq_true'] at hc
  exact ⟨hc.1.1, hc.1.2, hc.2, (Host.Outcome.next.inj hn).symm⟩

/-! ## POLL_RX -/

theorem consumeRx_eq (s : State) (i : SlotId) :
    consumeRx s i =
      { s with
        eng := { s.eng with
          rx := s.eng.rx.set i { s.eng.rx.get i with ready := false, hdrValid := false }
          rxPendPay := clearFlag s.eng.rxPendPay i
          rxLast := i }
        mdm := { s.mdm with rxIntPay := clearFlag s.mdm.rxIntPay i, maskRx := false } } := rfl

theorem consumeNoise_eq (s : State) :
    consumeNoise s =
      { s with
        eng := { s.eng with noiseReady := false, rxPendNoise := false }
        mdm := { s.mdm with rxIntNoise := false, maskRx := false } } := rfl

/-- POLL_RX consumes one ready slot, with a message or a drop; or the noise capture; or nothing (R211,
R212). -/
theorem execPollRx_next {s t : State} (h : execPollRx s = .next t) :
    (∃ i, nextRxSlot s = some i ∧
      ((∃ m, decodeReady s i = .message m ∧
          t = answered (consumeRx s i) (.message (some (.frame i (s.eng.rx.get i).mode m (s.mdm.rxTime.get i)
            (reportedQuality s i))))) ∨
        (∃ e, decodeReady s i = .raised e ∧ t = answered ((consumeRx s i).countDrops 1) (.message none)))) ∨
    (nextRxSlot s = none ∧ s.eng.noiseReady = true ∧
      t = answered (consumeNoise s)
        (.message (some (.noise (s.bytesAt .noisebuf .s0 0 s.params.noiseSize) s.mdm.noiseTime)))) ∨
    (nextRxSlot s = none ∧ s.eng.noiseReady = false ∧ t = answered s (.message none)) := by
  unfold execPollRx at h
  split at h
  · next i hi =>
    unfold serveSlot at h
    split at h
    · cases h
    · next e he => exact .inl ⟨i, hi, .inr ⟨e, he, (Host.Outcome.next.inj h).symm⟩⟩
    · next m hm => exact .inl ⟨i, hi, .inl ⟨m, hm, (Host.Outcome.next.inj h).symm⟩⟩
  · next hi =>
    split at h
    · next hn => exact .inr (.inl ⟨hi, hn, (Host.Outcome.next.inj h).symm⟩)
    · next hn => exact .inr (.inr ⟨hi, by simpa using hn, (Host.Outcome.next.inj h).symm⟩)

theorem nextRxSlot_some {s : State} {i : SlotId} (h : nextRxSlot s = some i) :
    (s.eng.rx.get i).ready = true :=
  List.find?_some (p := fun i => (s.eng.rx.get i).ready) h

theorem nextRxSlot_none {s : State} : nextRxSlot s = none ↔ ∀ i, (s.eng.rx.get i).ready = false := by
  unfold nextRxSlot
  rw [List.find?_eq_none]
  constructor
  · intro h i
    have := h i (mem_scanOrder _ _ i)
    simpa using this
  · intro h i _
    simp [h i]

/-! ## The modem's receive events -/

/-- The header region of slot `i` written whole. -/
def headerStored (s : State) (i : SlotId) (h : HeaderBytes) : State :=
  s.setRegion .rxhdr i ((s.region .rxhdr i).store 0 h.toBytes)

theorem memWrite_header (s : State) (i : SlotId) (h : HeaderBytes) :
    memWrite s .rxhdr i 0 h.toBytes = .ok (headerStored s i h) :=
  memWrite_eq (by simp [HeaderBytes.toBytes, regionSize]) i

theorem execRxHeaderDone_next {i : SlotId} {m : FrameMode} {hd : HeaderBytes} {s t : State}
    (h : execRxHeaderDone i m hd s = .next t) :
    flag s.mdm.rxOpen i = false ∧ flag s.mdm.rxIntHdr i = false ∧ flag s.mdm.rxIntPay i = false ∧
      t = answered ((headerStored s i hd).withMdm
        { (headerStored s i hd).mdm with
          rxMode := s.mdm.rxMode.set i m, rxOpen := setFlag s.mdm.rxOpen i,
          rxIntHdr := setFlag s.mdm.rxIntHdr i, irqReq := true }) .silent := by
  obtain ⟨hc, hn⟩ := whenEnabled_next h
  simp only [Bool.and_eq_true, Bool.not_eq_true'] at hc
  rw [memWrite_header] at hn
  exact ⟨hc.1.1, hc.1.2, hc.2, (Host.Outcome.next.inj hn).symm⟩

theorem execRxPayloadDone_next {i : SlotId} {bulk : Bytes} {x : Nat} {q : Quality} {s t : State}
    (h : execRxPayloadDone i bulk x q s = .next t) :
    flag s.mdm.rxOpen i = true ∧ flag s.mdm.rxIntPay i = false ∧ bulk.length ≤ s.params.rxbulkSize ∧
      t = answered ((imageStored s .rxbulk i bulk).withMdm
        { (imageStored s .rxbulk i bulk).mdm with
          rxTime := s.mdm.rxTime.set i (wrapTime s.params x), rxQ := s.mdm.rxQ.set i q,
          rxOpen := clearFlag s.mdm.rxOpen i, rxIntPay := setFlag s.mdm.rxIntPay i,
          irqReq := true }) .silent := by
  obtain ⟨hc, hn⟩ := whenEnabled_next h
  simp only [Bool.and_eq_true, Bool.not_eq_true'] at hc
  split at hn
  · cases hn
  · next u hu =>
    obtain ⟨h1, rfl⟩ := storeImage_ok hu
    exact ⟨hc.1, hc.2, h1, (Host.Outcome.next.inj hn).symm⟩

theorem execNoiseDone_next {bytes : Bytes} {x : Nat} {s t : State} (h : execNoiseDone bytes x s = .next t) :
    s.mdm.rxIntNoise = false ∧ bytes.length ≤ s.params.noiseSize ∧
      t = answered ((imageStored s .noisebuf .s0 bytes).withMdm
        { (imageStored s .noisebuf .s0 bytes).mdm with
          noiseTime := wrapTime s.params x, rxIntNoise := true, irqReq := true }) .silent := by
  obtain ⟨hc, hn⟩ := whenEnabled_next h
  simp only [Bool.not_eq_true'] at hc
  split at hn
  · cases hn
  · next u hu =>
    obtain ⟨h1, rfl⟩ := storeImage_ok hu
    exact ⟨hc, h1, (Host.Outcome.next.inj hn).symm⟩

theorem execRxError_next {i : SlotId} {s t : State} (h : execRxError i s = .next t) :
    flag s.mdm.rxOpen i = true ∧ flag s.mdm.rxIntPay i = false ∧
      t = answered (failReception s i) .silent := by
  obtain ⟨hc, hn⟩ := whenEnabled_next h
  simp only [Bool.and_eq_true, Bool.not_eq_true'] at hc
  exact ⟨hc.1, hc.2, (Host.Outcome.next.inj hn).symm⟩

theorem failReception_forget (s : State) (i : SlotId) :
    failReception s i = (s.withMdm
      { s.mdm with
        err := true, rxIntPay := setFlag s.mdm.rxIntPay i, rxOpen := clearFlag s.mdm.rxOpen i, irqReq := true,
        rxTime := s.mdm.rxTime.set i (wrapTime s.params (Config.freeRxTime s.free i)),
        rxQ := s.mdm.rxQ.set i (Config.freeQuality s.free i) }).forget .rxbulk i 0 := rfl

theorem failReception_eq (s : State) (i : SlotId) :
    failReception s i =
      { s with
        mdm := { s.mdm with
          err := true
          rxIntPay := setFlag s.mdm.rxIntPay i
          rxOpen := clearFlag s.mdm.rxOpen i
          irqReq := true
          rxTime := s.mdm.rxTime.set i (wrapTime s.params (Config.freeRxTime s.free i))
          rxQ := s.mdm.rxQ.set i (Config.freeQuality s.free i)
          rxbulk := s.mdm.rxbulk.set i ⟨(s.mdm.rxbulk.get i).cells.truncate 0, s.free + 1⟩ }
        free := s.free + 1 } := rfl

/-! ## Images in the modem's buffers, written out -/

theorem imageStored_txbuf (s : State) (i : SlotId) (bs : Bytes) :
    imageStored s .txbuf i bs =
      { s with
        mdm := { s.mdm with
          txbuf := s.mdm.txbuf.set i (.mk (((s.mdm.txbuf.get i).cells.overwrite 0 bs).truncate bs.length)
            (s.free + 1)) }
        free := s.free + 1 } := rfl

theorem imageStored_rxbulk (s : State) (i : SlotId) (bs : Bytes) :
    imageStored s .rxbulk i bs =
      { s with
        mdm := { s.mdm with
          rxbulk := s.mdm.rxbulk.set i (.mk (((s.mdm.rxbulk.get i).cells.overwrite 0 bs).truncate bs.length)
            (s.free + 1)) }
        free := s.free + 1 } := rfl

theorem imageStored_noisebuf (s : State) (bs : Bytes) :
    imageStored s .noisebuf .s0 bs =
      { s with
        mdm := { s.mdm with noisebuf :=
          ⟨(s.mdm.noisebuf.cells.overwrite 0 bs).truncate bs.length, s.free + 1⟩ }
        free := s.free + 1 } := rfl

theorem headerStored_eq (s : State) (i : SlotId) (h : HeaderBytes) :
    headerStored s i h =
      { s with mdm := { s.mdm with rxhdr := s.mdm.rxhdr.set i ((s.mdm.rxhdr.get i).store 0 h.toBytes) } } :=
  rfl

end Sys2Proof.Machine
end

