-- ==== Sys2Proof/Laws/Steps.lean ====
section
/-! SUPPORT. Step inversion, and what the remaining operations answer: configuration, the controller, the
resets, the CRC and codec functions. -/

namespace Sys2Proof.Machine

/-- A step runs the decoded head of the agenda. -/
theorem step_next {s t : State} (h : step s = .next t) :
    ∃ item rest i, s.agenda = item :: rest ∧ decode item = .ok i ∧ i.wellFormed s.params = true ∧
      exec i (s.withAgenda rest) = .next t := by
  unfold step at h
  split at h
  · cases h
  · next item rest ha =>
    split at h
    · cases h
    · next i hi =>
      split at h
      · next hw => exact ⟨item, rest, i, ha, hi, hw, h⟩
      · cases h

theorem step_fault {s : State} {f : Fault} (h : step s = .fault f) :
    ∃ item rest i, s.agenda = item :: rest ∧ decode item = .ok i ∧ i.wellFormed s.params = true ∧
      exec i (s.withAgenda rest) = .fault f := by
  unfold step at h
  split at h
  · cases h
  · next item rest ha =>
    split at h
    · cases h
    · next i hi =>
      split at h
      · next hw => exact ⟨item, rest, i, ha, hi, hw, h⟩
      · cases h

/-! ## Configuration -/

theorem execSetChannel_next {v : BitVec 8} {s t : State} (h : execSetChannel v s = .next t) :
    (channelOperand v = none ∧ t = answered s (.error .invalidChannel)) ∨
    ∃ c, channelOperand v = some c ∧ t = answered (switchChannel s c) .ok := by
  unfold execSetChannel at h
  split at h
  · next hc => exact .inl ⟨hc, (Host.Outcome.next.inj h).symm⟩
  · next c hc => exact .inr ⟨c, hc, (Host.Outcome.next.inj h).symm⟩

theorem execGetConfigParam_next {id : BitVec 16} {s t : State} (h : execGetConfigParam id s = .next t) :
    ∃ r, t = answered s r := by
  unfold execGetConfigParam at h
  split at h
  · exact ⟨_, (Host.Outcome.next.inj h).symm⟩
  · exact ⟨_, (Host.Outcome.next.inj h).symm⟩

theorem execSetConfigParam_next {id : BitVec 16} {v : Nat} {s t : State}
    (h : execSetConfigParam id v s = .next t) :
    (∃ e, e ≠ .bufferBusy ∧ t = answered s (.error e)) ∨
    ∃ k, paramOfId id = some k ∧ legalValue s.params k v = true ∧ t = answered (writeParam s k v) .ok := by
  unfold execSetConfigParam at h
  split at h
  · exact .inl ⟨_, by decide, (Host.Outcome.next.inj h).symm⟩
  · next k hk =>
    split at h
    · exact .inl ⟨_, by decide, (Host.Outcome.next.inj h).symm⟩
    · split at h
      · exact .inl ⟨_, by decide, (Host.Outcome.next.inj h).symm⟩
      · next hl => exact .inr ⟨k, hk, by simpa using hl, (Host.Outcome.next.inj h).symm⟩

/-- A parameter write touches the configuration, the counters, the selection and the seeds, nothing else
(47_config.md R234). -/
theorem writeParam_frame (s : State) (k : ParamKey) (v : Nat) :
    writeParam s k v = { s with
      cfg := (writeParam s k v).cfg
      stat := (writeParam s k v).stat
      eng := { s.eng with sel := (writeParam s k v).eng.sel, seed := (writeParam s k v).eng.seed } } := by
  cases k <;> rfl

/-! ## The functions, whose answer is all they do -/

theorem respondEncoded_next {r : Encoded} {s t : State} (h : respondEncoded r s = .next t) :
    (∃ x, t = answered s x) ∨ t = answered s.bumpFree (.error (Config.freeError s.free)) := by
  unfold respondEncoded at h
  split at h
  · exact .inl ⟨_, (Host.Outcome.next.inj h).symm⟩
  · exact .inl ⟨_, (Host.Outcome.next.inj h).symm⟩
  · exact .inr (Host.Outcome.next.inj h).symm

theorem respondDecoded_next {r : Decoded} {s t : State} (h : respondDecoded r s = .next t) :
    ∃ x, t = answered s x := by
  unfold respondDecoded at h
  split at h
  · exact ⟨_, (Host.Outcome.next.inj h).symm⟩
  · exact ⟨_, (Host.Outcome.next.inj h).symm⟩
  · cases h

theorem execComputeCrc_next {n : Nat} {d : Bytes} {ht : HeaderType} {s t : State}
    (h : execComputeCrc n d ht s = .next t) : ∃ x, t = answered s x := by
  unfold execComputeCrc at h
  split at h
  · exact ⟨_, (Host.Outcome.next.inj h).symm⟩
  · exact ⟨_, (Host.Outcome.next.inj h).symm⟩

/-! ## The resets, written out -/

theorem softReset_eq (s : State) :
    softReset s =
      { s with
        eng := { s.eng with
          tx := .ofFn (softResetTx s), txPend := 0, txLast := .s3, rx := .ofFn (resetRx s)
          noiseReady := false, rxPendHdr := 0, rxPendPay := 0, rxPendNoise := false, rxLast := .s3 }
        mdm := reinitMdm s
        free := s.free + 1 } := rfl

theorem hardReset_eq (s : State) :
    hardReset s =
      { s with
        cfg := s.cfg0
        stat := Stats.zero
        eng :=
          { tx := .ofFn (hardResetTx s), txPend := 0, txLast := .s3, rx := .ofFn (resetRx s)
            noiseReady := false, rxPendHdr := 0, rxPendPay := 0, rxPendNoise := false, rxLast := .s3
            imp := s.cfg0.defaultImpedance, sel := selectFor s.cfg0 s.cfg0.defaultImpedance
            seed := snaSeeds s.params s.cfg0.sna }
        mdm := reinitMdm s
        free := s.free + 1 } := rfl

/-- Both fields of a re-initialised result register read InProcess (70_reset_and_hazards.md R279). -/
theorem resultCode_reinit {s : State} (hw : 3 ≤ s.params.resultFieldW)
    (hs : s.params.resultFieldW ≤ s.params.resultFieldStride) (i : SlotId) :
    (s.withMdm (reinitMdm s)).resultCode i = .inProcess := by
  have h7 : TxResult.inProcess.code < 2 ^ s.params.resultFieldW := code_lt_field hw _
  have key : ∀ reg, readField s.params (inProcessFields s.params reg) (resultOffset s.params i) = 7 := by
    intro reg
    unfold inProcessFields
    have hcase : resultOffset s.params i = s.params.resultFieldStride ∨ resultOffset s.params i = 0 := by
      cases i <;> simp [resultOffset, SlotId.toNat]
    rcases hcase with h | h
    · rw [h, readField_writeField _ _ _ _ h7]; rfl
    · rw [h, readField_writeField_below _ _ _ _ _ (by omega), readField_writeField _ _ _ _ h7]; rfl
  have hreg : ∃ reg, (s.withMdm (reinitMdm s)).resultReg i = inProcessFields s.params reg := by
    cases i <;> exact ⟨_, rfl⟩
  obtain ⟨reg, hreg⟩ := hreg
  unfold State.resultCode
  rw [hreg, withMdm_params, key]
  rfl

/-! ## Every step, said once -/

/-- What an instruction does when it answers a next state: the state before, the instruction, the state after
but for its response. Every constructor is one way one instruction can go, with the guard it passed. -/
inductive Effect (s : State) : Instr → State → Prop
  /-- The operation fails, or only answers. -/
  | same (i : Instr) : Effect s i s
  /-- A Type A encode without a header type. -/
  | unnamedSubmit {req : TxRequest} (hm : req.frameMode = .typeA) (hc : s.cfg.macCrcEnable = true) :
      Effect s (.submit req) s.bumpFree
  | unnamedEncode {sch : Scheme} {d : Bytes} (hc : s.cfg.macCrcEnable = true) :
      Effect s (.encodeA sch d) s.bumpFree
  | frameA (h : FrameAHeader) (b : Bytes) : Effect s (.frameA h b) s.bumpFree
  | frameB (h : FrameBHeader) (b : Bytes) : Effect s (.frameB h b) s.bumpFree
  | frameBC (o : FrameAHeader) (h : FrameBHeader) (b : Bytes) : Effect s (.frameBC o h b) s.bumpFree
  | submitBusy {req : TxRequest} {i : SlotId} (hi : slotOperand req.bufferId = some i)
      (hb : (s.eng.tx.get i).state.busy = true) (hp : s.params.busyPolicy = .reject) :
      Effect s (.submit req) (s.withStat { s.stat with busyTx := s.stat.busyTx + 1 })
  | submit {req : TxRequest} {i : SlotId} {sch : Scheme} {img : Bytes} {sym : Nat}
      (hi : slotOperand req.bufferId = some i) (hs : Scheme.ofCode? req.schemeCode.toNat = some sch)
      (he : encodeFrame s req.frameMode sch req.payload = .image img sym) (hl : img.length ≤ s.params.txbufSize)
      (hb : (s.eng.tx.get i).state.busy = true → s.params.busyPolicy = .overwrite) :
      Effect s (.submit req)
        (armSlot (imageStored (countBusy s i) .txbuf i img) i (submitConfig s req sch sym))
  | pollTxEmpty {v : BitVec 8} {i : SlotId} {u : State} (hi : slotOperand v = some i)
      (hu : u = if txPending s then resultTask s else s) (ho : (u.eng.tx.get i).outValid = false) :
      Effect s (.pollTxResult v) u
  | pollTxOutcome {v : BitVec 8} {i : SlotId} {u : State} (hi : slotOperand v = some i)
      (hu : u = if txPending s then resultTask s else s) (ho : (u.eng.tx.get i).outValid = true) :
      Effect s (.pollTxResult v) (u.setTx i (u.eng.tx.get i).consume)
  | pollRxMessage {i : SlotId} (hi : (s.eng.rx.get i).ready = true) : Effect s .pollRx (consumeRx s i)
  | pollRxDrop {i : SlotId} (hi : (s.eng.rx.get i).ready = true) :
      Effect s .pollRx ((consumeRx s i).countDrops 1)
  | pollRxNoise (hn : s.eng.noiseReady = true) : Effect s .pollRx (consumeNoise s)
  | setChannel {v : BitVec 8} {c : Channel} (hc : channelOperand v = some c) :
      Effect s (.setChannel v) (switchChannel s c)
  | setNetworkAddress (a : Sna) : Effect s (.setNetworkAddress a) (setAddress s a)
  | setConfigParam {id : BitVec 16} {v : Nat} {k : ParamKey} (hk : paramOfId id = some k)
      (hv : legalValue s.params k v = true) : Effect s (.setConfigParam id v) (writeParam s k v)
  | hardReset : Effect s .hardReset (hardReset s)
  | txStart {i : SlotId} (ha : (s.eng.tx.get i).state = .armed) :
      Effect s (.txStart i) (s.setTx i { s.eng.tx.get i with state := .inFlight })
  | txDone {i : SlotId} {c : TxResult} {r : Nat} (hi : flag s.mdm.txInt i = false)
      (hb : (s.eng.tx.get i).state.busy = true) : Effect s (.txDone i c r) (completeTransmission s i c r)
  | rxHeaderDone {i : SlotId} {m : FrameMode} {h : HeaderBytes} (ho : flag s.mdm.rxOpen i = false)
      (hh : flag s.mdm.rxIntHdr i = false) (hp : flag s.mdm.rxIntPay i = false) :
      Effect s (.rxHeaderDone i m h) ((headerStored s i h).withMdm
        { (headerStored s i h).mdm with
          rxMode := s.mdm.rxMode.set i m, rxOpen := setFlag s.mdm.rxOpen i,
          rxIntHdr := setFlag s.mdm.rxIntHdr i, irqReq := true })
  | rxPayloadDone {i : SlotId} {b : Bytes} {x : Nat} {q : Quality} (ho : flag s.mdm.rxOpen i = true)
      (hp : flag s.mdm.rxIntPay i = false) (hl : b.length ≤ s.params.rxbulkSize) :
      Effect s (.rxPayloadDone i b x q) ((imageStored s .rxbulk i b).withMdm
        { (imageStored s .rxbulk i b).mdm with
          rxTime := s.mdm.rxTime.set i (wrapTime s.params x), rxQ := s.mdm.rxQ.set i q,
          rxOpen := clearFlag s.mdm.rxOpen i, rxIntPay := setFlag s.mdm.rxIntPay i, irqReq := true })
  | noiseDone {b : Bytes} {x : Nat} (hn : s.mdm.rxIntNoise = false) (hl : b.length ≤ s.params.noiseSize) :
      Effect s (.noiseDone b x) ((imageStored s .noisebuf .s0 b).withMdm
        { (imageStored s .noisebuf .s0 b).mdm with
          noiseTime := wrapTime s.params x, rxIntNoise := true, irqReq := true })
  | rxError {i : SlotId} (ho : flag s.mdm.rxOpen i = true) (hp : flag s.mdm.rxIntPay i = false) :
      Effect s (.rxError i) (failReception s i)
  | timeAdvance (d : Nat) :
      Effect s (.timeAdvance d) (s.withMdm { s.mdm with time := wrapTime s.params (s.mdm.time + d) })
  | timeoutExpire {i : SlotId} (hb : (s.eng.tx.get i).state.busy = true) :
      Effect s (.timeoutExpire i) (softReset (latchTimeout s i))
  | irqError (hm : s.mdm.maskTx = false) (hr : s.mdm.maskRx = false) (he : s.mdm.err = true) :
      Effect s .irqDispatch (errorPath (enterHandler s))
  | irqTasks (hm : s.mdm.maskTx = false) (hr : s.mdm.maskRx = false) (he : s.mdm.err = false) :
      Effect s .irqDispatch (runTasks (recordFlags (enterHandler s)))
  | rxTask : Effect s .rxTask (receiveTask s)
  | txResultTask : Effect s .txResultTask (resultTask s)
  | txResultRead (i : SlotId) : Effect s (.txResultRead i) (readResult s i)
  | impUpdate (r : Nat) : Effect s (.impUpdate r) (updateImpedance s r)
  | impReselect : Effect s .impReselect (reselect s)
  | updateSnaSeed (a : Sna) : Effect s (.updateSnaSeed a) (updateSeeds s a)
  | softReset : Effect s .softReset (softReset s)

theorem encodeTypeA_unnamed {p : Params} {m : Bool} {seed : PerWidth} {sch : Scheme} {d : Bytes}
    (h : encodeTypeA p m seed sch d = .unnamed) : m = true := by
  cases m
  · unfold encodeTypeA imageA at h
    simp only at h
    split at h
    · cases h
    · split at h
      · cases h
      · split at h
        · next hc => cases hc
        · split at h <;> cases h
  · rfl

theorem encodeTypeB_named (p : Params) (sch : Scheme) (d : Bytes) : encodeTypeB p sch d ≠ .unnamed := by
  unfold encodeTypeB
  simp only
  split
  · nofun
  · split <;> nofun

theorem encodeTypeBC_named (p : Params) (sch : Scheme) (d : Bytes) : encodeTypeBC p sch d ≠ .unnamed := by
  unfold encodeTypeBC
  simp only
  split
  · nofun
  · split
    · nofun
    · split <;> nofun

theorem execSubmit_effect {req : TxRequest} {s t : State} (h : execSubmit req s = .next t) :
    ∃ u r, Effect s (.submit req) u ∧ t = answered u r := by
  unfold execSubmit at h
  split at h
  · exact ⟨_, _, .same _, (Host.Outcome.next.inj h).symm⟩
  · next i hi =>
    split at h
    · exact ⟨_, _, .same _, (Host.Outcome.next.inj h).symm⟩
    · split at h
      · exact ⟨_, _, .same _, (Host.Outcome.next.inj h).symm⟩
      · next sch hs =>
        split at h
        · exact ⟨_, _, .same _, (Host.Outcome.next.inj h).symm⟩
        · next he =>
          refine ⟨s.bumpFree, _, ?_, (Host.Outcome.next.inj h).symm⟩
          unfold encodeFrame at he
          split at he
          · next hm => exact .unnamedSubmit hm (encodeTypeA_unnamed he)
          · exact absurd he (encodeTypeB_named _ _ _)
          · exact absurd he (encodeTypeBC_named _ _ _)
        · next img sym he =>
          unfold submitImage at h
          split at h
          · next hb =>
            simp only [Bool.and_eq_true, decide_eq_true_eq] at hb
            refine ⟨_, .error .bufferBusy, .submitBusy hi hb.1 hb.2, ?_⟩
            rw [← Host.Outcome.next.inj h]
            simp [countBusy, hb.1]
          · next hb =>
            split at h
            · cases h
            · next u hu =>
              have := storeImage_ok hu
              have hp : (countBusy s i).params = s.params := by unfold countBusy; split <;> rfl
              rw [hp] at this
              refine ⟨_, .ok, .submit hi hs he this.1 (overwrite_of_accepted hb), ?_⟩
              rw [← this.2]
              exact (Host.Outcome.next.inj h).symm

/-- Every next state is one of the effects, with a response. -/
theorem exec_effect {i : Instr} {s t : State} (h : exec i s = .next t) :
    ∃ u r, Effect s i u ∧ t = answered u r := by
  have silent : ∀ {u : State} {r : Response}, Effect s i u → respond r u = .next t →
      ∃ u r, Effect s i u ∧ t = answered u r :=
    fun he hr => ⟨_, _, he, (Host.Outcome.next.inj hr).symm⟩
  have enc : ∀ {r : Encoded}, r ≠ .unnamed → respondEncoded r s = .next t → Effect s i s →
      ∃ u r, Effect s i u ∧ t = answered u r := by
    intro r hr hn he
    cases r with
    | unnamed => exact absurd rfl hr
    | image b n => exact silent he hn
    | raised e => exact silent he hn
  have dec : ∀ {r : Decoded} {v : State}, respondDecoded r v = .next t → Effect s i v →
      ∃ u r, Effect s i u ∧ t = answered u r := by
    intro r v hn he
    obtain ⟨x, hx⟩ := respondDecoded_next hn
    exact ⟨_, _, he, hx⟩
  cases i with
  | submit req => exact execSubmit_effect h
  | pollTxResult v =>
    rcases execPollTxResult_next h with rfl | ⟨i, u, hi, hu, ⟨ho, rfl⟩ | ⟨ho, rfl⟩⟩
    · exact ⟨_, _, .same _, rfl⟩
    · exact ⟨_, _, .pollTxOutcome hi hu ho, rfl⟩
    · exact ⟨_, _, .pollTxEmpty hi hu ho, rfl⟩
  | pollRx =>
    rcases execPollRx_next h with ⟨i, hi, ⟨m, _, rfl⟩ | ⟨e, _, rfl⟩⟩ | ⟨_, hn, rfl⟩ | ⟨_, _, rfl⟩
    · exact ⟨_, _, .pollRxMessage (nextRxSlot_some hi), rfl⟩
    · exact ⟨_, _, .pollRxDrop (nextRxSlot_some hi), rfl⟩
    · exact ⟨_, _, .pollRxNoise hn, rfl⟩
    · exact ⟨_, _, .same _, rfl⟩
  | setChannel v =>
    rcases execSetChannel_next h with ⟨_, rfl⟩ | ⟨c, hc, rfl⟩
    · exact ⟨_, _, .same _, rfl⟩
    · exact ⟨_, _, .setChannel hc, rfl⟩
  | setNetworkAddress a => exact silent (.setNetworkAddress a) h
  | getConfigParam id => obtain ⟨r, rfl⟩ := execGetConfigParam_next h; exact ⟨_, _, .same _, rfl⟩
  | setConfigParam id v =>
    rcases execSetConfigParam_next h with ⟨e, _, rfl⟩ | ⟨k, hk, hv, rfl⟩
    · exact ⟨_, _, .same _, rfl⟩
    · exact ⟨_, _, .setConfigParam hk hv, rfl⟩
  | computeCrc n d ht => obtain ⟨r, rfl⟩ := execComputeCrc_next h; exact ⟨_, _, .same _, rfl⟩
  | hardReset => exact silent .hardReset h
  | txStart i => obtain ⟨ha, _, rfl⟩ := execTxStart_next h; exact ⟨_, _, .txStart ha, rfl⟩
  | txDone i c r =>
    obtain ⟨he, rfl⟩ := execTxDone_next h
    simp only [txDoneEnabled, Bool.and_eq_true, Bool.or_eq_true, Bool.not_eq_true', decide_eq_true_eq] at he
    refine ⟨_, _, .txDone he.1.2 ?_, rfl⟩
    rcases he.2 with h1 | ⟨h1, _⟩ <;> rw [h1] <;> rfl
  | rxHeaderDone i m hd =>
    obtain ⟨h1, h2, h3, rfl⟩ := execRxHeaderDone_next h; exact ⟨_, _, .rxHeaderDone h1 h2 h3, rfl⟩
  | rxPayloadDone i b x q =>
    obtain ⟨h1, h2, h3, rfl⟩ := execRxPayloadDone_next h; exact ⟨_, _, .rxPayloadDone h1 h2 h3, rfl⟩
  | noiseDone b x => obtain ⟨h1, h2, rfl⟩ := execNoiseDone_next h; exact ⟨_, _, .noiseDone h1 h2, rfl⟩
  | rxError i => obtain ⟨h1, h2, rfl⟩ := execRxError_next h; exact ⟨_, _, .rxError h1 h2, rfl⟩
  | timeAdvance d => obtain ⟨_, _, rfl⟩ := execTimeAdvance_next h; exact ⟨_, _, .timeAdvance d, rfl⟩
  | timeoutExpire i =>
    obtain ⟨he, rfl⟩ := execTimeoutExpire_next h
    simp only [timeoutEnabled, Bool.and_eq_true] at he
    exact ⟨_, _, .timeoutExpire he.1.1.1, rfl⟩
  | irqDispatch =>
    obtain ⟨_, h2, h3, rfl⟩ := execIrqDispatch_next h
    rw [dispatchBody_eq]
    by_cases he : s.mdm.err = true
    · refine ⟨_, .silent, .irqError h2 h3 he, ?_⟩
      exact congrArg (fun u => answered u .silent) (if_pos he)
    · refine ⟨_, .silent, .irqTasks h2 h3 (by simpa using he), ?_⟩
      exact congrArg (fun u => answered u .silent) (if_neg he)
  | rxTask => exact silent .rxTask h
  | txResultTask => exact silent .txResultTask h
  | txResultRead i => exact silent (.txResultRead i) h
  | impUpdate r => exact silent (.impUpdate r) h
  | impReselect => exact silent .impReselect h
  | updateSnaSeed a => exact silent (.updateSnaSeed a) h
  | softReset => exact silent .softReset h
  | symcalc n sch => exact silent (.same _) h
  | encodeA sch d =>
    change respondEncoded (encodeTypeA s.params s.cfg.macCrcEnable s.eng.seed sch d) s = _ at h
    cases he : encodeTypeA s.params s.cfg.macCrcEnable s.eng.seed sch d with
    | unnamed =>
      rw [he] at h
      exact ⟨_, _, .unnamedEncode (encodeTypeA_unnamed he), (Host.Outcome.next.inj h).symm⟩
    | image b n => rw [he] at h; exact silent (.same _) h
    | raised e => rw [he] at h; exact silent (.same _) h
  | encodeB sch d => exact enc (encodeTypeB_named _ _ _) h (.same _)
  | encodeBC sch d => exact enc (encodeTypeBC_named _ _ _) h (.same _)
  | decodeA i => exact dec h (.same _)
  | decodeB i => exact dec h (.same _)
  | decodeBC i => exact dec h (.same _)
  | crcRoll w x d => exact silent (.same _) h
  | frameA hd b => exact dec h (.frameA hd b)
  | frameB hd b => exact dec h (.frameB hd b)
  | frameBC o hd b => exact dec h (.frameBC o hd b)

end Sys2Proof.Machine
end

