-- ==== Sys2Proof/Laws/Readings.lean ====
section
/-! SUPPORT. The statements' own readings of the spec (Safety.lean) and the model's functions, put side by side;
and the step as one of the effects. -/

namespace Sys2Proof.Machine

/-! ## Operands -/

theorem slotOperand_iff {v : BitVec 8} {i : SlotId} : slotOperand v = some i ↔ v.toNat = i.toNat := by
  unfold slotOperand
  generalize v.toNat = n
  constructor
  · intro h
    match n, h with
    | 0, h => cases h; rfl
    | 1, h => cases h; rfl
    | 2, h => cases h; rfl
    | 3, h => cases h; rfl
  · intro h; subst h; cases i <;> rfl

theorem slotOperand_none {v : BitVec 8} : slotOperand v = none ↔ 3 < v.toNat := by
  unfold slotOperand
  generalize v.toNat = n
  match n with
  | 0 => simp [SlotId.ofNat?]
  | 1 => simp [SlotId.ofNat?]
  | 2 => simp [SlotId.ofNat?]
  | 3 => simp [SlotId.ofNat?]
  | k + 4 => simp [SlotId.ofNat?]

theorem scheme_ofCode?_index {n : Nat} {s : Scheme} (h : n = s.index.toNat) : Scheme.ofCode? n = some s := by
  subst h; cases s <;> rfl

theorem slotId_toNat_inj {i j : SlotId} (h : i.toNat = j.toNat) : i = j := by
  cases i <;> cases j <;> first | rfl | cases h

/-! ## Result fields and times -/

theorem resultField_eq (s : State) (i : SlotId) :
    resultField s i = readField s.params (s.resultReg i) (resultOffset s.params i) := by
  unfold resultField readField resultOffset
  rw [Nat.shiftRight_eq_div_pow]
  cases i <;> rfl

/-- The code a field stands for is the one the model reads (30_encoding.md R108). -/
theorem resultIs_iff (s : State) (i : SlotId) (c : TxResult) :
    ResultIs (resultField s i) c ↔ c = s.resultCode i := by
  rw [resultField_eq]
  unfold State.resultCode resultOfField ResultIs
  generalize readField _ _ _ = n
  constructor
  · rintro (rfl | ⟨h, rfl⟩)
    · cases c <;> rfl
    · obtain ⟨k, rfl⟩ : ∃ k, n = k + 8 := ⟨n - 8, by omega⟩
      rfl
  · rintro rfl
    by_cases h : n ≤ 7
    · left
      exact (by decide : ∀ i : Fin 8, (i : Nat) = (resultOfField i).code) ⟨n, by omega⟩
    · right
      refine ⟨by omega, ?_⟩
      obtain ⟨k, rfl⟩ : ∃ k, n = k + 8 := ⟨n - 8, by omega⟩
      rfl

theorem tally_eq (x : Stats) (c : TxResult) : x.tally c = tallied x c := by
  cases c <;> simp [Stats.tally, tallied]

/-- The scheduled start, over the integers (44_tx_scheduler.md R167). -/
theorem scheduleTime_eq (p : Params) (now : Nat) (x : Schedule) :
    ((scheduleTime p now x).1 : Int) = (match x with
      | .immediate => (now : Int) - (p.immediateBackdate : Int)
      | .relativeDelay d => (now : Int) + (max d p.minDelayQuantum : Nat)
      | .absoluteTime a => (a : Int)) % (2 : Int) ^ p.timeW := by
  cases x with
  | immediate => exact ticksSince_eq _ _ _
  | relativeDelay d => simp [scheduleTime, wrapTime]
  | absoluteTime a => simp [scheduleTime, wrapTime]

/-! ## Scans -/

theorem toNat_ofNatMod (n : Nat) : (SlotId.ofNatMod n).toNat = n % 4 := by
  unfold SlotId.ofNatMod
  split
  · simp [SlotId.toNat]; omega
  · split
    · simp [SlotId.toNat]; omega
    · split
      · simp [SlotId.toNat]; omega
      · simp [SlotId.toNat]; omega

/-- The model's scan finds the first slot in scan order (46_dispatcher.md R209). -/
theorem scanOrder_find (p : Params) (l : SlotId) (q : SlotId → Bool) (i : SlotId) :
    (scanOrder p l).find? q = some i ↔ FirstInScan p l (fun j => q j = true) i := by
  unfold scanOrder FirstInScan
  generalize l.toNat + p.rrStartOffset = n
  have key : ∀ (k : Nat) (j : SlotId), j.toNat = (n + k) % 4 → j = SlotId.ofNatMod (n + k) :=
    fun k j h => slotId_toNat_inj (h.trans (toNat_ofNatMod _).symm)
  have t0 : (SlotId.ofNatMod n).toNat = (n + 0) % 4 := toNat_ofNatMod n
  have t1 := toNat_ofNatMod (n + 1)
  have t2 := toNat_ofNatMod (n + 2)
  have t3 := toNat_ofNatMod (n + 3)
  have k0 : ∀ j : SlotId, j.toNat = (n + 0) % 4 → j = SlotId.ofNatMod n := key 0
  have k1 := key 1
  have k2 := key 2
  have k3 := key 3
  generalize SlotId.ofNatMod n = a0 at *
  generalize SlotId.ofNatMod (n + 1) = a1 at *
  generalize SlotId.ofNatMod (n + 2) = a2 at *
  generalize SlotId.ofNatMod (n + 3) = a3 at *
  simp only [List.find?_cons, List.find?_nil]
  have lt : ∀ {k : Nat}, k < 4 → k = 0 ∨ k = 1 ∨ k = 2 ∨ k = 3 := by omega
  constructor
  · intro h
    cases h0 : q a0 with
    | true => rw [h0] at h; cases h; exact ⟨0, by omega, t0, h0, by omega⟩
    | false =>
      cases h1 : q a1 with
      | true =>
        rw [h0, h1] at h; cases h
        refine ⟨1, by omega, t1, h1, ?_⟩
        intro k j hk hj
        obtain rfl : k = 0 := by omega
        rw [k0 j hj, h0]; decide
      | false =>
        cases h2 : q a2 with
        | true =>
          rw [h0, h1, h2] at h; cases h
          refine ⟨2, by omega, t2, h2, ?_⟩
          intro k j hk hj
          rcases (by omega : k = 0 ∨ k = 1) with rfl | rfl
          · rw [k0 j hj, h0]; decide
          · rw [k1 j hj, h1]; decide
        | false =>
          cases h3 : q a3 with
          | true =>
            rw [h0, h1, h2, h3] at h; cases h
            refine ⟨3, by omega, t3, h3, ?_⟩
            intro k j hk hj
            rcases (by omega : k = 0 ∨ k = 1 ∨ k = 2) with rfl | rfl | rfl
            · rw [k0 j hj, h0]; decide
            · rw [k1 j hj, h1]; decide
            · rw [k2 j hj, h2]; decide
          | false => rw [h0, h1, h2, h3] at h; cases h
  · rintro ⟨k, hk, hi, hq, hb⟩
    have b0 : 0 < k → q a0 = false := fun h => by simpa using hb 0 a0 h t0
    have b1 : 1 < k → q a1 = false := fun h => by simpa using hb 1 a1 h t1
    have b2 : 2 < k → q a2 = false := fun h => by simpa using hb 2 a2 h t2
    rcases lt hk with rfl | rfl | rfl | rfl
    · obtain rfl := k0 i hi; rw [hq]
    · obtain rfl := k1 i hi; rw [b0 (by omega), hq]
    · obtain rfl := k2 i hi; rw [b0 (by omega), b1 (by omega), hq]
    · obtain rfl := k3 i hi; rw [b0 (by omega), b1 (by omega), b2 (by omega), hq]

/-! ## Encoders -/

/-- A payload that can be framed is framed, and its count fits (42_codec_encode.md R140). -/
theorem encodeFrame_of_encodable {s : State} {mode : FrameMode} {sch : Scheme} {payload : Bytes}
    (h : Encodable s mode sch payload) :
    ∃ img sym, encodeFrame s mode sch payload = .image img sym ∧ sym ≤ 4095 := by
  obtain ⟨h1, h2, h3⟩ := h
  have hl := lenOkTx_iff.2 ⟨h1, h2⟩
  cases mode with
  | typeA =>
    obtain ⟨hr, c, hc, hf⟩ := h3
    have : ∃ tr, typeATrailer s.params s.cfg.macCrcEnable s.eng.seed payload = some tr ∧ tr.length = c := by
      rcases hc with ⟨hm, rfl⟩ | ⟨hm, ht, hh, rfl⟩
      · exact ⟨[], by simp [typeATrailer, hm], rfl⟩
      · exact ⟨macCrcTrailer s.params s.eng.seed ht payload, by rw [typeATrailer, hm, if_pos rfl, hh],
          by rw [length_macCrcTrailer, crcLenOf_eq]⟩
    obtain ⟨tr, ht, rfl⟩ := this
    change ∃ img sym, encodeTypeA _ _ _ _ _ = _ ∧ _
    rw [encodeTypeA_eq]
    simp only [hl, hr, ht]
    unfold imageA
    have hf' : fieldOkA (txSymbols s.params sch (totalLen s.params sch payload.length tr.length))
        (padLen s.params sch (totalLen s.params sch payload.length tr.length)) = true := fieldOkA_iff.2 hf
    simp only [Bool.true_eq_false, Bool.false_eq_true, if_false, hf', if_true]
    exact ⟨_, _, rfl, hf.1⟩
  | typeB =>
    change ∃ img sym, encodeTypeB _ _ _ = _ ∧ _
    unfold encodeTypeB
    have hf' : fieldOkB (txSymbols s.params sch (totalLen s.params sch payload.length 0))
        (padLen s.params sch (totalLen s.params sch payload.length 0)) = true := fieldOkB_iff.2 h3
    simp only [hl, Bool.not_true, Bool.false_eq_true, if_false, hf', if_true]
    exact ⟨_, _, rfl, h3.1⟩
  | typeBC =>
    change ∃ img sym, encodeTypeBC _ _ _ = _ ∧ _
    unfold encodeTypeBC
    have hf' : fieldOkB (txSymbols s.params sch (totalLen s.params sch payload.length 0))
        (padLen s.params sch (totalLen s.params sch payload.length 0)) = true := fieldOkB_iff.2 h3.1
    have hf'' : fieldOkA (txSymbols s.params sch (6 + totalLen s.params sch payload.length 0))
        (padLen s.params sch (6 + totalLen s.params sch payload.length 0)) = true := fieldOkA_iff.2 h3.2
    simp only [hl, Bool.not_true, Bool.false_eq_true, if_false, hf', hf'', if_true]
    exact ⟨_, _, rfl, h3.2.1⟩

/-- The encoder instruction of a mode answers what the submit builds. -/
theorem exec_encoderOf (s : State) (mode : FrameMode) (sch : Scheme) (payload : Bytes) :
    exec (encoderOf mode sch payload) s = respondEncoded (encodeFrame s mode sch payload) s := by
  cases mode <;> rfl

/-- The decoder instruction of a mode answers what the poll decodes. -/
theorem exec_decoderOf (s : State) (mode : FrameMode) (i : SlotId) :
    exec (decoderOf mode i) s = respondDecoded (decodeSlot s mode i) s := by
  cases mode <;> rfl

/-! ## Steps as effects -/

/-- A step has the effect of the decoded instruction on the state with the item taken off. -/
theorem step_effect {s t : State} (h : step s = .next t) :
    ∃ item rest i u r, s.agenda = item :: rest ∧ decode item = .ok i ∧ i.wellFormed s.params = true ∧
      Effect (s.withAgenda rest) i u ∧ t = answered u r := by
  obtain ⟨item, rest, i, h1, h2, h3, h4⟩ := step_next h
  obtain ⟨u, r, h5, h6⟩ := exec_effect h4
  exact ⟨_, _, _, _, _, h1, h2, h3, h5, h6⟩

/-- What serving one completion keeps, the result task keeps. -/
theorem resultTask_keeps {P : State → Prop}
    (h : ∀ s i, P s → P (readResult (s.withEng { s.eng with txPend := clearFlag s.eng.txPend i, txLast := i }) i))
    (s : State) (hs : P s) : P (resultTask s) := by
  rw [resultTask_eq]
  split
  · exact hs
  · exact h _ _ hs

/-- What both tasks keep, a dispatch without an error keeps. -/
theorem runTasks_keeps {P : State → Prop} (ht : ∀ s, P s → P (resultTask s)) (hr : ∀ s, P s → P (receiveTask s))
    {s : State} (h : P s) : P (runTasks s) := by
  have h1 : P (if rxPending s then receiveTask s else s) := by
    split
    · exact hr _ h
    · exact h
  rw [runTasks_eq]
  split
  · exact ht _ h1
  · exact h1

/-- What the result task keeps, the task run of a poll keeps. -/
theorem pollTask_keeps {P : State → Prop} (ht : ∀ s, P s → P (resultTask s)) {s : State} (h : P s) :
    P (if txPending s then resultTask s else s) := by
  split
  · exact ht _ h
  · exact h

end Sys2Proof.Machine
end

