-- ==== Sys2Proof/Tests/Slice0.lean ====
section
/-! SUPPORT. The model's own tests: operands of a wrong type are refused, words written out from the spec's
tables decode, the vectors of 95_test_vectors.md, and for each statement with hypotheses a state and operands
that meet them. A test is one step on a small state. -/

namespace Sys2Proof.Tests

open Sys2Proof Sys2Proof.Machine

-- Each test waits for the kernel, so elaborating them side by side only piles up waiting threads.
set_option Elab.async false

/-! ## Small states and readings -/

/-- A reading of the next state, if the step gives one. -/
def after {α : Type} (o : Out) (f : State → α) : Option α :=
  match o with
  | .next t => some (f t)
  | .fault _ => none
  | .refused _ => none

/-- The response, if the step gives a next state. -/
def resp (o : Out) : Option Response := after o State.resp

/-- The step is not enabled. -/
def notEnabled (o : Out) : Bool :=
  match o with
  | .refused .notEnabled => true
  | _ => false

/-- The next state, or the state after reset where there is none. -/
def nextOf (o : Out) : State := (after o id).getD State.reset

theorem exists_next {o : Out} (h : (after o fun _ => true) = some true) : ∃ t, o = .next t := by
  cases o with
  | next t => exact ⟨t, rfl⟩
  | fault f => cases h
  | refused r => cases h

/-- `p9` of 95_test_vectors.md. -/
def p9 : Bytes := [0, 1, 2, 3, 4, 5, 6, 7, 8]

/-- `d9` of 95_test_vectors.md. -/
def d9 : Bytes := [0x31, 0x32, 0x33, 0x34, 0x35, 0x36, 0x37, 0x38, 0x39]

/-- The bytes `00 01 .. n-1`. -/
def ramp (n : Nat) : Bytes := (List.range n).map (BitVec.ofNat 8)

/-- A header region with the given first bytes, the rest zero. -/
def region16 (first : Bytes) : Bytes := (first ++ List.replicate 16 0).take 16

/-- `hA` of vector VX11. -/
def hA : HeaderBytes := headerOf [0, 0, 4, 3, 0, 1, 2, 3, 4, 5, 6]

/-- The smallest Type A request (program P1 step 1). -/
def minA (slot : BitVec 8) (sched : Schedule) : TxRequest := ⟨slot, 0, 0, .typeA, false, p9, sched⟩

/-- Reset with another configuration. -/
def withCfg (f : PhyConfig → PhyConfig) : State := { State.reset with cfg := f State.reset.cfg }

/-- Reset with other parameters. -/
def withParams (f : Params → Params) : State := { State.reset with params := f State.reset.params }

/-- Reset at a time. -/
def atTime (n : Nat) : State := { State.reset with mdm := { State.reset.mdm with time := n } }

/-- A slot set to a state, its latch as the state has it. -/
def slotIn (st : SlotState) (i : SlotId) (s : State) : State :=
  s.setTx i { s.eng.tx.get i with state := st, outValid := decide (st = .success ∨ st = .error) }

/-- Slot 2 in flight, its completion flagged and recorded, with a result field and an RMS. -/
def completed (code : TxResult) (rms : Nat) : State :=
  let s := (slotIn .inFlight .s2 State.reset).setResultCode .s2 code
  { s with
    mdm := { s.mdm with txInt := 4, rms := s.mdm.rms.set .s2 rms }
    eng := { s.eng with txPend := 4 } }

/-- Slot `i` ready, with a cached header and bulk bytes. -/
def ready (i : SlotId) (mode : FrameMode) (header bulk : Bytes) : State :=
  { State.reset with
    eng := { State.reset.eng with
      rx := State.reset.eng.rx.set i ⟨true, true, mode, ⟨cellsFrom 0 (region16 header), 0⟩⟩
      rxPendPay := setFlag 0 i }
    mdm := { State.reset.mdm with
      rxIntPay := setFlag 0 i, rxbulk := State.reset.mdm.rxbulk.set i ⟨cellsFrom 0 bulk, 0⟩ } }

/-- The controller in a state, under a peak-cut mode, its outputs selected. -/
def inState (imp : ImpedanceState) (peakCut : Bool) : State :=
  let s := withCfg fun c => { c with peakCutMode := peakCut }
  { s with eng := { s.eng with imp := imp, sel := selectFor s.cfg imp } }

/-- The state after a header has arrived in slot 2. -/
def headerIn : State := nextOf (exec (.rxHeaderDone .s2 .typeB (headerOf [0xE0, 0x28, 0x0A])) State.reset)

/-- The state with a written-down operation scheduled. -/
def queued (bytes : Bytes) (s : State) : State := { s with agenda := [.operation bytes] }

/-! ## Operands outside their types -/

def wf (i : Instr) : Bool := i.wellFormed defaultParams

theorem test_wf_schedule : wf (.submit (minA 0 (.relativeDelay (2 ^ 32)))) = false ∧
    wf (.submit (minA 0 (.absoluteTime (2 ^ 32)))) = false ∧
    wf (.submit (minA 0 (.absoluteTime (2 ^ 32 - 1)))) = true := by decide +kernel

theorem test_wf_txDone : wf (.txDone .s0 .success 65536) = false ∧ wf (.txDone .s0 .success 65535) = true := by
  decide +kernel

theorem test_wf_rxPayloadDone : wf (.rxPayloadDone .s0 (ramp 529) 0 default) = false ∧
    wf (.rxPayloadDone .s0 (ramp 528) (2 ^ 32) default) = false ∧
    wf (.rxPayloadDone .s0 (ramp 528) 0 default) = true := by decide +kernel

theorem test_wf_noiseDone : wf (.noiseDone (ramp 15) 0) = false ∧ wf (.noiseDone (ramp 17) 0) = false ∧
    wf (.noiseDone (ramp 16) (2 ^ 32)) = false ∧ wf (.noiseDone (ramp 16) 0) = true := by decide +kernel

theorem test_wf_timeAdvance : wf (.timeAdvance (2 ^ 32)) = false ∧ wf (.timeAdvance 1) = true := by decide +kernel

theorem test_wf_impUpdate : wf (.impUpdate 65536) = false ∧ wf (.impUpdate 0) = true := by decide +kernel

theorem test_wf_crcRoll : wf (.crcRoll .w8 0x100 []) = false ∧ wf (.crcRoll .w24 0x1000000 []) = false ∧
    wf (.crcRoll .w8 0xFF []) = true := by decide +kernel

/-- The outer header of a Type BC image is ignored, its MAC bytes too: with 16 bytes FF there, as in vector VD22, the
step reads what the nested header announces (30_encoding.md R106). -/
theorem test_step_frameBC_outerIgnored :
    resp (step { State.reset with agenda :=
      [.frame .typeBC (List.replicate 16 0xFF ++ (region16 [0, 4, 4] ++ ramp 20))] }) =
      some (.frame ⟨.dbpsk, none, ramp 20⟩) := by decide +kernel

/-- An ill-formed operand stops the step by name. -/
theorem test_step_illFormed :
    (match step (queued [0x44, 0x80, 0x80, 0x04] State.reset) with
      | .refused .illFormed => true
      | _ => false) = true := by decide +kernel

/-! ## Words written out from the tables (30_encoding.md R110, R92, R96; operand layout of log 2) -/

def reads (bytes : Bytes) (i : Instr) : Prop := decode (.operation bytes) = .ok i

theorem test_word_submit : reads
    [0x01, 0, 0x2A, 7, 1, 0, 9, 0, 1, 2, 3, 4, 5, 6, 7, 8, 1, 0x0A]
    (.submit ⟨0, 0x2A, 7, .typeB, false, p9, .relativeDelay 10⟩) := by rfl
theorem test_word_pollTxResult : reads [0x02, 7] (.pollTxResult 7) := by rfl
theorem test_word_pollRx : reads [0x03] .pollRx := by rfl
theorem test_word_setChannel : reads [0x04, 5] (.setChannel 5) := by rfl
theorem test_word_setNetworkAddress : reads [0x05, 0x00, 0x80, 0xE1, 0x00, 0x00, 0x01]
    (.setNetworkAddress ⟨0x00, 0x80, 0xE1, 0x00, 0x00, 0x01⟩) := by rfl
theorem test_word_getConfigParam : reads [0x06, 0x11, 0x06] (.getConfigParam 0x1106) := by rfl
theorem test_word_setConfigParam : reads [0x07, 0x11, 0x06, 0xB0, 0x09] (.setConfigParam 0x1106 1200) := by rfl
theorem test_word_computeCrc : reads [0x08, 32, 2, 0xAB, 0xCD, 1] (.computeCrc 32 [0xAB, 0xCD] .promotion) := by rfl
theorem test_word_hardReset : reads [0x09] .hardReset := by rfl
theorem test_word_txStart : reads [0x20, 3] (.txStart .s3) := by rfl
theorem test_word_txDone : reads [0x21, 2, 2, 0xBC, 0x05] (.txDone .s2 .busyChannel 700) := by rfl
theorem test_word_rxHeaderDone :
    reads [0x22, 1, 2, 16, 17, 18, 19, 20, 21, 22, 23, 24, 25, 26, 27, 28, 29, 30, 31]
    (.rxHeaderDone .s1 .typeBC ⟨16, 17, 18, 19, 20, 21, 22, 23, 24, 25, 26, 27, 28, 29, 30, 31⟩) := by rfl
theorem test_word_rxPayloadDone :
    reads [0x23, 1, 2, 0xAA, 0xBB, 77, 1, 2, 0, 3, 0, 4, 0, 0, 0, 5, 0, 0, 0, 6]
    (.rxPayloadDone .s1 [0xAA, 0xBB] 77 ⟨1, 2, 3, 4, 5, 6⟩) := by rfl
theorem test_word_noiseDone : reads [0x24, 3, 9, 8, 7, 77] (.noiseDone [9, 8, 7] 77) := by rfl
theorem test_word_rxError : reads [0x25, 2] (.rxError .s2) := by rfl
theorem test_word_timeAdvance : reads [0x26, 0xE8, 0x07] (.timeAdvance 1000) := by rfl
theorem test_word_timeoutExpire : reads [0x27, 0] (.timeoutExpire .s0) := by rfl
theorem test_word_irqDispatch : reads [0x40] .irqDispatch := by rfl
theorem test_word_rxTask : reads [0x41] .rxTask := by rfl
theorem test_word_txResultTask : reads [0x42] .txResultTask := by rfl
theorem test_word_txResultRead : reads [0x43, 1] (.txResultRead .s1) := by rfl
theorem test_word_impUpdate : reads [0x44, 0xF3, 0x03] (.impUpdate 499) := by rfl
theorem test_word_impReselect : reads [0x45] .impReselect := by rfl
theorem test_word_updateSnaSeed : reads [0x46, 1, 2, 3, 4, 5, 6] (.updateSnaSeed ⟨1, 2, 3, 4, 5, 6⟩) := by rfl
theorem test_word_softReset : reads [0x47] .softReset := by rfl
theorem test_word_symcalc : reads [0x48, 50, 7] (.symcalc 50 .dqpskRobo) := by rfl
theorem test_word_encodeA : reads [0x49, 3, 2, 0, 1] (.encodeA .dbpskC [0, 1]) := by rfl
theorem test_word_encodeB : reads [0x4A, 4, 2, 0, 1] (.encodeB .dqpskC [0, 1]) := by rfl
theorem test_word_encodeBC : reads [0x4B, 5, 2, 0, 1] (.encodeBC .d8pskC [0, 1]) := by rfl
theorem test_word_decodeA : reads [0x4C, 0] (.decodeA .s0) := by rfl
theorem test_word_decodeB : reads [0x4D, 1] (.decodeB .s1) := by rfl
theorem test_word_decodeBC : reads [0x4E, 2] (.decodeBC .s2) := by rfl
theorem test_word_crcRoll : reads [0x4F, 2, 0x00, 0xEA, 0x8F, 0x03, 2, 0xAB, 0xCD]
    (.crcRoll .w24 0xEA8F03 [0xAB, 0xCD]) := by rfl

/-- The image of vector VE7: every field of the Type A layout is different from zero but the mode's. -/
theorem test_word_frameA :
    decode (.frame .typeA [3, 0, 0x0C, 5, 0, 0x41, 0x42, 0x43, 0x44, 0x45, 0x46, 0, 0, 0, 0, 0, 0x47, 0x48, 0x49, 0x4A, 0x4B]) =
      .ok (.frameA ⟨.dbpskC, 3, 5, ⟨0, 0x41, 0x42, 0x43, 0x44, 0x45, 0x46⟩, 0, 0⟩ [0x47, 0x48, 0x49, 0x4A, 0x4B]) := by
  rfl

/-- The header of vector VE12 (the pad of VE12 is 2, the symbol count 332). -/
theorem test_word_frameB :
    decode (.frame .typeB ([0xC2, 0x98, 0x02] ++ List.replicate 13 0 ++ [9])) =
      .ok (.frameB ⟨.dbpskRobo, 332, 2, 0, 0, 0⟩ [9]) := by rfl

/-- The two headers of vector VE10. -/
theorem test_word_frameBC :
    decode (.frame .typeBC ([6, 0, 0x30, 3] ++ List.replicate 12 0 ++ ([0xC0, 0x10, 3] ++ List.replicate 13 0) ++ p9)) =
      .ok (.frameBC ⟨.dbpskRobo, 12, 3, ⟨0, 0, 0, 0, 0, 0, 0⟩, 0, 0⟩ ⟨.dbpskRobo, 8, 3, 0, 0, 0⟩ p9) := by rfl

/-- Reserved bits and unused bytes do not enter (30_encoding.md R94, R104): the header of vector VD1 with every
one of them set. (Vector VD15 means this one; the bytes it prints set bits of `sch` and `sym` too, log 29.) -/
theorem test_word_reserved :
    decode (.frame .typeA [0xF8, 0xC0, 7, 0xC3, 0, 1, 2, 3, 4, 5, 6, 0xFF, 0xFF, 0xFF, 0xFF, 0xFF]) =
      .ok (.frameA ⟨.dbpsk, 1, 3, ⟨0, 1, 2, 3, 4, 5, 6⟩, 0xFF, 0xFF⟩ []) := by rfl

/-- The codes of 60_exceptions.md R246. -/
theorem test_error_codes : [OpError.invalidBuffer, .invalidLength, .invalidScheme, .bufferBusy, .invalidCrcWidth,
    .invalidChannel, .invalidParam, .readOnly, .invalidValue, .invalidHeader].map OpError.code =
    [1, 2, 3, 4, 5, 6, 7, 8, 9, 10] := by decide

theorem test_word_refused : decode (.operation [0x0A]) = .error (.unknownOp 0x0A) ∧
    decode (.operation [0x20, 4]) = .error (.badCode "slot") ∧ decode (.operation [0x20]) = .error .truncated ∧
    decode (.operation [0x20, 1, 1]) = .error .trailing ∧ decode (.operation []) = .error .empty := by
  refine ⟨?_, ?_, ?_, ?_, ?_⟩ <;> rfl

/-- The table's numbering: an op byte with zero operands, and the two header layouts. -/
theorem test_tableWord : decodeTableWord 8 0x21 = some (.txDone .s0 .success 0) ∧
    decodeTableWord 32 0x03000C05 = some (.frameA ⟨.dbpskC, 3, 5, ⟨0, 0, 0, 0, 0, 0, 0⟩, 0, 0⟩ []) ∧
    decodeTableWord 24 0xE0280A = some (.frameB ⟨.dqpskRobo, 20, 10, 0, 0, 0⟩ []) := by decide +kernel

/-! ## Vectors (95_test_vectors.md); the vector is named before each test -/

/-- VC3, VC4, VC11: one byte, the polynomial comes out; a message with its own CRC leaves zero. -/
theorem test_crcRoll :
    resp (exec (.crcRoll .w24 0 [1]) State.reset) = some (.residue 0x864CFB) ∧
    resp (exec (.crcRoll .w32 0 [0x80]) State.reset) = some (.residue 0x690CE0EE) ∧
    resp (exec (.crcRoll .w16 0 (d9 ++ [0x31, 0xC3])) State.reset) = some (.residue 0) := by decide +kernel

/-- VC6, VC8: the header type selects the seed. -/
theorem test_computeCrc :
    resp (exec (.computeCrc 32 d9 .beacon) State.reset) = some (.crc 0x89A1897F none) ∧
    resp (exec (.computeCrc 32 d9 .generic) State.reset) = some (.crc 0x9572411A none) ∧
    resp (exec (.computeCrc 8 d9 .promotion) State.reset) = some (.crc 0xF4 none) := by decide +kernel

/-- VC14, VC15. -/
theorem test_computeCrc_width :
    resp (exec (.computeCrc 12 d9 .generic) State.reset) = some (.crc 0 (some .invalidCrcWidth)) ∧
    resp (exec (.computeCrc 0 [] .beacon) State.reset) = some (.crc 0 (some .invalidCrcWidth)) := by
  decide +kernel

/-- VC7. -/
theorem test_updateSnaSeed : after (exec (.updateSnaSeed ⟨0x00, 0x80, 0xE1, 0x00, 0x00, 0x01⟩) State.reset)
    (fun t => t.eng.seed) = some ⟨0xE2, 0xC0AF, 0xEA8F03, 0x48246A05⟩ := by decide +kernel

/-- VC13. -/
theorem test_setNetworkAddress :
    after (exec (.setNetworkAddress ⟨0xFF, 0xFF, 0xFF, 0xFF, 0xFF, 0xFF⟩) State.reset)
    (fun t => (t.eng.seed, t.cfg.sna.b5)) = some (⟨0x48, 0x97DF, 0xE97084, 0xC532D80F⟩, 0xFF) := by
  decide +kernel

/-- VS7, VS14, VS1. -/
theorem test_symcalc : resp (exec (.symcalc 50 .dqpskRobo) State.reset) = some (.symbols 20 10) ∧
    resp (exec (.symcalc 37 .d8psk) State.reset) = some (.symbols 2 35) ∧
    resp (exec (.symcalc 0 .dbpsk) State.reset) = some (.symbols 0 0) := by decide +kernel

/-- VE2, VE3. -/
theorem test_encodeA :
    resp (exec (.encodeA .dbpsk p9) (withCfg fun c => { c with macCrcEnable := true })) = some (.image
      [0, 0, 8, 0x0B, 0, 1, 2, 3, 4, 5, 6, 0, 0, 0, 0, 0, 7, 8, 0x61, 0xDC, 0xFE, 0xE4] 2) ∧
    resp (exec (.encodeA .dbpsk (0x10 :: p9.drop 1)) (withCfg fun c => { c with macCrcEnable := true })) =
      some (.image [0, 0, 4, 2, 0x10, 1, 2, 3, 4, 5, 6, 0, 0, 0, 0, 0, 7, 8, 0xBB] 1) := by decide +kernel

/-- VE14, VE16, VE18. -/
theorem test_encodeA_refuses :
    resp (exec (.encodeA .dbpsk (ramp 8)) State.reset) = some (.error .invalidLength) ∧
    resp (exec (.encodeA .dqpskRobo p9) State.reset) = some (.error .invalidScheme) ∧
    resp (exec (.encodeA .dqpskRobo (ramp 8)) State.reset) = some (.error .invalidLength) := by decide +kernel

/-- VE5, VE6. -/
theorem test_encodeB :
    resp (exec (.encodeB .dqpskRobo (ramp 50)) State.reset) =
      some (.image ([0xE0, 0x28, 0x0A] ++ List.replicate 13 0 ++ ramp 50) 20) ∧
    resp (exec (.encodeB .d8pskC (ramp 20)) State.reset) =
      some (.image ([0xA0, 4, 0x0F] ++ List.replicate 13 0 ++ ramp 20) 2) := by decide +kernel

/-- VE10, VE11. -/
theorem test_encodeBC :
    resp (exec (.encodeBC .dbpskRobo p9) State.reset) = some (.image
      (region16 [6, 0, 0x30, 3] ++ region16 [0xC0, 0x10, 3] ++ p9) 12) ∧
    resp (exec (.encodeBC .dbpskC (ramp 30)) State.reset) = some (.image
      (region16 [3, 0, 0x1C, 5] ++ region16 [0x60, 0x0C, 5] ++ ramp 30) 7) := by decide +kernel

/-- VD1, VD4 (the trailer is payload where MAC-CRC is off), VD6 (no bulk byte). -/
theorem test_decodeA :
    resp (exec (.decodeA .s1) (ready .s1 .typeA [0, 0, 4, 3, 0, 1, 2, 3, 4, 5, 6] [7, 8])) =
      some (.frame ⟨.dbpsk, some .generic, p9⟩) ∧
    resp (exec (.decodeA .s1)
      (ready .s1 .typeA [0, 0, 8, 0x0B, 0, 1, 2, 3, 4, 5, 6] [7, 8, 0x61, 0xDC, 0xFE, 0xE4])) =
      some (.frame ⟨.dbpsk, some .generic, p9 ++ [0x61, 0xDC, 0xFE, 0xE4]⟩) ∧
    resp (exec (.decodeA .s1) (ready .s1 .typeA [0, 0, 4, 7, 0, 1, 2, 3, 4, 5, 6] [])) =
      some (.frame ⟨.dbpsk, some .generic, [0, 1, 2, 3, 4]⟩) := by decide +kernel

/-- VD8, VD10, VD12, VD13, VD14. -/
theorem test_decodeA_refuses :
    resp (exec (.decodeA .s0) (ready .s0 .typeA [0, 0, 4, 0x0B] [])) = some (.error .invalidLength) ∧
    resp (exec (.decodeA .s0) (ready .s0 .typeA [0, 0, 0, 5] [])) = some (.error .invalidLength) ∧
    resp (exec (.decodeA .s0) (ready .s0 .typeA [0, 0, 0xAC, 3] [])) = some (.error .invalidLength) ∧
    resp (exec (.decodeA .s0) (ready .s0 .typeA [7, 0, 4, 0] [])) = some (.error .invalidScheme) ∧
    resp (exec (.decodeA .s0) (ready .s0 .typeA [0, 0, 4, 3, 0x30] [])) = some (.error .invalidHeader) := by
  decide +kernel

/-- VD18 (floor division), VD19. -/
theorem test_decodeB :
    resp (exec (.decodeB .s2) (ready .s2 .typeB [0xE0, 0x2C, 0x0A] (ramp 50 ++ [0xAA]))) =
      some (.frame ⟨.dqpskRobo, none, ramp 50⟩) ∧
    resp (exec (.decodeB .s2) (ready .s2 .typeB [0xA0, 4, 0x0F] (ramp 20))) =
      some (.frame ⟨.d8pskC, none, ramp 20⟩) := by decide +kernel

/-- VD22: the outer header is not used. -/
theorem test_decodeBC :
    resp (exec (.decodeBC .s3)
      (ready .s3 .typeBC (List.replicate 16 0xFF) (region16 [0, 4, 4] ++ ramp 20))) =
      some (.frame ⟨.dbpsk, none, ramp 20⟩) := by decide +kernel

/-- VE2 and VE5 as images; VD20. -/
theorem test_frameA :
    resp (exec (.frameA ⟨.dbpsk, 2, 11, ⟨0, 1, 2, 3, 4, 5, 6⟩, 0, 0⟩ [7, 8, 0x61, 0xDC, 0xFE, 0xE4])
      (withCfg fun c => { c with macCrcEnable := true })) = some (.frame ⟨.dbpsk, some .generic, p9⟩) ∧
    resp (exec (.frameA ⟨.dbpsk, 0, 0, ⟨0, 0, 0, 0, 0, 0, 0⟩, 0, 0⟩ []) State.reset) =
      some (.error .invalidLength) := by decide +kernel

theorem test_frameB :
    resp (exec (.frameB ⟨.dqpskRobo, 20, 10, 0, 0, 0⟩ (ramp 50)) State.reset) =
      some (.frame ⟨.dqpskRobo, none, ramp 50⟩) ∧
    resp (exec (.frameB ⟨.dbpsk, 1, 11, 0, 0, 0⟩ []) State.reset) = some (.error .invalidLength) := by
  decide +kernel

/-- VE9. -/
theorem test_frameBC :
    resp (exec (.frameBC ⟨.dbpsk, 3, 10, ⟨0, 0, 0, 0, 0, 0, 0⟩, 0, 0⟩ ⟨.dbpsk, 2, 4, 0, 0, 0⟩ (ramp 20))
      State.reset) = some (.frame ⟨.dbpsk, none, ramp 20⟩) := by decide +kernel

/-- P1 step 1 and P4 step 1. -/
theorem test_submit :
    after (exec (.submit (minA 0 .immediate)) (atTime 1000)) (fun t =>
      (t.resp, t.bytesAt .txbuf .s0 0 18, (t.eng.tx.get .s0).state, (t.eng.tx.get .s0).conf.schedTime,
        (t.eng.tx.get .s0).conf.attSignal)) =
      some (.ok, [0, 0, 4, 3, 0, 1, 2, 3, 4, 5, 6, 0, 0, 0, 0, 0, 7, 8], .armed, 999, 0x41) ∧
    after (exec (.submit ⟨1, 0, 7, .typeB, false, ramp 50, .relativeDelay 10⟩) (atTime 100)) (fun t =>
      ((t.eng.tx.get .s1).conf.symbols, (t.eng.tx.get .s1).conf.schedTime, (t.eng.tx.get .s1).conf.force,
        (t.eng.tx.get .s1).conf.timeout, (t.eng.tx.get .s0).state)) = some (20, 110, false, 20, .idle) := by
  decide +kernel

/-- VT18 to VT21 and P5 step 2 under Reject. -/
theorem test_submit_refuses :
    resp (exec (.submit ⟨4, 0, 9, .typeA, false, ramp 3, .immediate⟩) State.reset) = some (.error .invalidBuffer) ∧
    resp (exec (.submit ⟨0, 0, 9, .typeA, false, ramp 3, .immediate⟩) State.reset) = some (.error .invalidLength) ∧
    resp (exec (.submit ⟨0, 0, 9, .typeA, false, p9, .immediate⟩) State.reset) = some (.error .invalidScheme) ∧
    resp (exec (.submit ⟨0, 0, 7, .typeA, false, p9, .immediate⟩) State.reset) = some (.error .invalidScheme) ∧
    after (exec (.submit (minA 3 .immediate))
      (slotIn .armed .s3 (withParams fun p => { p with busyPolicy := .reject })))
      (fun t => (t.resp, t.stat.busyTx)) = some (.error .bufferBusy, 1) := by decide +kernel

/-- VT25, VT28 (the outcome is read and consumed), VT32. -/
theorem test_pollTxResult :
    after (exec (.pollTxResult 2) (completed .busyChannel 0))
      (fun t => (t.resp, (t.eng.tx.get .s2).state, t.stat.txBusyChannel, t.mdm.txInt, t.eng.txLast)) =
      some (.outcome (some ⟨.s2, .busyChannel, none⟩), .idle, 1, 0, .s2) ∧
    resp (exec (.pollTxResult 0) (completed .busyChannel 0)) = some (.outcome none) ∧
    resp (exec (.pollTxResult 7) State.reset) = some (.error .invalidBuffer) := by decide +kernel

/-- VI28, VI29. -/
theorem test_setChannel :
    after (exec (.setChannel 5) (inState .veryLow false)) (fun t =>
      (t.eng.sel.attChirp, t.eng.sel.attSignal, t.eng.sel.driver, t.eng.imp, t.cfg.channel)) =
      some (0x35, 0x65, .both, .veryLow, .c5) ∧
    resp (exec (.setChannel 0) State.reset) = some (.error .invalidChannel) ∧
    resp (exec (.setChannel 9) State.reset) = some (.error .invalidChannel) := by decide +kernel

/-- VG1, VG3, VG4, and the address as one number. -/
theorem test_getConfigParam :
    resp (exec (.getConfigParam 0x0005) State.reset) = some (.value 1) ∧
    resp (exec (.getConfigParam 0x0004) State.reset) = some (.value 0x0080E1000001) ∧
    resp (exec (.getConfigParam 0x1809) State.reset) = some (.value 300) ∧
    resp (exec (.getConfigParam 0x1900) State.reset) = some (.error .invalidParam) ∧
    resp (exec (.getConfigParam 0x110A) State.reset) = some (.error .invalidParam) := by decide +kernel

/-- VG10: the threshold is written, the controller keeps the one it has. -/
theorem test_setConfigParam :
    after (exec (.setConfigParam 0x1106 1200) State.reset) (fun t =>
      (t.resp, (t.cfg.profile.get .c1).threshold1, t.eng.sel.th1)) = some (.ok, 1200, 1000) := by decide +kernel

/-- VG5, VG7, VG8, VG12, VG17. -/
theorem test_setConfigParam_refuses :
    resp (exec (.setConfigParam 0x0005 9) State.reset) = some (.error .invalidValue) ∧
    resp (exec (.setConfigParam 0x0008 0) State.reset) = some (.error .readOnly) ∧
    resp (exec (.setConfigParam 0x0000 2) State.reset) = some (.error .invalidValue) ∧
    resp (exec (.setConfigParam 0x1106 65536) State.reset) = some (.error .invalidValue) ∧
    resp (exec (.setConfigParam 0x0203 3) State.reset) = some (.error .invalidValue) := by decide +kernel

/-- VR2, VR3: the configuration is reloaded, a completion is dropped without a count. -/
theorem test_hardReset :
    after (exec .hardReset (inState .low true)) (fun t =>
      (t.resp, t.eng.imp, t.cfg.peakCutMode, t.eng.sel.attChirp, t.eng.seed.w8)) =
      some (.ok, .high, false, 0x11, 0xE2) ∧
    after (exec .hardReset (completed .success 1)) (fun t =>
      ((t.eng.tx.get .s2).state, t.mdm.txInt, t.eng.txPend, t.mdm.txResult1, t.eng.txLast)) =
      some (.idle, 0, 0, 0x77, .s3) := by decide +kernel

/-- P4 step 11: an armed slot is abandoned, a latched outcome and the controller are kept. -/
theorem test_softReset :
    after (exec .softReset (slotIn .armed .s1 (slotIn .error .s2 (inState .low false)))) (fun t =>
      ((t.eng.tx.get .s1).state, (t.eng.tx.get .s2).state, (t.eng.tx.get .s2).outValid, t.eng.imp)) =
      some (.idle, .error, true, .low) := by decide +kernel

/-- P1 step 3; VT9 (half the range ahead is not reached). -/
theorem test_txStart :
    after (exec (.txStart .s0) (nextOf (exec (.submit (minA 0 .immediate)) (atTime 0))))
      (fun t => (t.eng.tx.get .s0).state) = some .inFlight ∧
    notEnabled (exec (.txStart .s0)
      (nextOf (exec (.submit (minA 0 (.absoluteTime 0x80000000))) (atTime 0)))) = true ∧
    notEnabled (exec (.txStart .s0) State.reset) = true := by decide +kernel

/-- P4 step 5; a success needs a slot in flight. -/
theorem test_txDone :
    after (exec (.txDone .s2 .busyChannel 0x0123) (slotIn .inFlight .s2 State.reset)) (fun t =>
      (t.mdm.txResult1, t.mdm.txResult0, t.mdm.rms.get .s2, t.mdm.txInt, t.mdm.irqReq)) =
      some (0x72, 0x77, 0x0123, 4, true) ∧
    notEnabled (exec (.txDone .s2 .success 0) (slotIn .armed .s2 State.reset)) = true ∧
    notEnabled (exec (.txDone .s2 .timeout 0) (slotIn .inFlight .s2 State.reset)) = true := by decide +kernel

/-- P2 step 1; VX3. -/
theorem test_rxHeaderDone :
    (headerIn.mdm.rxOpen, headerIn.mdm.rxIntHdr, headerIn.mdm.irqReq, headerIn.mdm.rxMode.get .s2,
      headerIn.bytesAt .rxhdr .s2 0 4) = (4, 4, true, .typeB, [0xE0, 0x28, 0x0A, 0]) ∧
    notEnabled (exec (.rxHeaderDone .s2 .typeB hA) headerIn) = true := by decide +kernel

/-- P2 step 5; VX4. -/
theorem test_rxPayloadDone :
    after (exec (.rxPayloadDone .s2 [7, 8] 5000 default) headerIn) (fun t =>
      (t.bytesAt .rxbulk .s2 0 2, t.mdm.rxTime.get .s2, t.mdm.rxOpen, t.mdm.rxIntPay, t.mdm.irqReq)) =
      some ([7, 8], 5000, 0, 4, true) ∧
    notEnabled (exec (.rxPayloadDone .s1 [] 0 default) State.reset) = true := by decide +kernel

/-- VX8, the event. -/
theorem test_noiseDone :
    after (exec (.noiseDone (ramp 16) 77) State.reset) (fun t =>
      (t.bytesAt .noisebuf .s0 0 16, t.mdm.noiseTime, t.mdm.rxIntNoise, t.mdm.irqReq)) =
      some (ramp 16, 77, true, true) := by decide +kernel

/-- VX11, the event. -/
theorem test_rxError :
    after (exec (.rxError .s2) headerIn) (fun t => (t.mdm.rxIntPay, t.mdm.err, t.mdm.rxOpen)) =
      some (4, true, 0) ∧ notEnabled (exec (.rxError .s2) State.reset) = true := by decide +kernel

/-- The time reference wraps; an advance of 0 or of half the range is none. -/
theorem test_timeAdvance :
    after (exec (.timeAdvance 100) (atTime 0xFFFFFFF0)) (fun t => t.mdm.time) = some 0x54 ∧
    notEnabled (exec (.timeAdvance 0) State.reset) = true ∧
    notEnabled (exec (.timeAdvance 0x80000000) State.reset) = true := by decide +kernel

/-- P4 steps 9 and 11: deadline 130. -/
theorem test_timeoutExpire :
    let s := nextOf (exec (.submit ⟨0, 0, 7, .typeB, false, ramp 50, .relativeDelay 10⟩) (atTime 100))
    after (exec (.timeoutExpire .s0) { s with mdm := { s.mdm with time := 130 } }) (fun t =>
      ((t.eng.tx.get .s0).state, (t.eng.tx.get .s0).outResult, t.stat.txTimeout)) = some (.error, .timeout, 1) ∧
    notEnabled (exec (.timeoutExpire .s0) { s with mdm := { s.mdm with time := 129 } }) = true := by
  decide +kernel

/-- VX2: the header is cached by one dispatch. -/
theorem test_irqDispatch :
    after (exec .irqDispatch headerIn) (fun t =>
      (t.bytesAt .hdrcache .s2 0 3, (t.eng.rx.get .s2).hdrValid, (t.eng.rx.get .s2).mode, t.mdm.rxIntHdr,
        t.eng.rxPendHdr)) = some ([0xE0, 0x28, 0x0A], true, .typeB, 0, 0) ∧
    after (exec .irqDispatch headerIn) (fun t => (t.mdm.rxOpen, t.mdm.irqReq)) = some (4, false) ∧
    notEnabled (exec .irqDispatch State.reset) = true := by decide +kernel

/-- VX11: the error path clears the unrecorded payload flags and asks again for the header. -/
theorem test_irqDispatch_error :
    after (exec .irqDispatch { ready .s0 .typeA [] [] with
      mdm := { (ready .s0 .typeA [] []).mdm with rxIntHdr := 6, rxIntPay := 7, err := true, irqReq := true } })
      (fun t => (t.mdm.rxIntPay, t.mdm.err, t.stat.rxDropped, t.eng.rxPendPay, t.mdm.irqReq, t.mdm.rxIntHdr)) =
      some (1, false, 2, 1, true, 6) := by decide +kernel

/-- VX5: a header and a payload in one run. -/
theorem test_rxTask :
    after (exec .rxTask { headerIn with eng := { headerIn.eng with rxPendHdr := 4, rxPendPay := 4 } }) (fun t =>
      ((t.eng.rx.get .s2).hdrValid, (t.eng.rx.get .s2).ready, t.mdm.rxIntHdr, t.eng.rxPendHdr, t.eng.rxPendPay,
        t.eng.rxLast)) = some (true, true, 0, 0, 4, .s3) := by decide +kernel

/-- VT24, VT25, VT26, VT27: which slot is served. -/
theorem test_txResultTask :
    let pend (last : SlotId) (p : Params) : State :=
      { State.reset with params := p, eng := { State.reset.eng with txPend := 5, txLast := last } }
    resp (exec .txResultTask (pend .s3 defaultParams)) = some (.served (some .s0)) ∧
    resp (exec .txResultTask (pend .s0 defaultParams)) = some (.served (some .s2)) ∧
    resp (exec .txResultTask (pend .s2 { defaultParams with rrStartOffset := 0 })) = some (.served (some .s2)) ∧
    resp (exec .txResultTask State.reset) = some (.served none) := by decide +kernel

/-- VT15, VT33: the field by slot parity, the RMS where quality is reported. -/
theorem test_txResultRead :
    after (exec (.txResultRead .s1) { State.reset with mdm := { State.reset.mdm with txResult0 := 0x27 } })
      (fun t => ((t.eng.tx.get .s1).outResult, (t.eng.tx.get .s1).outRms)) = some (.busyChannel, none) ∧
    (let s := completed .success 0x0123
     after (exec (.txResultRead .s2) { s with cfg := { s.cfg with qualityReportMode := true } })
      (fun t => ((t.eng.tx.get .s2).outResult, (t.eng.tx.get .s2).outRms, t.eng.imp))) =
      some (.success, some 0x0123, .low) := by decide +kernel

/-- VI2, VI3, VI5, VI6, VI11, VI14. -/
theorem test_impUpdate :
    after (exec (.impUpdate 1000) (inState .high false)) (fun t => t.eng.imp) = some .high ∧
    after (exec (.impUpdate 999) (inState .high false)) (fun t => t.eng.imp) = some .veryLow ∧
    after (exec (.impUpdate 500) (inState .high false)) (fun t => t.eng.imp) = some .high ∧
    after (exec (.impUpdate 499) (inState .high false)) (fun t => t.eng.imp) = some .low ∧
    after (exec (.impUpdate 800) (inState .low false)) (fun t => t.eng.imp) = some .low ∧
    after (exec (.impUpdate 299) (inState .low false)) (fun t => t.eng.imp) = some .veryLow := by decide +kernel

/-- VI7, VI16, VI18, VI19, VI20, VI21. -/
theorem test_impUpdate_peakCut :
    after (exec (.impUpdate 499) (inState .high true)) (fun t => t.eng.imp) = some .lowPeakCut ∧
    after (exec (.impUpdate 801) (inState .veryLow true)) (fun t => t.eng.imp) = some .high ∧
    after (exec (.impUpdate 299) (inState .lowPeakCut true)) (fun t => t.eng.imp) = some .veryLow ∧
    after (exec (.impUpdate 900) (inState .lowPeakCut true)) (fun t => t.eng.imp) = some .lowPeakCut ∧
    after (exec (.impUpdate 299) (inState .lowPeakCut false)) (fun t => t.eng.imp) = some .lowPeakCut ∧
    after (exec (.impUpdate 900) (inState .low true)) (fun t => t.eng.imp) = some .low := by decide +kernel

/-- VI24, VI26. -/
theorem test_impReselect :
    let outputs (s : State) := after (exec .impReselect s) fun t =>
      (t.eng.sel.attChirp, t.eng.sel.attSignal, t.eng.sel.bitflip, t.eng.sel.peakcutEn, t.eng.sel.driver)
    outputs State.reset = some (0x11, 0x41, false, false, .driver1) ∧
    outputs (inState .lowPeakCut true) = some (0x21, 0x51, true, true, .driver2) := by decide +kernel

/-- P2 step 7; VX10. -/
theorem test_pollRx :
    after (exec .pollRx (ready .s2 .typeB [0xE0, 0x28, 0x0A] (ramp 50 ++ [0xAA, 0xBB]))) (fun t =>
      (t.resp, (t.eng.rx.get .s2).ready, (t.eng.rx.get .s2).hdrValid, t.eng.rxPendPay, t.mdm.rxIntPay,
        t.eng.rxLast)) =
      some (.message (some (.frame .s2 .typeB ⟨.dqpskRobo, none, ramp 50⟩ 0 none)), false, false, 0, 0, .s2) := by
  decide +kernel

/-- VX6, VX8, the polls. -/
theorem test_pollRx_drop_noise :
    after (exec .pollRx (ready .s1 .typeA [0, 0, 4, 0x0B] [])) (fun t =>
      (t.resp, t.stat.rxDropped, t.eng.rxLast)) = some (.message none, 1, .s1) ∧
    (let n := nextOf (exec (.noiseDone (ramp 16) 77) State.reset)
     after (exec .pollRx { n with eng := { n.eng with noiseReady := true, rxPendNoise := true } }) (fun t =>
      (t.resp, t.mdm.rxIntNoise, t.eng.rxLast))) =
      some (.message (some (.noise (ramp 16) 77)), false, .s3) := by decide +kernel

/-! ## States that meet the hypotheses of the statements

`witness_<name>` is about the statement `Obligations.<name>`. -/

theorem defaultParams_ok : defaultParams.ok where
  encodeRange := by decide
  bpsPos := fun s => by cases s <;> decide
  bpsDbpsk := rfl
  bpsDqpskRobo := rfl
  polyWidth := fun w => by cases w <;> decide
  txbufBound := by decide
  rxbulkBound := by decide
  timeWidth := by decide
  backdatePos := by decide
  backdateBound := by decide
  timeoutBound := by decide
  rrOffset := by decide
  resultWidth := by decide
  resultStride := by decide
  rmsWidth := by decide

theorem params_ok (s : State) (h : s.params = defaultParams) : s.params.ok := h ▸ defaultParams_ok

theorem vectorConfig_legal : vectorConfig.legal defaultParams where
  guardBefore := by decide
  guardAfter := by decide
  profile := fun c => by cases c <;> exact ⟨by decide, by decide, by decide, by decide⟩

theorem witness_DecodeInvertsEncode :
    (Instr.txDone .s3 .inProcess 65535).wellFormed defaultParams = true ∧
    (Instr.crcRoll .w32 0xFFFFFFFF []).wellFormed defaultParams = true := by decide +kernel

theorem witness_UnknownOpsAreRefused : (0x00#8).toNat ∉ opCodes ∧ (0x0A#8).toNat ∉ opCodes ∧
    (0x1F#8).toNat ∉ opCodes ∧ (0x28#8).toNat ∉ opCodes ∧ (0x3F#8).toNat ∉ opCodes ∧
    (0x50#8).toNat ∉ opCodes ∧ (0xFF#8).toNat ∉ opCodes := by decide +kernel

/-- One item for each clause: TIME_ADVANCE(1); TX_DONE with an RMS of 65536, one too large; an unknown op; and
nothing. -/
theorem witness_StepRunsTheDecodedInstruction :
    ((queued [0x26, 1] State.reset).agenda = .operation [0x26, 1] :: [] ∧
      decode (.operation [0x26, 1]) = .ok (.timeAdvance 1) ∧
      (Instr.timeAdvance 1).wellFormed (queued [0x26, 1] State.reset).params = true) ∧
    (decode (.operation [0x21, 0, 0, 0x80, 0x80, 4]) = .ok (.txDone .s0 .success 65536) ∧
      (Instr.txDone .s0 .success 65536).wellFormed State.reset.params = false) ∧
    decode (.operation [0x0A]) = .error (.unknownOp 10) ∧ State.reset.agenda = [] :=
  ⟨⟨rfl, rfl, by decide +kernel⟩, ⟨by decide +kernel, by decide +kernel⟩, by decide +kernel, rfl⟩

theorem witness_CrcRolls :
    exec (.crcRoll .w24 0 [1]) State.reset = .next (answered State.reset (.residue 0x864CFB)) ∧
    SeedsOk State.reset :=
  ⟨congrArg (fun v => Host.Outcome.next (answered State.reset (.residue v)))
    (by decide +kernel : crcRoll State.reset.params .w24 0 [1] = 0x864CFB), rfl⟩

theorem witness_ComputeCrcSelectsTheSeed :
    ((9 : Nat) ≠ 8 ∧ (9 : Nat) ≠ 16 ∧ (9 : Nat) ≠ 24 ∧ (9 : Nat) ≠ 32) ∧
    ((0 : Nat) ≠ 8 ∧ (0 : Nat) ≠ 16 ∧ (0 : Nat) ≠ 24 ∧ (0 : Nat) ≠ 32) := by decide

theorem witness_SymcalcHasAnInverse : 0 < State.reset.params.bps.get .dbpsk := by decide

/-- Without a trailer, at the shortest and the longest payload; with each trailer length. -/
theorem witness_EncodeABuildsTheImage :
    (9 ≤ p9.length ∧ p9.length + State.reset.params.txReserve ≤ State.reset.params.maxPpduSize ∧
      State.reset.params.robust.get .dbpsk = false ∧ State.reset.cfg.macCrcEnable = false ∧
      symcalc State.reset.params (p9.length + 0 + 0) .dbpsk = (1, 3)) ∧
    (496 + State.reset.params.txReserve ≤ State.reset.params.maxPpduSize ∧
      symcalc State.reset.params (496 + 0 + 0) .dbpsk = (42, 8)) ∧
    (∃ s : State, s.cfg.macCrcEnable = true ∧ s.params.robust.get .dbpskC = false ∧
      (∃ h, headerTypeOf (p9.getD 0 0) = some h ∧ 4 = if h = .promotion then 1 else 4) ∧
      symcalc s.params (p9.length + 4 + if s.params.conv.get .dbpskC then 1 else 0) .dbpskC = (3, 4)) ∧
    ∃ s : State, s.cfg.macCrcEnable = true ∧
      (∃ h, headerTypeOf (((0x10 : Byte) :: p9).getD 0 0) = some h ∧ 1 = if h = .promotion then 1 else 4) ∧
      symcalc s.params (((0x10 : Byte) :: p9).length + 1 + 0) .dbpsk = (1, 1) :=
  ⟨by decide +kernel, by decide +kernel,
    ⟨withCfg fun c => { c with macCrcEnable := true }, rfl, rfl, ⟨.generic, by decide +kernel, by decide⟩,
      by decide +kernel⟩,
    ⟨withCfg fun c => { c with macCrcEnable := true }, rfl, ⟨.promotion, by decide +kernel, by decide⟩,
      by decide +kernel⟩⟩

theorem witness_EncodeBAndBCBuildTheImage :
    (9 ≤ p9.length ∧ p9.length + State.reset.params.txReserve ≤ State.reset.params.maxPpduSize ∧
      symcalc State.reset.params (p9.length + 0) .dbpskRobo = (8, 3) ∧
      symcalc State.reset.params (6 + (p9.length + 0)) .dbpskRobo = (12, 3)) ∧
    symcalc State.reset.params (496 + 0) .dbpskRobo = (332, 2) := by decide +kernel

/-- `s` with MAC-CRC enabled. -/
def macOn (s : State) : State := { s with cfg := { s.cfg with macCrcEnable := true } }

/-- Each refusal: too short, too long, robust, no header type, a pad and a symbol count above their fields; a pad
that only a MAC-CRC trailer brings above its field; a nested header that fits below an outer one that does not. -/
theorem witness_EncodersRefuse :
    ¬(9 ≤ (ramp 8).length ∧ (ramp 8).length + State.reset.params.txReserve ≤ State.reset.params.maxPpduSize) ∧
    ¬(9 ≤ (ramp 497).length ∧ (ramp 497).length + State.reset.params.txReserve ≤ State.reset.params.maxPpduSize) ∧
    State.reset.params.robust.get .dbpskRobo = true ∧
    (State.reset.params.robust.get .dbpsk = false ∧ (withCfg fun c => { c with macCrcEnable := true }).cfg.macCrcEnable
      = true ∧ headerTypeOf (((0x30 : Byte) :: p9).getD 0 0) = none) ∧
    (let p := (withParams fun p => { p with bps := { p.bps with dqpsk := 100, d8psk := 521 } }).params;
      symcalc p 9 .dqpsk = (1, 91) ∧ symcalc p 9 .d8psk = (1, 512)) ∧
    (let p := (withParams fun p => { p with maxPpduSize := 5000, bps := { p.bps with dqpsk := 1 } }).params;
      symcalc p 4096 .dqpsk = (4096, 0) ∧ 4096 + p.txReserve ≤ p.maxPpduSize) ∧
    ((macOn (withParams fun p => { p with bps := { p.bps with dbpsk := 76 } })).cfg.macCrcEnable = true ∧
      headerTypeOf ((ramp 76).getD 0 0) = some .generic ∧
      let p := (withParams fun p => { p with bps := { p.bps with dbpsk := 76 } }).params;
      symcalc p (76 + 0 + 0) .dbpsk = (1, 0) ∧ symcalc p (76 + 4 + 0) .dbpsk = (2, 72)) ∧
    (let p := (withParams fun p => { p with bps := { p.bps with dqpsk := 79 } }).params;
      symcalc p 9 .dqpsk = (1, 70) ∧ symcalc p (6 + 9) .dqpsk = (1, 64)) ∧
    (let p := (withParams fun p => { p with maxPpduSize := 5000, bps := { p.bps with dqpsk := 1 } }).params;
      symcalc p 4090 .dqpsk = (4090, 0) ∧ symcalc p (6 + 4090) .dqpsk = (4096, 0)) := by decide +kernel

/-- The hypotheses of `Obligations.DecodeAReadsTheFrame`. -/
def DecodesA (s : State) (i : SlotId) (h : FrameAHeader) (ht : HeaderType) (n : Nat) : Prop :=
  s.params.ok ∧ h = (cachedHeader s i).asTypeA ∧ s.params.robust.get h.sch = false ∧
    headerTypeOf h.mac.m0 = some ht ∧
    (n : Int) = (h.sym.toNat * s.params.bps.get h.sch : Nat) - (h.pad.toNat : Int) -
      (if s.params.conv.get h.sch then 1 else 0) -
      (if s.cfg.macCrcEnable then (if ht = .promotion then 1 else 4) else 0) ∧
    2 ≤ n ∧ n ≤ s.params.maxPpduSize

/-- The shortest and the longest payload (VD7, VD11), a convolutional scheme (VD16), both trailers (VD2, VD5). -/
theorem witness_DecodeAReadsTheFrame :
    DecodesA (ready .s0 .typeA [0, 0, 4, 0x0A, 0, 1] []) .s0 ⟨.dbpsk, 1, 10, ⟨0, 1, 0, 0, 0, 0, 0⟩, 0, 0⟩ .generic 2 ∧
    DecodesA (ready .s0 .typeA [0, 0, 0xAC, 4] (ramp 505)) .s0 ⟨.dbpsk, 43, 4, ⟨0, 0, 0, 0, 0, 0, 0⟩, 0, 0⟩ .generic 512 ∧
    DecodesA (ready .s1 .typeA [3, 0, 0x0C, 5] []) .s1 ⟨.dbpskC, 3, 5, ⟨0, 0, 0, 0, 0, 0, 0⟩, 0, 0⟩ .generic 12 ∧
    DecodesA (macOn (ready .s2 .typeA [0, 0, 8, 0x0B] [])) .s2 ⟨.dbpsk, 2, 11, ⟨0, 0, 0, 0, 0, 0, 0⟩, 0, 0⟩ .generic 9 ∧
    DecodesA (macOn (ready .s3 .typeA [0, 0, 4, 2, 0x10] [])) .s3 ⟨.dbpsk, 1, 2, ⟨0x10, 0, 0, 0, 0, 0, 0⟩, 0, 0⟩ .promotion 9 := by
  refine ⟨?_, ?_, ?_, ?_, ?_⟩ <;>
    exact ⟨params_ok _ rfl, by decide +kernel, by decide +kernel, by decide +kernel, by decide +kernel,
      by decide +kernel, by decide +kernel⟩

/-- The hypotheses of `Obligations.DecodeBAndBCReadTheFrame` on the header and the length. -/
def AnnouncesB (p : Params) (h : FrameBHeader) (n : Nat) : Prop :=
  p.ok ∧
    (n : Int) = ((if p.robust.get h.sch then h.sym.toNat / 4 else h.sym.toNat) * p.bps.get h.sch : Nat) -
      (h.pad.toNat : Int) - (if p.conv.get h.sch then 1 else 0) ∧ 2 ≤ n ∧ n ≤ p.maxPpduSize

/-- A robust header in the cache (VD17), the shortest payload, and a nested header of the longest one. -/
theorem witness_DecodeBAndBCReadTheFrame :
    (AnnouncesB defaultParams ⟨.dqpskRobo, 20, 10, 0, 0, 0⟩ 50 ∧
      ⟨.dqpskRobo, 20, 10, 0, 0, 0⟩ = (cachedHeader (ready .s2 .typeB [0xE0, 0x28, 0x0A] (ramp 50)) .s2).asTypeB) ∧
    AnnouncesB defaultParams ⟨.dbpsk, 1, 10, 0, 0, 0⟩ 2 ∧
    (AnnouncesB defaultParams ⟨.dbpsk, 43, 4, 0, 0, 0⟩ 512 ∧
      ⟨.dbpsk, 43, 4, 0, 0, 0⟩ =
        (headerOf ((ready .s2 .typeBC [] (region16 [0, 0x56, 4] ++ ramp 512)).bytesAt .rxbulk .s2 0 16)).asTypeB) := by
  refine ⟨⟨⟨defaultParams_ok, ?_⟩, ?_⟩, ⟨defaultParams_ok, ?_⟩, ⟨defaultParams_ok, ?_⟩, ?_⟩ <;> decide +kernel

/-- Robust; no header type; one below and one above the bounds, in each mode. -/
theorem witness_DecodersRefuse :
    State.reset.params.ok ∧
    State.reset.params.robust.get (cachedHeader (ready .s0 .typeA [7, 0, 4] []) .s0).asTypeA.sch = true ∧
    (State.reset.params.robust.get Scheme.dbpsk = false ∧
      headerTypeOf (cachedHeader (ready .s0 .typeA [0, 0, 4, 3, 0x30] []) .s0).asTypeA.mac.m0 = none) ∧
    (let a := (cachedHeader (ready .s0 .typeA [0, 0, 4, 0x0B] []) .s0).asTypeA;
      headerTypeOf a.mac.m0 = some .generic ∧
      (1 : Int) = (a.sym.toNat * defaultParams.bps.get a.sch : Nat) - (a.pad.toNat : Int) - 0 - 0 ∧ (1 : Int) < 2) ∧
    (let a := (cachedHeader (ready .s0 .typeA [0, 0, 0xAC, 3] []) .s0).asTypeA;
      headerTypeOf a.mac.m0 = some .generic ∧
      (513 : Int) = (a.sym.toNat * defaultParams.bps.get a.sch : Nat) - (a.pad.toNat : Int) - 0 - 0 ∧
      (defaultParams.maxPpduSize : Int) < 513) ∧
    (let b := (cachedHeader (ready .s0 .typeB [0, 2, 0x0B] []) .s0).asTypeB;
      (1 : Int) = (b.sym.toNat * defaultParams.bps.get b.sch : Nat) - (b.pad.toNat : Int) - 0) ∧
    (let b := (headerOf ((ready .s0 .typeBC [] (region16 [0, 0x56, 3])).bytesAt .rxbulk .s0 0 16)).asTypeB;
      (513 : Int) = (b.sym.toNat * defaultParams.bps.get b.sch : Nat) - (b.pad.toNat : Int) - 0) :=
  ⟨defaultParams_ok, by decide +kernel, by decide +kernel, by decide +kernel, by decide +kernel,
    by decide +kernel, by decide +kernel⟩

theorem received_of (s : State) (i : SlotId) (img : Bytes)
    (h : ((List.range img.length).all fun o =>
      (if o < 16 then s.byteAt .hdrcache i o else s.byteAt .rxbulk i (o - 16)) == img.getD o 0) = true) :
    Received s i img := by
  intro o b hb
  have ho : o < img.length := (List.getElem?_eq_some_iff.1 hb).1
  have h1 := List.all_eq_true.1 h o (List.mem_range.2 ho)
  have h2 : img.getD o 0 = b := by simp [List.getD, hb]
  rw [h2, beq_iff_eq] at h1
  split at h1
  · exact ⟨fun _ => h1, fun h => by omega⟩
  · exact ⟨fun h => by omega, fun _ => h1⟩

/-- VE1 received by slot 1 with two bytes after it, VE5, VE9. -/
theorem witness_EncodedFramesDecode :
    (State.reset.params.ok ∧ headerTypeOf (p9.getD 0 0) = some .generic ∧
      (∃ img sym, exec (.encodeA .dbpsk p9) State.reset = .next (answered State.reset (.image img sym)) ∧
        Received (ready .s1 .typeA [0, 0, 4, 3, 0, 1, 2, 3, 4, 5, 6] [7, 8, 0xAA, 0xBB]) .s1 img)) ∧
    (∃ img sym, exec (.encodeB .dqpskRobo (ramp 50)) State.reset = .next (answered State.reset (.image img sym)) ∧
        Received (ready .s1 .typeB [0xE0, 0x28, 0x0A] (ramp 50)) .s1 img) ∧
    (∃ img sym, exec (.encodeBC .dbpsk (ramp 20)) State.reset = .next (answered State.reset (.image img sym)) ∧
        Received (ready .s1 .typeBC [0, 0, 0x0C, 0x0A] (region16 [0, 4, 4] ++ ramp 20)) .s1 img) := by
  have ha : encodeTypeA defaultParams false State.reset.eng.seed .dbpsk p9 =
      .image ([0, 0, 4, 3, 0, 1, 2, 3, 4, 5, 6, 0, 0, 0, 0, 0] ++ [7, 8]) 1 := by decide +kernel
  have hb : encodeTypeB defaultParams .dqpskRobo (ramp 50) =
      .image (region16 [0xE0, 0x28, 0x0A] ++ ramp 50) 20 := by decide +kernel
  have hc : encodeTypeBC defaultParams .dbpsk (ramp 20) =
      .image (region16 [0, 0, 0x0C, 0x0A] ++ (region16 [0, 4, 4] ++ ramp 20)) 3 := by decide +kernel
  exact ⟨⟨defaultParams_ok, by decide +kernel, _, _, congrArg (respondEncoded · State.reset) ha,
      received_of _ _ _ (by decide +kernel)⟩,
    ⟨_, _, congrArg (respondEncoded · State.reset) hb, received_of _ _ _ (by decide +kernel)⟩,
    ⟨_, _, congrArg (respondEncoded · State.reset) hc, received_of _ _ _ (by decide +kernel)⟩⟩

/-- The hypotheses of the Type A clause of `Obligations.FrameImagesRead`. -/
def AnnouncesA (s : State) (a : FrameAHeader) (ht : HeaderType) (body : Bytes) (n : Nat) : Prop :=
  2 ≤ n ∧ n ≤ s.params.maxPpduSize ∧ s.params.robust.get a.sch = false ∧ headerTypeOf a.mac.m0 = some ht ∧
    (n : Int) = (a.sym.toNat * s.params.bps.get a.sch : Nat) - (a.pad.toNat : Int) -
      (if s.params.conv.get a.sch then 1 else 0) -
      (if s.cfg.macCrcEnable then (if ht = .promotion then 1 else 4) else 0) ∧ n - 7 ≤ body.length

/-- The bodies hold exactly the bytes announced: VD1, VD2, VD5 and VD17. -/
theorem witness_FrameImagesRead :
    AnnouncesA State.reset ⟨.dbpsk, 1, 3, ⟨0, 1, 2, 3, 4, 5, 6⟩, 0, 0⟩ .generic [7, 8] 9 ∧
    AnnouncesA (macOn State.reset) ⟨.dbpsk, 2, 11, ⟨0, 1, 2, 3, 4, 5, 6⟩, 0, 0⟩ .generic [7, 8] 9 ∧
    AnnouncesA (macOn State.reset) ⟨.dbpsk, 1, 2, ⟨0x10, 1, 2, 3, 4, 5, 6⟩, 0, 0⟩ .promotion [7, 8] 9 ∧
    AnnouncesB State.reset.params ⟨.dqpskRobo, 20, 10, 0, 0, 0⟩ 50 ∧ 50 ≤ (ramp 50).length := by
  refine ⟨?_, ?_, ?_, ⟨defaultParams_ok, ?_⟩, ?_⟩ <;> (try unfold AnnouncesA) <;> decide +kernel

theorem witness_MemoryReadsBackWhatIsWritten :
    528 - 2 + (ramp 2).length ≤ regionSize State.reset.params .rxbulk ∧
    regionSize State.reset.params .rxbulk < 528 - 1 + (ramp 2).length := by decide +kernel

theorem reset_memoryOk (l : List Item) : MemoryOk { State.reset with agenda := l } := by
  intro sp i
  cases sp <;> cases i <;> exact ⟨List.Pairwise.nil, fun c h => by cases h⟩

theorem witness_StepsKeepMemoryCanonical :
    MemoryOk (queued [0x09] State.reset) ∧ ∃ t, step (queued [0x09] State.reset) = .next t :=
  ⟨reset_memoryOk _, exists_next (by decide +kernel)⟩

theorem witness_NoStepFaults : State.reset.params.ok := defaultParams_ok

theorem witness_SubmitArms :
    (State.reset.params.ok ∧ (minA 0 .immediate).bufferId.toNat = SlotId.s0.toNat ∧
      (minA 0 .immediate).schemeCode.toNat = Scheme.dbpsk.index.toNat ∧
      Encodable State.reset .typeA .dbpsk p9 ∧
      ¬((State.reset.eng.tx.get .s0).state.busy = true ∧ State.reset.params.busyPolicy = .reject)) ∧
    Encodable (withCfg fun c => { c with macCrcEnable := true }) .typeA .dbpsk p9 ∧
    Encodable State.reset .typeB .dqpskRobo (ramp 496) ∧ Encodable State.reset .typeBC .dbpsk (ramp 20) :=
  ⟨⟨defaultParams_ok, by decide, by decide,
      ⟨by decide, by decide, rfl, 0, .inl ⟨rfl, rfl⟩, by unfold FieldsFit; decide +kernel⟩, by decide⟩,
    ⟨by decide, by decide, rfl, 4, .inr ⟨rfl, .generic, by decide, rfl⟩, by unfold FieldsFit; decide +kernel⟩,
    ⟨by decide +kernel, by decide +kernel, by unfold FieldsFit; decide +kernel⟩,
    ⟨by decide +kernel, by decide +kernel, by unfold FieldsFit; decide +kernel, by unfold FieldsFit; decide +kernel⟩⟩

theorem witness_SubmitErrors :
    3 < (4#8).toNat ∧ (3#8).toNat ≤ 3 ∧ 7 < (8#8).toNat ∧ (7#8).toNat = Scheme.dqpskRobo.index.toNat ∧
    exec (encoderOf .typeA .dqpskRobo p9) State.reset = .next (answered State.reset (.error .invalidScheme)) ∧
    (∃ s : State, s.params.robust.get .dbpsk = false ∧ s.cfg.macCrcEnable = true ∧
      headerTypeOf (((0x30 : Byte) :: p9).getD 0 0) = none) ∧
    ∃ s : State, Encodable s .typeA .dbpsk p9 ∧ (s.eng.tx.get .s3).state.busy = true ∧
      s.params.busyPolicy = .reject :=
  ⟨by decide, by decide, by decide, by decide,
    congrArg (respondEncoded · State.reset)
      (by decide +kernel : encodeTypeA defaultParams false State.reset.eng.seed .dqpskRobo p9 = .raised .invalidScheme),
    ⟨withCfg fun c => { c with macCrcEnable := true }, rfl, rfl, by decide +kernel⟩,
    ⟨slotIn .inFlight .s3 (withParams fun p => { p with busyPolicy := .reject }),
      ⟨by decide, by decide, rfl, 0, .inl ⟨rfl, rfl⟩, by unfold FieldsFit; decide +kernel⟩, rfl, rfl⟩⟩

/-- Forced; reached at the very tick; and one tick before. -/
theorem witness_TxStartFlies :
    (let s := nextOf (exec (.submit (minA 0 .immediate)) (atTime 0));
      (s.eng.tx.get .s0).state = .armed ∧ (s.eng.tx.get .s0).conf.force = true) ∧
    (let s := nextOf (exec (.submit (minA 0 (.absoluteTime 5))) (atTime 5));
      (s.eng.tx.get .s0).state = .armed ∧ reached s (s.eng.tx.get .s0).conf.schedTime = true) ∧
    (let s := nextOf (exec (.submit (minA 0 (.absoluteTime 6))) (atTime 5));
      ¬((s.eng.tx.get .s0).state = .armed ∧
        ((s.eng.tx.get .s0).conf.force = true ∨ reached s (s.eng.tx.get .s0).conf.schedTime = true))) := by
  decide +kernel

theorem witness_ReachedIsTheHalfRangeTest : 1 ≤ State.reset.params.timeW := by decide

theorem witness_TimePassesByTimeAdvance :
    (1 ≤ 1 ∧ 1 < 2 ^ (State.reset.params.timeW - 1)) ∧ (2 ^ 31 - 1 < 2 ^ (State.reset.params.timeW - 1)) ∧
    2 ^ (State.reset.params.timeW - 1) ≤ 2 ^ 31 ∧
    ((∀ d, Instr.hardReset ≠ .timeAdvance d) ∧ ∃ t, exec .hardReset State.reset = .next t) :=
  ⟨by decide, by decide, by decide, fun d (h : Instr.hardReset = .timeAdvance d) => (nomatch h), ⟨_, rfl⟩⟩

theorem witness_TxDoneFlagsTheCompletion :
    State.reset.params.ok ∧ 65535 < 2 ^ State.reset.params.rmsW ∧ TxResult.success ≠ .timeout ∧
    TxResult.success ≠ .inProcess ∧
    (let s := slotIn .inFlight .s2 State.reset;
      flag s.mdm.txInt .s2 = false ∧ (s.eng.tx.get .s2).state = .inFlight) ∧
    (let s := slotIn .armed .s2 State.reset;
      flag s.mdm.txInt .s2 = false ∧ (s.eng.tx.get .s2).state = .armed ∧ TxResult.busyRx ≠ .success) ∧
    flag (completed .success 0).mdm.txInt .s2 = true ∧
    ¬((State.reset.eng.tx.get .s2).state = .inFlight ∨
      ((State.reset.eng.tx.get .s2).state = .armed ∧ TxResult.busyRx ≠ .success)) :=
  ⟨defaultParams_ok, by decide, by decide, by decide, by decide, by decide, by decide, by decide⟩

/-- A success, an error, and a field value above 7 of a wider field. -/
theorem witness_TxResultReadLatches :
    ResultIs (resultField (completed .success 700) .s2) .success ∧
    ResultIs (resultField (completed .busyRx 0) .s2) .busyRx ∧
    (let s := withParams fun p => { p with resultFieldW := 4 };
      ResultIs (resultField { s with mdm := { s.mdm with txResult0 := 8 } } .s0) .inProcess) :=
  ⟨.inl (by decide +kernel), .inl (by decide +kernel), .inr ⟨by decide +kernel, rfl⟩⟩

theorem witness_TxResultTaskServesRoundRobin : State.reset.eng.txPend = 0 ∧
    (completed .success 0).eng.txPend ≠ 0 ∧
    FirstInScan (completed .success 0).params (completed .success 0).eng.txLast
      (fun j => flag (completed .success 0).eng.txPend j = true) .s2 :=
  ⟨rfl, by decide, 2, by decide, by decide, by decide, fun k' j h1 h2 => by
    have : k' = 0 ∨ k' = 1 := by omega
    rcases this with rfl | rfl <;> cases j <;> revert h2 <;> decide⟩

/-- The last clause with nothing pending, and with slot 2 pending beside a latched outcome of slot 3. -/
theorem witness_PollTxResultHandsOver : 3 < (4#8).toNat ∧ (3#8).toNat = SlotId.s3.toNat ∧
    ((State.reset.eng.tx.get .s3).outValid = false) ∧
    ((slotIn .error .s3 State.reset).eng.tx.get .s3).outValid = true ∧
    ((slotIn .error .s3 (completed .success 0)).eng.tx.get .s3).outValid = true ∧
    flag (completed .success 0).eng.txPend .s3 = false ∧ (completed .success 0).eng.txPend ≠ 0 := by decide

theorem completed_latchOk (c : TxResult) (n : Nat) : LatchOk (completed c n) := by
  intro i
  cases i
  case s2 => exact (by decide : (false = true ↔ (SlotState.inFlight = .success ∨ SlotState.inFlight = .error)))
  all_goals exact (by decide : (false = true ↔ (SlotState.idle = .success ∨ SlotState.idle = .error)))

theorem completed_completionOk : CompletionOk (completed .success 0) ∧ CompletionOk (completed .wrongLength 5) :=
  ⟨⟨fun i => by cases i <;> decide +kernel, fun i => by cases i <;> decide +kernel⟩,
    fun i => by cases i <;> decide +kernel, fun i => by cases i <;> decide +kernel⟩

theorem witness_FourPollsDeliverTheOutcome :
    (2#8).toNat = SlotId.s2.toNat ∧ LatchOk (completed .wrongLength 5) ∧ CompletionOk (completed .wrongLength 5) ∧
    flag (completed .wrongLength 5).eng.txPend .s2 = true ∧
    ResultIs (resultField (completed .wrongLength 5) .s2) .wrongLength :=
  ⟨by decide, completed_latchOk _ _, completed_completionOk.2, by decide, .inl (by decide +kernel)⟩

/-- The deadline of an armed slot is reached at its tick; without a busy slot the event is not enabled. -/
theorem witness_TimeoutExpireResets :
    (let s := { slotIn .armed .s0 State.reset with mdm := { State.reset.mdm with time := 0 } };
      (s.eng.tx.get .s0).state.busy = true ∧ flag s.mdm.txInt .s0 = false ∧ flag s.eng.txPend .s0 = false ∧
      reached s ((s.eng.tx.get .s0).conf.schedTime + (s.eng.tx.get .s0).conf.timeout) = true) ∧
    ¬((State.reset.eng.tx.get .s0).state.busy = true ∧ flag State.reset.mdm.txInt .s0 = false ∧
      flag State.reset.eng.txPend .s0 = false ∧ reached State.reset
        ((State.reset.eng.tx.get .s0).conf.schedTime + (State.reset.eng.tx.get .s0).conf.timeout) = true) := by
  decide +kernel

theorem witness_SlotsMoveAlongTheTable :
    LatchOk (completed .success 0) ∧ CompletionOk (completed .success 0) ∧ agentStep (.pollTxResult 2) = true ∧
    ∃ t, exec (.pollTxResult 2) (completed .success 0) = .next t ∧
      (t.eng.tx.get .s2).state ≠ ((completed .success 0).eng.tx.get .s2).state :=
  ⟨completed_latchOk _ _, completed_completionOk.1, rfl, _, rfl, by decide +kernel⟩

theorem witness_OutcomesAreLatchedExactlyWhenComplete :
    LatchOk (queued [0x02, 2] (completed .success 0)) ∧ CompletionOk (queued [0x02, 2] (completed .success 0)) ∧
    NextIsAgentStep (queued [0x02, 2] (completed .success 0)) ∧
    ∃ t, step (queued [0x02, 2] (completed .success 0)) = .next t :=
  ⟨fun i => completed_latchOk .success 0 i, completed_completionOk.1, fun item rest i h hd => by
    cases h
    have : decode (.operation [0x02, 2]) = .ok (.pollTxResult 2) := rfl
    rw [this] at hd
    cases hd
    rfl, exists_next (by decide +kernel)⟩

theorem witness_LowValuesNeverReachVeryLowDirectly :
    State.reset.eng.imp = .high ∧ 499 < State.reset.eng.sel.th2 ∧
    ∃ t u, exec (.impUpdate 499) State.reset = .next t ∧ 299 < t.eng.sel.th2 ∧
      exec (.impUpdate 299) t = .next u ∧ u.eng.imp = .veryLow :=
  ⟨rfl, by decide, _, _, rfl, by decide +kernel, rfl, by decide +kernel⟩

/-- A success read by a poll, a channel change. -/
theorem witness_ControllerMovesOnlyAfterSuccess :
    (agentStep (.pollTxResult 2) = true ∧ ∃ t, exec (.pollTxResult 2) (completed .success 499) = .next t ∧
      t.eng.imp = .low) ∧
    (agentStep (.setChannel 8) = true ∧ ∃ t, exec (.setChannel 8) State.reset = .next t ∧
      t.eng.sel ≠ State.reset.eng.sel) :=
  ⟨⟨rfl, _, rfl, by decide +kernel⟩, rfl, _, rfl, by decide +kernel⟩

/-- Channels 1 and 8, and the values beside them. -/
theorem witness_ReselectionFollowsChannelAndState : (0#8).toNat < 1 ∧ 8 < (9#8).toNat ∧
    (1#8).toNat = Channel.c1.number ∧ (8#8).toNat = Channel.c8.number := by decide

theorem witness_DispatchRecordsAndServes :
    (headerIn.mdm.irqReq = true ∧ headerIn.mdm.maskTx = false ∧ headerIn.mdm.maskRx = false ∧
      headerIn.mdm.err = false) ∧
    ¬(State.reset.mdm.irqReq = true ∧ State.reset.mdm.maskTx = false ∧ State.reset.mdm.maskRx = false) := by
  decide +kernel

theorem witness_ErrorPathDropsNewPayloads :
    let s := nextOf (exec (.rxError .s2) headerIn)
    s.mdm.irqReq = true ∧ s.mdm.maskTx = false ∧ s.mdm.maskRx = false ∧ s.mdm.err = true := by decide +kernel

theorem witness_RxTaskServesEverySlot : headerIn.mdm.maskRx = false ∧
    flag (4#4 : SlotBits) .s2 = true ∧ flag (4#4 : SlotBits) .s1 = false := by decide +kernel

/-- A header flagged and not recorded, and the dispatch asked for. -/
theorem witness_UnrecordedFlagsRequestADispatch :
    MasksClear (queued [0x40] headerIn) ∧ RequestOk (queued [0x40] headerIn) ∧
    Unrecorded (queued [0x40] headerIn) ∧ ∃ t, step (queued [0x40] headerIn) = .next t :=
  ⟨⟨by decide +kernel, by decide +kernel⟩, fun _ => by decide +kernel,
    .inr (.inl ⟨.s2, by decide +kernel, by decide +kernel⟩), exists_next (by decide +kernel)⟩

theorem scan_ready (i : SlotId) (k : Nat) (m : FrameMode) (h b : Bytes) (hk : k < 4)
    (hi : i.toNat = (3 + 1 + k) % 4) :
    FirstInScan (ready i m h b).params (ready i m h b).eng.rxLast
      (fun j => ((ready i m h b).eng.rx.get j).ready = true) i := by
  refine ⟨k, hk, hi, by cases i <;> rfl, fun k' j h1 h2 => ?_⟩
  have h3 : j.toNat = (3 + 1 + k') % 4 := h2
  have : j ≠ i := by rintro rfl; omega
  cases i <;> cases j <;> first | exact absurd rfl this | exact (by decide : ¬(false = true))

/-- A frame that decodes, one that does not, one without a header. -/
theorem witness_PollRxServesTheReadySlot :
    (State.reset.params.ok ∧
      (let s := ready .s2 .typeB [0xE0, 0x28, 0x0A] (ramp 50);
        FirstInScan s.params s.eng.rxLast (fun j => (s.eng.rx.get j).ready = true) .s2 ∧
        (s.eng.rx.get .s2).hdrValid = true ∧
        resp (exec (decoderOf .typeB .s2) s) = some (.frame ⟨.dqpskRobo, none, ramp 50⟩))) ∧
    (let s := ready .s0 .typeA [0, 0, 4, 0x0B] [];
      FirstInScan s.params s.eng.rxLast (fun j => (s.eng.rx.get j).ready = true) .s0 ∧
      resp (exec (decoderOf .typeA .s0) s) = some (.error .invalidLength)) :=
  ⟨⟨defaultParams_ok, scan_ready .s2 2 _ _ _ (by decide) (by decide), by decide +kernel, by decide +kernel⟩,
    scan_ready .s0 0 _ _ _ (by decide) (by decide), by decide +kernel⟩

theorem witness_PollRxDeliversNoiseLast :
    (∀ i, (State.reset.eng.rx.get i).ready = false) ∧ State.reset.eng.noiseReady = false ∧
    ({ State.reset with eng := { State.reset.eng with noiseReady := true } } : State).eng.noiseReady = true :=
  ⟨fun i => by cases i <;> rfl, rfl, rfl⟩

theorem witness_HeaderArrives :
    (flag State.reset.mdm.rxOpen .s3 = false ∧ flag State.reset.mdm.rxIntHdr .s3 = false ∧
      flag State.reset.mdm.rxIntPay .s3 = false) ∧ flag headerIn.mdm.rxOpen .s2 = true := by decide +kernel

/-- The longest delivery and the last tick; no open reception. -/
theorem witness_PayloadArrivesOrFails :
    (flag headerIn.mdm.rxOpen .s2 = true ∧ flag headerIn.mdm.rxIntPay .s2 = false ∧
      (ramp 528).length ≤ headerIn.params.rxbulkSize ∧ 2 ^ 32 - 1 < 2 ^ headerIn.params.timeW) ∧
    flag State.reset.mdm.rxOpen .s2 = false ∧ flag (ready .s1 .typeA [] []).mdm.rxIntPay .s1 = true := by
  decide +kernel

theorem witness_NoiseArrives : (ramp 16).length = State.reset.params.noiseSize ∧
    2 ^ 32 - 1 < 2 ^ State.reset.params.timeW ∧ State.reset.mdm.rxIntNoise = false ∧
    (nextOf (exec (.noiseDone (ramp 16) 77) State.reset)).mdm.rxIntNoise = true := by decide +kernel

/-- Slot 2 ready with a Type B frame, and a poll scheduled. -/
def readyToPoll : State := queued [0x03] (ready .s2 .typeB [0xE0, 0x28, 0x0A] (ramp 50))

theorem witness_StepsKeepTheReceiveInvariants :
    ReceiveOk readyToPoll ∧ ReceiveOrderOk readyToPoll ∧ ∃ t, step readyToPoll = .next t :=
  ⟨⟨fun i => by cases i <;> decide +kernel, fun i => by cases i <;> decide +kernel, by decide +kernel⟩,
    ⟨fun i => by cases i <;> decide +kernel, fun i => by cases i <;> decide +kernel,
      fun i => by cases i <;> decide +kernel, by decide +kernel, by decide +kernel⟩,
    exists_next (by decide +kernel)⟩

theorem witness_ReceivedDataIsKeptWhileFlagged :
    let s := ready .s2 .typeB [0xE0, 0x28, 0x0A] (ramp 50)
    ∃ t, exec (.rxHeaderDone .s1 .typeA hA) s = .next t ∧ flag s.mdm.rxIntPay .s2 = true ∧
      flag t.mdm.rxIntPay .s2 = true := ⟨_, rfl, by decide +kernel, by decide +kernel⟩

/-- The first and the last identifier, and one past it. -/
theorem witness_GetConfigParamReadsTheTable :
    (∃ row ∈ paramTable State.reset, (0x0000#16).toNat = row.1) ∧
    (∃ row ∈ paramTable State.reset, (0x2007#16).toNat = row.1) ∧ knownId (0x2008#16).toNat = false ∧
    knownId (0x0009#16).toNat = false := by decide +kernel

theorem reset_seedsOk : SeedsOk State.reset := rfl

/-- Each clause: unknown, read-only, a value one too large, the largest values of a threshold, a channel, the
address. -/
theorem witness_SetConfigParamWritesTheTable :
    knownId (0x0204#16).toNat = false ∧ (0x0008#16).toNat = 0x0008 ∧
    (knownId (0x1106#16).toNat = true ∧ ¬legalFor defaultParams (0x1106#16).toNat 65536) ∧
    (knownId (0x0005#16).toNat = true ∧ ¬legalFor defaultParams (0x0005#16).toNat 9) ∧
    legalFor defaultParams (0x1106#16).toNat 65535 ∧ legalFor defaultParams (0x0005#16).toNat 8 ∧
    legalFor defaultParams (0x0004#16).toNat (2 ^ 48 - 1) := by
  refine ⟨by decide, by decide, ⟨by decide, ?_⟩, ⟨by decide, ?_⟩, ?_, ?_, ?_⟩
  · have hw : anyWidth defaultParams (0x1106#16).toNat = some 16 := by decide +kernel
    simp only [legalFor, hw]
    rintro (h | h | h | h | ⟨w, h, h2⟩)
    · exact absurd h.1 (by decide)
    · exact absurd h.1 (by decide)
    · exact absurd h.1 (by decide)
    · exact absurd h.2.1 (by decide)
    · cases h; exact absurd h2 (by decide)
  · have hw : anyWidth defaultParams (0x0005#16).toNat = none := by decide +kernel
    simp only [legalFor, hw]
    rintro (h | h | h | h | ⟨w, h, h2⟩)
    · exact absurd h.1 (by decide)
    · exact absurd h.1 (by decide)
    · exact absurd h.2.2 (by decide)
    · exact absurd h.1 (by decide)
    · cases h
  · exact .inr (.inr (.inr (.inr ⟨16, by decide +kernel, by decide⟩)))
  · exact .inr (.inr (.inl ⟨by decide, by decide, by decide⟩))
  · exact .inr (.inr (.inr (.inr ⟨48, by decide +kernel, by decide⟩)))

theorem witness_SeedsFollowTheAddress :
    SeedsOk (queued [0x05, 1, 2, 3, 4, 5, 6] State.reset) ∧
    NextIsAgentStep (queued [0x05, 1, 2, 3, 4, 5, 6] State.reset) ∧
    ∃ t, step (queued [0x05, 1, 2, 3, 4, 5, 6] State.reset) = .next t :=
  ⟨rfl, fun item rest i h hd => by
    cases h
    have : decode (.operation [0x05, 1, 2, 3, 4, 5, 6]) = .ok (.setNetworkAddress ⟨1, 2, 3, 4, 5, 6⟩) := rfl
    rw [this] at hd
    cases hd
    rfl, exists_next (by decide +kernel)⟩

theorem witness_ArmedSlotsKeepTheirConfiguration :
    ∃ t, exec (.setChannel 5) (nextOf (exec (.submit (minA 0 .immediate)) State.reset)) = .next t :=
  exists_next (by decide +kernel)

theorem witness_HardResetLeaves : State.reset.params.ok := defaultParams_ok

theorem witness_SoftResetLeaves : (completed .success 0).params.ok := params_ok _ rfl

theorem witness_ResetLeavesTheStatedValues : defaultParams.ok := defaultParams_ok

theorem witness_InvariantsHoldAtReset : defaultParams.ok ∧ vectorConfig.legal defaultParams :=
  ⟨defaultParams_ok, vectorConfig_legal⟩

theorem witness_StepsKeepWidths :
    (queued [0x09] State.reset).params.ok ∧ WidthsOk (queued [0x09] State.reset) ∧
    ∃ t, step (queued [0x09] State.reset) = .next t :=
  ⟨defaultParams_ok,
    { cfg0 := vectorConfig_legal
      cfg := vectorConfig_legal
      time := by decide
      noiseTime := by decide
      rxTime := fun i => by cases i <;> decide
      schedTime := fun i => by cases i <;> decide
      guards := fun i => by cases i <;> decide
      rms := fun i => by cases i <;> decide
      outRms := fun i v h => by cases i <;> cases h
      thresholds := by decide
      seeds := fun w => by cases w <;> decide +kernel },
    exists_next (by decide +kernel)⟩

/-- An error of every kind the exceptions name: none of them, the counted submit, a frame image. -/
theorem witness_FailedOperationsChangeNothing :
    (∃ t, exec (.setChannel 9) State.reset = .next t ∧ t.resp = .error .invalidChannel) ∧
    (∃ t, exec (.submit (minA 3 .immediate)) (slotIn .armed .s3 (withParams fun p => { p with busyPolicy := .reject }))
      = .next t ∧ t.resp = .error .bufferBusy) ∧
    (∃ t, exec (.encodeA .dbpsk (0x30 :: p9)) (withCfg fun c => { c with macCrcEnable := true }) = .next t ∧
      ∃ e, t.resp = .error e) ∧
    ∃ t, exec (.frameB ⟨.dbpsk, 1, 11, 0, 0, 0⟩ []) State.reset = .next t ∧ t.resp = .error .invalidLength :=
  ⟨⟨_, rfl, rfl⟩, ⟨_, rfl, by decide +kernel⟩, ⟨_, rfl, _, rfl⟩, _, rfl, by decide +kernel⟩

theorem not_isReset {i : Instr} (h : i ≠ .hardReset ∧ i ≠ .softReset) (ht : ∀ k, i ≠ .timeoutExpire k) :
    ¬IsReset i := by
  rintro (rfl | rfl | ⟨k, rfl⟩)
  · exact h.1 rfl
  · exact h.2 rfl
  · exact ht k rfl

/-- Each flag falls somewhere: a completion in a poll, a header in a dispatch, a payload in a poll and on the error
path, a noise capture in a poll, the error flag in a dispatch; and a dispatch without an error. -/
theorem witness_FlagsStayUntilConsumed :
    (¬IsReset (.pollTxResult 2) ∧ ∃ t, exec (.pollTxResult 2) (completed .success 0) = .next t ∧
      Fell (completed .success 0) t (fun u => flag u.mdm.txInt .s2) ∧
      Fell (completed .success 0) t (fun u => flag u.eng.txPend .s2)) ∧
    (¬IsReset .irqDispatch ∧ ∃ t, exec .irqDispatch headerIn = .next t ∧ headerIn.mdm.err = false ∧
      Fell headerIn t (fun u => flag u.mdm.rxIntHdr .s2)) ∧
    (let s := ready .s2 .typeB [0xE0, 0x28, 0x0A] (ramp 50);
      ¬IsReset .pollRx ∧ ∃ t, exec .pollRx s = .next t ∧ Fell s t (fun u => flag u.mdm.rxIntPay .s2) ∧
        Fell s t (fun u => (u.eng.rx.get .s2).ready)) ∧
    (let s := nextOf (exec (.rxError .s2) headerIn);
      ∃ t, exec .irqDispatch s = .next t ∧ Fell s t (fun u => flag u.mdm.rxIntPay .s2) ∧
        flag s.eng.rxPendPay .s2 = false ∧ Fell s t (·.mdm.err)) ∧
    (let s := nextOf (exec .irqDispatch (nextOf (exec (.noiseDone (ramp 16) 77) State.reset)));
      ∃ t, exec .pollRx s = .next t ∧ Fell s t (·.mdm.rxIntNoise) ∧ Fell s t (·.eng.noiseReady)) := by
  unfold Fell
  refine ⟨⟨not_isReset ⟨nofun, nofun⟩ nofun, _, rfl, ?_⟩, ⟨not_isReset ⟨nofun, nofun⟩ nofun, _, rfl, ?_⟩,
    ⟨not_isReset ⟨nofun, nofun⟩ nofun, _, rfl, ?_⟩, ⟨_, rfl, ?_⟩, ⟨_, rfl, ?_⟩⟩ <;> decide +kernel

end Sys2Proof.Tests
end

section
/-! SUPPORT. What a step answers, one equation for each of its four outcomes. -/

namespace Sys2Proof.Machine

variable {s : State} {item : Item} {rest : List Item}

theorem step_of_agenda_nil (ha : s.agenda = []) : step s = .refused .nothingScheduled := by
  unfold step; rw [ha]

theorem step_of_decode_error (ha : s.agenda = item :: rest) {why : DecodeReject}
    (hd : decode item = .error why) : step s = .refused (.undecodable why) := by
  unfold step; simp only [ha, hd]

theorem step_of_decode_ok (ha : s.agenda = item :: rest) {i : Instr} (hd : decode item = .ok i) :
    step s = if i.wellFormed s.params then exec i (s.withAgenda rest) else .refused .illFormed := by
  unfold step; simp only [ha, hd]

/-- Settles O5: each clause is one branch of `step`. -/
theorem stepRunsTheDecodedInstruction : Obligations.StepRunsTheDecodedInstruction := by
  intro s
  refine ⟨step_of_agenda_nil, fun item rest ha => ⟨fun i hd => ⟨fun hw => ?_, fun hw => ?_⟩, ?_⟩⟩
  · rw [step_of_decode_ok ha hd, if_pos hw]; rfl
  · rw [step_of_decode_ok ha hd, hw]; rfl
  · exact fun why hd => step_of_decode_error ha hd

end Sys2Proof.Machine
end

section
/-! SUPPORT. Read after write in a buffer region, the frame of a write, and the fault outside the region
(20_memory.md R70, R76; log 24). -/

namespace Sys2Proof.Machine

/-- Replacing a region changes no byte of another one. -/
theorem setRegion_other (s : State) (sp : Space) (i : SlotId) (r : Region) :
    OtherBytesSame s (s.setRegion sp i r) sp i := by
  intro sp' j o h
  apply byteAt_congr
  rw [region_setRegion, if_neg h]

theorem byteAt_store_outside (s : State) (sp : Space) (i : SlotId) {o x : Nat} {bs : Bytes}
    (h : x < o ∨ o + bs.length ≤ x) :
    (s.setRegion sp i ((s.region sp i).store o bs)).byteAt sp i x = s.byteAt sp i x := by
  rw [byteAt_store, dif_neg (by omega)]

/-- The bytes of a stored string, read at its offset, are the string. -/
theorem bytesAt_store (s : State) (sp : Space) (i : SlotId) (o : Nat) (bs : Bytes) :
    (s.setRegion sp i ((s.region sp i).store o bs)).bytesAt sp i o bs.length = bs := by
  apply List.ext_getElem?
  intro k
  rw [getElem?_bytesAt]
  by_cases hk : k < bs.length
  · rw [if_pos hk, byteAt_store, dif_pos (by omega), List.getElem?_eq_getElem hk]
    simp only [Nat.add_sub_cancel_left]
  · rw [if_neg hk, List.getElem?_eq_none (by omega)]

theorem memWrite_outside {s : State} {sp : Space} {o : Nat} {bs : Bytes}
    (h : regionSize s.params sp < o + bs.length) (i : SlotId) :
    memWrite s sp i o bs = .error .outsideRegion := by
  unfold memWrite; rw [if_neg (by omega)]

theorem memRead_outside {s : State} {sp : Space} {o n : Nat} (h : regionSize s.params sp < o + n)
    (i : SlotId) : memRead s sp i o n = .error .outsideRegion := by
  unfold memRead; rw [if_neg (by omega)]

/-- Settles O19: inside the region by read after write of one region, outside it by the bound check of both
operations. -/
theorem memoryReadsBackWhatIsWritten : Obligations.MemoryReadsBackWhatIsWritten := by
  intro s sp i o bs
  refine ⟨fun hfit => ⟨_, memWrite_eq hfit i, ?_, ?_, setRegion_other s sp i _⟩, fun hout => ⟨?_, ?_⟩⟩
  · rw [memRead_eq (by rw [setRegion_params]; exact hfit), bytesAt_store]
  · exact fun x hx => byteAt_store_outside s sp i hx
  · exact memWrite_outside hout i
  · exact memRead_outside hout i

end Sys2Proof.Machine
end

section
/-! SUPPORT. No operation faults (48_control_and_access.md R240). A fault comes only from a read or a write of
buffer memory, so the lemmas are about the operations that make one: SUBMIT stores an image, the modem's events
store what they deliver, and the decoders read the bulk region. -/

namespace Sys2Proof.Machine

variable {s : State} {f : Fault}

/-! ## The endings of an operation -/

theorem respond_ne_fault (r : Response) (s : State) (f : Fault) : respond r s ≠ .fault f := nofun

theorem whenEnabled_ne_fault {c : Bool} {o : Out} (h : o ≠ .fault f) : whenEnabled c o ≠ .fault f := by
  cases c
  · exact nofun
  · exact h

theorem respondEncoded_ne_fault (r : Encoded) (s : State) (f : Fault) : respondEncoded r s ≠ .fault f := by
  cases r with
  | image bytes sym => exact respond_ne_fault _ _ _
  | raised e => exact respond_ne_fault _ _ _
  | unnamed => exact respond_ne_fault _ _ _

/-- Handing over a decoder's answer faults only with the decoder's own fault. -/
theorem respondDecoded_ne_fault {r : Decoded} (h : ∀ f, r ≠ .stopped f) : respondDecoded r s ≠ .fault f := by
  cases r with
  | message m => exact respond_ne_fault _ _ _
  | raised e => exact respond_ne_fault _ _ _
  | stopped g => exact absurd rfl (h g)

/-! ## Frames read and written -/

/-- A frame image is read past its end too, as free bytes, so its decoders never stop (log 11). -/
theorem frameBody_answers (s : State) (body : Bytes) (o n : Nat) : ∃ b, frameBody s body o n = .ok b := ⟨_, rfl⟩

@[simp] theorem countBusy_params (s : State) (i : SlotId) : (countBusy s i).params = s.params := by
  unfold countBusy; split <;> rfl

/-- With an image that fits TXBUF, arming a slot does not fault. -/
theorem submitImage_ne_fault {img : Bytes} (h : img.length ≤ s.params.txbufSize) (i : SlotId) (req : TxRequest)
    (sch : Scheme) (sym : Nat) : submitImage s i req sch img sym ≠ .fault f := by
  have hfit : img.length ≤ regionSize (countBusy s i).params .txbuf := by
    rw [countBusy_params]; exact h
  unfold submitImage
  split
  · exact respond_ne_fault _ _ _
  · rw [storeImage_eq hfit]; exact respond_ne_fault _ _ _

/-- SUBMIT stores nothing but an encoder's image, and every image fits its region (20_memory.md R70). -/
theorem execSubmit_ne_fault (hp : s.params.ok) (req : TxRequest) : execSubmit req s ≠ .fault f := by
  unfold execSubmit
  split
  · exact respond_ne_fault _ _ _
  · split
    · exact respond_ne_fault _ _ _
    · split
      · exact respond_ne_fault _ _ _
      · split
        · exact respond_ne_fault _ _ _
        · exact respond_ne_fault _ _ _
        · next himg => exact submitImage_ne_fault (encodeFrame_length hp himg) _ _ _ _

/-! ## Polls -/

theorem takeOutcome_ne_fault (s : State) (i : SlotId) (f : Fault) : takeOutcome s i ≠ .fault f := by
  unfold takeOutcome
  simp only
  split <;> exact respond_ne_fault _ _ _

theorem execPollTxResult_ne_fault (slot : BitVec 8) : execPollTxResult slot s ≠ .fault f := by
  unfold execPollTxResult
  split
  · exact respond_ne_fault _ _ _
  · exact takeOutcome_ne_fault _ _ _

theorem decodeReady_ne_stopped (hp : s.params.ok) (i : SlotId) (g : Fault) : decodeReady s i ≠ .stopped g := by
  unfold decodeReady
  split
  · exact decodeSlot_ne_stopped hp _ i g
  · exact nofun

theorem serveSlot_ne_fault (hp : s.params.ok) (i : SlotId) : serveSlot s i ≠ .fault f := by
  unfold serveSlot
  split
  · next g hg => exact absurd hg (decodeReady_ne_stopped hp i g)
  · exact respond_ne_fault _ _ _
  · exact respond_ne_fault _ _ _

theorem execPollRx_ne_fault (hp : s.params.ok) : execPollRx s ≠ .fault f := by
  unfold execPollRx
  split
  · exact serveSlot_ne_fault hp _
  · split <;> exact respond_ne_fault _ _ _

/-! ## The modem's events -/

theorem execRxHeaderDone_ne_fault (i : SlotId) (mode : FrameMode) (hdr : HeaderBytes) :
    execRxHeaderDone i mode hdr s ≠ .fault f := by
  unfold execRxHeaderDone
  rw [memWrite_header]
  exact whenEnabled_ne_fault (respond_ne_fault _ _ _)

theorem execRxPayloadDone_ne_fault {bulk : Bytes} (h : bulk.length ≤ s.params.rxbulkSize) (i : SlotId)
    (rxTime : Nat) (q : Quality) : execRxPayloadDone i bulk rxTime q s ≠ .fault f := by
  unfold execRxPayloadDone
  rw [storeImage_eq (sp := .rxbulk) h]
  exact whenEnabled_ne_fault (respond_ne_fault _ _ _)

theorem execNoiseDone_ne_fault {bytes : Bytes} (h : bytes.length ≤ s.params.noiseSize) (rxTime : Nat) :
    execNoiseDone bytes rxTime s ≠ .fault f := by
  unfold execNoiseDone
  rw [storeImage_eq (sp := .noisebuf) h]
  exact whenEnabled_ne_fault (respond_ne_fault _ _ _)

/-! ## Configuration and the CRC engine -/

theorem execSetChannel_ne_fault (ch : BitVec 8) : execSetChannel ch s ≠ .fault f := by
  unfold execSetChannel
  split <;> exact respond_ne_fault _ _ _

theorem execGetConfigParam_ne_fault (id : BitVec 16) : execGetConfigParam id s ≠ .fault f := by
  unfold execGetConfigParam
  split <;> exact respond_ne_fault _ _ _

theorem execSetConfigParam_ne_fault (id : BitVec 16) (v : Nat) : execSetConfigParam id v s ≠ .fault f := by
  unfold execSetConfigParam
  split
  · exact respond_ne_fault _ _ _
  · split
    · exact respond_ne_fault _ _ _
    · split <;> exact respond_ne_fault _ _ _

theorem execComputeCrc_ne_fault (width : Nat) (data : Bytes) (ht : HeaderType) :
    execComputeCrc width data ht s ≠ .fault f := by
  unfold execComputeCrc
  split <;> exact respond_ne_fault _ _ _

/-! ## Every instruction -/

/-- With legal parameters and operands of their types no instruction faults, in any state. -/
theorem exec_ne_fault (hp : s.params.ok) {i : Instr} (hw : i.wellFormed s.params = true) :
    exec i s ≠ .fault f := by
  cases i with
  | setNetworkAddress | hardReset | rxTask | txResultTask | txResultRead | impUpdate | impReselect
  | updateSnaSeed | softReset | symcalc | crcRoll => exact respond_ne_fault _ _ _
  | txStart | txDone | rxError | timeAdvance | timeoutExpire | irqDispatch =>
    exact whenEnabled_ne_fault (respond_ne_fault _ _ _)
  | encodeA | encodeB | encodeBC => exact respondEncoded_ne_fault _ _ _
  | submit req => exact execSubmit_ne_fault hp req
  | pollTxResult slot => exact execPollTxResult_ne_fault slot
  | pollRx => exact execPollRx_ne_fault hp
  | setChannel ch => exact execSetChannel_ne_fault ch
  | getConfigParam id => exact execGetConfigParam_ne_fault id
  | setConfigParam id v => exact execSetConfigParam_ne_fault id v
  | computeCrc width data ht => exact execComputeCrc_ne_fault width data ht
  | rxHeaderDone i mode hdr => exact execRxHeaderDone_ne_fault i mode hdr
  | rxPayloadDone i bulk rxTime q =>
    simp only [Instr.wellFormed, Bool.and_eq_true, decide_eq_true_eq] at hw
    exact execRxPayloadDone_ne_fault hw.1 i rxTime q
  | noiseDone bytes rxTime =>
    simp only [Instr.wellFormed, Bool.and_eq_true, decide_eq_true_eq] at hw
    exact execNoiseDone_ne_fault hw.1.le rxTime
  | decodeA i => exact respondDecoded_ne_fault (decodeSlot_ne_stopped hp .typeA i)
  | decodeB i => exact respondDecoded_ne_fault (decodeSlot_ne_stopped hp .typeB i)
  | decodeBC i => exact respondDecoded_ne_fault (decodeSlot_ne_stopped hp .typeBC i)
  | frameA hdr body =>
    exact respondDecoded_ne_fault fun _ => decodeTypeA_ne_stopped fun n _ => frameBody_answers s body 0 n
  | frameB hdr body =>
    exact respondDecoded_ne_fault fun _ => decodeTypeB_ne_stopped fun n _ => frameBody_answers s body 0 n
  | frameBC outer inner payload =>
    exact respondDecoded_ne_fault fun _ => decodeTypeB_ne_stopped fun n _ => frameBody_answers s payload 0 n

/-- Settles O21: a step that faulted would be an instruction with operands of their types that faults. -/
theorem noStepFaults : Obligations.NoStepFaults := by
  intro s hp f hstep
  obtain ⟨_, rest, i, _, _, hw, hexec⟩ := step_fault hstep
  exact exec_ne_fault (s := s.withAgenda rest) hp hw hexec

end Sys2Proof.Machine
end

section
/-! SUPPORT. What the tasks, a submit and a completion write, one equation each, and what the result task leaves
alone, field by field. -/

namespace Sys2Proof.Machine

/-! ## The tasks -/

/-- With no completion pending the result task does nothing, so the test before it can be left out. -/
theorem pollTask_eq (s : State) : (if txPending s then resultTask s else s) = resultTask s := by
  split
  · rfl
  · next h =>
    have h0 : s.eng.txPend = 0 := by simpa [txPending] using h
    rw [resultTask_eq, nextTxSlot_none.2 h0]

/-- With nothing pending the receive task does nothing, so the test before it can be left out. -/
theorem receiveTask_of_not_pending {s : State} (h : rxPending s = false) : receiveTask s = s := by
  simp only [rxPending, Bool.or_eq_false_iff, decide_eq_false_iff_not, not_not] at h
  obtain ⟨⟨hhdr, hpay⟩, hnoise⟩ := h
  have hslot : ∀ i, rxTaskSlot s i = s := by
    intro i
    have hh : flag s.eng.rxPendHdr i = false := bits_eq_zero.1 hhdr i
    have hp : flag s.eng.rxPendPay i = false := bits_eq_zero.1 hpay i
    simp [rxTaskSlot, hh, hp]
  unfold receiveTask
  rw [List.foldl_fixed' hslot]
  simp [markNoise, hnoise]

/-- The two tasks of a dispatch, receive first (46_dispatcher.md R205). -/
theorem runTasks_eq_tasks (s : State) : runTasks s = resultTask (receiveTask s) := by
  have hrx : (if rxPending s then receiveTask s else s) = receiveTask s := by
    split
    · rfl
    · next h => rw [receiveTask_of_not_pending (by simpa using h)]
  unfold runTasks
  simp only [hrx, pollTask_eq]

/-- The result task writes one slot record, its flags, the controller and a counter, nothing else (R177). -/
theorem resultTask_frame (s : State) :
    resultTask s = { s with
      stat := (resultTask s).stat
      eng := { s.eng with
        tx := (resultTask s).eng.tx, txPend := (resultTask s).eng.txPend, txLast := (resultTask s).eng.txLast
        imp := (resultTask s).eng.imp, sel := (resultTask s).eng.sel }
      mdm := { s.mdm with txInt := (resultTask s).mdm.txInt, maskTx := (resultTask s).mdm.maskTx } } := by
  rw [resultTask_eq]
  split
  · rfl
  · rw [readResult_eq]; rfl

/-! What the result task leaves alone, field by field. -/

@[simp] theorem resultTask_params (s : State) : (resultTask s).params = s.params :=
  congrArg (·.params) (resultTask_frame s)
@[simp] theorem resultTask_cfg0 (s : State) : (resultTask s).cfg0 = s.cfg0 := congrArg (·.cfg0) (resultTask_frame s)
@[simp] theorem resultTask_cfg (s : State) : (resultTask s).cfg = s.cfg := congrArg (·.cfg) (resultTask_frame s)
@[simp] theorem resultTask_rx (s : State) : (resultTask s).eng.rx = s.eng.rx :=
  congrArg (·.eng.rx) (resultTask_frame s)
@[simp] theorem resultTask_rxPendHdr (s : State) : (resultTask s).eng.rxPendHdr = s.eng.rxPendHdr :=
  congrArg (·.eng.rxPendHdr) (resultTask_frame s)
@[simp] theorem resultTask_rxPendPay (s : State) : (resultTask s).eng.rxPendPay = s.eng.rxPendPay :=
  congrArg (·.eng.rxPendPay) (resultTask_frame s)
@[simp] theorem resultTask_rxPendNoise (s : State) : (resultTask s).eng.rxPendNoise = s.eng.rxPendNoise :=
  congrArg (·.eng.rxPendNoise) (resultTask_frame s)
@[simp] theorem resultTask_noiseReady (s : State) : (resultTask s).eng.noiseReady = s.eng.noiseReady :=
  congrArg (·.eng.noiseReady) (resultTask_frame s)
@[simp] theorem resultTask_rxIntHdr (s : State) : (resultTask s).mdm.rxIntHdr = s.mdm.rxIntHdr :=
  congrArg (·.mdm.rxIntHdr) (resultTask_frame s)
@[simp] theorem resultTask_rxIntPay (s : State) : (resultTask s).mdm.rxIntPay = s.mdm.rxIntPay :=
  congrArg (·.mdm.rxIntPay) (resultTask_frame s)
@[simp] theorem resultTask_rxIntNoise (s : State) : (resultTask s).mdm.rxIntNoise = s.mdm.rxIntNoise :=
  congrArg (·.mdm.rxIntNoise) (resultTask_frame s)
@[simp] theorem resultTask_err (s : State) : (resultTask s).mdm.err = s.mdm.err :=
  congrArg (·.mdm.err) (resultTask_frame s)
@[simp] theorem resultTask_time (s : State) : (resultTask s).mdm.time = s.mdm.time :=
  congrArg (·.mdm.time) (resultTask_frame s)
@[simp] theorem resultTask_txbuf (s : State) : (resultTask s).mdm.txbuf = s.mdm.txbuf :=
  congrArg (·.mdm.txbuf) (resultTask_frame s)

/-! ## SUBMIT and TX_DONE -/

/-- What an accepted submit writes: a counter, the slot record and the slot's image (44_tx_scheduler.md R161). -/
theorem submitted_eq (s : State) (i : SlotId) (img : Bytes) (c : TxConfig) :
    armSlot (imageStored (countBusy s i) .txbuf i img) i c =
      { s with
        stat := (countBusy s i).stat
        eng := { s.eng with
          tx := s.eng.tx.set i { s.eng.tx.get i with state := .armed, outValid := false, conf := c } }
        mdm := { s.mdm with
          txbuf := s.mdm.txbuf.set i (.mk (((s.mdm.txbuf.get i).cells.overwrite 0 img).truncate img.length)
            (s.free + 1)) }
        free := s.free + 1 } := by
  unfold countBusy
  split <;> rfl

/-- Slots 0 and 1 share a result register, and slots 2 and 3. -/
theorem resultReg_eq (s : State) (i : SlotId) :
    s.resultReg i = if i.toNat / 2 = 0 then s.mdm.txResult0 else s.mdm.txResult1 := by cases i <;> rfl

/-- What TX_DONE writes: two result registers, an RMS, a flag and the request (R174). -/
theorem completeTransmission_eq (s : State) (i : SlotId) (c : TxResult) (r : Nat) :
    completeTransmission s i c r = { s with mdm := { s.mdm with
      txResult0 := (s.setResultCode i c).mdm.txResult0
      txResult1 := (s.setResultCode i c).mdm.txResult1
      rms := s.mdm.rms.set i (wrapRms s.params r)
      txInt := setFlag s.mdm.txInt i
      irqReq := true } } := by
  cases i <;> rfl

end Sys2Proof.Machine
end

section
/-! SUPPORT. The transmit slots, one at a time: what a step can do to a slot's record, its completion flag and its
pending bit, said once for all instructions (`TxMove`), and the statements that follow from it. -/

namespace Sys2Proof.Machine

/-- What the transmit side holds of one slot: its record, its completion flag, its pending bit. -/
structure TxView where
  slot : TxSlot
  int : Bool
  pend : Bool

def txView (s : State) (j : SlotId) : TxView := ⟨s.eng.tx.get j, flag s.mdm.txInt j, flag s.eng.txPend j⟩

/-- Slot `j` with the outcome latched that the modem holds for it (44_tx_scheduler.md R177). -/
def completedSlot (s : State) (j : SlotId) : TxSlot :=
  (s.eng.tx.get j).complete (s.resultCode j) (if s.cfg.qualityReportMode then some (s.mdm.rms.get j) else none)

/-! ## The operations, seen from one slot -/

theorem txView_readResult (s : State) (i j : SlotId) :
    txView (readResult s i) j =
      if j = i then ⟨completedSlot s j, false, flag s.eng.txPend j⟩ else txView s j := by
  rw [readResult_eq]
  by_cases h : j = i
  · subst h; simp [txView, completedSlot]
  · simp [txView, h, PerSlot.get_set_ne, flag_clearFlag_ne]

theorem txView_resultTask (s : State) (j : SlotId) :
    txView (resultTask s) j =
      if nextTxSlot s = some j then ⟨completedSlot s j, false, false⟩ else txView s j := by
  rw [resultTask_eq]
  cases hn : nextTxSlot s with
  | none => simp
  | some i =>
    simp only [txView_readResult, Option.some.injEq, eq_comm (a := i)]
    by_cases h : j = i
    · subst h
      rw [if_pos rfl, if_pos rfl, withEng_eng, flag_clearFlag_self]
      rfl
    · simp [h, txView, flag_clearFlag_ne]

theorem txView_setTx (s : State) (i j : SlotId) (x : TxSlot) :
    txView (s.setTx i x) j = if j = i then { txView s j with slot := x } else txView s j := by
  by_cases h : j = i
  · subst h; simp [txView]
  · simp [txView, h, PerSlot.get_set_ne]

theorem txView_submitted (s : State) (i j : SlotId) (img : Bytes) (c : TxConfig) :
    txView (armSlot (imageStored (countBusy s i) .txbuf i img) i c) j =
      if j = i then
        { txView s j with slot := { s.eng.tx.get j with state := .armed, outValid := false, conf := c } }
      else txView s j := by
  rw [submitted_eq]
  by_cases h : j = i
  · subst h; simp [txView]
  · simp [txView, h, PerSlot.get_set_ne]

theorem txView_completeTransmission (s : State) (i j : SlotId) (c : TxResult) (r : Nat) :
    txView (completeTransmission s i c r) j = { txView s j with int := decide (j = i) || flag s.mdm.txInt j } := by
  simp [txView, completeTransmission_eq, flag_setFlag]

theorem txView_receiveTask (s : State) (j : SlotId) : txView (receiveTask s) j = txView s j := by
  simp [txView]

theorem completedSlot_receiveTask (s : State) (j : SlotId) : completedSlot (receiveTask s) j = completedSlot s j := by
  simp [completedSlot, State.resultCode, resultReg_eq]

theorem txView_recorded (s : State) (j : SlotId) :
    txView (recordFlags (enterHandler s)) j =
      { txView s j with pend := flag s.eng.txPend j || flag s.mdm.txInt j } := by
  simp [txView, recordFlags, enterHandler]

theorem txView_softReset (s : State) (j : SlotId) : txView (softReset s) j = ⟨softResetTx s j, false, false⟩ := by
  simp [softReset_eq, txView, reinitMdm]

theorem txView_hardReset (s : State) (j : SlotId) : txView (hardReset s) j = ⟨hardResetTx s j, false, false⟩ := by
  simp [hardReset_eq, txView, reinitMdm]

/-! ## Every step, seen from one slot -/

/-- What instruction `i` can make of slot `j` on the transmit side. -/
inductive TxMove (s : State) (j : SlotId) : Instr → TxView → Prop
  | kept (i : Instr) : TxMove s j i (txView s j)
  | recorded : TxMove s j .irqDispatch { txView s j with pend := flag s.eng.txPend j || flag s.mdm.txInt j }
  | armed {req : TxRequest} (c : TxConfig) (hj : req.bufferId.toNat = j.toNat)
      (hb : (s.eng.tx.get j).state.busy = true → s.params.busyPolicy = .overwrite) :
      TxMove s j (.submit req)
        { txView s j with slot := { s.eng.tx.get j with state := .armed, outValid := false, conf := c } }
  | started (ha : (s.eng.tx.get j).state = .armed) :
      TxMove s j (.txStart j) { txView s j with slot := { s.eng.tx.get j with state := .inFlight } }
  | flagged (c : TxResult) (r : Nat) (hb : (s.eng.tx.get j).state.busy = true) :
      TxMove s j (.txDone j c r) { txView s j with int := true }
  | read : TxMove s j (.txResultRead j) { txView s j with slot := completedSlot s j, int := false }
  | served {i : Instr} (hi : i = .irqDispatch ∨ i = .txResultTask ∨ ∃ v, i = .pollTxResult v)
      (hp : flag s.eng.txPend j = true ∨ i = .irqDispatch ∧ flag s.mdm.txInt j = true) :
      TxMove s j i ⟨completedSlot s j, false, false⟩
  | handedOver {v : BitVec 8} (hv : v.toNat = j.toNat) (ho : (s.eng.tx.get j).outValid = true) :
      TxMove s j (.pollTxResult v) { txView s j with slot := (s.eng.tx.get j).consume }
  | servedAndHandedOver {v : BitVec 8} (hv : v.toNat = j.toNat) (hn : nextTxSlot s = some j) :
      TxMove s j (.pollTxResult v) ⟨(completedSlot s j).consume, false, false⟩
  | hardReset : TxMove s j .hardReset ⟨hardResetTx s j, false, false⟩
  | softReset : TxMove s j .softReset ⟨softResetTx s j, false, false⟩
  | timedOut {k : SlotId} (hb : (s.eng.tx.get k).state.busy = true) :
      TxMove s j (.timeoutExpire k) ⟨softResetTx (latchTimeout s k) j, false, false⟩

section
variable {s t : State} {i : Instr} {j : SlotId}

/-- The result task moves the slot it serves, and no other. -/
theorem txMove_resultTask (hi : i = .irqDispatch ∨ i = .txResultTask ∨ ∃ v, i = .pollTxResult v) :
    TxMove s j i (txView (resultTask s) j) := by
  rw [txView_resultTask]
  split
  · next hn => exact .served hi (.inl (nextTxSlot_some hn))
  · exact .kept i

/-- A dispatch without an error records the flags and then serves at most one completion. -/
theorem txMove_dispatch : TxMove s j .irqDispatch (txView (runTasks (recordFlags (enterHandler s))) j) := by
  rw [runTasks_eq_tasks, txView_resultTask]
  split
  · next hn =>
    have hp : flag s.eng.txPend j = true ∨ flag s.mdm.txInt j = true := by
      simpa [recordFlags, enterHandler] using nextTxSlot_some hn
    rw [completedSlot_receiveTask]
    exact .served (.inl rfl) (hp.imp_right fun h => ⟨rfl, h⟩)
  · rw [txView_receiveTask, txView_recorded]; exact .recorded

/-- A poll hands over what the slot holds after at most one run of the task. -/
theorem txMove_handOver {v : BitVec 8} {k : SlotId} (hv : slotOperand v = some k)
    (ho : ((resultTask s).eng.tx.get k).outValid = true) :
    TxMove s j (.pollTxResult v)
      (txView ((resultTask s).setTx k ((resultTask s).eng.tx.get k).consume) j) := by
  rw [txView_setTx]
  split
  · next hjk =>
    subst hjk
    have hview := txView_resultTask s j
    have hv := slotOperand_iff.1 hv
    split at hview
    · next hn =>
      have hslot : (resultTask s).eng.tx.get j = completedSlot s j := congrArg TxView.slot hview
      rw [hview, hslot]
      exact .servedAndHandedOver hv hn
    · have hslot : (resultTask s).eng.tx.get j = s.eng.tx.get j := congrArg TxView.slot hview
      rw [hslot] at ho
      rw [hview, hslot]
      exact .handedOver hv ho
  · exact txMove_resultTask (.inr (.inr ⟨v, rfl⟩))

/-- Every effect of an instruction moves every slot along one of the moves. -/
theorem Effect.txMove (h : Effect s i t) : TxMove s j i (txView t j) := by
  cases h with
  | submit hk _ _ _ hb =>
    rw [txView_submitted]
    split
    · next hj => subst hj; exact .armed _ (slotOperand_iff.1 hk) hb
    · exact .kept _
  | pollTxEmpty _ hu _ => rw [hu, pollTask_eq]; exact txMove_resultTask (.inr (.inr ⟨_, rfl⟩))
  | pollTxOutcome hk hu ho => rw [pollTask_eq] at hu; subst hu; exact txMove_handOver hk ho
  | hardReset => rw [txView_hardReset]; exact .hardReset
  | txStart ha =>
    rw [txView_setTx]
    split
    · next hj => subst hj; exact .started ha
    · exact .kept _
  | @txDone k c r _ hb =>
    rw [txView_completeTransmission]
    by_cases hj : j = k
    · subst hj; simpa using TxMove.flagged c r hb
    · rw [decide_eq_false hj]; exact .kept _
  | timeoutExpire hb => rw [txView_softReset]; exact .timedOut hb
  | irqTasks => exact txMove_dispatch
  | rxTask => rw [txView_receiveTask]; exact .kept _
  | txResultTask => exact txMove_resultTask (.inr (.inl rfl))
  | txResultRead k =>
    rw [txView_readResult]
    split
    · next hj => subst hj; exact .read
    · exact .kept _
  | impUpdate r => rw [updateImpedance_frame]; exact .kept _
  | softReset => rw [txView_softReset]; exact .softReset
  | setConfigParam => rw [writeParam_frame]; exact .kept _
  | irqError => rw [errorPath_eq]; exact .kept _
  | same | unnamedSubmit | unnamedEncode | frameA | frameB | frameBC | submitBusy | pollRxMessage | pollRxDrop
  | pollRxNoise | setChannel | setNetworkAddress | rxHeaderDone | rxPayloadDone | noiseDone | rxError | timeAdvance
  | impReselect | updateSnaSeed => exact .kept _

end

end Sys2Proof.Machine
end

section
/-! SUPPORT. The slot state machine: the outcome latch, the completion flags, and the edges of the slot table
(10_state.md R26; 44_tx_scheduler.md R160), each read off the moves of a slot. -/

namespace Sys2Proof.Machine

/-! ## The latch -/

/-- A slot record holds an outcome exactly in `Success` and `Error` (10_state.md R26). -/
def TxSlot.Latched (x : TxSlot) : Prop := x.outValid = true ↔ x.state = .success ∨ x.state = .error

theorem latchOk_iff {s : State} : LatchOk s ↔ ∀ j, (s.eng.tx.get j).Latched := Iff.rfl

/-- A slot that holds an outcome is not busy. -/
theorem TxSlot.Latched.not_busy {x : TxSlot} (h : x.Latched) (ho : x.outValid = true) : x.state.busy = false := by
  rcases h.1 ho with hs | hs <;> rw [hs] <;> rfl

theorem TxSlot.Latched.outValid_of_busy {x : TxSlot} (h : x.Latched) (hb : x.state.busy = true) :
    x.outValid = false := by
  cases ho : x.outValid with
  | false => rfl
  | true => rw [h.not_busy ho] at hb; cases hb

theorem latched_complete (x : TxSlot) (r : TxResult) (rms : Option Nat) : (x.complete r rms).Latched := by
  by_cases hr : r = .success <;> simp [TxSlot.Latched, TxSlot.complete, hr]

theorem latched_empty {x : TxSlot} (ho : x.outValid = false) (hs : x.state ≠ .success) (he : x.state ≠ .error) :
    x.Latched := by
  simp [TxSlot.Latched, ho, hs, he]

/-- A soft reset abandons a busy slot, which holds no outcome, and keeps the others (70_reset_and_hazards.md
R278). -/
theorem latched_softResetTx {s : State} {j : SlotId} (h : (s.eng.tx.get j).Latched) : (softResetTx s j).Latched := by
  by_cases hb : (s.eng.tx.get j).state.busy = true
  · have hidle : (softResetTx s j).state = .idle := if_pos hb
    exact latched_empty (h.outValid_of_busy hb) (hidle ▸ nofun) (hidle ▸ nofun)
  · simpa [TxSlot.Latched, softResetTx, hb] using h

theorem latchOk_latchTimeout {s : State} (h : LatchOk s) (k : SlotId) : LatchOk (latchTimeout s k) := by
  rw [latchOk_iff] at h ⊢
  intro j
  by_cases hj : j = k
  · subst hj; simpa [latchTimeout] using latched_complete _ _ _
  · simpa [latchTimeout, PerSlot.get_set_ne _ _ hj] using h j

theorem TxMove.latched {s : State} {j : SlotId} {i : Instr} {x : TxView} (h : TxMove s j i x) (hl : LatchOk s) :
    x.slot.Latched := by
  have hj : (s.eng.tx.get j).Latched := hl j
  cases h with
  | kept | recorded | flagged => exact hj
  | armed => exact latched_empty rfl nofun nofun
  | started ha => exact latched_empty (hj.outValid_of_busy (by rw [ha]; rfl)) nofun nofun
  | read | served => exact latched_complete _ _ _
  | handedOver | servedAndHandedOver | hardReset => exact latched_empty rfl nofun nofun
  | softReset => exact latched_softResetTx hj
  | timedOut => exact latched_softResetTx (latchOk_latchTimeout hl _ j)

/-! ## The completion flags -/

/-- A completion is flagged only for a busy slot, and pending only while flagged (44_tx_scheduler.md R174,
R177). -/
def TxView.FlagsOk (x : TxView) : Prop := (x.int = true → x.slot.state.busy = true) ∧ (x.pend = true → x.int = true)

theorem completionOk_iff {s : State} : CompletionOk s ↔ ∀ j, (txView s j).FlagsOk := forall_and.symm

theorem flagsOk_cleared (x : TxSlot) : TxView.FlagsOk ⟨x, false, false⟩ := ⟨nofun, nofun⟩

/-- The steps of an agent keep the flags in order. The internal TX_RESULT_READ does not: it leaves the pending
bit. -/
theorem TxMove.flagsOk {s : State} {j : SlotId} {i : Instr} {x : TxView} (h : TxMove s j i x)
    (ha : agentStep i = true) (hl : LatchOk s) (hc : CompletionOk s) : x.FlagsOk := by
  obtain ⟨hbusy, hint⟩ : (txView s j).FlagsOk := completionOk_iff.1 hc j
  cases h with
  | kept => exact ⟨hbusy, hint⟩
  | recorded => exact ⟨hbusy, fun hp => (Bool.or_eq_true_iff.1 hp).elim hint id⟩
  | armed | started => exact ⟨fun _ => rfl, hint⟩
  | flagged _ _ hb => exact ⟨fun _ => hb, fun _ => rfl⟩
  | read => cases ha
  | handedOver _ ho =>
    have hnot : ¬(txView s j).int = true := fun hi => by
      have hb : (s.eng.tx.get j).state.busy = true := hbusy hi
      rw [TxSlot.Latched.not_busy (hl j) ho] at hb
      cases hb
    exact ⟨fun hi => absurd hi hnot, hint⟩
  | served | servedAndHandedOver | hardReset | softReset | timedOut => exact flagsOk_cleared _

/-- Settles O34: both invariants hold slot by slot, and every step moves a slot along one of its moves. -/
theorem outcomesAreLatchedExactlyWhenComplete : Obligations.OutcomesAreLatchedExactlyWhenComplete := by
  refine ⟨fun s t hl hstep => ?_, fun s t hl hc ha hstep => ?_⟩
  · obtain ⟨item, rest, i, u, r, _, _, _, he, rfl⟩ := step_effect hstep
    exact fun j => (Effect.txMove (j := j) he).latched hl
  · obtain ⟨item, rest, i, u, r, hag, hd, _, he, rfl⟩ := step_effect hstep
    exact completionOk_iff.2 fun j => (Effect.txMove (j := j) he).flagsOk (ha item rest i hag hd) hl hc

/-! ## The slot table -/

theorem resultCode_eq_success_iff (s : State) (j : SlotId) : s.resultCode j = .success ↔ resultField s j = 0 := by
  rw [eq_comm, ← resultIs_iff]
  simp [ResultIs, show TxResult.success.code = 0 from rfl]

theorem completedSlot_state (s : State) (j : SlotId) :
    (completedSlot s j).state = if resultField s j = 0 then .success else .error := by
  simp only [completedSlot, TxSlot.complete, resultCode_eq_success_iff]

/-- Slot `j` goes from its state in `s` to `new`, along an edge of the table of 44_tx_scheduler.md R160 that
instruction `i` takes. -/
def SlotEdge (s : State) (i : Instr) (j : SlotId) (new : SlotState) : Prop :=
  (∃ req, i = .submit req ∧ req.bufferId.toNat = j.toNat ∧ new = .armed ∧
    ((s.eng.tx.get j).state.busy = true → s.params.busyPolicy = .overwrite)) ∨
  (i = .txStart j ∧ (s.eng.tx.get j).state = .armed ∧ new = .inFlight) ∨
  ((i = .irqDispatch ∨ ∃ v, i = .pollTxResult v) ∧ (s.eng.tx.get j).state.busy = true ∧
    ((resultField s j = 0 ∧ new = .success) ∨ (resultField s j ≠ 0 ∧ new = .error))) ∨
  (∃ v : BitVec 8, i = .pollTxResult v ∧ v.toNat = j.toNat ∧ new = .idle ∧
    ((s.eng.tx.get j).state = .success ∨ (s.eng.tx.get j).state = .error ∨
      ((s.eng.tx.get j).state.busy = true ∧ flag s.eng.txPend j = true))) ∨
  (∃ k, i = .timeoutExpire k ∧ (s.eng.tx.get j).state.busy = true ∧ new = if j = k then .error else .idle) ∨
  (i = .hardReset ∧ new = .idle)

/-- After a timeout of slot `k` a slot is as before, or it was busy: `k` is then in error, another slot is
abandoned (44_tx_scheduler.md R175; 70_reset_and_hazards.md R278). -/
theorem softResetTx_latchTimeout_state {s : State} {k : SlotId} (hb : (s.eng.tx.get k).state.busy = true)
    (j : SlotId) :
    (softResetTx (latchTimeout s k) j).state = (s.eng.tx.get j).state ∨
      (s.eng.tx.get j).state.busy = true ∧
        (softResetTx (latchTimeout s k) j).state = if j = k then .error else .idle := by
  by_cases hj : j = k
  · subst hj; exact .inr ⟨hb, by simp [softResetTx, latchTimeout, TxSlot.complete, SlotState.busy]⟩
  · by_cases hbusy : (s.eng.tx.get j).state.busy = true
    · exact .inr ⟨hbusy, by simp [softResetTx, latchTimeout, PerSlot.get_set_ne _ _ hj, hbusy, hj]⟩
    · exact .inl (by simp [softResetTx, latchTimeout, PerSlot.get_set_ne _ _ hj, hbusy])

theorem TxMove.edge {s : State} {j : SlotId} {i : Instr} {x : TxView} (h : TxMove s j i x) (ha : agentStep i = true)
    (hl : LatchOk s) (hc : CompletionOk s) (hne : x.slot.state ≠ (s.eng.tx.get j).state) :
    SlotEdge s i j x.slot.state := by
  obtain ⟨hbusy, hint⟩ : (txView s j).FlagsOk := completionOk_iff.1 hc j
  cases h with
  | kept | recorded | flagged => exact absurd rfl hne
  | armed _ hj hb => exact .inl ⟨_, rfl, hj, rfl, hb⟩
  | started hs => exact .inr (.inl ⟨rfl, hs, rfl⟩)
  | read | softReset => cases ha
  | served hi hp =>
    have hagent : i = .irqDispatch ∨ ∃ v, i = .pollTxResult v := by
      rcases hi with hi | rfl | hi
      · exact .inl hi
      · cases ha
      · exact .inr hi
    have hb : (s.eng.tx.get j).state.busy = true := hbusy (hp.elim hint And.right)
    refine .inr (.inr (.inl ⟨hagent, hb, ?_⟩))
    rw [completedSlot_state]
    by_cases h0 : resultField s j = 0
    · exact .inl ⟨h0, if_pos h0⟩
    · exact .inr ⟨h0, if_neg h0⟩
  | handedOver hv ho =>
    exact .inr (.inr (.inr (.inl ⟨_, rfl, hv, rfl, ((hl j).1 ho).imp_right .inl⟩)))
  | servedAndHandedOver hv hn =>
    have hp := nextTxSlot_some hn
    exact .inr (.inr (.inr (.inl ⟨_, rfl, hv, rfl, .inr (.inr ⟨hbusy (hint hp), hp⟩)⟩)))
  | hardReset => exact .inr (.inr (.inr (.inr (.inr ⟨rfl, rfl⟩))))
  | timedOut hb =>
    have hedge := (softResetTx_latchTimeout_state hb j).resolve_left hne
    exact .inr (.inr (.inr (.inr (.inl ⟨_, rfl, hedge⟩))))

/-- Settles O33: the moves of a slot that change its state are the edges of the table. -/
theorem slotsMoveAlongTheTable : Obligations.SlotsMoveAlongTheTable := by
  intro s t i j hl hc ha hexec hne
  obtain ⟨u, r, he, rfl⟩ := exec_effect hexec
  exact (Effect.txMove (j := j) he).edge ha hl hc hne

end Sys2Proof.Machine
end

section
/-! SUPPORT. Who writes the parameters, the configuration, the time reference, a slot's configuration and its image
(10_state.md R22, R39; 44_tx_scheduler.md R166, R169, R173; 47_config.md R236). -/

namespace Sys2Proof.Machine

/-- The instructions that write the configuration. -/
def WritesConfig (i : Instr) : Prop :=
  (∃ a, i = .setNetworkAddress a) ∨ (∃ id v, i = .setConfigParam id v) ∨ (∃ v, i = .setChannel v) ∨ i = .hardReset

/-- The instructions that write the configuration or the image of slot `j`: a submit to it and the resets. -/
def RewritesSlot (i : Instr) (j : SlotId) : Prop :=
  (∃ req, i = .submit req ∧ req.bufferId.toNat = j.toNat) ∨ i = .hardReset ∨ i = .softReset ∨
    ∃ k, i = .timeoutExpire k

/-- What instruction `i` leaves alone as it goes from `s` to `t`. -/
structure StepFrame (s : State) (i : Instr) (t : State) : Prop where
  params : t.params = s.params
  cfg0 : t.cfg0 = s.cfg0
  cfg : t.cfg = s.cfg ∨ WritesConfig i
  time : t.mdm.time = s.mdm.time ∨ ∃ d, i = .timeAdvance d
  txbuf : ∀ j, t.mdm.txbuf.get j = s.mdm.txbuf.get j ∨ RewritesSlot i j

section
variable {s t : State} {i : Instr}

theorem StepFrame.of_same (hp : t.params = s.params) (h0 : t.cfg0 = s.cfg0) (hc : t.cfg = s.cfg)
    (ht : t.mdm.time = s.mdm.time) (hb : t.mdm.txbuf = s.mdm.txbuf) : StepFrame s i t :=
  ⟨hp, h0, .inl hc, .inl ht, fun _ => .inl (by rw [hb])⟩

theorem StepFrame.resultTask (s : State) : StepFrame s i (resultTask s) := .of_same (by simp) (by simp) (by simp)
  (by simp) (by simp)

theorem StepFrame.reset (hp : t.params = s.params) (h0 : t.cfg0 = s.cfg0) (hc : t.cfg = s.cfg ∨ i = .hardReset)
    (ht : t.mdm.time = s.mdm.time) (hi : i = .hardReset ∨ i = .softReset ∨ ∃ k, i = .timeoutExpire k) :
    StepFrame s i t :=
  ⟨hp, h0, hc.imp_right fun h => .inr (.inr (.inr h)), .inl ht, fun _ => .inr (.inr hi)⟩

theorem Effect.frame (h : Effect s i t) : StepFrame s i t := by
  cases h with
  | @submit req k _ _ _ hk _ _ _ _ =>
    rw [submitted_eq]
    refine ⟨rfl, rfl, .inl rfl, .inl rfl, fun j => ?_⟩
    by_cases hj : j = k
    · subst hj; exact .inr (.inl ⟨req, rfl, slotOperand_iff.1 hk⟩)
    · exact .inl (PerSlot.get_set_ne _ _ hj)
  | pollTxEmpty _ hu _ => rw [hu, pollTask_eq]; exact .resultTask s
  | pollTxOutcome _ hu _ =>
    rw [hu, pollTask_eq]
    exact .of_same (by simp) (by simp) (by simp) (by simp) (by simp)
  | setChannel => exact ⟨rfl, rfl, .inr (.inr (.inr (.inl ⟨_, rfl⟩))), .inl rfl, fun _ => .inl rfl⟩
  | setNetworkAddress a => exact ⟨rfl, rfl, .inr (.inl ⟨a, rfl⟩), .inl rfl, fun _ => .inl rfl⟩
  | setConfigParam =>
    rw [writeParam_frame]
    exact ⟨rfl, rfl, .inr (.inr (.inl ⟨_, _, rfl⟩)), .inl rfl, fun _ => .inl rfl⟩
  | timeAdvance d => exact ⟨rfl, rfl, .inl rfl, .inr ⟨d, rfl⟩, fun _ => .inl rfl⟩
  | irqTasks =>
    rw [runTasks_eq_tasks]
    exact .of_same (by simp; rfl) (by simp; rfl) (by simp; rfl) (by simp; rfl) (by simp; rfl)
  | irqError => rw [errorPath_eq]; exact .of_same rfl rfl rfl rfl rfl
  | rxTask => exact .of_same (by simp) (by simp) (by simp) (by simp) (by simp)
  | txResultTask => exact .resultTask s
  | txResultRead => rw [readResult_eq]; exact .of_same rfl rfl rfl rfl rfl
  | impUpdate => rw [updateImpedance_frame]; exact .of_same rfl rfl rfl rfl rfl
  | txDone => rw [completeTransmission_eq]; exact .of_same rfl rfl rfl rfl rfl
  | hardReset => exact .reset rfl rfl (.inr rfl) rfl (.inl rfl)
  | softReset => exact .reset rfl rfl (.inl rfl) rfl (.inr (.inl rfl))
  | timeoutExpire => exact .reset rfl rfl (.inl rfl) rfl (.inr (.inr ⟨_, rfl⟩))
  | same | unnamedSubmit | unnamedEncode | frameA | frameB | frameBC | submitBusy | pollRxMessage | pollRxDrop
  | pollRxNoise | txStart | rxHeaderDone | rxPayloadDone | noiseDone | rxError | impReselect | updateSnaSeed =>
    exact .of_same rfl rfl rfl rfl rfl

theorem exec_frame (h : exec i s = .next t) : StepFrame s i t := by
  obtain ⟨u, r, he, rfl⟩ := exec_effect h
  obtain ⟨hp, h0, hc, ht, hb⟩ := he.frame
  exact ⟨hp, h0, hc, ht, hb⟩

/-- A slot record's configuration outlives every move but a submit to the slot and the resets. -/
theorem TxMove.conf {j : SlotId} {x : TxView} (h : TxMove s j i x) :
    x.slot.conf = (s.eng.tx.get j).conf ∨ RewritesSlot i j := by
  cases h with
  | armed _ hj _ => exact .inr (.inl ⟨_, rfl, hj⟩)
  | hardReset => exact .inr (.inr (.inl rfl))
  | softReset => exact .inr (.inr (.inr (.inl rfl)))
  | timedOut => exact .inr (.inr (.inr (.inr ⟨_, rfl⟩)))
  | kept | recorded | started | flagged | read | served | handedOver | servedAndHandedOver => exact .inl rfl

end

/-- Settles O53: the frame of every instruction, and the moves of each slot for its configuration. -/
theorem armedSlotsKeepTheirConfiguration : Obligations.ArmedSlotsKeepTheirConfiguration := by
  intro s t i hexec
  obtain ⟨hp, h0, hc, _, hb⟩ := exec_frame hexec
  refine ⟨hp, h0, hc, fun j => ?_⟩
  obtain ⟨u, r, he, rfl⟩ := exec_effect hexec
  rcases (Effect.txMove (j := j) he).conf with hconf | hw
  · exact (hb j).imp_left fun himg => ⟨hconf, himg⟩
  · exact .inr hw

/-! ## Time -/

/-- TIME_ADVANCE is its enabling condition and the sum (44_tx_scheduler.md R173). -/
theorem exec_timeAdvance (d : Nat) (s : State) :
    exec (.timeAdvance d) s = whenEnabled (decide (1 ≤ d) && decide (d < 2 ^ (s.params.timeW - 1)))
      (.next (answered (s.withMdm { s.mdm with time := wrapTime s.params (s.mdm.time + d) }) .silent)) := rfl

/-- Settles O26: the enabling condition decides the first two clauses, the frame of the other instructions is the
third. -/
theorem timePassesByTimeAdvance : Obligations.TimePassesByTimeAdvance := by
  refine ⟨fun s d h1 h2 => ?_, fun s d h => ?_, fun s t i hi hexec => ?_⟩
  · rw [exec_timeAdvance, decide_eq_true h1, decide_eq_true h2]; rfl
  · have hoff : (decide (1 ≤ d) && decide (d < 2 ^ (s.params.timeW - 1))) = false := by
      rcases h with rfl | h
      · rfl
      · rw [decide_eq_false (Nat.not_lt.2 h), Bool.and_false]
    rw [exec_timeAdvance, hoff]; rfl
  · exact (exec_frame hexec).time.resolve_right fun ⟨d, hd⟩ => hi d hd

end Sys2Proof.Machine
end

section
/-! SUPPORT. Every value stays within its width (10_state.md R22 to R39; 70_reset_and_hazards.md R277): a rule for
each update of the state, a lemma for each operation that writes a value with a width, and then all steps. -/

namespace Sys2Proof.Machine

theorem forall_get_set {α : Type} {P : α → Prop} {t : PerSlot α} {v : α} (ht : ∀ j, P (t.get j)) (hv : P v)
    (i j : SlotId) : P ((t.set i v).get j) := by
  rw [PerSlot.get_set]
  split
  · exact hv
  · exact ht j

/-- The values of a slot record are within their widths (10_state.md R24). -/
structure TxSlot.InRange (p : Params) (x : TxSlot) : Prop where
  schedTime : x.conf.schedTime < 2 ^ p.timeW
  guards : x.conf.guardBefore < 2 ^ p.timeW ∧ x.conf.guardAfter < 2 ^ p.timeW
  outRms : ∀ v, x.outRms = some v → v < 2 ^ p.rmsW

/-- The loaded thresholds are within their width (R36). -/
def ThresholdsInRange (p : Params) (x : Selection) : Prop :=
  x.th1 < 2 ^ p.rmsW ∧ x.th2 < 2 ^ p.rmsW ∧ x.th3 < 2 ^ p.rmsW ∧ x.th4 < 2 ^ p.rmsW

theorem inRange_selectFor {p : Params} {c : PhyConfig} (h : c.legal p) (imp : ImpedanceState) :
    ThresholdsInRange p (selectFor c imp) := h.profile c.channel

theorem snaSeeds_lt (p : Params) (a : Sna) (w : CrcWidth) : ((snaSeeds p a).get w).toNat < 2 ^ w.bits := by
  rw [snaSeeds_get]; exact crcRoll_lt _ _ _ _

theorem inRange_clipTimes (p : Params) (c : TxConfig) :
    (clipTimes p c).schedTime < 2 ^ p.timeW ∧ (clipTimes p c).guardBefore < 2 ^ p.timeW ∧
      (clipTimes p c).guardAfter < 2 ^ p.timeW :=
  ⟨wrapTime_lt _ _, wrapTime_lt _ _, wrapTime_lt _ _⟩

theorem inRange_setThreshold {p : Params} {f : Profile} (h : f.inRange p) (k : ThresholdKey) {v : Nat}
    (hv : v < 2 ^ p.rmsW) : (setThreshold f k v).inRange p := by
  obtain ⟨h1, h2, h3, h4⟩ := h
  cases k with
  | t1 => exact ⟨hv, h2, h3, h4⟩
  | t2 => exact ⟨h1, hv, h3, h4⟩
  | t3 => exact ⟨h1, h2, hv, h4⟩
  | t4 => exact ⟨h1, h2, h3, hv⟩

namespace WidthsOk

variable {s t : State}

theorem tx (h : WidthsOk s) (i : SlotId) : (s.eng.tx.get i).InRange s.params :=
  ⟨h.schedTime i, h.guards i, h.outRms i⟩

/-! ## The updates -/

/-- The fields that have a width. -/
def view (s : State) :=
  (s.params, s.cfg0, s.cfg, s.mdm.time, s.mdm.noiseTime, s.mdm.rxTime, s.mdm.rms, s.eng.tx, s.eng.sel, s.eng.seed)

/-- A change of any other field keeps the widths. -/
theorem of_view (h : WidthsOk s) (e : view t = view s) : WidthsOk t := by
  simp only [view, Prod.mk.injEq] at e
  obtain ⟨hp, h0, hc, ht, hn, hx, hr, htx, hs, hd⟩ := e
  constructor
  · rw [hp, h0]; exact h.cfg0
  · rw [hp, hc]; exact h.cfg
  · rw [hp, ht]; exact h.time
  · rw [hp, hn]; exact h.noiseTime
  · rw [hp, hx]; exact h.rxTime
  · rw [hp, htx]; exact h.schedTime
  · rw [hp, htx]; exact h.guards
  · rw [hp, hr]; exact h.rms
  · rw [hp, htx]; exact h.outRms
  · rw [hp, hs]; exact h.thresholds
  · rw [hd]; exact h.seeds

theorem withCfg (h : WidthsOk s) {c : PhyConfig} (hc : c.legal s.params) : WidthsOk (s.withCfg c) :=
  { h with cfg := hc }

theorem withMdm (h : WidthsOk s) {m : Mdm} (ht : m.time < 2 ^ s.params.timeW)
    (hn : m.noiseTime < 2 ^ s.params.timeW) (hx : ∀ i, m.rxTime.get i < 2 ^ s.params.timeW)
    (hr : ∀ i, m.rms.get i < 2 ^ s.params.rmsW) : WidthsOk (s.withMdm m) :=
  { h with time := ht, noiseTime := hn, rxTime := hx, rms := hr }

theorem setTx (h : WidthsOk s) (i : SlotId) {x : TxSlot} (hx : x.InRange s.params) : WidthsOk (s.setTx i x) :=
  have hall : ∀ j, ((s.eng.tx.set i x).get j).InRange s.params := forall_get_set h.tx hx i
  { h with
    schedTime := fun j => (hall j).schedTime
    guards := fun j => (hall j).guards
    outRms := fun j => (hall j).outRms }

theorem withSelection (h : WidthsOk s) {x : Selection} (hx : ThresholdsInRange s.params x) (imp : ImpedanceState) :
    WidthsOk (s.withEng { s.eng with imp := imp, sel := x }) :=
  { h with thresholds := hx }

/-! ## The configuration and the controller -/

theorem updateSeeds (h : WidthsOk s) (a : Sna) : WidthsOk (updateSeeds s a) := { h with seeds := snaSeeds_lt _ a }

theorem reselect (h : WidthsOk s) : WidthsOk (reselect s) := h.withSelection (inRange_selectFor h.cfg _) _

theorem updateImpedance (h : WidthsOk s) (rms : Nat) : WidthsOk (updateImpedance s rms) := by
  rw [updateImpedance_eq]
  split
  · exact h
  · exact h.withSelection (inRange_selectFor h.cfg _) _

theorem setAddress (h : WidthsOk s) (a : Sna) : WidthsOk (setAddress s a) :=
  (h.withCfg (c := { s.cfg with sna := a }) ⟨h.cfg.guardBefore, h.cfg.guardAfter, h.cfg.profile⟩).updateSeeds a

theorem switchChannel (h : WidthsOk s) (c : Channel) : WidthsOk (switchChannel s c) :=
  (h.withCfg (c := { s.cfg with channel := c }) ⟨h.cfg.guardBefore, h.cfg.guardAfter, h.cfg.profile⟩).reselect

theorem changeProfile (h : WidthsOk s) (c : Channel) {f : Profile → Profile}
    (hf : (f (s.cfg.profile.get c)).inRange s.params) : WidthsOk (changeProfile s c f) := by
  refine h.withCfg ⟨h.cfg.guardBefore, h.cfg.guardAfter, fun ch => ?_⟩
  rw [PerChannel.get_set]
  split
  · exact hf
  · exact h.cfg.profile ch

/-- A legal value is within the width of its field (47_config.md R232). -/
theorem writeParam (h : WidthsOk s) {k : ParamKey} {v : Nat} (hv : legalValue s.params k v = true) :
    WidthsOk (writeParam s k v) := by
  have hc := h.cfg
  cases k with
  | macCrcEnable | qualityReportMode | peakCutMode | defaultImpedance | gain | driverFor =>
    exact h.withCfg ⟨hc.guardBefore, hc.guardAfter, hc.profile⟩
  | sna => exact h.setAddress _
  | channel => exact h.switchChannel _
  | guardBefore => exact h.withCfg ⟨of_decide_eq_true hv, hc.guardAfter, hc.profile⟩
  | guardAfter => exact h.withCfg ⟨hc.guardBefore, of_decide_eq_true hv, hc.profile⟩
  | impedanceState => exact h
  | attChirp c | attSignal c => simp only [Machine.writeParam]; exact h.changeProfile c (hc.profile c)
  | threshold c k =>
    simp only [Machine.writeParam]
    exact h.changeProfile c (inRange_setThreshold (hc.profile c) k (of_decide_eq_true hv))
  | stat => exact h.of_view rfl

/-! ## The transmit slots -/

theorem latchResult (h : WidthsOk s) (i : SlotId) : WidthsOk (latchResult s i) := by
  have hx : ((s.eng.tx.get i).complete (s.resultCode i)
      (if s.cfg.qualityReportMode then some (s.mdm.rms.get i) else none)).InRange s.params := by
    refine ⟨h.schedTime i, h.guards i, fun v hv => ?_⟩
    change (if s.cfg.qualityReportMode then some (s.mdm.rms.get i) else none) = some v at hv
    split at hv
    · cases hv; exact h.rms i
    · cases hv
  exact (h.setTx i hx).of_view rfl

theorem readResult (h : WidthsOk s) (i : SlotId) : WidthsOk (readResult s i) := by
  have hctl : WidthsOk (if s.resultCode i = .success then
      Machine.updateImpedance (Machine.latchResult s i) (s.mdm.rms.get i) else Machine.latchResult s i) := by
    split
    · exact (h.latchResult i).updateImpedance _
    · exact h.latchResult i
  exact hctl.of_view rfl

theorem resultTask (h : WidthsOk s) : WidthsOk (resultTask s) :=
  resultTask_keeps (P := WidthsOk) (fun _ i hu => WidthsOk.readResult (hu.of_view (by rfl)) i) s h

theorem receiveTask (h : WidthsOk s) : WidthsOk (receiveTask s) := h.of_view (by simp [view])

theorem consume (h : WidthsOk s) (i : SlotId) : WidthsOk (s.setTx i (s.eng.tx.get i).consume) :=
  h.setTx i ⟨h.schedTime i, h.guards i, h.outRms i⟩

theorem submitted (h : WidthsOk s) (i : SlotId) (img : Bytes) (req : TxRequest) (sch : Scheme) (sym : Nat) :
    WidthsOk (armSlot (imageStored (countBusy s i) .txbuf i img) i (submitConfig s req sch sym)) := by
  rw [submitted_eq]
  have hx : TxSlot.InRange s.params
      { s.eng.tx.get i with state := .armed, outValid := false, conf := submitConfig s req sch sym } :=
    ⟨scheduleTime_lt _ _ _, ⟨h.cfg.guardBefore, h.cfg.guardAfter⟩, h.outRms i⟩
  exact (h.setTx i hx).of_view rfl

theorem completeTransmission (h : WidthsOk s) (i : SlotId) (c : TxResult) (r : Nat) :
    WidthsOk (completeTransmission s i c r) := by
  have hres : WidthsOk (s.setResultCode i c) := h.of_view (by cases i <;> rfl)
  refine hres.withMdm hres.time hres.noiseTime hres.rxTime fun j => ?_
  refine forall_get_set (P := (· < 2 ^ (s.setResultCode i c).params.rmsW)) hres.rms ?_ i j
  rw [show (s.setResultCode i c).params = s.params from setResultReg_params s i _]
  exact wrapRms_lt _ _

theorem latchTimeout (h : WidthsOk s) (i : SlotId) : WidthsOk (latchTimeout s i) :=
  (h.setTx i (x := (s.eng.tx.get i).complete .timeout none) ⟨h.schedTime i, h.guards i, nofun⟩).of_view rfl

/-! ## The modem's events -/

theorem rxTimeSet (h : WidthsOk s) (i : SlotId) (n : Nat) (j : SlotId) :
    (s.mdm.rxTime.set i (wrapTime s.params n)).get j < 2 ^ s.params.timeW :=
  forall_get_set (P := (· < 2 ^ s.params.timeW)) h.rxTime (wrapTime_lt _ _) i j

theorem failReception (h : WidthsOk s) (i : SlotId) : WidthsOk (failReception s i) := by
  rw [failReception_eq]
  exact { h with rxTime := h.rxTimeSet i _ }

/-! ## The resets -/

theorem reinitMdm (h : WidthsOk s) : WidthsOk (s.withMdm (reinitMdm s)) :=
  h.withMdm h.time (wrapTime_lt _ _) (fun i => by simpa [Machine.reinitMdm] using wrapTime_lt _ _)
    (fun i => by simpa [Machine.reinitMdm] using wrapRms_lt _ _)

theorem inRange_softResetTx (h : WidthsOk s) (i : SlotId) : (softResetTx s i).InRange s.params :=
  ⟨(inRange_clipTimes _ _).1, (inRange_clipTimes _ _).2, h.outRms i⟩

theorem inRange_hardResetTx (s : State) (i : SlotId) : (hardResetTx s i).InRange s.params := by
  refine ⟨(inRange_clipTimes _ _).1, (inRange_clipTimes _ _).2, fun v hv => ?_⟩
  obtain ⟨_, _, rfl⟩ := Option.map_eq_some_iff.1 hv
  exact wrapRms_lt _ _

/-- Slot records in range in every slot keep the widths. -/
theorem withTx (h : WidthsOk s) {f : SlotId → TxSlot} (hf : ∀ i, (f i).InRange s.params) :
    WidthsOk (s.withEng { s.eng with tx := .ofFn f }) :=
  { h with
    schedTime := fun i => by simpa using (hf i).schedTime
    guards := fun i => by simpa using (hf i).guards
    outRms := fun i => by simpa using (hf i).outRms }

theorem softReset (h : WidthsOk s) : WidthsOk (softReset s) :=
  (h.reinitMdm.withTx (f := softResetTx s) h.inRange_softResetTx).of_view rfl

theorem hardReset (h : WidthsOk s) : WidthsOk (hardReset s) := by
  have hslots := h.reinitMdm.withTx (f := hardResetTx s) (inRange_hardResetTx s)
  have hcfg := (hslots.withCfg (c := s.cfg0) h.cfg0).updateSeeds s.cfg0.sna
  exact (hcfg.withSelection (inRange_selectFor h.cfg0 s.cfg0.defaultImpedance) s.cfg0.defaultImpedance).of_view rfl

end WidthsOk

/-! ## All steps -/

theorem Effect.widthsOk {s t : State} {i : Instr} (he : Effect s i t) (h : WidthsOk s) : WidthsOk t := by
  cases he with
  | submit => exact h.submitted _ _ _ _ _
  | pollTxEmpty _ hu _ => rw [hu, pollTask_eq]; exact h.resultTask
  | pollTxOutcome _ hu _ => rw [hu, pollTask_eq]; exact h.resultTask.consume _
  | setChannel => exact h.switchChannel _
  | setNetworkAddress a => exact h.setAddress a
  | setConfigParam _ hv => exact h.writeParam hv
  | hardReset => exact h.hardReset
  | @txStart k _ => exact h.setTx k ⟨h.schedTime k, h.guards k, h.outRms k⟩
  | txDone => exact h.completeTransmission _ _ _
  | rxPayloadDone => exact { h with rxTime := h.rxTimeSet _ _ }
  | noiseDone => exact { h with noiseTime := wrapTime_lt _ _ }
  | rxError => exact h.failReception _
  | timeAdvance => exact h.withMdm (wrapTime_lt _ _) h.noiseTime h.rxTime h.rms
  | timeoutExpire => exact (h.latchTimeout _).softReset
  | irqError => rw [errorPath_eq]; exact h.of_view rfl
  | irqTasks =>
    have hrec : WidthsOk (recordFlags (enterHandler s)) := h.of_view rfl
    rw [runTasks_eq_tasks]; exact hrec.receiveTask.resultTask
  | rxTask => exact h.receiveTask
  | txResultTask => exact h.resultTask
  | txResultRead k => exact h.readResult k
  | impUpdate r => exact h.updateImpedance r
  | impReselect => exact h.reselect
  | updateSnaSeed a => exact h.updateSeeds a
  | softReset => exact h.softReset
  | same | unnamedSubmit | unnamedEncode | frameA | frameB | frameBC | submitBusy | pollRxMessage | pollRxDrop
  | pollRxNoise | rxHeaderDone => exact h.of_view rfl

/-- Settles O58: a step takes an item off the agenda, has the effect of an instruction, and answers. -/
theorem stepsKeepWidths : Obligations.StepsKeepWidths := by
  intro s t _ h hstep
  obtain ⟨_, rest, _, u, r, _, _, _, he, rfl⟩ := step_effect hstep
  have htaken : WidthsOk (s.withAgenda rest) := h.of_view rfl
  exact (he.widthsOk htaken).of_view rfl

end Sys2Proof.Machine
end

section
/-! SUPPORT. The completion event and its poll: TX_DONE writes one of four packed result fields and the others keep
their values (10_state.md R27; 44_tx_scheduler.md R174); POLL_TX_RESULT hands an outcome over once (R179). -/

namespace Sys2Proof.Machine

/-! ## The packed result fields -/

/-- The two fields of one register do not overlap. -/
theorem resultOffset_disjoint {p : Params} (hs : p.resultFieldW ≤ p.resultFieldStride) {i j : SlotId} (hne : j ≠ i)
    (hreg : j.toNat / 2 = i.toNat / 2) :
    resultOffset p i + p.resultFieldW ≤ resultOffset p j ∨ resultOffset p j + p.resultFieldW ≤ resultOffset p i := by
  have hnat : j.toNat ≠ i.toNat := fun h => hne (slotId_toNat_inj h)
  unfold resultOffset
  rcases Nat.mod_two_eq_zero_or_one i.toNat with hi | hi
  · have hj : j.toNat % 2 = 1 := by omega
    rw [hi, hj]; omega
  · have hj : j.toNat % 2 = 0 := by omega
    rw [hi, hj]; omega

/-- Writing a slot's result field: it reads the code, the other three read as before. -/
theorem resultField_setResultCode {s : State} (hp : s.params.ok) (i j : SlotId) (c : TxResult) :
    resultField (s.setResultCode i c) j = if j = i then c.code else resultField s j := by
  rw [resultField_eq, resultField_eq, State.setResultCode, setResultReg_params, resultReg_setResultReg]
  by_cases hj : j = i
  · rw [if_pos hj, hj, if_pos rfl, readField_writeField _ _ _ _ (code_lt_field hp.resultWidth c)]
  · rw [if_neg hj]
    split
    · next hreg =>
      have hsame : s.resultReg j = s.resultReg i := by rw [resultReg_eq, resultReg_eq, hreg]
      rw [hsame]
      rcases resultOffset_disjoint hp.resultStride hj hreg with ho | ho
      · exact readField_writeField_above _ _ _ _ _ ho
      · exact readField_writeField_below _ _ _ _ _ ho
    · rfl

/-! ## TX_DONE -/

theorem reportable_iff (c : TxResult) : reportable c = true ↔ c ≠ .timeout ∧ c ≠ .inProcess := by
  cases c <;> simp [reportable]

theorem txDoneEnabled_iff {s : State} {i : SlotId} {c : TxResult} :
    txDoneEnabled s i c = true ↔ c ≠ .timeout ∧ c ≠ .inProcess ∧ flag s.mdm.txInt i = false ∧
      ((s.eng.tx.get i).state = .inFlight ∨ ((s.eng.tx.get i).state = .armed ∧ c ≠ .success)) := by
  simp [txDoneEnabled, reportable_iff, and_assoc]

theorem exec_txDone (s : State) (i : SlotId) (c : TxResult) (r : Nat) :
    exec (.txDone i c r) s =
      whenEnabled (txDoneEnabled s i c) (.next (answered (completeTransmission s i c r) .silent)) := rfl

/-- Settles O27: the enabling condition separates the two clauses; the new state is the old one with the written
fields replaced. -/
theorem txDoneFlagsTheCompletion : Obligations.TxDoneFlagsTheCompletion := by
  intro s i code rms hp hrms
  refine ⟨fun ht hi hf hs => ?_, fun hoff => ?_⟩
  · refine ⟨(s.setResultCode i code).mdm.txResult0, (s.setResultCode i code).mdm.txResult1,
      completeTransmission s i code rms, ?_, ?_, fun j => resultField_setResultCode hp i j code⟩
    · rw [completeTransmission_eq, wrapRms_of_lt hrms]
    · rw [exec_txDone, txDoneEnabled_iff.2 ⟨ht, hi, hf, hs⟩, whenEnabled_true]
  · have hdis : txDoneEnabled s i code = false := by
      rw [← Bool.not_eq_true, txDoneEnabled_iff]
      rintro ⟨ht, hi, hf, hs⟩
      rcases hoff with h | h | h | h
      · exact ht h
      · exact hi h
      · rw [hf] at h; cases h
      · exact h hs
    rw [exec_txDone, hdis, whenEnabled_false]

/-! ## POLL_TX_RESULT -/

theorem resultTask_of_none {s : State} (h : s.eng.txPend = 0) : resultTask s = s := by
  rw [resultTask_eq, nextTxSlot_none.2 h]

/-- What the statements call one run of the task is `resultTask`. -/
theorem resultTask_run (s : State) :
    if s.eng.txPend = 0 then resultTask s = s else ∃ r, exec .txResultTask s = .next (answered (resultTask s) r) := by
  split
  · next h => exact resultTask_of_none h
  · exact ⟨_, rfl⟩

theorem exec_pollTxResult {v : BitVec 8} {i : SlotId} (hv : v.toNat = i.toNat) (s : State) :
    exec (.pollTxResult v) s = takeOutcome (resultTask s) i := by
  change execPollTxResult v s = _
  unfold execPollTxResult
  rw [slotOperand_iff.2 hv]
  simp only [pollTask_eq]

theorem exec_pollTxResult_bad {v : BitVec 8} (hv : 3 < v.toNat) (s : State) :
    exec (.pollTxResult v) s = .next (answered s (.error .invalidBuffer)) := by
  change execPollTxResult v s = _
  unfold execPollTxResult
  rw [slotOperand_none.2 hv]
  rfl

theorem takeOutcome_of_empty {s : State} {i : SlotId} (h : (s.eng.tx.get i).outValid = false) :
    takeOutcome s i = .next (answered s (.outcome none)) := by
  simp [takeOutcome, h]

theorem takeOutcome_of_valid {s : State} {i : SlotId} (h : (s.eng.tx.get i).outValid = true) :
    takeOutcome s i = .next (answered (s.setTx i (s.eng.tx.get i).consume)
      (.outcome (some ⟨i, (s.eng.tx.get i).outResult, (s.eng.tx.get i).outRms⟩))) := by
  simp [takeOutcome, h]

/-- The task leaves a slot that is not pending as it is. -/
theorem resultTask_slot_of_not_pending {s : State} {i : SlotId} (h : flag s.eng.txPend i = false) :
    (resultTask s).eng.tx.get i = s.eng.tx.get i := by
  have hview := txView_resultTask s i
  rw [if_neg fun hn => by rw [nextTxSlot_some hn] at h; cases h] at hview
  exact congrArg TxView.slot hview

/-- Settles O30: the poll is one run of the task and then the latch. After the outcome is consumed the latch of the
slot is empty, and the task of a second poll does not fill it unless the slot is pending again. -/
theorem pollTxResultHandsOver : Obligations.PollTxResultHandsOver := by
  intro s v
  refine ⟨fun hv => exec_pollTxResult_bad hv s, fun i hv =>
    ⟨resultTask s, resultTask_run s, fun ho => ?_, fun ho => ?_⟩⟩
  · rw [exec_pollTxResult hv, takeOutcome_of_empty ho]
  · refine ⟨_, rfl, ?_, fun hp => ⟨_, resultTask_run _, ?_⟩⟩
    · rw [exec_pollTxResult hv, takeOutcome_of_valid ho]; rfl
    · rw [exec_pollTxResult hv, takeOutcome_of_empty]
      rw [resultTask_slot_of_not_pending hp, PerSlot.get_set_self]

end Sys2Proof.Machine
end

section
/-! SUPPORT. What a hard reset leaves and what the state after reset holds (10_state.md R43;
70_reset_and_hazards.md R275, R279, R282), and that the invariants hold there. -/

namespace Sys2Proof.Machine

/-! ## The result fields -/

/-- Both fields of a register that is re-initialised hold InProcess, code 7 (70_reset_and_hazards.md R279). -/
theorem readField_inProcessFields {p : Params} (hp : p.ok) (reg : Nat) (i : SlotId) :
    readField p (inProcessFields p reg) (resultOffset p i) = 7 := by
  have h7 : TxResult.inProcess.code < 2 ^ p.resultFieldW := code_lt_field hp.resultWidth _
  have hoff : resultOffset p i = 0 ∨ resultOffset p i = p.resultFieldStride := by
    rcases Nat.mod_two_eq_zero_or_one i.toNat with h | h <;> simp [resultOffset, h]
  unfold inProcessFields
  rcases hoff with h | h
  · have hbelow : 0 + p.resultFieldW ≤ p.resultFieldStride := by rw [Nat.zero_add]; exact hp.resultStride
    rw [h, readField_writeField_below _ _ _ _ _ hbelow, readField_writeField _ _ _ _ h7]; rfl
  · rw [h, readField_writeField _ _ _ _ h7]; rfl

/-- The registers at `State.reset` are cleared registers re-initialised. -/
theorem resetResult_eq {p : Params} (hp : p.ok) : resetResult p = inProcessFields p 0 := by
  have h7 : 7 < 2 ^ p.resultFieldW := code_lt_field hp.resultWidth .inProcess
  have hpow : 7 < 2 ^ p.resultFieldStride :=
    Nat.lt_of_lt_of_le h7 (Nat.pow_le_pow_right (by decide) hp.resultStride)
  have hlow : 7 < 2 ^ (p.resultFieldStride + p.resultFieldW) :=
    Nat.lt_of_lt_of_le hpow (Nat.pow_le_pow_right (by decide) (Nat.le_add_right _ _))
  have hcode : TxResult.inProcess.code = 7 := rfl
  simp [resetResult, inProcessFields, writeField, hcode, Nat.mod_eq_of_lt h7, Nat.mod_eq_of_lt hpow,
    Nat.shiftRight_eq_div_pow, Nat.div_eq_of_lt hlow]

/-- Where both registers are re-initialised, every slot's field reads 7. -/
theorem resultField_of_inProcess {t : State} (hp : t.params.ok) {r0 r1 : Nat}
    (h0 : t.mdm.txResult0 = inProcessFields t.params r0) (h1 : t.mdm.txResult1 = inProcessFields t.params r1)
    (i : SlotId) : resultField t i = 7 := by
  rw [resultField_eq, resultReg_eq]
  split
  · rw [h0, readField_inProcessFields hp]
  · rw [h1, readField_inProcessFields hp]

/-! ## The controller and the seeds -/

/-- A selection made from the present state and configuration is not changed by selecting again. -/
theorem exec_impReselect_of_selected {s : State} (h : s.eng.sel = selectFor s.cfg s.eng.imp) :
    exec .impReselect s = .next (answered s .silent) := by
  have hsame : reselect s = s := by unfold reselect State.withEng; rw [← h]
  change respond .silent (reselect s) = _
  rw [hsame, respond_eq]

/-- The seeds of an address are not changed by computing them again. -/
theorem exec_updateSnaSeed_of_seeded {s : State} {a : Sna} (h : s.eng.seed = snaSeeds s.params a) :
    exec (.updateSnaSeed a) s = .next (answered s .silent) := by
  have hsame : updateSeeds s a = s := by unfold updateSeeds State.withEng; rw [← h]
  change respond .silent (updateSeeds s a) = _
  rw [hsame, respond_eq]

/-! ## HARD_RESET -/

theorem eventsCleared_hardReset (s : State) : EventsCleared (hardReset s) where
  rx := fun i => by simp [hardReset_eq, resetRx]
  pending := ⟨rfl, rfl, rfl, rfl⟩
  noiseReady := rfl
  last := ⟨rfl, rfl⟩

theorem modemCleared_hardReset {s : State} (hp : s.params.ok) : ModemCleared (hardReset s) where
  flags := ⟨rfl, rfl, rfl, rfl, rfl⟩
  request := ⟨rfl, rfl, rfl⟩
  rxOpen := rfl
  results := resultField_of_inProcess (t := hardReset s) hp rfl rfl

/-- Settles O54: each clause is read off the state `hardReset` writes. -/
theorem hardResetLeaves : Obligations.HardResetLeaves := by
  intro s hp
  refine ⟨hardReset s, rfl, rfl, rfl, rfl, rfl, rfl, rfl, rfl, exec_impReselect_of_selected rfl,
    exec_updateSnaSeed_of_seeded rfl, fun i => ?_, eventsCleared_hardReset s, modemCleared_hardReset hp⟩
  have hslot : (hardReset s).eng.tx.get i = hardResetTx s i := congrArg TxView.slot (txView_hardReset s i)
  rw [hslot]
  exact ⟨rfl, rfl⟩

/-! ## The state after reset -/

section
variable (p : Params) (c : PhyConfig)

theorem resetWith_tx (i : SlotId) : (State.resetWith p c).eng.tx.get i = resetTxSlot := PerSlot.get_all _ i

theorem resetWith_rx (i : SlotId) : (State.resetWith p c).eng.rx.get i = resetRxSlot := PerSlot.get_all _ i

theorem eventsCleared_resetWith : EventsCleared (State.resetWith p c) where
  rx := fun i => by rw [resetWith_rx]; exact ⟨rfl, rfl⟩
  pending := ⟨rfl, rfl, rfl, rfl⟩
  noiseReady := rfl
  last := ⟨rfl, rfl⟩

variable {p c}

theorem modemCleared_resetWith (hp : p.ok) : ModemCleared (State.resetWith p c) where
  flags := ⟨rfl, rfl, rfl, rfl, rfl⟩
  request := ⟨rfl, rfl, rfl⟩
  rxOpen := rfl
  results := resultField_of_inProcess (t := State.resetWith p c) hp (resetResult_eq hp) (resetResult_eq hp)

variable (p c)

theorem latchOk_resetWith : LatchOk (State.resetWith p c) := by
  rw [latchOk_iff]
  intro i
  rw [resetWith_tx]
  exact latched_empty rfl nofun nofun

theorem completionOk_resetWith : CompletionOk (State.resetWith p c) := by
  refine completionOk_iff.2 fun i => ?_
  have hview : txView (State.resetWith p c) i = ⟨resetTxSlot, false, false⟩ := by
    rw [txView, resetWith_tx]; simp [State.resetWith]
  rw [hview]
  exact flagsOk_cleared _

/-- No flag is set at reset, so none is unrecorded. -/
theorem not_unrecorded_resetWith : ¬Unrecorded (State.resetWith p c) := by
  simp [Unrecorded, State.resetWith]

theorem receiveOk_resetWith : ReceiveOk (State.resetWith p c) := by
  simp [ReceiveOk, State.resetWith, resetRxSlot]

theorem receiveOrderOk_resetWith : ReceiveOrderOk (State.resetWith p c) := by
  simp [ReceiveOrderOk, State.resetWith]

variable {p c}

theorem widthsOk_resetWith (hc : c.legal p) : WidthsOk (State.resetWith p c) where
  cfg0 := hc
  cfg := hc
  time := Nat.two_pow_pos _
  noiseTime := Nat.two_pow_pos _
  rxTime := fun i => by
    rw [show (State.resetWith p c).mdm.rxTime.get i = 0 from PerSlot.get_all _ i]; exact Nat.two_pow_pos _
  schedTime := fun i => by rw [resetWith_tx]; exact Nat.two_pow_pos _
  guards := fun i => by rw [resetWith_tx]; exact ⟨Nat.two_pow_pos _, Nat.two_pow_pos _⟩
  rms := fun i => by
    rw [show (State.resetWith p c).mdm.rms.get i = 0 from PerSlot.get_all _ i]; exact Nat.two_pow_pos _
  outRms := fun i v h => by rw [resetWith_tx] at h; cases h
  thresholds := inRange_selectFor hc _
  seeds := snaSeeds_lt _ _

end

/-- Settles O56: each clause is read off the state after reset. -/
theorem resetLeavesTheStatedValues : Obligations.ResetLeavesTheStatedValues := by
  intro p c hp
  refine ⟨rfl, rfl, rfl, rfl, rfl, exec_impReselect_of_selected rfl, exec_updateSnaSeed_of_seeded rfl, fun i => ?_,
    eventsCleared_resetWith p c, modemCleared_resetWith hp⟩
  rw [resetWith_tx]
  exact ⟨rfl, rfl⟩

/-! ## The parameters and the configuration at `State.reset` -/

/-- The default parameters meet the constraints of 00_scope.md R10 (log 3). -/
theorem ok_defaultParams : defaultParams.ok where
  encodeRange := by decide
  bpsPos := by intro s; cases s <;> decide
  bpsDbpsk := rfl
  bpsDqpskRobo := rfl
  polyWidth := by intro w; cases w <;> decide
  txbufBound := by decide
  rxbulkBound := by decide
  timeWidth := by decide
  backdatePos := by decide
  backdateBound := by decide
  timeoutBound := by decide
  rrOffset := by decide
  resultWidth := by decide
  resultStride := by decide
  rmsWidth := by decide

/-- The configuration of the vectors is legal for them (log 4). -/
theorem legal_vectorConfig : vectorConfig.legal defaultParams where
  guardBefore := by decide
  guardAfter := by decide
  profile := by intro ch; cases ch <;> exact ⟨by decide, by decide, by decide, by decide⟩

/-- Settles O57: each invariant at reset, and what `State.reset` is made of meets the constraints. -/
theorem invariantsHoldAtReset : Obligations.InvariantsHoldAtReset :=
  ⟨fun p c _ hc => ⟨memoryOk_resetWith p c, latchOk_resetWith p c, completionOk_resetWith p c, rfl, ⟨rfl, rfl⟩,
      fun h => absurd h (not_unrecorded_resetWith p c), receiveOk_resetWith p c, receiveOrderOk_resetWith p c,
      widthsOk_resetWith hc⟩,
    rfl, ok_defaultParams, legal_vectorConfig⟩

end Sys2Proof.Machine
end

section
/-! SUPPORT. No event is lost (46_dispatcher.md R205, R206, R207, R214; 10_state.md R34). On the transmit side the
moves of a slot say what clears a flag. On the receive side every instruction but RX_TASK, POLL_RX and IRQ_DISPATCH
keeps every flag, and each of these three is looked at on its own. -/

namespace Sys2Proof.Machine

/-! ## Flags that stay -/

/-- The flag `f`, if set in `s`, is set in `t`. -/
def Stays (s t : State) (f : State → Bool) : Prop := f s = true → f t = true

theorem Stays.not_fell {s t : State} {f : State → Bool} (h : Stays s t f) : ¬Fell s t f := by
  rintro ⟨hs, ht⟩
  rw [h hs] at ht
  cases ht

theorem Stays.of_eq {s t : State} {f : State → Bool} (h : f t = f s) : Stays s t f := fun hs => h.trans hs

theorem Stays.of_or {s t : State} {f : State → Bool} {x : Bool} (h : f t = (f s || x)) : Stays s t f := fun hs => by
  rw [h, hs, Bool.true_or]

theorem Stays.trans {s t u : State} {f : State → Bool} (h : Stays s t f) (h' : Stays t u f) : Stays s u f := h' ∘ h

/-- The header flags of slot `j` stay. -/
structure HeaderStays (s t : State) (j : SlotId) : Prop where
  int : Stays s t fun u => flag u.mdm.rxIntHdr j
  pend : Stays s t fun u => flag u.eng.rxPendHdr j

/-- What the engine has recorded of slot `j`'s payload stays. -/
structure PayloadStays (s t : State) (j : SlotId) : Prop where
  pend : Stays s t fun u => flag u.eng.rxPendPay j
  ready : Stays s t fun u => (u.eng.rx.get j).ready

/-- The flags of the noise capture stay. -/
structure NoiseStays (s t : State) : Prop where
  int : Stays s t (·.mdm.rxIntNoise)
  pend : Stays s t (·.eng.rxPendNoise)
  ready : Stays s t (·.eng.noiseReady)

/-- Every flag of the receive side stays. -/
structure ReceiveStays (s t : State) : Prop where
  header : ∀ j, HeaderStays s t j
  payload : ∀ j, PayloadStays s t j
  intPay : ∀ j, Stays s t fun u => flag u.mdm.rxIntPay j
  noise : NoiseStays s t
  err : Stays s t (·.mdm.err)

section
variable {s t u : State} {j : SlotId}

theorem HeaderStays.of_eq (hi : t.mdm.rxIntHdr = s.mdm.rxIntHdr) (hp : t.eng.rxPendHdr = s.eng.rxPendHdr) :
    HeaderStays s t j := ⟨.of_eq (by rw [hi]), .of_eq (by rw [hp])⟩

theorem PayloadStays.of_eq (hp : t.eng.rxPendPay = s.eng.rxPendPay) (hr : t.eng.rx = s.eng.rx) :
    PayloadStays s t j := ⟨.of_eq (by rw [hp]), .of_eq (by rw [hr])⟩

theorem NoiseStays.of_eq (hi : t.mdm.rxIntNoise = s.mdm.rxIntNoise) (hp : t.eng.rxPendNoise = s.eng.rxPendNoise)
    (hr : t.eng.noiseReady = s.eng.noiseReady) : NoiseStays s t := ⟨.of_eq hi, .of_eq hp, .of_eq hr⟩

theorem HeaderStays.trans (h : HeaderStays s t j) (h' : HeaderStays t u j) : HeaderStays s u j :=
  ⟨h.int.trans h'.int, h.pend.trans h'.pend⟩

theorem PayloadStays.trans (h : PayloadStays s t j) (h' : PayloadStays t u j) : PayloadStays s u j :=
  ⟨h.pend.trans h'.pend, h.ready.trans h'.ready⟩

theorem NoiseStays.trans (h : NoiseStays s t) (h' : NoiseStays t u) : NoiseStays s u :=
  ⟨h.int.trans h'.int, h.pend.trans h'.pend, h.ready.trans h'.ready⟩

end

/-- The fields the receive flags are in. -/
def receiveView (s : State) :=
  (s.mdm.rxIntHdr, s.eng.rxPendHdr, s.eng.rxPendPay, s.eng.rx, s.mdm.rxIntPay, s.mdm.rxIntNoise, s.eng.rxPendNoise,
    s.eng.noiseReady, s.mdm.err)

theorem ReceiveStays.of_view {s t : State} (e : receiveView t = receiveView s) : ReceiveStays s t := by
  simp only [receiveView, Prod.mk.injEq] at e
  obtain ⟨hih, hph, hpp, hrx, hip, hin, hpn, hnr, he⟩ := e
  exact ⟨fun _ => .of_eq hih hph, fun _ => .of_eq hpp hrx, fun _ => .of_eq (by rw [hip]), .of_eq hin hpn hnr,
    .of_eq he⟩

theorem ReceiveStays.trans {s t u : State} (h : ReceiveStays s t) (h' : ReceiveStays t u) : ReceiveStays s u :=
  ⟨fun j => (h.header j).trans (h'.header j), fun j => (h.payload j).trans (h'.payload j),
    fun j => (h.intPay j).trans (h'.intPay j), h.noise.trans h'.noise, h.err.trans h'.err⟩

theorem receiveStays_answered (s : State) (r : Response) : ReceiveStays s (answered s r) := .of_view rfl

theorem flag_setFlag_of_flag {b : SlotBits} {j : SlotId} (i : SlotId) (h : flag b j = true) :
    flag (setFlag b i) j = true := by
  rw [flag_setFlag, h, Bool.or_true]

/-- Only the receive task, POLL_RX, a dispatch and a reset clear a receive flag. -/
theorem Effect.receiveStays {s t : State} {i : Instr} (h : Effect s i t) (hr : ¬IsReset i) (htask : i ≠ .rxTask)
    (hpoll : i ≠ .pollRx) (hirq : i ≠ .irqDispatch) : ReceiveStays s t := by
  cases h with
  | submit => rw [submitted_eq]; exact .of_view rfl
  | pollTxEmpty _ hu _ => rw [hu, pollTask_eq]; exact .of_view (by simp [receiveView])
  | pollTxOutcome _ hu _ => rw [hu, pollTask_eq]; exact .of_view (by simp [receiveView])
  | setConfigParam => rw [writeParam_frame]; exact .of_view rfl
  | txDone => rw [completeTransmission_eq]; exact .of_view rfl
  | @rxHeaderDone k =>
    exact ⟨fun _ => ⟨flag_setFlag_of_flag k, id⟩, fun _ => .of_eq rfl rfl, fun _ => id, .of_eq rfl rfl rfl, id⟩
  | @rxPayloadDone k =>
    exact ⟨fun _ => .of_eq rfl rfl, fun _ => .of_eq rfl rfl, fun _ => flag_setFlag_of_flag k, .of_eq rfl rfl rfl, id⟩
  | noiseDone => exact ⟨fun _ => .of_eq rfl rfl, fun _ => .of_eq rfl rfl, fun _ => id, ⟨fun _ => rfl, id, id⟩, id⟩
  | @rxError k =>
    exact ⟨fun _ => .of_eq rfl rfl, fun _ => .of_eq rfl rfl, fun _ => flag_setFlag_of_flag k, .of_eq rfl rfl rfl,
      fun _ => rfl⟩
  | txResultTask => exact .of_view (by simp [receiveView])
  | txResultRead => rw [readResult_eq]; exact .of_view rfl
  | impUpdate => rw [updateImpedance_frame]; exact .of_view rfl
  | hardReset => exact absurd (.inl rfl) hr
  | softReset => exact absurd (.inr (.inl rfl)) hr
  | timeoutExpire => exact absurd (.inr (.inr ⟨_, rfl⟩)) hr
  | pollRxMessage | pollRxDrop | pollRxNoise => exact absurd rfl hpoll
  | irqError | irqTasks => exact absurd rfl hirq
  | rxTask => exact absurd rfl htask
  | same | unnamedSubmit | unnamedEncode | frameA | frameB | frameBC | submitBusy | setChannel | setNetworkAddress
  | txStart | timeAdvance | impReselect | updateSnaSeed => exact .of_view rfl

/-! ## What each flag's fall means -/

/-- The clause of the statement for the completion flags. -/
def CompletionsAccounted (s : State) (i : Instr) (t : State) : Prop :=
  ∀ j, Fell s t (fun u => flag u.mdm.txInt j) ∨ Fell s t (fun u => flag u.eng.txPend j) →
    (i = .irqDispatch ∨ i = .txResultTask ∨ i = .txResultRead j ∨ ∃ v, i = .pollTxResult v) ∧
      CompletionDelivered s t j

/-- The clauses of the statement for the receive side. -/
structure ReceptionsAccounted (s : State) (i : Instr) (t : State) : Prop where
  header : ∀ j, HeaderStays s t j ∨ (i = .irqDispatch ∨ i = .rxTask) ∧ HeaderDelivered s t j
  payload : ∀ j, PayloadStays s t j ∨ i = .pollRx ∧ PayloadDelivered s t j
  intPay : ∀ j, Stays s t (fun u => flag u.mdm.rxIntPay j) ∨ i = .pollRx ∧ PayloadDelivered s t j ∨
    i = .irqDispatch ∧ s.mdm.err = true ∧ flag s.eng.rxPendPay j = false ∧
      t.stat.rxDropped = s.stat.rxDropped + BitVec.ofNat 32
        (allSlots.countP fun k => flag s.mdm.rxIntPay k && !flag s.eng.rxPendPay k)
  noise : NoiseStays s t ∨ i = .pollRx ∧ NoiseDelivered s t
  err : Stays s t (·.mdm.err) ∨ i = .irqDispatch

theorem ReceiveStays.accounted {s t : State} (h : ReceiveStays s t) (i : Instr) : ReceptionsAccounted s i t :=
  ⟨fun j => .inl (h.header j), fun j => .inl (h.payload j), fun j => .inl (h.intPay j), .inl h.noise, .inl h.err⟩

/-! ### Completions -/

theorem resultIs_completedSlot (s : State) (j : SlotId) : ResultIs (resultField s j) (completedSlot s j).outResult :=
  (resultIs_iff s j _).2 rfl

/-- A slot whose record holds the completed outcome has it delivered. -/
theorem completionDelivered_of_latched {s t : State} {j : SlotId} (h : t.eng.tx.get j = completedSlot s j) :
    CompletionDelivered s t j := by
  unfold CompletionDelivered
  rw [h]
  exact ⟨resultIs_completedSlot s j, rfl, .inl rfl⟩

/-- A poll that serves the slot it asks for hands the outcome over. -/
theorem completionDelivered_of_poll {s t : State} {v : BitVec 8} {j : SlotId} (hv : v.toNat = j.toNat)
    (hn : nextTxSlot s = some j) (h : exec (.pollTxResult v) s = .next t) : CompletionDelivered s t j := by
  have hview := txView_resultTask s j
  rw [if_pos hn] at hview
  have hslot : (resultTask s).eng.tx.get j = completedSlot s j := congrArg TxView.slot hview
  have hvalid : ((resultTask s).eng.tx.get j).outValid = true := by rw [hslot]; rfl
  rw [exec_pollTxResult hv, takeOutcome_of_valid hvalid, hslot] at h
  obtain rfl := Host.Outcome.next.inj h
  have hafter : ((resultTask s).setTx j (completedSlot s j).consume).eng.tx.get j = (completedSlot s j).consume :=
    PerSlot.get_set_self _ _ _
  unfold CompletionDelivered
  rw [answered_eng, hafter]
  exact ⟨resultIs_completedSlot s j, rfl, .inr rfl⟩

theorem completionsAccounted {s t : State} {i : Instr} (h : exec i s = .next t) (hr : ¬IsReset i) :
    CompletionsAccounted s i t := by
  intro j hfell
  have hmove : TxMove s j i (txView t j) := by
    obtain ⟨u, r, he, rfl⟩ := exec_effect h
    exact Effect.txMove (t := u) he
  have hfell : ((txView s j).int = true ∧ (txView t j).int = false) ∨
      ((txView s j).pend = true ∧ (txView t j).pend = false) := hfell
  generalize hx : txView t j = x at hmove hfell
  have hslot : t.eng.tx.get j = x.slot := congrArg TxView.slot hx
  cases hmove with
  | kept | armed | started | handedOver => simp at hfell
  | recorded =>
    simp only [txView, Bool.or_eq_false_iff] at hfell
    rcases hfell with ⟨hs, ht⟩ | ⟨hs, ht, _⟩ <;> rw [hs] at ht <;> cases ht
  | flagged => simp [txView] at hfell
  | read => exact ⟨.inr (.inr (.inl rfl)), completionDelivered_of_latched hslot⟩
  | served hi =>
    exact ⟨hi.imp_right fun h => h.imp_right .inr, completionDelivered_of_latched hslot⟩
  | servedAndHandedOver hv hn => exact ⟨.inr (.inr (.inr ⟨_, rfl⟩)), completionDelivered_of_poll hv hn h⟩
  | hardReset => exact absurd (.inl rfl) hr
  | softReset => exact absurd (.inr (.inl rfl)) hr
  | timedOut => exact absurd (.inr (.inr ⟨_, rfl⟩)) hr

/-! ### Headers -/

/-- A header whose pending bit is set is in the cache after its slot was served (46_dispatcher.md R208). -/
theorem SlotServed.headerDelivered {s t : State} {j : SlotId} (h : SlotServed s t j)
    (hp : flag s.eng.rxPendHdr j = true) : HeaderDelivered s t j := by
  refine ⟨by rw [h.hdrValid, hp, Bool.or_true], by rw [h.mode, if_pos hp], fun o ho => ?_⟩
  unfold State.byteAt
  rw [region_hdrcache, h.cache, if_pos hp, store_cells, read?_overwrite, length_bytesAt, if_pos (by omega),
    getElem?_bytesAt, if_pos (by omega), Nat.sub_zero, Nat.zero_add]
  rfl

/-- What the receive task, alone or in a dispatch, does to the flags: it takes a header's flags down only with the
header delivered, and the others stay. -/
structure TaskStays (s t : State) : Prop where
  header : ∀ j, HeaderStays s t j ∨ HeaderDelivered s t j
  payload : ∀ j, PayloadStays s t j
  intPay : ∀ j, Stays s t fun u => flag u.mdm.rxIntPay j
  noise : NoiseStays s t
  err : Stays s t (·.mdm.err)

theorem SlotServed.header {s t : State} {j : SlotId} (h : SlotServed s t j) :
    HeaderStays s t j ∨ HeaderDelivered s t j := by
  cases hp : flag s.eng.rxPendHdr j with
  | true => exact .inr (h.headerDelivered hp)
  | false =>
    refine .inl ⟨.of_eq ?_, fun hs => ?_⟩
    · simp only [h.intHdr, hp, Bool.not_false, Bool.and_true]
    · exact absurd (hp.symm.trans hs) nofun

theorem taskStays_receiveTask (s : State) : TaskStays s (receiveTask s) := by
  obtain ⟨hserved, hnoise, _⟩ := receiveTask_spec s
  exact ⟨fun j => (hserved j).header, fun j => ⟨.of_eq (by simp), .of_or (hserved j).ready⟩,
    fun j => .of_eq (by simp), ⟨.of_eq (by simp), .of_eq (by simp), .of_or hnoise⟩, .of_eq (by simp)⟩

/-- A delivery of a header depends on the header and its mode before, and on the slot record after. -/
theorem HeaderDelivered.congr {s s' t t' : State} {j : SlotId} (h : HeaderDelivered s t j)
    (hmode : s'.mdm.rxMode = s.mdm.rxMode) (hhdr : s'.mdm.rxhdr = s.mdm.rxhdr) (hrx : t'.eng.rx = t.eng.rx) :
    HeaderDelivered s' t' j := by
  obtain ⟨hvalid, hm, hbytes⟩ := h
  have hcache : t'.region .hdrcache j = t.region .hdrcache j := by simp only [region_hdrcache, hrx]
  have hregion : s'.region .rxhdr j = s.region .rxhdr j := by simp only [region_rxhdr, hhdr]
  refine ⟨by rw [hrx]; exact hvalid, by rw [hrx, hmode]; exact hm, fun o ho => ?_⟩
  rw [byteAt_congr hcache, byteAt_congr hregion]
  exact hbytes o ho

/-- What only keeps flags may come before the task, if the modem's header and mode are as they were. -/
theorem TaskStays.after {s u t : State} (h : TaskStays u t) (h' : ReceiveStays s u)
    (hmode : s.mdm.rxMode = u.mdm.rxMode) (hhdr : s.mdm.rxhdr = u.mdm.rxhdr) : TaskStays s t :=
  ⟨fun j => (h.header j).imp (h'.header j).trans fun hd => hd.congr hmode hhdr rfl,
    fun j => (h'.payload j).trans (h.payload j), fun j => (h'.intPay j).trans (h.intPay j), h'.noise.trans h.noise,
    h'.err.trans h.err⟩

/-- What only keeps flags may come after the task, if the slot records are as they were. -/
theorem TaskStays.before {s t u : State} (h : TaskStays s t) (h' : ReceiveStays t u) (hrx : u.eng.rx = t.eng.rx) :
    TaskStays s u :=
  ⟨fun j => (h.header j).imp (fun hs => hs.trans (h'.header j)) fun hd => hd.congr rfl rfl hrx,
    fun j => (h.payload j).trans (h'.payload j), fun j => (h.intPay j).trans (h'.intPay j), h.noise.trans h'.noise,
    h.err.trans h'.err⟩

theorem TaskStays.answered {s t : State} (h : TaskStays s t) (r : Response) : TaskStays s (answered t r) :=
  h.before (receiveStays_answered t r) rfl

theorem TaskStays.accounted {s t : State} {i : Instr} (h : TaskStays s t) (hi : i = .irqDispatch ∨ i = .rxTask) :
    ReceptionsAccounted s i t :=
  ⟨fun j => (h.header j).imp_right fun hd => ⟨hi, hd⟩, fun j => .inl (h.payload j), fun j => .inl (h.intPay j),
    .inl h.noise, .inl h.err⟩

/-! ### A dispatch -/

/-- Recording a flag sets its pending bit and clears nothing (46_dispatcher.md R205). -/
theorem receiveStays_recordFlags (s : State) : ReceiveStays s (recordFlags (enterHandler s)) :=
  ⟨fun _ => ⟨id, .of_or (flag_or _ _ _)⟩, fun _ => ⟨.of_or (flag_or _ _ _), id⟩, fun _ => id,
    ⟨id, .of_or rfl, id⟩, id⟩

theorem receiveStays_resultTask (s : State) : ReceiveStays s (resultTask s) := .of_view (by simp [receiveView])

/-- A dispatch without an error: the flags are recorded, the receive task runs, the result task keeps what it left. -/
theorem taskStays_dispatch (s : State) : TaskStays s (runTasks (recordFlags (enterHandler s))) := by
  rw [runTasks_eq_tasks]
  have htask := taskStays_receiveTask (recordFlags (enterHandler s))
  exact (htask.after (receiveStays_recordFlags s) rfl rfl).before (receiveStays_resultTask _) (resultTask_rx _)

theorem popcount_eq_countP (b : SlotBits) : popcount b = allSlots.countP (flag b) := by
  simp only [popcount, allSlots, List.countP_cons, List.countP_nil, Bool.toNat, Bool.cond_eq_ite]
  omega

/-- The error path clears the payload flags that are not recorded and counts each of them as a drop (R206). -/
theorem accounted_errorPath {s : State} (he : s.mdm.err = true) (r : Response) :
    ReceptionsAccounted s .irqDispatch (answered (errorPath (enterHandler s)) r) := by
  rw [errorPath_eq]
  refine ⟨fun _ => .inl (.of_eq rfl rfl), fun _ => .inl (.of_eq rfl rfl), fun j => ?_, .inl (.of_eq rfl rfl rfl),
    .inr rfl⟩
  cases hp : flag s.eng.rxPendPay j with
  | true =>
    refine .inl (.of_eq ?_)
    change flag (s.mdm.rxIntPay &&& ~~~newPayloadFlags s) j = _
    simp [flag_newPayloadFlags, hp]
  | false =>
    refine .inr (.inr ⟨rfl, he, rfl, ?_⟩)
    change s.stat.rxDropped + BitVec.ofNat 32 (popcount (newPayloadFlags s)) = _
    rw [popcount_eq_countP, funext (flag_newPayloadFlags s)]

/-! ### POLL_RX -/

/-- A ready slot that is served loses its own payload flags, with its message returned or counted. -/
theorem accounted_consumeRx {s t : State} {k : SlotId} (heng : t.eng = (consumeRx s k).eng)
    (hmdm : t.mdm = (consumeRx s k).mdm) (hd : PayloadDelivered s t k) : ReceptionsAccounted s .pollRx t := by
  rw [consumeRx_eq] at heng hmdm
  have hslot : ∀ j, j ≠ k → PayloadStays s t j ∧ Stays s t fun u => flag u.mdm.rxIntPay j := by
    intro j hj
    refine ⟨⟨.of_eq ?_, .of_eq ?_⟩, .of_eq ?_⟩
    · simp only [heng, flag_clearFlag_ne _ hj]
    · simp only [heng, PerSlot.get_set_ne _ _ hj]
    · simp only [hmdm, flag_clearFlag_ne _ hj]
  refine ⟨fun j => .inl (.of_eq (by rw [hmdm]) (by rw [heng])), fun j => ?_, fun j => ?_,
    .inl (.of_eq (by rw [hmdm]) (by rw [heng]) (by rw [heng])), .inl (.of_eq (by rw [hmdm]))⟩
  · by_cases hj : j = k
    · subst hj; exact .inr ⟨rfl, hd⟩
    · exact .inl (hslot j hj).1
  · by_cases hj : j = k
    · subst hj; exact .inr (.inl ⟨rfl, hd⟩)
    · exact .inl (hslot j hj).2

theorem accounted_pollRx {s t : State} (h : execPollRx s = .next t) : ReceptionsAccounted s .pollRx t := by
  rcases execPollRx_next h with ⟨k, hk, ⟨m, _, rfl⟩ | ⟨e, _, rfl⟩⟩ | ⟨_, hn, rfl⟩ | ⟨_, _, rfl⟩
  · exact accounted_consumeRx rfl rfl ⟨nextRxSlot_some hk, .inl ⟨m, _, rfl⟩⟩
  · exact accounted_consumeRx rfl rfl ⟨nextRxSlot_some hk, .inr ⟨rfl, rfl⟩⟩
  · exact ⟨fun _ => .inl (.of_eq rfl rfl), fun _ => .inl (.of_eq rfl rfl), fun _ => .inl id, .inr ⟨rfl, hn, rfl⟩,
      .inl id⟩
  · exact (receiveStays_answered s _).accounted _

/-! ### Every instruction -/

theorem receptionsAccounted {s t : State} {i : Instr} (h : exec i s = .next t) (hr : ¬IsReset i) :
    ReceptionsAccounted s i t := by
  by_cases hpoll : i = .pollRx
  · subst hpoll; exact accounted_pollRx h
  · obtain ⟨u, r, he, rfl⟩ := exec_effect h
    by_cases htask : i = .rxTask
    · subst htask
      cases he with
      | same => exact (receiveStays_answered s r).accounted _
      | rxTask => exact ((taskStays_receiveTask s).answered r).accounted (.inr rfl)
    · by_cases hirq : i = .irqDispatch
      · subst hirq
        cases he with
        | same => exact (receiveStays_answered s r).accounted _
        | irqError _ _ herr => exact accounted_errorPath herr r
        | irqTasks => exact ((taskStays_dispatch s).answered r).accounted (.inl rfl)
      · exact ((he.receiveStays hr htask hpoll hirq).trans (receiveStays_answered u r)).accounted i

/-! ## After a dispatch -/

/-- A flag that is in its pending bit is not unrecorded. -/
theorem or_ne_false_of_flag {p f : Bool} (hf : f = true) : (p || f) ≠ false := by rw [hf, Bool.or_true]; nofun

/-- A dispatch without an error records every flag, and clears a flag no later than its pending bit (R205, R207). -/
theorem not_unrecorded_dispatch {s : State} (he : s.mdm.err = false) :
    ¬Unrecorded (runTasks (recordFlags (enterHandler s))) := by
  rw [runTasks_eq_tasks]
  rintro (⟨j, hi, hp⟩ | ⟨j, hi, _⟩ | ⟨j, hi, hp⟩ | ⟨hi, hp⟩ | herr)
  · have hview := txView_resultTask (receiveTask (recordFlags (enterHandler s))) j
    rw [txView_receiveTask, txView_recorded] at hview
    have hint := (congrArg TxView.int hview).symm.trans hi
    have hpend := (congrArg TxView.pend hview).symm.trans hp
    split at hint
    · cases hint
    · next hn => rw [if_neg hn] at hpend; exact or_ne_false_of_flag hint hpend
  · have hint := ((receiveTask_spec (recordFlags (enterHandler s))).1 j).intHdr
    rw [resultTask_rxIntHdr, hint, Bool.and_eq_true, Bool.not_eq_true'] at hi
    obtain ⟨hflag, hpend⟩ := hi
    exact or_ne_false_of_flag hflag ((flag_or _ _ _).symm.trans hpend)
  · rw [resultTask_rxIntPay, receiveTask_rxIntPay] at hi
    rw [resultTask_rxPendPay, receiveTask_rxPendPay] at hp
    exact or_ne_false_of_flag hi ((flag_or _ _ _).symm.trans hp)
  · rw [resultTask_rxIntNoise, receiveTask_rxIntNoise] at hi
    rw [resultTask_rxPendNoise, receiveTask_rxPendNoise] at hp
    exact or_ne_false_of_flag hi hp
  · rw [resultTask_err, receiveTask_err] at herr
    exact absurd (he.symm.trans herr) nofun

/-- Settles O60: a flag that falls did not stay, so it was accounted for; and a dispatch without an error ran both
tasks on recorded flags. -/
theorem flagsStayUntilConsumed : Obligations.FlagsStayUntilConsumed := by
  refine ⟨fun s t i hexec hr => ?_, fun s t hexec he => ?_⟩
  · obtain ⟨hhdr, hpay, hint, hnoise, herr⟩ := receptionsAccounted hexec hr
    refine ⟨completionsAccounted hexec hr, fun j hf => ?_, fun j hf => ?_, fun j hf => ?_, fun hf => ?_, fun hf => ?_⟩
    · exact (hhdr j).resolve_left fun h => hf.elim h.int.not_fell h.pend.not_fell
    · exact (hpay j).resolve_left fun h => hf.elim h.pend.not_fell h.ready.not_fell
    · exact (hint j).resolve_left fun h => h.not_fell hf
    · refine hnoise.resolve_left fun h => ?_
      rcases hf with hf | hf | hf
      · exact h.int.not_fell hf
      · exact h.pend.not_fell hf
      · exact h.ready.not_fell hf
    · exact herr.resolve_left fun h => h.not_fell hf
  · obtain ⟨_, _, _, rfl⟩ := execIrqDispatch_next hexec
    have hbody : dispatchBody (enterHandler s) = runTasks (recordFlags (enterHandler s)) := by
      rw [dispatchBody_eq]; exact if_neg (by rw [show (enterHandler s).mdm.err = false from he]; nofun)
    rw [hbody]
    exact not_unrecorded_dispatch he

end Sys2Proof.Machine
end

section
/-! SUPPORT. Every step keeps the buffer memory canonical (20_memory.md R70; log 7). A step writes a region in one of
three ways: it stores bytes that fit, it truncates what is listed, or it lists nothing. -/

namespace Sys2Proof.Machine

/-- A region of size `n` is in canonical form, and lists no byte outside its size. -/
def Region.Canonical (r : Region) (n : Nat) : Prop := r.cells.wf ∧ ∀ c ∈ r.cells, c.1 < n

theorem memoryOk_iff {s : State} : MemoryOk s ↔ ∀ sp i, (s.region sp i).Canonical (regionSize s.params sp) := Iff.rfl

theorem Region.Canonical.store {r : Region} {n o : Nat} {bs : Bytes} (h : r.Canonical n) (hb : o + bs.length ≤ n) :
    (r.store o bs).Canonical n := by
  obtain ⟨hwf, hin⟩ := h
  refine ⟨wf_overwrite hwf o bs, fun c hc => ?_⟩
  rcases mem_overwrite hc with hold | hnew
  · exact hin c hold
  · omega

theorem Region.canonical_of_cells_nil {r : Region} (h : r.cells = []) (n : Nat) : r.Canonical n := by
  unfold Region.Canonical
  rw [h]
  exact ⟨List.Pairwise.nil, nofun⟩

namespace MemoryOk

variable {s t : State}

theorem hdrCache (h : MemoryOk s) (i : SlotId) : (s.eng.rx.get i).hdrCache.Canonical 16 :=
  memoryOk_iff.1 h .hdrcache i

/-! ## The updates -/

/-- The fields the regions are in. -/
def view (s : State) := (s.params, s.mdm.txbuf, s.mdm.rxhdr, s.mdm.rxbulk, s.mdm.noisebuf, s.eng.rx)

/-- A change of any other field keeps the memory canonical. -/
theorem of_view (h : MemoryOk s) (e : view t = view s) : MemoryOk t := by
  simp only [view, Prod.mk.injEq] at e
  obtain ⟨hp, htx, hhdr, hbulk, hnoise, hrx⟩ := e
  refine memoryOk_congr h hp fun sp i => ?_
  cases sp with
  | txbuf => rw [region_txbuf, htx, region_txbuf]
  | rxhdr => rw [region_rxhdr, hhdr, region_rxhdr]
  | rxbulk => rw [region_rxbulk, hbulk, region_rxbulk]
  | hdrcache => rw [region_hdrcache, hrx, region_hdrcache]
  | noisebuf => rw [region_noisebuf, hnoise, region_noisebuf]

/-- A receive slot's record holds one region, its header cache. -/
theorem setRx (h : MemoryOk s) (i : SlotId) {x : RxSlot} (hx : x.hdrCache.Canonical 16) : MemoryOk (s.setRx i x) := by
  intro sp j
  cases sp with
  | hdrcache => exact forall_get_set (P := fun y : RxSlot => y.hdrCache.Canonical 16) h.hdrCache hx i j
  | txbuf => exact h .txbuf j
  | rxhdr => exact h .rxhdr j
  | rxbulk => exact h .rxbulk j
  | noisebuf => exact h .noisebuf j

theorem of_nothing_listed (h : ∀ sp i, (t.region sp i).cells = []) : MemoryOk t :=
  memoryOk_iff.2 fun sp i => Region.canonical_of_cells_nil (h sp i) _

/-! ## The operations -/

theorem submitted (h : MemoryOk s) {img : Bytes} (hl : img.length ≤ s.params.txbufSize) (i : SlotId) (c : TxConfig) :
    MemoryOk (armSlot (imageStored (countBusy s i) .txbuf i img) i c) := by
  rw [submitted_eq]
  exact (memoryOk_imageStored (sp := .txbuf) h hl i).of_view rfl

theorem resultTask (h : MemoryOk s) : MemoryOk (resultTask s) := by
  rw [resultTask_frame]
  exact h.of_view rfl

theorem headerStored (h : MemoryOk s) (i : SlotId) (hd : HeaderBytes) : MemoryOk (headerStored s i hd) :=
  memoryOk_setRegion h i ((memoryOk_iff.1 h .rxhdr i).store (by simp [HeaderBytes.toBytes, regionSize]))

/-- The cached header is the 16 bytes of the header region (46_dispatcher.md R208). -/
theorem cacheHeader (h : MemoryOk s) (i : SlotId) : MemoryOk (cacheHeader s i) := by
  have hcache : ((s.eng.rx.get i).hdrCache.store 0 (s.bytesAt .rxhdr i 0 16)).Canonical 16 :=
    (h.hdrCache i).store (by simp)
  have hcached := h.setRx i (x := ⟨(s.eng.rx.get i).ready, true, s.mdm.rxMode.get i, _⟩) hcache
  exact (memoryOk_forget hcached .rxhdr i 0).of_view rfl

theorem rxTaskSlot (h : MemoryOk s) (i : SlotId) : MemoryOk (rxTaskSlot s i) := by
  have hheader : MemoryOk (if flag s.eng.rxPendHdr i then Machine.cacheHeader s i else s) := by
    split
    · exact h.cacheHeader i
    · exact h
  unfold Machine.rxTaskSlot
  generalize (if flag s.eng.rxPendHdr i then Machine.cacheHeader s i else s) = u at hheader ⊢
  dsimp only
  split
  · exact hheader.setRx i (hheader.hdrCache i)
  · exact hheader

theorem receiveTask (h : MemoryOk s) : MemoryOk (receiveTask s) := by
  have hslots : MemoryOk ((scanOrder s.params s.eng.rxLast).foldl Machine.rxTaskSlot s) :=
    List.foldlRecOn _ _ h fun _ hu i _ => MemoryOk.rxTaskSlot hu i
  unfold Machine.receiveTask markNoise
  split
  · exact hslots.of_view rfl
  · exact hslots

theorem consumeRx (h : MemoryOk s) (i : SlotId) : MemoryOk (consumeRx s i) :=
  (h.setRx i (x := { s.eng.rx.get i with ready := false, hdrValid := false }) (h.hdrCache i)).of_view rfl

theorem failReception (h : MemoryOk s) (i : SlotId) : MemoryOk (failReception s i) :=
  (memoryOk_forget h .rxbulk i 0).of_view rfl

/-- After a soft reset nothing is known of any region (10_state.md R43). -/
theorem softReset (s : State) : MemoryOk (softReset s) :=
  .of_nothing_listed fun sp i => by cases sp <;> simp [softReset_eq, reinitMdm, resetRx]

theorem hardReset (s : State) : MemoryOk (hardReset s) :=
  .of_nothing_listed fun sp i => by cases sp <;> simp [hardReset_eq, reinitMdm, resetRx]

end MemoryOk

/-! ## All steps -/

theorem Effect.memoryOk {s t : State} {i : Instr} (he : Effect s i t) (h : MemoryOk s) : MemoryOk t := by
  cases he with
  | submit _ _ _ hl _ => exact h.submitted hl _ _
  | pollTxEmpty _ hu _ => rw [hu, pollTask_eq]; exact h.resultTask
  | pollTxOutcome _ hu _ => rw [hu, pollTask_eq]; exact h.resultTask.of_view rfl
  | pollRxMessage => exact h.consumeRx _
  | pollRxDrop => exact (h.consumeRx _).of_view rfl
  | setConfigParam => rw [writeParam_frame]; exact h.of_view rfl
  | hardReset => exact .hardReset s
  | txDone => rw [completeTransmission_eq]; exact h.of_view rfl
  | rxHeaderDone => exact (h.headerStored _ _).of_view rfl
  | rxPayloadDone _ _ hl => exact (memoryOk_imageStored (sp := .rxbulk) h hl _).of_view rfl
  | noiseDone _ hl => exact (memoryOk_imageStored (sp := .noisebuf) h hl .s0).of_view rfl
  | rxError => exact h.failReception _
  | timeoutExpire => exact .softReset _
  | irqError => rw [errorPath_eq]; exact h.of_view rfl
  | irqTasks =>
    have hrec : MemoryOk (recordFlags (enterHandler s)) := h.of_view rfl
    rw [runTasks_eq_tasks]; exact hrec.receiveTask.resultTask
  | rxTask => exact h.receiveTask
  | txResultTask => exact h.resultTask
  | txResultRead => rw [readResult_eq]; exact h.of_view rfl
  | impUpdate => rw [updateImpedance_frame]; exact h.of_view rfl
  | softReset => exact .softReset s
  | same | unnamedSubmit | unnamedEncode | frameA | frameB | frameBC | submitBusy | pollRxNoise | setChannel
  | setNetworkAddress | txStart | timeAdvance | impReselect | updateSnaSeed => exact h.of_view rfl

/-- Settles O20: a step takes an item off the agenda, has the effect of an instruction, and answers. -/
theorem stepsKeepMemoryCanonical : Obligations.StepsKeepMemoryCanonical := by
  intro s t h hstep
  obtain ⟨_, rest, _, u, r, _, _, _, he, rfl⟩ := step_effect hstep
  have htaken : MemoryOk (s.withAgenda rest) := h.of_view rfl
  exact (he.memoryOk htaken).of_view rfl

end Sys2Proof.Machine
end

section
/-! SUPPORT. A submit that is accepted (44_tx_scheduler.md R161 to R168; 20_memory.md R71): what its guards let
through, the slot's record, and the bytes of the buffer memory. -/

namespace Sys2Proof.Machine

/-- With the operands read and the frame built, SUBMIT is its last part (R161). -/
theorem exec_submit_of_image {s : State} {req : TxRequest} {i : SlotId} {sch : Scheme} {img : Bytes} {sym : Nat}
    (hi : slotOperand req.bufferId = some i) (hl : lenOkTx s.params req.payload.length = true)
    (hs : Scheme.ofCode? req.schemeCode.toNat = some sch)
    (he : encodeFrame s req.frameMode sch req.payload = .image img sym) :
    exec (.submit req) s = submitImage s i req sch img sym := by
  change execSubmit req s = _
  unfold execSubmit
  simp only [hi, hl, hs, he, Bool.not_true, Bool.false_eq_true, if_false]

/-- A submit that is not turned away stores its image and arms the slot (R162, R166). -/
theorem submitImage_of_accepted {s : State} {i : SlotId} {img : Bytes}
    (hb : ¬((s.eng.tx.get i).state.busy = true ∧ s.params.busyPolicy = .reject))
    (hl : img.length ≤ s.params.txbufSize) (req : TxRequest) (sch : Scheme) (sym : Nat) :
    submitImage s i req sch img sym = .next (answered
      (armSlot (imageStored (countBusy s i) .txbuf i img) i (submitConfig s req sch sym)) .ok) := by
  have hfit : img.length ≤ regionSize (countBusy s i).params .txbuf := by rw [countBusy_params]; exact hl
  unfold submitImage
  rw [if_neg (by simpa using hb), storeImage_eq hfit]
  rfl

/-- A submit to a busy slot counts one, a submit to another slot none (R162). -/
theorem countBusy_stat (s : State) (i : SlotId) :
    (countBusy s i).stat =
      { s.stat with busyTx := s.stat.busyTx + if (s.eng.tx.get i).state.busy then 1 else 0 } := by
  unfold countBusy
  split
  · rfl
  · simp

/-- The start is forced exactly for an immediate schedule (R167). -/
theorem scheduleTime_force (p : Params) (now : Nat) (x : Schedule) :
    (scheduleTime p now x).2 = decide (x = .immediate) := by
  cases x <;> simp [scheduleTime]

/-- The memory after a submit is the memory with the image stored. -/
theorem region_submitted (s : State) (i : SlotId) (img : Bytes) (c : TxConfig) (sp : Space) (j : SlotId) :
    (armSlot (imageStored (countBusy s i) .txbuf i img) i c).region sp j =
      (imageStored s .txbuf i img).region sp j := by
  rw [submitted_eq]
  cases sp <;> rfl

theorem byteAt_submitted (s : State) (i : SlotId) {img : Bytes} (c : TxConfig) {o : Nat} {b : Byte}
    (h : img[o]? = some b) : (armSlot (imageStored (countBusy s i) .txbuf i img) i c).byteAt .txbuf i o = b := by
  obtain ⟨ho, rfl⟩ := List.getElem?_eq_some_iff.1 h
  rw [byteAt_congr (region_submitted s i img c .txbuf i), byteAt_imageStored s .txbuf i img o ho]

theorem submitted_other (s : State) (i : SlotId) (img : Bytes) (c : TxConfig) :
    OtherBytesSame s (armSlot (imageStored (countBusy s i) .txbuf i img) i c) .txbuf i := by
  intro sp j o hne
  rw [byteAt_congr (region_submitted s i img c sp j), imageStored_other s .txbuf i img sp j o hne]

/-- Settles O22: an encodable payload passes every guard of SUBMIT, and an accepted submit is written out field by
field. -/
theorem submitArms : Obligations.SubmitArms := by
  intro s req i sch hp hbuf hcode henc hbusy
  obtain ⟨img, sym, himg, hsym⟩ := encodeFrame_of_encodable henc
  obtain ⟨hmin, hmax, _⟩ := henc
  refine ⟨img, sym, (scheduleTime s.params s.mdm.time req.schedule).1,
    ⟨((s.mdm.txbuf.get i).cells.overwrite 0 img).truncate img.length, s.free + 1⟩,
    armSlot (imageStored (countBusy s i) .txbuf i img) i (submitConfig s req sch sym), ?_, ?_, ?_, hsym,
    scheduleTime_eq _ _ _, fun _ _ => byteAt_submitted s i _, submitted_other s i img _⟩
  · rw [exec_encoderOf, himg]; rfl
  · have hlen : lenOkTx s.params req.payload.length = true := lenOkTx_iff.2 ⟨hmin, hmax⟩
    rw [exec_submit_of_image (slotOperand_iff.2 hbuf) hlen (scheme_ofCode?_index hcode) himg,
      submitImage_of_accepted hbusy (encodeFrame_length hp himg)]
  · rw [submitted_eq, countBusy_stat, ← scheduleTime_force s.params s.mdm.time]; rfl

end Sys2Proof.Machine
end

section
/-! SUPPORT. The decoder: it reads back what the encoder writes, it names no operation by any other op byte, and the
fields it takes from a header region are bits of its bytes (30_encoding.md R92 to R98, R104, R110; log 2). -/

namespace Sys2Proof

/-! ## What is written is read back -/

theorem reads_result (c : TxResult) : Reads (readCode "code" TxResult.ofCode?) (writeCode c.code) c :=
  reads_code _ (by cases c <;> decide) (by cases c <;> rfl)

theorem reads_headerType (h : HeaderType) :
    Reads (readCode "header_type" HeaderType.ofCode?) (writeCode h.code) h :=
  reads_code _ (by cases h <;> decide) (by cases h <;> rfl)

theorem reads_crcWidth (w : CrcWidth) : Reads (readCode "width" CrcWidth.ofCode?) (writeCode w.code) w :=
  reads_code _ (by cases w <;> decide) (by cases w <;> rfl)

/-- The mode operand of RX_HEADER_DONE is a code like that of a request. -/
theorem reads_headerMode (m : FrameMode) : Reads (readCode "mode" FrameMode.ofCode?) (writeCode m.code) m :=
  reads_code _ (by cases m <;> decide) (by cases m <;> rfl)

/-- One operand, the last. -/
theorem reads_operand {α : Type} {x : Reader α} {w : Bytes} {a : α} (h : Reads x w a) (f : α → Instr) :
    Reads (andThen x fun a => give (f a)) w (f a) := reads_last h (reads_give _)

/-- The encoder writes three operands in a row, the readers take the first off. -/
theorem reads_assoc {α : Type} {x : Reader α} {u v w : Bytes} {a : α} (h : Reads x (u ++ (v ++ w)) a) :
    Reads x (u ++ v ++ w) a := by
  rwa [List.append_assoc]

/-- An instruction is decoded when its operands are read back from what follows its op byte. -/
theorem decode_of_reads {i : Instr} {op : Byte} {w : Bytes} (he : encode i = .operation (op :: w))
    (h : Reads (readOperands op.toNat) w i) : decode (encode i) = .ok i := by
  rw [he]
  exact decodeOperation_eq h

theorem decodeFrame_layoutA (h : FrameAHeader) (body : Bytes) :
    decodeFrame .typeA (layoutA h ++ body) = .ok (.frameA h body) := by
  obtain ⟨hb, hread, hfields, -⟩ := asTypeA_layoutA h body
  simp only [decodeFrame, hread, hfields]

theorem decodeFrame_layoutB (h : FrameBHeader) (body : Bytes) :
    decodeFrame .typeB (layoutB h ++ body) = .ok (.frameB h body) := by
  obtain ⟨hb, hread, hfields, -⟩ := asTypeB_layoutB h body
  simp only [decodeFrame, hread, hfields]

theorem decodeFrame_layoutBC (outer : FrameAHeader) (inner : FrameBHeader) (payload : Bytes) :
    decodeFrame .typeBC (layoutA outer ++ (layoutB inner ++ payload)) = .ok (.frameBC outer inner payload) := by
  obtain ⟨ha, hreadA, hfieldsA, -⟩ := asTypeA_layoutA outer (layoutB inner ++ payload)
  obtain ⟨hb, hreadB, hfieldsB, -⟩ := asTypeB_layoutB inner payload
  simp only [decodeFrame, hreadA, hfieldsA, hreadB, hfieldsB]

/-- Each instruction's operands are read back in the order they are written, whatever their values. -/
theorem decode_encode : ∀ i : Instr, decode (encode i) = .ok i
  | .submit req => decode_of_reads rfl (reads_operand (reads_request req) _)
  | .pollTxResult slot => decode_of_reads rfl (reads_operand (reads_byte slot) _)
  | .pollRx => decode_of_reads rfl (reads_give _)
  | .setChannel ch => decode_of_reads rfl (reads_operand (reads_byte ch) _)
  | .setNetworkAddress a => decode_of_reads rfl (reads_operand (reads_sna a) _)
  | .getConfigParam id => decode_of_reads rfl (reads_operand (reads_16 id) _)
  | .setConfigParam id v => decode_of_reads rfl (reads_andThen (reads_16 id) (reads_operand (reads_nat v) _))
  | .computeCrc width data ht =>
      decode_of_reads rfl (reads_assoc (reads_andThen (reads_nat width) (reads_andThen (reads_string data)
        (reads_operand (reads_headerType ht) _))))
  | .hardReset => decode_of_reads rfl (reads_give _)
  | .txStart slot => decode_of_reads rfl (reads_operand (reads_slot slot) _)
  | .txDone slot code rms =>
      decode_of_reads rfl (reads_assoc (reads_andThen (reads_slot slot) (reads_andThen (reads_result code)
        (reads_operand (reads_nat rms) _))))
  | .rxHeaderDone slot mode hdr =>
      decode_of_reads rfl (reads_assoc (reads_andThen (reads_slot slot) (reads_andThen (reads_headerMode mode)
        (reads_operand (reads_header hdr) _))))
  | .rxPayloadDone slot bulk rxTime q =>
      decode_of_reads rfl (reads_assoc (reads_assoc (reads_andThen (reads_slot slot)
        (reads_andThen (reads_string bulk) (reads_andThen (reads_nat rxTime) (reads_operand (reads_quality q) _))))))
  | .noiseDone bytes rxTime =>
      decode_of_reads rfl (reads_andThen (reads_string bytes) (reads_operand (reads_nat rxTime) _))
  | .rxError slot => decode_of_reads rfl (reads_operand (reads_slot slot) _)
  | .timeAdvance delta => decode_of_reads rfl (reads_operand (reads_nat delta) _)
  | .timeoutExpire slot => decode_of_reads rfl (reads_operand (reads_slot slot) _)
  | .irqDispatch => decode_of_reads rfl (reads_give _)
  | .rxTask => decode_of_reads rfl (reads_give _)
  | .txResultTask => decode_of_reads rfl (reads_give _)
  | .txResultRead slot => decode_of_reads rfl (reads_operand (reads_slot slot) _)
  | .impUpdate rms => decode_of_reads rfl (reads_operand (reads_nat rms) _)
  | .impReselect => decode_of_reads rfl (reads_give _)
  | .updateSnaSeed sna => decode_of_reads rfl (reads_operand (reads_sna sna) _)
  | .softReset => decode_of_reads rfl (reads_give _)
  | .symcalc n sch => decode_of_reads rfl (reads_andThen (reads_nat n) (reads_operand (reads_scheme sch) _))
  | .encodeA sch d => decode_of_reads rfl (reads_andThen (reads_scheme sch) (reads_operand (reads_string d) _))
  | .encodeB sch d => decode_of_reads rfl (reads_andThen (reads_scheme sch) (reads_operand (reads_string d) _))
  | .encodeBC sch d => decode_of_reads rfl (reads_andThen (reads_scheme sch) (reads_operand (reads_string d) _))
  | .decodeA slot => decode_of_reads rfl (reads_operand (reads_slot slot) _)
  | .decodeB slot => decode_of_reads rfl (reads_operand (reads_slot slot) _)
  | .decodeBC slot => decode_of_reads rfl (reads_operand (reads_slot slot) _)
  | .crcRoll width seed data =>
      decode_of_reads rfl (reads_assoc (reads_andThen (reads_crcWidth width) (reads_andThen (reads_32 seed)
        (reads_operand (reads_string data) _))))
  | .frameA hdr body => decodeFrame_layoutA hdr body
  | .frameB hdr body => decodeFrame_layoutB hdr body
  | .frameBC outer inner payload => decodeFrame_layoutBC outer inner payload

/-- Settles O1: the round trip needs no hypothesis, since the encoder's form holds every operand value. -/
theorem decodeInvertsEncode : Obligations.DecodeInvertsEncode := fun _ i _ => decode_encode i

/-- An item that the encoder writes is decoded. -/
theorem decode_of_eq_encode {item : Item} {i : Instr} (h : item = encode i) : decode item = .ok i :=
  h ▸ decode_encode i

/-- Settles O3: each word is what the encoder writes for its instruction. -/
theorem wordsDecode : Obligations.WordsDecode :=
  ⟨decode_of_eq_encode (by decide), decode_of_eq_encode (by decide), decode_of_eq_encode (by decide),
    decode_of_eq_encode (by decide), decode_of_eq_encode (by decide), decode_of_eq_encode (by decide),
    decode_of_eq_encode (by decide)⟩

/-! ## No other op byte names an operation -/

theorem readOperands_unknown {op : Nat} (h : op ∉ Machine.opCodes) : readOperands op = reject (.unknownOp op) := by
  unfold readOperands
  split
  case h_34 => rfl
  all_goals exact absurd (by decide) h

/-- Settles O2: the refusal of the operands is the refusal of the whole. -/
theorem unknownOpsAreRefused : Obligations.UnknownOpsAreRefused := by
  intro op operands h
  simp only [decode, decodeOperation, readOperands_unknown h, reject]

/-! ## Fields of a header region as numbers -/

@[simp] theorem index_ofIndex (v : BitVec 3) : (Scheme.ofIndex v).index = v := by
  revert v; decide

/-- Two bit fields side by side, as a number: the left one is shifted by the width of the right one. -/
theorem toNat_append_eq {m n : Nat} (a : BitVec m) (b : BitVec n) : (a ++ b).toNat = a.toNat * 2 ^ n + b.toNat := by
  rw [BitVec.toNat_append, Machine.shiftLeft_or _ _ _ b.isLt]

theorem toNat_extractLsb'_eq {w : Nat} (b : BitVec w) (k n : Nat) :
    (b.extractLsb' k n).toNat = b.toNat / 2 ^ k % 2 ^ n := by
  rw [BitVec.extractLsb'_toNat, Nat.shiftRight_eq_div_pow]

/-- The Type A fields as numbers (30_encoding.md R94). -/
theorem toNat_fieldsA (b0 b1 b2 b3 : Byte) :
    (fieldSchA b0).index.toNat = b0.toNat % 8 ∧
      (fieldSymA b1 b2).toNat = b1.toNat % 64 * 64 + b2.toNat / 4 ∧ (fieldPadA b3).toNat = b3.toNat % 64 := by
  have h2 := b2.isLt
  simp only [fieldSchA, fieldSymA, fieldPadA, index_ofIndex, toNat_append_eq, toNat_extractLsb'_eq]
  omega

/-- The Type B fields as numbers (R98). -/
theorem toNat_fieldsB (b0 b1 b2 : Byte) :
    (fieldSchB b0).index.toNat = b0.toNat / 32 ∧
      (fieldSymB b0 b1).toNat = b0.toNat % 32 * 128 + b1.toNat / 2 ∧
      (fieldPadB b1 b2).toNat = b1.toNat % 2 * 256 + b2.toNat := by
  have h0 := b0.isLt
  have h1 := b1.isLt
  simp only [fieldSchB, fieldSymB, fieldPadB, index_ofIndex, toNat_append_eq, toNat_extractLsb'_eq]
  omega

/-- Settles O4: a header region's fields are the fields of its first bytes; the MAC bytes are copied. -/
theorem headerFieldsAreTheseBits : Obligations.HeaderFieldsAreTheseBits := by
  intro h
  obtain ⟨schA, symA, padA⟩ := toNat_fieldsA h.h0 h.h1 h.h2 h.h3
  exact ⟨⟨schA, symA, padA, rfl⟩, toNat_fieldsB h.h0 h.h1 h.h2⟩

end Sys2Proof
end

section
/-! SUPPORT. What each encoder answers, one equation for each branch (42_codec_encode.md R141 to R146), and the header
regions it writes as numbers (30_encoding.md R92, R96). -/

namespace Sys2Proof.Machine

variable {p : Params} {s : State} {sch : Scheme} {payload : Bytes} {sym pad symC padC : Nat}

/-! ## The branches of the encoders -/

/-- No encoder frames a payload of illegal length (R141, R143, R145). -/
theorem exec_encoderOf_badLength (h : lenOkTx s.params payload.length = false) (mode : FrameMode) :
    exec (encoderOf mode sch payload) s = .next (answered s (.error .invalidLength)) := by
  have hraised : encodeFrame s mode sch payload = .raised .invalidLength := by
    cases mode with
    | typeA => exact (encodeTypeA_eq _ _ _ _ _).trans (if_pos h)
    | typeB => simp only [encodeFrame, encodeTypeB, h, Bool.not_false, if_true]
    | typeBC => simp only [encodeFrame, encodeTypeBC, h, Bool.not_false, if_true]
  rw [exec_encoderOf, hraised]; rfl

theorem exec_encodeA_robust (hl : lenOkTx s.params payload.length = true) (hr : s.params.robust.get sch = true) :
    exec (.encodeA sch payload) s = .next (answered s (.error .invalidScheme)) := by
  change respondEncoded (encodeTypeA _ _ _ _ _) s = _
  rw [encodeTypeA_eq, if_neg (by simp [hl]), if_pos hr]; rfl

/-- With MAC-CRC enabled, a payload without a header type is refused by some error (93 U6; logs 6, 9). -/
theorem exec_encodeA_unnamed (hl : lenOkTx s.params payload.length = true) (hr : s.params.robust.get sch = false)
    (ht : typeATrailer s.params s.cfg.macCrcEnable s.eng.seed payload = none) :
    exec (.encodeA sch payload) s =
      .next (answered { s with free := s.free + 1 } (.error (Config.freeError s.free))) := by
  change respondEncoded (encodeTypeA _ _ _ _ _) s = _
  rw [encodeTypeA_eq, if_neg (by simp [hl]), if_neg (by simp [hr]), ht]; rfl

/-- Once the trailer is known, ENCODE_A asks only whether the fields fit (R141, R146). -/
theorem exec_encodeA_of_trailer {tr : Bytes} (hl : lenOkTx s.params payload.length = true)
    (hr : s.params.robust.get sch = false)
    (ht : typeATrailer s.params s.cfg.macCrcEnable s.eng.seed payload = some tr)
    (hs : symcalc s.params (totalLen s.params sch payload.length tr.length) sch = (sym, pad)) :
    exec (.encodeA sch payload) s = .next (answered s (if fieldOkA sym pad then
      .image (headerA s.params sch sym pad (macBytesOf payload) ++ (payload.drop 7 ++ tr)) sym
      else .error .invalidLength)) := by
  obtain ⟨rfl, rfl⟩ := Prod.mk.inj hs
  change respondEncoded (encodeTypeA _ _ _ _ _) s = _
  rw [encodeTypeA_eq, if_neg (by simp [hl]), if_neg (by simp [hr]), ht]
  unfold imageA
  dsimp only
  split <;> rfl

/-- With a legal length, ENCODE_B asks only whether the fields fit (R143, R146). -/
theorem exec_encodeB_of_length (hl : lenOkTx s.params payload.length = true)
    (hs : symcalc s.params (totalLen s.params sch payload.length 0) sch = (sym, pad)) :
    exec (.encodeB sch payload) s = .next (answered s (if fieldOkB sym pad then
      .image (headerB s.params sch sym pad ++ payload) sym else .error .invalidLength)) := by
  obtain ⟨rfl, rfl⟩ := Prod.mk.inj hs
  change respondEncoded (encodeTypeB _ _ _) s = _
  unfold encodeTypeB
  rw [if_neg (by simp [hl])]
  dsimp only
  split <;> rfl

/-- With a legal length, ENCODE_BC asks only whether the fields of both headers fit (R145, R146). -/
theorem exec_encodeBC_of_length (hl : lenOkTx s.params payload.length = true)
    (hs : symcalc s.params (totalLen s.params sch payload.length 0) sch = (sym, pad))
    (hsC : symcalc s.params (6 + totalLen s.params sch payload.length 0) sch = (symC, padC)) :
    exec (.encodeBC sch payload) s = .next (answered s (if fieldOkB sym pad && fieldOkA symC padC then
      .image (headerA s.params sch symC padC ⟨0, 0, 0, 0, 0, 0, 0⟩ ++ (headerB s.params sch sym pad ++ payload)) symC
      else .error .invalidLength)) := by
  obtain ⟨rfl, rfl⟩ := Prod.mk.inj hs
  obtain ⟨rfl, rfl⟩ := Prod.mk.inj hsC
  change respondEncoded (encodeTypeBC _ _ _) s = _
  unfold encodeTypeBC
  rw [if_neg (by simp [hl])]
  dsimp only
  cases fieldOkB _ _
  · rfl
  · rw [if_neg (by decide), Bool.true_and]
    split <;> rfl

theorem fieldOkA_eq_false_iff : fieldOkA sym pad = false ↔ 4095 < sym ∨ 63 < pad := by
  rw [← Bool.not_eq_true, fieldOkA_iff]; omega

theorem fieldOkB_eq_false_iff : fieldOkB sym pad = false ↔ 4095 < sym ∨ 511 < pad := by
  rw [← Bool.not_eq_true, fieldOkB_iff]; omega

/-! ## The MAC-CRC trailer -/

/-- Without MAC-CRC there is an empty trailer, with it one of the length of the header type (R142). -/
theorem typeATrailer_of_length {c : Nat}
    (h : (s.cfg.macCrcEnable = false ∧ c = 0) ∨
      (s.cfg.macCrcEnable = true ∧ ∃ h, headerTypeOf (payload.getD 0 0) = some h ∧
        c = if h = .promotion then 1 else 4)) :
    ∃ tr, typeATrailer s.params s.cfg.macCrcEnable s.eng.seed payload = some tr ∧ tr.length = c := by
  unfold typeATrailer
  rcases h with ⟨hoff, rfl⟩ | ⟨hon, ht, hht, rfl⟩
  · exact ⟨[], by rw [hoff]; rfl, rfl⟩
  · exact ⟨_, by rw [hon, if_pos rfl, hht], by rw [length_macCrcTrailer, crcLenOf_eq]⟩

theorem exec_computeCrc (s : State) (w : CrcWidth) (d : Bytes) (h : HeaderType) :
    exec (.computeCrc w.bits d h) s = .next (answered s (.crc (crcOf s.params s.eng.seed w d h) none)) := by
  change execComputeCrc _ _ _ s = _
  unfold execComputeCrc
  rw [ofBits?_bits]; rfl

theorem eight_mul_crcLenOf (h : HeaderType) : 8 * crcLenOf h = (crcWidthOf h).bits := by cases h <;> rfl

/-- The trailer is the number that COMPUTE_CRC answers, most significant byte first (R142). -/
theorem typeATrailer_computeCrc {tr : Bytes} (ht : typeATrailer s.params true s.eng.seed payload = some tr) :
    ∃ h v, headerTypeOf (payload.getD 0 0) = some h ∧
      exec (.computeCrc (8 * tr.length) payload h) s = .next (answered s (.crc v none)) ∧
      beNat tr = v.toNat := by
  rw [typeATrailer, if_pos rfl] at ht
  split at ht
  · cases ht
  · next h hht =>
    cases ht
    refine ⟨h, _, hht, ?_, beNat_crcBytes _ _ (crcRoll_lt _ _ _ _)⟩
    rw [length_macCrcTrailer, eight_mul_crcLenOf, exec_computeCrc]

/-! ## The header regions written -/

theorem beNat_headerA (m : MacBytes) (hsym : sym ≤ 4095) (hpad : pad ≤ 63) :
    beNat ((headerA p sch sym pad m).take 4) = sch.index.toNat * 2 ^ 24 + sym * 2 ^ 10 + pad := by
  rw [headerA, beNat_layoutA, toNat_sym hsym, toNat_padA hpad]

theorem beNat_headerB (hsym : sym ≤ 4095) (hpad : pad ≤ 511) :
    beNat ((headerB p sch sym pad).take 3) = sch.index.toNat * 2 ^ 21 + sym * 2 ^ 9 + pad := by
  rw [headerB, beNat_layoutB, toNat_sym hsym, toNat_padB hpad]

theorem drop_headerA (m : MacBytes) :
    (headerA p sch sym pad m).drop 4 = macByteList m ++ [p.hcrcPlaceholder, p.flushByte, 0, 0, 0] := rfl

theorem drop_headerB : (headerB p sch sym pad).drop 3 =
    [p.bPlaceholder0, p.bPlaceholder1, p.bPlaceholder2, 0, 0, 0, 0, 0, 0, 0, 0, 0, 0] := rfl

/-! ## The statements -/

/-- Settles O11: the fields fit, so ENCODE_A answers its image, whose header and trailer are read part by part. -/
theorem encodeABuildsTheImage : Obligations.EncodeABuildsTheImage := by
  intro s sch payload c sym pad hmin hmax hr hc hs hsym hpad
  obtain ⟨tr, ht, rfl⟩ := typeATrailer_of_length hc
  refine ⟨headerA s.params sch sym pad (macBytesOf payload), tr, ?_, length_headerA _ _ _ _ _,
    beNat_headerA _ hsym hpad, ?_, rfl, rfl, fun hon => typeATrailer_computeCrc (hon ▸ ht)⟩
  · rw [exec_encodeA_of_trailer (lenOkTx_iff.2 ⟨hmin, hmax⟩) hr ht hs, if_pos (fieldOkA_iff.2 ⟨hsym, hpad⟩)]
  · rw [drop_headerA]
    exact macByteList_macBytesOf (by omega)

/-- Settles O12: the fields fit, so both encoders answer their images; the same Type B header region is the header of
one and the nested header of the other. -/
theorem encodeBAndBCBuildTheImage : Obligations.EncodeBAndBCBuildTheImage := by
  intro s sch payload sym pad hmin hmax hs hsym hpad
  have hl : lenOkTx s.params payload.length = true := lenOkTx_iff.2 ⟨hmin, hmax⟩
  have hfitB : fieldOkB sym pad = true := fieldOkB_iff.2 ⟨hsym, hpad⟩
  refine ⟨headerB s.params sch sym pad, ?_, length_headerB _ _ _ _, beNat_headerB hsym hpad, drop_headerB,
    fun symC padC hsC hsymC hpadC => ⟨headerA s.params sch symC padC ⟨0, 0, 0, 0, 0, 0, 0⟩, ?_,
      length_headerA _ _ _ _ _, beNat_headerA _ hsymC hpadC, drop_headerA _⟩⟩
  · rw [exec_encodeB_of_length hl hs, if_pos hfitB]
  · rw [exec_encodeBC_of_length hl hs hsC, hfitB, fieldOkA_iff.2 ⟨hsymC, hpadC⟩]; rfl

/-- Settles O13: each refusal is one branch of an encoder, the checks before it passed. -/
theorem encodersRefuse : Obligations.EncodersRefuse := by
  intro s sch payload
  refine ⟨fun hbad => ?_, fun hmin hmax => ?_⟩
  · have hl : lenOkTx s.params payload.length = false := by rwa [← Bool.not_eq_true, lenOkTx_iff]
    exact ⟨exec_encoderOf_badLength hl .typeA, exec_encoderOf_badLength hl .typeB, exec_encoderOf_badLength hl .typeBC⟩
  have hl : lenOkTx s.params payload.length = true := lenOkTx_iff.2 ⟨hmin, hmax⟩
  refine ⟨exec_encodeA_robust hl, fun hr hon hnone => ⟨_, exec_encodeA_unnamed hl hr ?_⟩,
    fun c sym pad hr hc hs hout => ?_, fun sym pad symC padC hs hsC => ⟨fun hout => ?_, fun hout => ?_⟩⟩
  · rw [typeATrailer, hon, if_pos rfl, hnone]
  · obtain ⟨tr, ht, rfl⟩ := typeATrailer_of_length hc
    rw [exec_encodeA_of_trailer hl hr ht hs, fieldOkA_eq_false_iff.2 hout]; rfl
  · rw [exec_encodeB_of_length hl hs, fieldOkB_eq_false_iff.2 hout]; rfl
  · have hmisfit : (fieldOkB sym pad && fieldOkA symC padC) = false := by
      rw [Bool.and_eq_false_iff, fieldOkB_eq_false_iff, fieldOkA_eq_false_iff]; omega
    rw [exec_encodeBC_of_length hl hs hsC, hmisfit]; rfl

end Sys2Proof.Machine
end

section
/-! SUPPORT. A frame image as an instruction (30_encoding.md R92 to R100, R106; log 11): its body is the bulk its
mode's decoder reads. -/

namespace Sys2Proof.Machine

/-- A read within the body gives the body's bytes; no free byte is drawn (log 11). -/
theorem frameBody_of_le (s : State) {body : Bytes} {n : Nat} (h : n ≤ body.length) :
    frameBody s body 0 n = .ok (body.take n) := by
  refine congrArg Except.ok (List.ext_getElem (by simp [h]) fun k hk _ => ?_)
  have hkn : k < n := by simpa using hk
  have hkb : k < body.length := by omega
  simp [hkb]

/-- Bytes past those a frame announces do not enter its payload: cutting the body first changes nothing. -/
theorem take_append_take (head body : Bytes) (n : Nat) :
    (head ++ body.take (n - head.length)).take n = (head ++ body).take n := by
  rw [List.take_append, List.take_append, List.take_take, Nat.min_self]

/-- Settles O18: the length read off the header is the announced one, so the decoder answers a message with the
body's bytes; a Type BC image is read as its nested Type B header. -/
theorem frameImagesRead : Obligations.FrameImagesRead := by
  intro s a b body n hmin hmax
  refine ⟨fun ht hr hht hn hbody => ?_, fun hn hbody => ?_⟩
  · have hmsg : decodeTypeA s.params s.cfg.macCrcEnable a (frameBody s body) =
        .message ⟨a.sch, some ht, (macByteList a.mac ++ body).take n⟩ := by
      rw [decodeTypeA_message hr hht ((decLen_typeA _ _ _ _ hr).trans hn.symm) hmin hmax (frameBody_of_le s hbody)]
      exact congrArg (fun payload => Decoded.message ⟨a.sch, some ht, payload⟩) (take_append_take _ body n)
    change respondDecoded (decodeTypeA _ _ _ _) _ = _
    rw [hmsg]; rfl
  · have hmsg : decodeTypeB s.params b 0 (frameBody s body) = .message ⟨b.sch, none, body.take n⟩ :=
      decodeTypeB_message ((decLen_typeB _ _).trans hn.symm) hmin hmax (frameBody_of_le s hbody)
    exact ⟨congrArg (respondDecoded · s.bumpFree) hmsg, congrArg (respondDecoded · s.bumpFree) hmsg⟩

end Sys2Proof.Machine
end

section
/-! SUPPORT. The rolling CRC in a 32-bit cell and in a register of `w` bits (10_state.md R37; 40_crc.md R120 to R122):
the low `w` bits of the cell go through the steps of the `w`-bit register, and the mask keeps the rest zero. -/

namespace Sys2Proof

open Machine (crcBitW crcByteW crcW)

theorem CrcWidth.bits_pos (w : CrcWidth) : 0 < w.bits := by cases w <;> decide

theorem CrcWidth.bits_le (w : CrcWidth) : w.bits ≤ 32 := by cases w <;> decide

/-- The mask keeps the low bits. -/
theorem setWidth_and_crcMask (w : CrcWidth) (r : BitVec 32) :
    (r &&& crcMask w).setWidth w.bits = r.setWidth w.bits := by
  apply BitVec.eq_of_toNat_eq
  rw [BitVec.toNat_setWidth, BitVec.toNat_and, crcMask_toNat, Nat.and_two_pow_sub_one_eq_mod, Nat.mod_mod,
    BitVec.toNat_setWidth]

/-- The top bit of the low bits is the bit the model tests. -/
theorem msb_setWidth_bits (w : CrcWidth) (r : BitVec 32) :
    (r.setWidth w.bits).msb = r.getLsbD (w.bits - 1) := by
  rw [BitVec.msb_setWidth, decide_eq_true w.bits_pos, Bool.true_and]

/-- A cell inside its width holds the number its low bits hold. -/
theorem toNat_of_inWidth {w : CrcWidth} {r : BitVec 32} (h : InWidth w r) :
    r.toNat = (r.setWidth w.bits).toNat := by
  rw [BitVec.toNat_setWidth, Nat.mod_eq_of_lt ((inWidth_iff w r).1 h)]

theorem setWidth_crcBit (p : Params) (w : CrcWidth) (r : BitVec 32) :
    (crcBit p w r).setWidth w.bits = crcBitW ((p.poly.get w).setWidth w.bits) (r.setWidth w.bits) := by
  unfold crcBit crcBitW
  rw [msb_setWidth_bits]
  split
  · rw [setWidth_and_crcMask, BitVec.setWidth_xor, BitVec.setWidth_shiftLeft_of_le w.bits_le]
  · rw [setWidth_and_crcMask, BitVec.setWidth_shiftLeft_of_le w.bits_le]

/-- The byte enters the top of the `w`-bit register (R121). -/
theorem setWidth_xor_topByte (w : CrcWidth) (r : BitVec 32) (b : Byte) :
    (r ^^^ (b.zeroExtend 32 <<< (w.bits - 8))).setWidth w.bits =
      r.setWidth w.bits ^^^ (b.zeroExtend w.bits <<< (w.bits - 8)) := by
  rw [BitVec.setWidth_xor, BitVec.setWidth_shiftLeft_of_le w.bits_le, BitVec.setWidth_setWidth_of_le _ w.bits_le]

theorem setWidth_crcByte (p : Params) (w : CrcWidth) (r : BitVec 32) (b : Byte) :
    (crcByte p w r b).setWidth w.bits = crcByteW ((p.poly.get w).setWidth w.bits) (r.setWidth w.bits) b := by
  simp only [crcByte, crcBits, setWidth_crcBit, setWidth_xor_topByte, crcByteW]

theorem setWidth_foldl_crcByte (p : Params) (w : CrcWidth) (d : Bytes) (r : BitVec 32) :
    (d.foldl (crcByte p w) r).setWidth w.bits =
      crcW ((p.poly.get w).setWidth w.bits) (r.setWidth w.bits) d := by
  induction d generalizing r with
  | nil => rfl
  | cons b d ih => rw [List.foldl_cons, ih, setWidth_crcByte]; rfl

/-- The CRC in a 32-bit cell is, as a number, the CRC in a register of `w` bits (R121). -/
theorem crcRoll_toNat (p : Params) (w : CrcWidth) (seed : BitVec 32) (d : Bytes) :
    (crcRoll p w seed d).toNat = (crcW ((p.poly.get w).setWidth w.bits) (seed.setWidth w.bits) d).toNat := by
  rw [toNat_of_inWidth (inWidth_crcRoll p w seed d), crcRoll_eq, setWidth_foldl_crcByte, setWidth_and_crcMask]

namespace Machine

theorem exec_crcRoll (s : State) (w : CrcWidth) (seed : BitVec 32) (d : Bytes) :
    exec (.crcRoll w seed d) s = .next (answered s (.residue (crcRoll s.params w seed d))) := rfl

/-- Settles O6: bit by bit, the cell simulates the `w`-bit register. -/
theorem crcRollIsTheWidthBitCrc : Obligations.CrcRollIsTheWidthBitCrc :=
  fun s w seed d => ⟨_, exec_crcRoll s w seed d, crcRoll_toNat s.params w seed d⟩

end Machine

end Sys2Proof
end

section
/-! SUPPORT. What the CRC engine's instructions answer: the rolling property, the seed a header type selects, and the
seeds of an address (40_crc.md R123 to R125, R128; 47_config.md R230). -/

namespace Sys2Proof.Machine

/-! ## What the instructions answer -/

theorem exec_computeCrc_unsupported {n : Nat} (hn : n ∉ [8, 16, 24, 32]) (s : State) (d : Bytes) (h : HeaderType) :
    exec (.computeCrc n d h) s = .next (answered s (.crc 0 (some .invalidCrcWidth))) := by
  change execComputeCrc _ _ _ s = _
  unfold execComputeCrc
  rw [ofBits?_none hn]; rfl

theorem crcSeedFor_eq (seed : PerWidth) (w : CrcWidth) (h : HeaderType) :
    crcSeedFor seed w h = if h = .generic then seed.get w else 0 := by
  cases h <;> rfl

/-- The address seeds a Generic CRC as if its bytes stood before the data (R128). -/
theorem crcOf_generic (p : Params) (a : Sna) (w : CrcWidth) (d : Bytes) :
    crcOf p (snaSeeds p a) w d .generic = crcRoll p w 0 (a.toBytes ++ d) := by
  rw [crcOf, crcSeedFor, snaSeeds_get, crcRoll_append]

/-! ## The engine's statements -/

/-- Settles O7: both halves are the append law of the rolling CRC, the second over the cached seeds. -/
theorem crcRolls : Obligations.CrcRolls := by
  refine ⟨fun s w seed r a b hroll => ?_, fun s w d hseeds => ⟨_, exec_computeCrc s w d .generic, ?_⟩⟩
  · have hresp : (answered s (.residue (crcRoll s.params w seed a))).resp = .residue r :=
      congrArg (·.resp) (Host.Outcome.next.inj hroll)
    obtain rfl : crcRoll s.params w seed a = r := Response.residue.inj hresp
    rw [exec_crcRoll, exec_crcRoll, crcRoll_append]
  · have hseed : s.eng.seed = snaSeeds s.params s.cfg.sna := hseeds
    rw [exec_crcRoll, hseed, crcOf_generic]

/-- Settles O8: the seed is read off the header type, and four widths are supported. -/
theorem computeCrcSelectsTheSeed : Obligations.ComputeCrcSelectsTheSeed := by
  refine ⟨fun s w d h => ⟨_, exec_computeCrc s w d h, ?_⟩, fun s n d h h8 h16 h24 h32 => ?_⟩
  · rw [exec_crcRoll, crcOf, crcSeedFor_eq]
  · exact exec_computeCrc_unsupported (by simp [h8, h16, h24, h32]) s d h

/-- Settles O9: both operations store the same function of parameters and address, which reads no seed. -/
theorem seedsAreRecomputed : Obligations.SeedsAreRecomputed := by
  intro s a
  refine ⟨snaSeeds s.params a, rfl, rfl, fun w => ?_, exec_updateSnaSeed_of_seeded rfl⟩
  rw [exec_crcRoll, snaSeeds_get]

end Sys2Proof.Machine
end

section
/-! SUPPORT. The seeds follow the configured address (40_crc.md R126): which operations write either, and that every
agent's step keeps them together. -/

namespace Sys2Proof.Machine

namespace SeedsOk

variable {s t : State}

/-- The fields the invariant reads. -/
def view (s : State) := (s.params, s.cfg.sna, s.eng.seed)

/-- A change of any other field keeps the invariant. -/
theorem of_view (h : SeedsOk s) (e : view t = view s) : SeedsOk t := by
  simp only [view, Prod.mk.injEq] at e
  obtain ⟨hp, ha, hd⟩ := e
  unfold SeedsOk
  rw [hp, ha, hd]
  exact h

/-- Setting the address recomputes the seeds, whatever they were (47_config.md R230). -/
theorem setAddress (s : State) (a : Sna) : SeedsOk (setAddress s a) := rfl

/-- A hard reset recomputes the seeds from the address it loads (70_reset_and_hazards.md R275). -/
theorem hardReset (s : State) : SeedsOk (hardReset s) := rfl

/-- Of the parameters only SNA reaches the address, and its write sets the address (47_config.md R234). -/
theorem writeParam (h : SeedsOk s) (k : ParamKey) (v : Nat) : SeedsOk (writeParam s k v) := by
  cases k with
  | sna => exact .setAddress s _
  | macCrcEnable | qualityReportMode | peakCutMode | defaultImpedance | channel | guardBefore | guardAfter
  | impedanceState | gain | driverFor | attChirp | attSignal | threshold | stat => exact h.of_view rfl

theorem resultTask (h : SeedsOk s) : SeedsOk (resultTask s) := by
  rw [resultTask_frame]; exact h.of_view rfl

theorem receiveTask (h : SeedsOk s) : SeedsOk (receiveTask s) := h.of_view (by simp [view])

end SeedsOk

/-- The operations that write the address recompute the seeds, and of the rest only UPDATE_SNA_SEED writes seeds:
those of its operand, which need not be the configured address (log 13). -/
theorem Effect.seedsOk {s t : State} {i : Instr} (he : Effect s i t) (hi : ∀ a, i ≠ .updateSnaSeed a)
    (h : SeedsOk s) : SeedsOk t := by
  cases he with
  | setNetworkAddress a => exact .setAddress s a
  | setConfigParam => exact h.writeParam _ _
  | hardReset => exact .hardReset s
  | updateSnaSeed a => exact absurd rfl (hi a)
  | submit => rw [submitted_eq]; exact h.of_view rfl
  | pollTxEmpty _ hu _ => rw [hu, pollTask_eq]; exact h.resultTask
  | pollTxOutcome _ hu _ => rw [hu, pollTask_eq]; exact h.resultTask.of_view rfl
  | txDone => rw [completeTransmission_eq]; exact h.of_view rfl
  | irqError => rw [errorPath_eq]; exact h.of_view rfl
  | irqTasks =>
    have hrec : SeedsOk (recordFlags (enterHandler s)) := h.of_view rfl
    rw [runTasks_eq_tasks]; exact hrec.receiveTask.resultTask
  | rxTask => exact h.receiveTask
  | txResultTask => exact h.resultTask
  | txResultRead => rw [readResult_eq]; exact h.of_view rfl
  | impUpdate => rw [updateImpedance_frame]; exact h.of_view rfl
  | same | unnamedSubmit | unnamedEncode | frameA | frameB | frameBC | submitBusy | pollRxMessage | pollRxDrop
  | pollRxNoise | setChannel | txStart | rxHeaderDone | rxPayloadDone | noiseDone | rxError | timeAdvance
  | timeoutExpire | impReselect | softReset => exact h.of_view rfl

/-- UPDATE_SNA_SEED runs alone only in a trace (log 13). -/
theorem ne_updateSnaSeed_of_agentStep {i : Instr} (h : agentStep i = true) (a : Sna) : i ≠ .updateSnaSeed a := by
  rintro rfl; cases h

/-- Settles O52: a step takes an item off the agenda, has the effect of an agent's instruction, and answers. -/
theorem seedsFollowTheAddress : Obligations.SeedsFollowTheAddress := by
  intro s t h hagent hstep
  obtain ⟨_, rest, i, u, r, hitem, hdecode, _, he, rfl⟩ := step_effect hstep
  have hi : agentStep i = true := hagent _ _ _ hitem hdecode
  have htaken : SeedsOk (s.withAgenda rest) := h.of_view rfl
  exact (he.seedsOk (ne_updateSnaSeed_of_agentStep hi) htaken).of_view rfl

end Sys2Proof.Machine
end

section
/-! SUPPORT. SYMCALC and its inverse (41_codec_arith.md R133, R137, R138), over the codec's symbol arithmetic. -/

namespace Sys2Proof.Machine

/-- SYMCALC answers the transmitted count and the pad, and refuses no length (R133). -/
theorem exec_symcalc (s : State) (n : Nat) (sch : Scheme) :
    exec (.symcalc n sch) s =
      .next (answered s (.symbols (txSymbols s.params sch n) (padLen s.params sch n))) := rfl

/-- A robust scheme transmits every symbol four times (R133). -/
theorem txSymbols_mod_four_of_robust {p : Params} {sch : Scheme} (h : p.robust.get sch = true) (n : Nat) :
    txSymbols p sch n % 4 = 0 := by
  have hfour : txSymbols p sch n = rawSymbols p sch n * 4 := by
    rw [txSymbols, if_pos h, Nat.shiftLeft_eq]
  rw [hfour, Nat.mul_mod_left]

/-- Settles O10: dividing the repetition out gives the raw count, whose bytes are the length and the pad. -/
theorem symcalcHasAnInverse : Obligations.SymcalcHasAnInverse := by
  intro s n sch hbps
  obtain ⟨hbytes, hpad⟩ := rawSymbols_mul s.params sch n hbps
  refine ⟨_, _, exec_symcalc s n sch, ?_, ?_, hpad, fun hrobust => txSymbols_mod_four_of_robust hrobust n⟩
  · rw [txSymbols_div, hbytes, Nat.add_sub_cancel]
  · rw [txSymbols_div, hbytes]

end Sys2Proof.Machine
end

section
/-! SUPPORT. What each decoder answers, one equation for each branch (43_codec_decode.md R150 to R156), over the cached
header and the bulk region. -/

namespace Sys2Proof.Machine

variable {p : Params} {s : State} {i : SlotId} {ht : HeaderType} {n o : Nat}

/-! ## The decoders as instructions -/

/-- The bulk region holds a nested header and the longest payload after it (20_memory.md R70). -/
theorem memRead_rxbulk (hp : s.params.ok) (i : SlotId) (h : o + n ≤ 16 + s.params.maxPpduSize) :
    memRead s .rxbulk i o n = .ok (s.bytesAt .rxbulk i o n) :=
  memRead_eq (sp := .rxbulk) (h.trans hp.rxbulkBound) i

theorem exec_decodeA (s : State) (i : SlotId) :
    exec (.decodeA i) s = respondDecoded (decodeTypeA s.params s.cfg.macCrcEnable (cachedHeader s i).asTypeA
      (memRead s .rxbulk i)) s := rfl

theorem exec_decodeB (s : State) (i : SlotId) :
    exec (.decodeB i) s = respondDecoded (decodeTypeB s.params (cachedHeader s i).asTypeB 0
      (memRead s .rxbulk i)) s := rfl

/-- The nested header can always be read (R155). -/
theorem exec_decodeBC (hp : s.params.ok) (i : SlotId) :
    exec (.decodeBC i) s = respondDecoded (decodeTypeB s.params (headerOf (s.bytesAt .rxbulk i 0 16)).asTypeB 16
      (memRead s .rxbulk i)) s := by
  change respondDecoded (decodeSlotBC s i) s = _
  rw [decodeSlotBC, memRead_rxbulk hp i (by omega)]

/-! ## Headers that pass the checks -/

/-- DECODE_A reads the bulk of a header that passes its checks (R151, R152). -/
theorem exec_decodeA_message {h : FrameAHeader} (hp : s.params.ok) (hh : h = (cachedHeader s i).asTypeA)
    (hr : s.params.robust.get h.sch = false) (hht : headerTypeOf h.mac.m0 = some ht)
    (hd : decLen s.params h.sch h.sym.toNat h.pad.toNat (trailerLen s.cfg.macCrcEnable ht) = n)
    (hmin : 2 ≤ n) (hmax : n ≤ s.params.maxPpduSize) :
    exec (.decodeA i) s = .next (answered s (.frame ⟨h.sch, some ht,
      (s.bytesAt .hdrcache i 4 7 ++ s.bytesAt .rxbulk i 0 (n - 7)).take n⟩)) := by
  subst hh
  rw [exec_decodeA, decodeTypeA_message hr hht hd hmin hmax (memRead_rxbulk hp i (by omega)), mac_cachedHeader]
  rfl

/-- A Type B header of legal length, read with the payload at bulk offset 0 or 16 (R153, R155). -/
theorem decodeTypeB_rxbulk {b : FrameBHeader} (hp : s.params.ok) (i : SlotId) (ho : o ≤ 16)
    (hd : decLen s.params b.sch b.sym.toNat b.pad.toNat 0 = n) (hmin : 2 ≤ n) (hmax : n ≤ s.params.maxPpduSize) :
    decodeTypeB s.params b o (memRead s .rxbulk i) = .message ⟨b.sch, none, s.bytesAt .rxbulk i o n⟩ :=
  decodeTypeB_message hd hmin hmax (memRead_rxbulk hp i (by omega))

/-- DECODE_B on a cached header of legal length (R153). -/
theorem exec_decodeB_message {b : FrameBHeader} (hp : s.params.ok) (hb : b = (cachedHeader s i).asTypeB)
    (hd : decLen s.params b.sch b.sym.toNat b.pad.toNat 0 = n) (hmin : 2 ≤ n) (hmax : n ≤ s.params.maxPpduSize) :
    exec (.decodeB i) s = .next (answered s (.frame ⟨b.sch, none, s.bytesAt .rxbulk i 0 n⟩)) := by
  rw [exec_decodeB, ← hb, decodeTypeB_rxbulk hp i (by omega) hd hmin hmax]; rfl

/-- DECODE_BC on a nested header of legal length (R155). -/
theorem exec_decodeBC_message {b : FrameBHeader} (hp : s.params.ok)
    (hb : b = (headerOf (s.bytesAt .rxbulk i 0 16)).asTypeB)
    (hd : decLen s.params b.sch b.sym.toNat b.pad.toNat 0 = n) (hmin : 2 ≤ n) (hmax : n ≤ s.params.maxPpduSize) :
    exec (.decodeBC i) s = .next (answered s (.frame ⟨b.sch, none, s.bytesAt .rxbulk i 16 n⟩)) := by
  rw [exec_decodeBC hp, ← hb, decodeTypeB_rxbulk hp i (by omega) hd hmin hmax]; rfl

/-- Settles O14: the header passes the checks, and its length is the announced one. -/
theorem decodeAReadsTheFrame : Obligations.DecodeAReadsTheFrame := fun _ _ _ _ _ hp hh hr hht hn hmin hmax =>
  exec_decodeA_message hp hh hr hht ((decLen_typeA _ _ _ _ hr).trans hn.symm) hmin hmax

/-- Settles O15: both decoders read a Type B header of the announced length; they differ in where it and the payload
are. -/
theorem decodeBAndBCReadTheFrame : Obligations.DecodeBAndBCReadTheFrame := by
  intro s i h n hp hn hmin hmax
  have hd : decLen s.params h.sch h.sym.toNat h.pad.toNat 0 = n := (decLen_typeB _ _).trans hn.symm
  exact ⟨fun hh => exec_decodeB_message hp hh hd hmin hmax, fun hh => exec_decodeBC_message hp hh hd hmin hmax⟩

/-! ## Headers that are refused -/

section refusals

variable {macCrc : Bool} {a : FrameAHeader} {b : FrameBHeader} {dl : Int} {bulk : Nat → Nat → Except Fault Bytes}

theorem lenOkRx_eq_false_iff : lenOkRx p dl = false ↔ dl < 2 ∨ (p.maxPpduSize : Int) < dl := by
  rw [← Bool.not_eq_true, lenOkRx_iff]; omega

theorem decodeTypeA_robust (hr : p.robust.get a.sch = true) :
    decodeTypeA p macCrc a bulk = .raised .invalidScheme := by
  rw [decodeTypeA, if_pos hr]

theorem decodeTypeA_noHeaderType (hr : p.robust.get a.sch = false) (hht : headerTypeOf a.mac.m0 = none) :
    decodeTypeA p macCrc a bulk = .raised .invalidHeader := by
  rw [decodeTypeA, if_neg (by simp [hr]), hht]

/-- The length is checked before any bulk byte is read (R151, R156). -/
theorem decodeTypeA_badLength (hr : p.robust.get a.sch = false) (hht : headerTypeOf a.mac.m0 = some ht)
    (hbad : lenOkRx p (decLen p a.sch a.sym.toNat a.pad.toNat (trailerLen macCrc ht)) = false) :
    decodeTypeA p macCrc a bulk = .raised .invalidLength := by
  rw [decodeTypeA, if_neg (by simp [hr]), hht]
  exact if_pos (by rw [hbad]; rfl)

theorem decodeTypeB_badLength (hbad : lenOkRx p (decLen p b.sch b.sym.toNat b.pad.toNat 0) = false) :
    decodeTypeB p b o bulk = .raised .invalidLength := by
  rw [decodeTypeB, hbad]; rfl

end refusals

/-- Settles O16: each refusal is one branch of a decoder, the checks before it passed. -/
theorem decodersRefuse : Obligations.DecodersRefuse := by
  rintro s i a b hp rfl
  refine ⟨fun hr => ?_, fun hr hht => ?_, fun ht dl hr hht hdl hbad => ?_, fun dl hdl hbad => ?_⟩
  · rw [exec_decodeA, decodeTypeA_robust hr]; rfl
  · rw [exec_decodeA, decodeTypeA_noHeaderType hr hht]; rfl
  · rw [hdl, ← decLen_typeA _ _ _ _ hr, ← lenOkRx_eq_false_iff] at hbad
    rw [exec_decodeA, decodeTypeA_badLength hr hht hbad]; rfl
  · rw [hdl, ← decLen_typeB, ← lenOkRx_eq_false_iff] at hbad
    constructor <;> rintro rfl
    · rw [exec_decodeB, decodeTypeB_badLength hbad]; rfl
    · rw [exec_decodeBC hp, decodeTypeB_badLength hbad]; rfl

end Sys2Proof.Machine
end

section
/-! SUPPORT. The round trip of encoder and decoder (43_codec_decode.md R157): a received image has the encoder's header
in the cache and its body in the bulk, and that header announces the payload that was framed. -/

namespace Sys2Proof.Machine

variable {p : Params} {s : State} {i : SlotId} {sch : Scheme} {n c : Nat}

/-! ## A received image -/

namespace Received

variable {header body : Bytes}

/-- The first 16 bytes of a received image are the cached header (20_memory.md R72). -/
theorem hdrcache (h : Received s i (header ++ body)) (hlen : header.length = 16) :
    s.bytesAt .hdrcache i 0 16 = header := by
  refine List.ext_getElem (by simp [hlen]) fun k hk hk' => ?_
  have hbyte : (header ++ body)[k]? = some header[k] := by simp [List.getElem?_append_left hk']
  simpa [State.bytesAt] using (h k _ hbyte).1 (by omega)

/-- What follows them is in the bulk region, from offset 0 on (R72). -/
theorem rxbulk (h : Received s i (header ++ body)) (hlen : header.length = 16) (o : Nat) (hn : o + n ≤ body.length) :
    s.bytesAt .rxbulk i o n = (body.drop o).take n := by
  refine List.ext_getElem (by simp; omega) fun k hk _ => ?_
  have hkn : k < n := by simpa using hk
  have hbyte : (header ++ body)[16 + (o + k)]? = some (body[o + k]'(by omega)) := by
    rw [← hlen, List.getElem?_append_right (by omega), Nat.add_sub_cancel_left, List.getElem?_eq_getElem]
  simpa [State.bytesAt] using (h _ _ hbyte).2 (by omega)

theorem cachedHeader_eq (h : Received s i (header ++ body)) (hlen : header.length = 16) :
    cachedHeader s i = headerOf header := by
  rw [cachedHeader, h.hdrcache hlen]

end Received

/-! ## The headers an encoder writes -/

/-- A Type A header of an encoder, read as fields: its scheme, the MAC bytes, and the length framed (R150). -/
theorem asTypeA_headerA {a : FrameAHeader} {m : MacBytes} (hbps : 0 < p.bps.get sch)
    (hsym : txSymbols p sch (totalLen p sch n c) ≤ 4095) (hpad : padLen p sch (totalLen p sch n c) ≤ 63)
    (ha : a = (headerOf (headerA p sch (txSymbols p sch (totalLen p sch n c))
      (padLen p sch (totalLen p sch n c)) m)).asTypeA) :
    a.sch = sch ∧ a.mac = m ∧ decLen p a.sch a.sym.toNat a.pad.toNat c = n := by
  rw [headerA, ← List.append_nil (layoutA _), asTypeA_headerOf] at ha
  subst ha
  refine ⟨rfl, rfl, ?_⟩
  rw [toNat_sym hsym, toNat_padA hpad]
  exact decLen_symcalc p sch n c hbps

/-- A Type B header of an encoder, read as fields: its scheme and the length framed (R150). -/
theorem asTypeB_headerB {b : FrameBHeader} (hbps : 0 < p.bps.get sch)
    (hsym : txSymbols p sch (totalLen p sch n 0) ≤ 4095) (hpad : padLen p sch (totalLen p sch n 0) ≤ 511)
    (hb : b = (headerOf (headerB p sch (txSymbols p sch (totalLen p sch n 0))
      (padLen p sch (totalLen p sch n 0)))).asTypeB) :
    b.sch = sch ∧ decLen p b.sch b.sym.toNat b.pad.toNat 0 = n := by
  rw [headerB, ← List.append_nil (layoutB _), asTypeB_headerOf] at hb
  subst hb
  refine ⟨rfl, ?_⟩
  rw [toNat_sym hsym, toNat_padB hpad]
  exact decLen_symcalc p sch n 0 hbps

/-! ## The round trip -/

theorem response_of_answered_eq {t : State} {x y : Response} (h : (.next (answered t x) : Out) = .next (answered s y)) :
    x = y :=
  congrArg State.resp (Host.Outcome.next.inj h)

/-- Only an encoder that answers an image makes its instruction respond with one. -/
theorem encoded_of_respondEncoded {r : Encoded} {img : Bytes} {sym : Nat}
    (h : respondEncoded r s = .next (answered s (.image img sym))) : r = .image img sym := by
  cases r with
  | image => cases response_of_answered_eq h; rfl
  | raised => cases response_of_answered_eq h
  | unnamed => cases response_of_answered_eq h

/-- A payload that may be transmitted may be received (41_codec_arith.md R135). -/
theorem lenOkTx_receivable (h : lenOkTx p n = true) : 9 ≤ n ∧ n ≤ p.maxPpduSize := by
  have := lenOkTx_iff.1 h
  omega

/-- The trailer that an encoder appends is as long as the one that a decoder with the same setting takes off
(42_codec_encode.md R142; 43_codec_decode.md R151). -/
theorem length_typeATrailer_eq_trailerLen {macCrc : Bool} {seed : PerWidth} {payload tr : Bytes} {ht : HeaderType}
    (h : typeATrailer p macCrc seed payload = some tr) (hht : headerTypeOf (payload.getD 0 0) = some ht) :
    tr.length = trailerLen macCrc ht := by
  cases macCrc with
  | false => cases h; rfl
  | true =>
    rw [typeATrailer, if_pos rfl, hht] at h
    cases h
    exact length_macCrcTrailer _ _ _ _

section roundTrip

variable {r : State} {payload img : Bytes} {sym : Nat}

/-- Type A: the embedded bytes and the bulk bytes are the payload's first seven and the rest; the trailer after them is
cut off (R151, R152). -/
theorem decodeA_of_encodeA {seed : PerWidth} {ht : HeaderType} (hp : r.params.ok) (hrec : Received r i img)
    (henc : encodeTypeA r.params r.cfg.macCrcEnable seed sch payload = .image img sym)
    (hht : headerTypeOf (payload.getD 0 0) = some ht) :
    exec (.decodeA i) r = .next (answered r (.frame ⟨sch, some ht, payload⟩)) := by
  obtain ⟨hl, hr, tr, htr, rfl, hsym, hpad, rfl⟩ := encodeTypeA_image henc
  obtain ⟨hmin, hmax⟩ := lenOkTx_receivable hl
  obtain ⟨hsch, hmac, hd⟩ := asTypeA_headerA (hp.bpsPos sch) hsym hpad rfl
  rw [← hrec.cachedHeader_eq (length_headerA _ _ _ _ _)] at hsch hmac hd
  rw [length_typeATrailer_eq_trailerLen htr hht] at hd
  have hembedded : r.bytesAt .hdrcache i 4 7 = payload.take 7 := by
    rw [← mac_cachedHeader, hmac, macByteList_macBytesOf (by omega)]
  have hbulk : r.bytesAt .rxbulk i 0 (payload.length - 7) = payload.drop 7 := by
    rw [hrec.rxbulk (length_headerA _ _ _ _ _) 0 (by simp), List.drop_zero, List.take_left' (by simp)]
  rw [exec_decodeA_message hp rfl (hsch ▸ hr) (hmac ▸ hht) hd (by omega) hmax, hsch, hembedded, hbulk,
    List.take_append_drop, List.take_length]

/-- Type B: the payload is the bulk from offset 0 (R153). -/
theorem decodeB_of_encodeB (hp : r.params.ok) (hrec : Received r i img)
    (henc : encodeTypeB r.params sch payload = .image img sym) :
    exec (.decodeB i) r = .next (answered r (.frame ⟨sch, none, payload⟩)) := by
  obtain ⟨hl, rfl, hsym, hpad, rfl⟩ := encodeTypeB_image henc
  obtain ⟨hmin, hmax⟩ := lenOkTx_receivable hl
  obtain ⟨hsch, hd⟩ := asTypeB_headerB (hp.bpsPos sch) hsym hpad rfl
  rw [← hrec.cachedHeader_eq (length_headerB _ _ _ _)] at hsch hd
  rw [exec_decodeB_message hp rfl hd (by omega) hmax, hsch, hrec.rxbulk (length_headerB _ _ _ _) 0 (by omega),
    List.drop_zero, List.take_length]

/-- Type BC: the nested header is at bulk offset 0 and the payload behind it; the outer header does not enter (R155). -/
theorem decodeBC_of_encodeBC (hp : r.params.ok) (hrec : Received r i img)
    (henc : encodeTypeBC r.params sch payload = .image img sym) :
    exec (.decodeBC i) r = .next (answered r (.frame ⟨sch, none, payload⟩)) := by
  obtain ⟨hl, hsym, hpad, -, -, -, rfl⟩ := encodeTypeBC_image henc
  obtain ⟨hmin, hmax⟩ := lenOkTx_receivable hl
  have hinner := hrec.rxbulk (n := 16) (length_headerA _ _ _ _ _) 0 (by simp)
  rw [List.drop_zero, List.take_left' (length_headerB _ _ _ _)] at hinner
  have hbulk : r.bytesAt .rxbulk i 16 payload.length = payload := by
    rw [hrec.rxbulk (length_headerA _ _ _ _ _) 16 (by simp), List.drop_left' (length_headerB _ _ _ _),
      List.take_length]
  obtain ⟨hsch, hd⟩ := asTypeB_headerB (hp.bpsPos sch) hsym hpad rfl
  rw [← hinner] at hsch hd
  rw [exec_decodeBC_message hp rfl hd (by omega) hmax, hsch, hbulk]

end roundTrip

/-- Settles O17: parameters and MAC-CRC setting are all that an encoder and the decoder of its mode share; the CRC seed
of the sender enters only the trailer, which is cut off. -/
theorem encodedFramesDecode : Obligations.EncodedFramesDecode := by
  intro s r i sch payload img sym hp hparams hmac hrec
  rw [← hparams] at hp
  refine ⟨fun ht henc hht => ?_, fun henc => ?_, fun henc => ?_⟩ <;> have himg := encoded_of_respondEncoded henc
  · rw [← hparams, ← hmac] at himg
    exact decodeA_of_encodeA hp hrec himg hht
  · rw [← hparams] at himg
    exact decodeB_of_encodeB hp hrec himg
  · rw [← hparams] at himg
    exact decodeBC_of_encodeBC hp hrec himg

end Sys2Proof.Machine
end

section
/-! SUPPORT. Operations that fail (60_exceptions.md R245): the ways one ends with an error, and the errors that SUBMIT
answers, in the order of its checks (R247; 44_tx_scheduler.md R161, R162). -/

namespace Sys2Proof.Machine

variable {s t : State} {e : OpError}

/-! ## The endings that can fail -/

/-- Where an operation only answers, an error is all that it leaves. -/
theorem failed_of_answered {u : State} {r : Response} (h : t = answered u r) (he : t.resp = .error e) :
    t = answered u (.error e) := by
  subst h
  cases he
  rfl

theorem failed_of_respond {u : State} {r : Response} (h : respond r u = .next t) (he : t.resp = .error e) :
    t = answered u (.error e) := failed_of_answered (Host.Outcome.next.inj h).symm he

theorem respond_not_failed {u : State} {r : Response} (h : respond r u = .next t) (hr : r ≠ .error e) :
    t.resp ≠ .error e := by
  cases h
  exact hr

/-- A decoder's answer that is an error leaves the state it was given (43_codec_decode.md R151). -/
theorem failed_of_respondDecoded {u : State} {r : Decoded} (h : respondDecoded r u = .next t)
    (he : t.resp = .error e) : t = answered u (.error e) := by
  obtain ⟨_, ht⟩ := respondDecoded_next h
  exact failed_of_answered ht he

/-- An encoder's error leaves the state, but for the draw of the error without a name (93 U6; log 9). -/
theorem failed_of_respondEncoded {r : Encoded} (h : respondEncoded r s = .next t) (he : t.resp = .error e) :
    t = answered s (.error e) ∨ r = .unnamed ∧ t = answered s.bumpFree (.error e) := by
  cases r with
  | image bytes sym => exact .inl (failed_of_respond h he)
  | raised e' => exact .inl (failed_of_respond h he)
  | unnamed => exact .inr ⟨rfl, failed_of_respond h he⟩

/-- Only a Type A frame with MAC-CRC enabled is refused without a name (93 U6). -/
theorem encodeFrame_unnamed {mode : FrameMode} {sch : Scheme} {payload : Bytes}
    (h : encodeFrame s mode sch payload = .unnamed) : mode = .typeA ∧ s.cfg.macCrcEnable = true := by
  cases mode with
  | typeA => exact ⟨rfl, encodeTypeA_unnamed h⟩
  | typeB => exact absurd h (encodeTypeB_named _ _ _)
  | typeBC => exact absurd h (encodeTypeBC_named _ _ _)

/-! ## SUBMIT that fails -/

section submit

variable {req : TxRequest} {i : SlotId} {sch : Scheme} {img : Bytes} {sym : Nat}

/-- A busy slot under Reject turns the submit away, which is counted (44_tx_scheduler.md R162). -/
theorem submitImage_of_rejected (hb : (s.eng.tx.get i).state.busy = true) (hp : s.params.busyPolicy = .reject)
    (req : TxRequest) (sch : Scheme) (img : Bytes) (sym : Nat) :
    submitImage s i req sch img sym =
      .next (answered { s with stat := { s.stat with busyTx := s.stat.busyTx + 1 } } (.error .bufferBusy)) := by
  unfold submitImage
  rw [if_pos (by simp [hb, hp]), countBusy, if_pos hb]
  rfl

/-- With the frame built, a submit fails only by being turned away. -/
theorem submitImage_failed (h : submitImage s i req sch img sym = .next t) (he : t.resp = .error e) :
    e = .bufferBusy ∧ s.params.busyPolicy = .reject ∧
      t = answered { s with stat := { s.stat with busyTx := s.stat.busyTx + 1 } } (.error e) := by
  by_cases hr : (s.eng.tx.get i).state.busy = true ∧ s.params.busyPolicy = .reject
  · obtain ⟨hb, hp⟩ := hr
    rw [submitImage_of_rejected hb hp] at h
    cases h
    cases he
    exact ⟨rfl, hp, rfl⟩
  · unfold submitImage at h
    rw [if_neg (by simpa using hr)] at h
    split at h
    · cases h
    · exact absurd he (respond_not_failed h nofun)

/-- A submit that fails stops at one of its checks, is refused without a name, or is turned away busy (R247). -/
theorem execSubmit_failed (h : execSubmit req s = .next t) (he : t.resp = .error e) :
    t = answered s (.error e) ∨
    (req.frameMode = .typeA ∧ s.cfg.macCrcEnable = true ∧ t = answered s.bumpFree (.error e)) ∨
    (e = .bufferBusy ∧ s.params.busyPolicy = .reject ∧
      t = answered { s with stat := { s.stat with busyTx := s.stat.busyTx + 1 } } (.error e)) := by
  unfold execSubmit at h
  split at h
  · exact .inl (failed_of_respond h he)
  · split at h
    · exact .inl (failed_of_respond h he)
    · split at h
      · exact .inl (failed_of_respond h he)
      · split at h
        · exact .inl (failed_of_respond h he)
        · next henc =>
          obtain ⟨hm, hc⟩ := encodeFrame_unnamed henc
          exact .inr (.inl ⟨hm, hc, failed_of_respond h he⟩)
        · exact .inr (.inr (submitImage_failed h he))

end submit

/-! ## Every instruction -/

/-- The ways of a failed instruction that change more than the response: a submit turned away busy is counted, and a
free value is drawn for the error of 93 U6 and for a frame image (logs 6, 9, 11). -/
def FailureException (s : State) (i : Instr) (e : OpError) (t : State) : Prop :=
  (∃ req, i = .submit req ∧ e = .bufferBusy ∧ s.params.busyPolicy = .reject ∧
    t = answered { s with stat := { s.stat with busyTx := s.stat.busyTx + 1 } } (.error e)) ∨
  (t = answered { s with free := s.free + 1 } (.error e) ∧
    ((s.cfg.macCrcEnable = true ∧
        ((∃ sch payload, i = .encodeA sch payload) ∨ ∃ req, i = .submit req ∧ req.frameMode = .typeA)) ∨
      (∃ h body, i = .frameA h body) ∨ (∃ h body, i = .frameB h body) ∨ ∃ o h body, i = .frameBC o h body))

theorem exec_failed {i : Instr} (h : exec i s = .next t) (he : t.resp = .error e) :
    t = answered s (.error e) ∨ FailureException s i e t := by
  cases i with
  | setNetworkAddress | hardReset | rxTask | txResultTask | txResultRead | impUpdate | impReselect
  | updateSnaSeed | softReset | symcalc | crcRoll => exact absurd he (respond_not_failed h nofun)
  | txStart | txDone | rxError | timeAdvance | timeoutExpire | irqDispatch =>
    exact absurd he (respond_not_failed (whenEnabled_next h).2 nofun)
  | rxHeaderDone => obtain ⟨-, -, -, rfl⟩ := execRxHeaderDone_next h; cases he
  | rxPayloadDone => obtain ⟨-, -, -, rfl⟩ := execRxPayloadDone_next h; cases he
  | noiseDone => obtain ⟨-, -, rfl⟩ := execNoiseDone_next h; cases he
  | pollTxResult v =>
    rcases execPollTxResult_next h with ht | ⟨_, _, -, -, ⟨-, rfl⟩ | ⟨-, rfl⟩⟩
    · exact .inl (failed_of_answered ht he)
    · cases he
    · cases he
  | pollRx =>
    rcases execPollRx_next h with ⟨_, -, ⟨_, -, rfl⟩ | ⟨_, -, rfl⟩⟩ | ⟨-, -, rfl⟩ | ⟨-, -, rfl⟩ <;> cases he
  | setChannel v =>
    rcases execSetChannel_next h with ⟨-, ht⟩ | ⟨_, -, rfl⟩
    · exact .inl (failed_of_answered ht he)
    · cases he
  | setConfigParam id v =>
    rcases execSetConfigParam_next h with ⟨_, -, ht⟩ | ⟨_, -, -, rfl⟩
    · exact .inl (failed_of_answered ht he)
    · cases he
  | getConfigParam id =>
    obtain ⟨_, ht⟩ := execGetConfigParam_next h
    exact .inl (failed_of_answered ht he)
  | computeCrc width data ht =>
    obtain ⟨_, ht⟩ := execComputeCrc_next h
    exact .inl (failed_of_answered ht he)
  | decodeA | decodeB | decodeBC => exact .inl (failed_of_respondDecoded h he)
  | frameA hdr body => exact .inr (.inr ⟨failed_of_respondDecoded h he, .inr (.inl ⟨_, _, rfl⟩)⟩)
  | frameB hdr body => exact .inr (.inr ⟨failed_of_respondDecoded h he, .inr (.inr (.inl ⟨_, _, rfl⟩))⟩)
  | frameBC outer inner payload =>
    exact .inr (.inr ⟨failed_of_respondDecoded h he, .inr (.inr (.inr ⟨_, _, _, rfl⟩))⟩)
  | encodeA sch payload =>
    rcases failed_of_respondEncoded h he with ht | ⟨hr, ht⟩
    · exact .inl ht
    · exact .inr (.inr ⟨ht, .inl ⟨encodeTypeA_unnamed hr, .inl ⟨_, _, rfl⟩⟩⟩)
  | encodeB => exact .inl ((failed_of_respondEncoded h he).resolve_right fun hr => encodeTypeB_named _ _ _ hr.1)
  | encodeBC => exact .inl ((failed_of_respondEncoded h he).resolve_right fun hr => encodeTypeBC_named _ _ _ hr.1)
  | submit req =>
    rcases execSubmit_failed h he with ht | ⟨hm, hc, ht⟩ | ⟨hb, hp, ht⟩
    · exact .inl ht
    · exact .inr (.inr ⟨ht, .inl ⟨hc, .inr ⟨_, rfl, hm⟩⟩⟩)
    · exact .inr (.inl ⟨_, rfl, hb, hp, ht⟩)

/-- Settles O59: instruction by instruction, what an error leaves. -/
theorem failedOperationsChangeNothing : Obligations.FailedOperationsChangeNothing := fun _ _ _ _ => exec_failed

/-! ## What SUBMIT refuses -/

/-- The encoder that answers an error names the one that refuses the frame. -/
theorem encodeFrame_of_exec_error {mode : FrameMode} {sch : Scheme} {payload : Bytes}
    (h : exec (encoderOf mode sch payload) s = .next (answered s (.error e))) :
    encodeFrame s mode sch payload = .raised e := by
  rw [exec_encoderOf] at h
  cases henc : encodeFrame s mode sch payload with
  | image bytes sym => rw [henc] at h; cases response_of_answered_eq h
  | raised e' => rw [henc] at h; cases response_of_answered_eq h; rfl
  | unnamed =>
    rw [henc] at h
    have hfree : s.free + 1 = s.free := congrArg State.free (Host.Outcome.next.inj h)
    omega

/-- With MAC-CRC enabled, a Type A payload without a header type is refused without a name (93 U6). -/
theorem encodeFrame_of_no_headerType {sch : Scheme} {payload : Bytes} (hl : lenOkTx s.params payload.length = true)
    (hr : s.params.robust.get sch = false) (hc : s.cfg.macCrcEnable = true)
    (hht : headerTypeOf (payload.getD 0 0) = none) : encodeFrame s .typeA sch payload = .unnamed := by
  change encodeTypeA _ _ _ _ _ = _
  rw [encodeTypeA_eq, if_neg (by simp [hl]), if_neg (by simp [hr]), typeATrailer, hc, if_pos rfl, hht]

section refusals

variable {req : TxRequest} {i : SlotId} {sch : Scheme}

theorem exec_submit_badBuffer (h : slotOperand req.bufferId = none) :
    exec (.submit req) s = .next (answered s (.error .invalidBuffer)) := by
  change execSubmit req s = _
  unfold execSubmit
  rw [h]
  rfl

variable (hi : slotOperand req.bufferId = some i)
include hi

theorem exec_submit_badLength (hl : lenOkTx s.params req.payload.length = false) :
    exec (.submit req) s = .next (answered s (.error .invalidLength)) := by
  change execSubmit req s = _
  unfold execSubmit
  simp only [hi, hl, Bool.not_false, if_true, raise_eq]

theorem exec_submit_badScheme (hl : lenOkTx s.params req.payload.length = true)
    (hs : Scheme.ofCode? req.schemeCode.toNat = none) :
    exec (.submit req) s = .next (answered s (.error .invalidScheme)) := by
  change execSubmit req s = _
  unfold execSubmit
  simp only [hi, hl, hs, Bool.not_true, Bool.false_eq_true, if_false, raise_eq]

/-- With the operands read, an encoder that makes no image has the last word (R247). -/
theorem exec_submit_of_refused (hl : lenOkTx s.params req.payload.length = true)
    (hs : Scheme.ofCode? req.schemeCode.toNat = some sch)
    (hr : ∀ img sym, encodeFrame s req.frameMode sch req.payload ≠ .image img sym) :
    exec (.submit req) s = respondEncoded (encodeFrame s req.frameMode sch req.payload) s := by
  change execSubmit req s = _
  unfold execSubmit
  simp only [hi, hl, hs, Bool.not_true, Bool.false_eq_true, if_false]
  cases henc : encodeFrame s req.frameMode sch req.payload with
  | image img sym => exact absurd henc (hr img sym)
  | raised e => rfl
  | unnamed => rfl

end refusals

theorem scheme_ofCode?_none {n : Nat} (h : 7 < n) : Scheme.ofCode? n = none := if_neg (by omega)

/-- Settles O23: each refusal is one check of SUBMIT, the checks before it passed. -/
theorem submitErrors : Obligations.SubmitErrors := by
  intro s req
  refine ⟨fun hbuf => exec_submit_badBuffer (slotOperand_none.2 hbuf), fun hbuf => ?_⟩
  obtain ⟨k, hk⟩ : ∃ k, slotOperand req.bufferId = some k :=
    Option.ne_none_iff_exists'.1 fun hnone => by have := slotOperand_none.1 hnone; omega
  refine ⟨fun hbad => exec_submit_badLength hk (by rwa [← Bool.not_eq_true, lenOkTx_iff]), fun hmin hmax => ?_⟩
  have hl : lenOkTx s.params req.payload.length = true := lenOkTx_iff.2 ⟨hmin, hmax⟩
  refine ⟨fun hcode => exec_submit_badScheme hk hl (scheme_ofCode?_none hcode), fun sch hcode => ?_⟩
  have hs := scheme_ofCode?_index hcode
  refine ⟨fun e henc => ?_, fun hm hr hc hht => ⟨Config.freeError s.free, ?_⟩, fun i hi henc hb hp => ?_⟩
  · have hraised := encodeFrame_of_exec_error henc
    rw [exec_submit_of_refused hk hl hs (by simp [hraised]), hraised]
    rfl
  · have hunnamed := encodeFrame_of_no_headerType hl hr hc hht
    rw [← hm] at hunnamed
    rw [exec_submit_of_refused hk hl hs (by simp [hunnamed]), hunnamed]
    rfl
  · obtain ⟨img, sym, himg, -⟩ := encodeFrame_of_encodable henc
    rw [exec_submit_of_image (slotOperand_iff.2 hi) hl hs himg, submitImage_of_rejected hb hp]

end Sys2Proof.Machine
end

section
/-! SUPPORT. The modem's timed events: the half-range comparison of times (44_tx_scheduler.md R171), and the events that
wait for one, TX_START (R172) and TIMEOUT_EXPIRE (R175). -/

namespace Sys2Proof.Machine

variable {s : State} {i : SlotId}

/-! ## The time comparison -/

theorem reached_iff (s : State) (t : Nat) :
    reached s t = true ↔ ticksSince s.params s.mdm.time t < 2 ^ (s.params.timeW - 1) := decide_eq_true_iff

/-- A time enters the comparison modulo the counter's range. -/
theorem reached_wrapTime (s : State) (t : Nat) : reached s (wrapTime s.params t) = reached s t := by
  have hmod : ticksSince s.params s.mdm.time (wrapTime s.params t) = ticksSince s.params s.mdm.time t := by
    rw [ticksSince, wrapTime, Nat.mod_mod, ticksSince]
  rw [Bool.eq_iff_iff, reached_iff, reached_iff, hmod]

/-- The difference of the counts as `TIME_W`-bit values is `ticksSince`. -/
theorem toNat_sub_ofNat_eq_ticksSince (p : Params) (now t : Nat) :
    (BitVec.ofNat p.timeW now - BitVec.ofNat p.timeW t).toNat = ticksSince p now t := by
  rw [BitVec.toNat_sub, BitVec.toNat_ofNat, BitVec.toNat_ofNat, ticksSince, Nat.add_comm now, Nat.add_mod_mod]

/-- A two's-complement value is not negative exactly in the lower half of its range. -/
theorem toInt_nonneg_iff_lower_half {w : Nat} (hw : 1 ≤ w) (x : BitVec w) : 0 ≤ x.toInt ↔ x.toNat < 2 ^ (w - 1) := by
  have hhalf : 2 ^ w = 2 * 2 ^ (w - 1) := by rw [← Nat.pow_succ', Nat.succ_eq_add_one, Nat.sub_add_cancel hw]
  have hlt := x.isLt
  rw [BitVec.toInt_eq_toNat_cond]
  generalize 2 ^ (w - 1) = half at hhalf ⊢
  split <;> omega

/-- Settles O25: both readings are of the one number `ticksSince`. -/
theorem reachedIsTheHalfRangeTest : Obligations.ReachedIsTheHalfRangeTest := by
  intro s t hw
  rw [reached_iff, toInt_nonneg_iff_lower_half hw, toNat_sub_ofNat_eq_ticksSince, ← ticksSince_eq]
  exact ⟨by norm_cast, Iff.rfl⟩

/-! ## TX_START -/

/-- The enabling condition of TX_START (R172). -/
def txStartEnabled (s : State) (i : SlotId) : Bool :=
  decide ((s.eng.tx.get i).state = .armed) &&
    ((s.eng.tx.get i).conf.force || reached s (s.eng.tx.get i).conf.schedTime)

theorem txStartEnabled_iff : txStartEnabled s i = true ↔ (s.eng.tx.get i).state = .armed ∧
    ((s.eng.tx.get i).conf.force = true ∨ reached s (s.eng.tx.get i).conf.schedTime = true) := by
  simp [txStartEnabled]

/-- TX_START is its enabling condition and the new slot state (R172). -/
theorem exec_txStart (s : State) (i : SlotId) :
    exec (.txStart i) s = whenEnabled (txStartEnabled s i)
      (.next (answered (s.setTx i { s.eng.tx.get i with state := .inFlight }) .silent)) := rfl

/-- Settles O24: the enabling condition separates the two clauses. -/
theorem txStartFlies : Obligations.TxStartFlies := by
  intro s i
  refine ⟨fun ha ht => ?_, fun hoff => ?_⟩
  · rw [exec_txStart, txStartEnabled_iff.2 ⟨ha, ht⟩]
    rfl
  · have hdis : txStartEnabled s i = false := by rwa [← Bool.not_eq_true, txStartEnabled_iff]
    rw [exec_txStart, hdis, whenEnabled_false]

/-! ## TIMEOUT_EXPIRE -/

theorem timeoutEnabled_iff : timeoutEnabled s i = true ↔
    (s.eng.tx.get i).state.busy = true ∧ flag s.mdm.txInt i = false ∧ flag s.eng.txPend i = false ∧
      reached s ((s.eng.tx.get i).conf.schedTime + (s.eng.tx.get i).conf.timeout) = true := by
  simp [timeoutEnabled, reached_wrapTime, and_assoc]

/-- TIMEOUT_EXPIRE is its enabling condition, the latched timeout and a soft reset (R175). -/
theorem exec_timeoutExpire (s : State) (i : SlotId) :
    exec (.timeoutExpire i) s =
      whenEnabled (timeoutEnabled s i) (.next (answered (softReset (latchTimeout s i)) .silent)) := rfl

/-- The soft reset keeps the timed-out slot's outcome: the slot is no longer busy (70_reset_and_hazards.md R278). -/
theorem slot_timedOut (s : State) (i : SlotId) :
    (softReset (latchTimeout s i)).eng.tx.get i =
      { (s.eng.tx.get i).complete .timeout none with conf := unspecifiedTxConfig (latchTimeout s i) i } := by
  have hslot : (latchTimeout s i).eng.tx.get i = (s.eng.tx.get i).complete .timeout none := by simp [latchTimeout]
  refine (congrArg TxView.slot (txView_softReset (latchTimeout s i) i)).trans ?_
  rw [softResetTx, hslot]
  rfl

/-- Settles O32: the enabling condition separates the two clauses, and the outcome survives the reset. -/
theorem timeoutExpireResets : Obligations.TimeoutExpireResets := by
  intro s i
  refine ⟨fun hb hint hpend hdue => ⟨softReset (latchTimeout s i), rfl, ?_, ?_⟩, fun hoff => ?_⟩
  · rw [exec_timeoutExpire, timeoutEnabled_iff.2 ⟨hb, hint, hpend, hdue⟩, whenEnabled_true]
  · rw [slot_timedOut]
    exact ⟨rfl, rfl, rfl, rfl⟩
  · have hdis : timeoutEnabled s i = false := by rwa [← Bool.not_eq_true, timeoutEnabled_iff]
    rw [exec_timeoutExpire, hdis, whenEnabled_false]

end Sys2Proof.Machine
end

section
/-! SUPPORT. Results on their way to the host: what TX_RESULT_READ latches and which slot TX_RESULT_TASK serves
(44_tx_scheduler.md R176, R177, R180), and that polling a slot whose completion is recorded delivers its outcome: each
poll serves one pending slot and records none, so there are at most four polls before it (R179). -/

namespace Sys2Proof.Machine

variable {s : State} {i j : SlotId} {o : TxOutcome}

/-! ## Reading a result -/

/-- The controller's part of reading slot `i`'s result: it runs on a success and only then (R181). -/
def controllerRun (s : State) (i : SlotId) : State :=
  if s.resultCode i = .success then updateImpedance s (s.mdm.rms.get i) else s

theorem controllerRun_of_success (h : s.resultCode i = .success) :
    controllerRun s i = updateImpedance s (s.mdm.rms.get i) := if_pos h

theorem controllerRun_of_failure (h : s.resultCode i ≠ .success) : controllerRun s i = s := if_neg h

theorem exec_impUpdate (s : State) (rms : Nat) :
    exec (.impUpdate rms) s = .next (answered (updateImpedance s rms) .silent) := rfl

theorem exec_txResultRead (s : State) (i : SlotId) :
    exec (.txResultRead i) s = .next (answered (readResult s i) .silent) := rfl

/-- Settles O28: the code read is the one the field stands for, and the controller runs on a success only. -/
theorem txResultReadLatches : Obligations.TxResultReadLatches := by
  intro s i code hcode
  obtain rfl := (resultIs_iff s i code).1 hcode
  refine ⟨(controllerRun s i).eng.imp, (controllerRun s i).eng.sel, fun hs => ?_, fun hs => ?_, ?_⟩
  · rw [exec_impUpdate, updateImpedance_frame, controllerRun_of_success hs]
    rfl
  · rw [controllerRun_of_failure hs]
    exact ⟨rfl, rfl⟩
  · rw [exec_txResultRead, readResult_eq, tally_eq]
    rfl

/-! ## The round-robin scan -/

theorem nextTxSlot_eq_some_iff :
    nextTxSlot s = some i ↔ FirstInScan s.params s.eng.txLast (fun j => flag s.eng.txPend j = true) i :=
  scanOrder_find _ _ _ _

theorem exists_nextTxSlot (h : s.eng.txPend ≠ 0) : ∃ i, nextTxSlot s = some i :=
  Option.ne_none_iff_exists'.1 (mt nextTxSlot_none.1 h)

theorem exec_txResultTask (s : State) :
    exec .txResultTask s = .next (answered (resultTask s) (.served (nextTxSlot s))) := rfl

/-- Settles O29: the slot served is the first that the scan finds pending. -/
theorem txResultTaskServesRoundRobin : Obligations.TxResultTaskServesRoundRobin := by
  intro s
  refine ⟨fun h => ?_, fun h => ?_, fun i hi => ⟨_, rfl, ?_⟩⟩
  · rw [exec_txResultTask, nextTxSlot_none.2 h, resultTask_of_none h]
  · obtain ⟨i, hi⟩ := exists_nextTxSlot h
    exact ⟨i, nextTxSlot_eq_some_iff.1 hi⟩
  · have hnext := nextTxSlot_eq_some_iff.2 hi
    rw [exec_txResultTask, resultTask_eq, hnext]
    rfl

/-! ## Pending completions -/

theorem popcount_le_four (b : SlotBits) : popcount b ≤ 4 := by
  rw [popcount_eq_countP]
  exact List.countP_le_length

theorem popcount_pos {b : SlotBits} (h : flag b i = true) : 0 < popcount b := by
  rw [popcount_eq_countP]
  exact List.countP_pos_iff.2 ⟨i, by cases i <;> decide, h⟩

theorem popcount_clearFlag {b : SlotBits} (h : flag b i = true) : popcount (clearFlag b i) + 1 = popcount b := by
  cases i <;> simp [popcount, flag_clearFlag, h] <;> omega

/-- The task clears one pending bit, that of the slot it serves (R176). -/
theorem resultTask_txPend (h : nextTxSlot s = some j) : (resultTask s).eng.txPend = clearFlag s.eng.txPend j := by
  simp only [resultTask_eq, h, readResult_eq, withEng_eng]

theorem resultTask_resultCode (s : State) (i : SlotId) : (resultTask s).resultCode i = s.resultCode i := by
  rw [resultTask_frame]
  cases i <;> rfl

theorem resultTask_rms (s : State) : (resultTask s).mdm.rms = s.mdm.rms := congrArg (·.mdm.rms) (resultTask_frame s)

/-- The outcome `o` of slot `i` is with the modem and its completion is recorded, under the invariants of the latch
and of the completion flags. -/
structure CompletionDue (s : State) (i : SlotId) (o : TxOutcome) : Prop where
  latch : LatchOk s
  completion : CompletionOk s
  pending : flag s.eng.txPend i = true
  outcome : o = ⟨i, s.resultCode i, if s.cfg.qualityReportMode then some (s.mdm.rms.get i) else none⟩

namespace CompletionDue

/-- The slot is still busy, so it holds no outcome yet. -/
theorem latch_empty (h : CompletionDue s i o) : (s.eng.tx.get i).outValid = false := by
  obtain ⟨hbusy, hint⟩ := h.completion
  exact TxSlot.Latched.outValid_of_busy (h.latch i) (hbusy i (hint i h.pending))

/-- Where the task serves another slot, the completion stays due (R176). -/
theorem after_resultTask (h : CompletionDue s i o) (hn : nextTxSlot s ≠ some i) :
    CompletionDue (resultTask s) i o := by
  have hmove : ∀ k, TxMove s k (.pollTxResult 0) (txView (resultTask s) k) := fun k =>
    txMove_resultTask (.inr (.inr ⟨0, rfl⟩))
  have hview : txView (resultTask s) i = txView s i := by rw [txView_resultTask, if_neg hn]
  refine ⟨latchOk_iff.2 fun k => (hmove k).latched h.latch,
    completionOk_iff.2 fun k => (hmove k).flagsOk rfl h.latch h.completion,
    (congrArg TxView.pend hview).trans h.pending, ?_⟩
  rw [resultTask_resultCode, resultTask_cfg, resultTask_rms]
  exact h.outcome

/-- A poll whose task serves another slot answers none (R179). -/
theorem poll_other (h : CompletionDue s i o) (hn : nextTxSlot s ≠ some i) {v : BitVec 8} (hv : v.toNat = i.toNat) :
    exec (.pollTxResult v) s = .next (answered (resultTask s) (.outcome none)) := by
  rw [exec_pollTxResult hv, takeOutcome_of_empty (h.after_resultTask hn).latch_empty]

/-- A poll whose task serves the slot hands its outcome over (R179). -/
theorem poll_served (h : CompletionDue s i o) (hn : nextTxSlot s = some i) {v : BitVec 8} (hv : v.toNat = i.toNat) :
    ∃ t, exec (.pollTxResult v) s = .next (answered t (.outcome (some o))) ∧
      (t.eng.tx.get i).state = .idle ∧ flag t.eng.txPend i = false ∧ flag t.mdm.txInt i = false := by
  have hview : txView (resultTask s) i = ⟨completedSlot s i, false, false⟩ := by
    rw [txView_resultTask, if_pos hn]
  have hslot : (resultTask s).eng.tx.get i = completedSlot s i := congrArg TxView.slot hview
  refine ⟨(resultTask s).setTx i (completedSlot s i).consume, ?_, ?_, congrArg TxView.pend hview,
    congrArg TxView.int hview⟩
  · rw [exec_pollTxResult hv, takeOutcome_of_valid (by rw [hslot]; rfl), hslot, h.outcome]
    rfl
  · rw [setTx_eng, PerSlot.get_set_self]
    rfl

/-- As many polls as completions are pending deliver the outcome: one pending slot is served in each. -/
theorem pollsDeliver {v : BitVec 8} (hv : v.toNat = i.toNat) {n : Nat} (h : CompletionDue s i o)
    (hn : popcount s.eng.txPend ≤ n) :
    ∃ t, PollsDeliver v o t n s ∧
      (t.eng.tx.get i).state = .idle ∧ flag t.eng.txPend i = false ∧ flag t.mdm.txInt i = false := by
  induction n generalizing s with
  | zero => exact absurd (popcount_pos h.pending) (by omega)
  | succ n ih =>
    obtain ⟨j, hj⟩ := exists_nextTxSlot (bits_ne_zero.2 ⟨i, h.pending⟩)
    by_cases hji : j = i
    · subst hji
      obtain ⟨t, hpoll, ht⟩ := h.poll_served hj hv
      exact ⟨t, .inl hpoll, ht⟩
    · have hother : nextTxSlot s ≠ some i := fun hi => hji (Option.some.inj (hj.symm.trans hi))
      have hdue := h.after_resultTask hother
      have hcount := popcount_clearFlag (nextTxSlot_some hj)
      obtain ⟨t, hpolls, ht⟩ := ih (s := answered (resultTask s) (.outcome none))
        ⟨hdue.latch, hdue.completion, hdue.pending, hdue.outcome⟩
        (by rw [answered_eng, resultTask_txPend hj]; omega)
      exact ⟨t, .inr ⟨_, h.poll_other hother hv, hpolls⟩, ht⟩

end CompletionDue

/-- Settles O31: there are four slots, so at most four completions are pending. -/
theorem fourPollsDeliverTheOutcome : Obligations.FourPollsDeliverTheOutcome := by
  intro s i v code hv hlatch hcomp hpend hcode
  have hdue : CompletionDue s i ⟨i, code, _⟩ :=
    ⟨hlatch, hcomp, hpend, by rw [(resultIs_iff s i code).1 hcode]⟩
  exact hdue.pollsDeliver hv (popcount_le_four _)

end Sys2Proof.Machine
end

section
/-! SUPPORT. The impedance controller (45_impedance.md): the transition rule one impedance state at a time, what
IMP_UPDATE, IMP_RESELECT and SET_CHANNEL answer, and the agents' steps that move the controller's state or its outputs
(R191 to R201). -/

namespace Sys2Proof.Machine

variable {s : State} {rms : Nat}

/-! ## The transition rule, by the state left (R192, R193) -/

section
variable (x : Selection) (peakCut : Bool) (rms : Nat)

theorem nextImpedance_high :
    nextImpedance x peakCut rms .high =
      if x.th2 < rms ∧ rms < x.th1 then .veryLow
      else if rms < x.th2 then (if peakCut then .lowPeakCut else .low) else .high := by
  cases peakCut <;> rfl

theorem nextImpedance_low :
    nextImpedance x peakCut rms .low =
      if peakCut = true then .low else if x.th3 < rms then .high else if rms < x.th4 then .veryLow else .low := by
  cases peakCut <;> rfl

theorem nextImpedance_lowPeakCut :
    nextImpedance x peakCut rms .lowPeakCut =
      if peakCut = true ∧ rms < x.th4 then .veryLow else .lowPeakCut := by
  cases peakCut <;> simp [nextImpedance, nextPlain, nextPeakCut]

theorem nextImpedance_veryLow :
    nextImpedance x peakCut rms .veryLow = if peakCut = true ∧ x.th3 < rms then .high else .veryLow := by
  cases peakCut <;> simp [nextImpedance, nextPlain, nextPeakCut]

/-- The tables of R192 and R193, read as a relation, are the function. -/
theorem nextImpedanceIs_iff (old new : ImpedanceState) :
    NextImpedanceIs x peakCut rms old new ↔ new = nextImpedance x peakCut rms old := by
  unfold NextImpedanceIs
  cases old with
  | high => rw [nextImpedance_high]; grind
  | low => rw [nextImpedance_low]; grind
  | veryLow => rw [nextImpedance_veryLow]; grind
  | lowPeakCut => rw [nextImpedance_lowPeakCut]; grind

end

/-! ## What the operations answer -/

theorem updateImpedance_imp (s : State) (rms : Nat) :
    (updateImpedance s rms).eng.imp = nextImpedance s.eng.sel s.cfg.peakCutMode rms s.eng.imp := by
  rw [updateImpedance_eq]
  split
  · next hheld => exact hheld.symm
  · rfl

theorem updateImpedance_of_held (h : nextImpedance s.eng.sel s.cfg.peakCutMode rms s.eng.imp = s.eng.imp) :
    updateImpedance s rms = s := if_pos h

/-- A transition stores the new state and re-selects (R191, R196). -/
theorem updateImpedance_of_moved (h : nextImpedance s.eng.sel s.cfg.peakCutMode rms s.eng.imp ≠ s.eng.imp) :
    updateImpedance s rms = reselect { s with eng := { s.eng with
      imp := nextImpedance s.eng.sel s.cfg.peakCutMode rms s.eng.imp } } := if_neg h

theorem exec_impReselect (s : State) : exec .impReselect s = .next (answered (reselect s) .silent) := rfl

theorem forState_eq_loadFor {α : Type} (f : PerLoad α) (imp : ImpedanceState) : f.forState imp = loadFor f imp := by
  cases imp <;> rfl

theorem channelOperand_eq_some_iff {v : BitVec 8} {c : Channel} : channelOperand v = some c ↔ v.toNat = c.number := by
  refine ⟨fun h => (channel_ofNumber? h).symm, fun h => ?_⟩
  unfold channelOperand
  rw [h]
  cases c <;> rfl

theorem number_bounds (c : Channel) : 1 ≤ c.number ∧ c.number ≤ 8 := by cases c <;> decide

theorem channelOperand_eq_none {v : BitVec 8} (h : v.toNat < 1 ∨ 8 < v.toNat) : channelOperand v = none := by
  refine Option.eq_none_iff_forall_ne_some.2 fun c hc => ?_
  have hv := channelOperand_eq_some_iff.1 hc
  have hbounds := number_bounds c
  omega

theorem exec_setChannel_of_none {v : BitVec 8} (h : channelOperand v = none) :
    exec (.setChannel v) s = .next (answered s (.error .invalidChannel)) := by
  change execSetChannel v s = _
  unfold execSetChannel
  rw [h]
  rfl

theorem exec_setChannel_of_some {v : BitVec 8} {c : Channel} (h : channelOperand v = some c) :
    exec (.setChannel v) s = .next (answered (switchChannel s c) .ok) := by
  change execSetChannel v s = _
  unfold execSetChannel
  rw [h]
  rfl

/-- Settles O35: the tables are the model's transition function, and the re-selection is IMP_RESELECT's. -/
theorem impUpdateFollowsTheTables : Obligations.ImpUpdateFollowsTheTables := by
  intro s rms
  refine ⟨nextImpedance s.eng.sel s.cfg.peakCutMode rms s.eng.imp, (nextImpedanceIs_iff ..).2 rfl,
    fun other => (nextImpedanceIs_iff ..).1, fun hheld => ?_, fun hmoved => ⟨_, exec_impReselect _, ?_⟩⟩
  · rw [exec_impUpdate, updateImpedance_of_held hheld]
  · rw [exec_impUpdate, updateImpedance_of_moved hmoved]

/-- Settles O36: the outputs are `selectFor`'s, and SET_CHANNEL is a re-selection under the new channel. -/
theorem reselectionFollowsChannelAndState : Obligations.ReselectionFollowsChannelAndState := by
  refine ⟨fun s => ?_, fun s v => ⟨fun hv => exec_setChannel_of_none (channelOperand_eq_none hv), fun c hc =>
    ⟨_, exec_impReselect _, exec_setChannel_of_some (channelOperand_eq_some_iff.2 hc)⟩⟩⟩
  rw [exec_impReselect, reselect, selectFor, forState_eq_loadFor, forState_eq_loadFor]
  cases himp : s.eng.imp <;> rfl

/-! ## Values below threshold 2 (R199) -/

/-- The state a low value leads to from High: the Low of the peak-cut mode. -/
def lowState (peakCut : Bool) : ImpedanceState := if peakCut then .lowPeakCut else .low

theorem nextImpedance_high_of_lt {x : Selection} {peakCut : Bool} (h : rms < x.th2) :
    nextImpedance x peakCut rms .high = lowState peakCut := by
  rw [nextImpedance_high, if_neg (by omega), if_pos h]
  rfl

/-- From there VeryLow is reached below threshold 4 only. -/
theorem lt_of_nextImpedance_lowState {x : Selection} {peakCut : Bool}
    (h : nextImpedance x peakCut rms (lowState peakCut) = .veryLow) : rms < x.th4 := by
  cases peakCut with
  | false => rw [lowState, if_neg nofun, nextImpedance_low] at h; grind
  | true => rw [lowState, if_pos rfl, nextImpedance_lowPeakCut] at h; grind

/-- Settles O37: the first value leads to the Low of the peak-cut mode, and the mode stays. -/
theorem lowValuesNeverReachVeryLowDirectly : Obligations.LowValuesNeverReachVeryLowDirectly := by
  intro s rms hhigh hlow
  have hfirst : (updateImpedance s rms).eng.imp = lowState s.cfg.peakCutMode := by
    rw [updateImpedance_imp, hhigh, nextImpedance_high_of_lt hlow]
  have hmode : (updateImpedance s rms).cfg = s.cfg := congrArg (·.cfg) (updateImpedance_frame s rms)
  refine ⟨answered (updateImpedance s rms) .silent, exec_impUpdate s rms, hfirst, fun rms' u _ hexec hvery => ?_⟩
  obtain rfl := Host.Outcome.next.inj ((exec_impUpdate _ _).symm.trans hexec)
  rw [answered_eng, updateImpedance_imp, answered_cfg, answered_eng, hmode, hfirst] at hvery
  exact lt_of_nextImpedance_lowState hvery

/-! ## The controller, seen from the agents' steps -/

/-- The controller's own fields: its state and the outputs selected. -/
def controller (s : State) : ImpedanceState × Selection := (s.eng.imp, s.eng.sel)

theorem controller_updateImpedance (s : State) (rms : Nat) :
    controller (updateImpedance s rms) =
      if nextImpedance s.eng.sel s.cfg.peakCutMode rms s.eng.imp = s.eng.imp then controller s
      else (nextImpedance s.eng.sel s.cfg.peakCutMode rms s.eng.imp,
        selectFor s.cfg (nextImpedance s.eng.sel s.cfg.peakCutMode rms s.eng.imp)) := by
  rw [updateImpedance_eq]
  split <;> rfl

/-- An update looks at the controller and the configuration only. -/
theorem controller_updateImpedance_congr {u : State} (hcfg : u.cfg = s.cfg) (hctl : controller u = controller s) :
    controller (updateImpedance u rms) = controller (updateImpedance s rms) := by
  obtain ⟨himp, hsel⟩ := Prod.mk.inj hctl
  rw [controller_updateImpedance, controller_updateImpedance, hcfg, hctl, himp, hsel]

theorem controller_readResult (s : State) (j : SlotId) :
    controller (readResult s j) =
      if s.resultCode j = .success then controller (updateImpedance s (s.mdm.rms.get j)) else controller s :=
  (congrArg controller (readResult_eq s j)).trans (apply_ite controller _ _ _)

/-- The result task runs the controller on the RMS of the slot it serves, if that slot's result is a success. -/
theorem controller_resultTask (s : State) :
    controller (resultTask s) = controller s ∨
    ∃ j, nextTxSlot s = some j ∧ s.resultCode j = .success ∧
      controller (resultTask s) = controller (updateImpedance s (s.mdm.rms.get j)) := by
  rw [resultTask_eq]
  cases hnext : nextTxSlot s with
  | none => exact .inl rfl
  | some j =>
    simp only [controller_readResult]
    split
    · next hcode => exact .inr ⟨j, rfl, hcode, controller_updateImpedance_congr rfl rfl⟩
    · exact .inl rfl

/-- What an agent's instruction can make of the controller (R195, R198, R201). -/
inductive ControllerMove (s : State) : Instr → ImpedanceState × Selection → Prop
  | kept (i : Instr) : ControllerMove s i (controller s)
  | successRead {i : Instr} {j : SlotId} (hi : i = .irqDispatch ∨ ∃ v, i = .pollTxResult v)
      (hcode : s.resultCode j = .success) (hflag : flag s.eng.txPend j = true ∨ flag s.mdm.txInt j = true) :
      ControllerMove s i (controller (updateImpedance s (s.mdm.rms.get j)))
  | channelChange {i : Instr} (hi : (∃ v, i = .setChannel v) ∨ ∃ v, i = .setConfigParam 0x0005 v) (x : Selection) :
      ControllerMove s i (s.eng.imp, x)
  | hardReset (x : ImpedanceState × Selection) : ControllerMove s .hardReset x

/-- The result task's move, where it runs in a state `u` that has recorded flags of `s` but left the results, the
configuration and the controller alone. -/
theorem controllerMove_resultTask {u : State} {i : Instr} (hi : i = .irqDispatch ∨ ∃ v, i = .pollTxResult v)
    (hcfg : u.cfg = s.cfg) (hctl : controller u = controller s) (hrms : u.mdm.rms = s.mdm.rms)
    (hcode : ∀ j, u.resultCode j = s.resultCode j)
    (hpend : ∀ j, flag u.eng.txPend j = true → flag s.eng.txPend j = true ∨ flag s.mdm.txInt j = true) :
    ControllerMove s i (controller (resultTask u)) := by
  rcases controller_resultTask u with hkept | ⟨j, hnext, hsuccess, hrun⟩
  · rw [hkept, hctl]
    exact .kept i
  · rw [hrun, hrms, controller_updateImpedance_congr hcfg hctl]
    exact .successRead hi ((hcode j).symm.trans hsuccess) (hpend j (nextTxSlot_some hnext))

theorem controllerMove_poll (s : State) (v : BitVec 8) :
    ControllerMove s (.pollTxResult v) (controller (resultTask s)) :=
  controllerMove_resultTask (.inr ⟨v, rfl⟩) rfl rfl rfl (fun _ => rfl) fun _ => .inl

/-- A dispatch without an error: the flags are recorded, the receive task leaves the controller alone. -/
theorem controllerMove_dispatch (s : State) :
    ControllerMove s .irqDispatch (controller (runTasks (recordFlags (enterHandler s)))) := by
  rw [runTasks_eq_tasks]
  refine controllerMove_resultTask (.inl rfl) ?_ ?_ ?_ (fun j => ?_) fun j hj => ?_
  · rw [receiveTask_cfg]; rfl
  · rw [controller, receiveTask_imp, receiveTask_sel]; rfl
  · rw [receiveTask_rms]; rfl
  · simp [State.resultCode, resultReg_eq, recordFlags, enterHandler]
  · simpa [recordFlags, enterHandler] using hj

/-- A parameter write moves the outputs by the channel's identifier only (47_config.md R234). -/
theorem controllerMove_writeParam {id : BitVec 16} {k : ParamKey} (hk : paramOfId id = some k) (v : Nat) :
    ControllerMove s (.setConfigParam id v) (controller (writeParam s k v)) := by
  cases k with
  | channel =>
    obtain rfl : id = 0x0005 := BitVec.eq_of_toNat_eq (paramOfId_iff.1 hk)
    exact .channelChange (.inr ⟨v, rfl⟩) _
  | macCrcEnable | qualityReportMode | peakCutMode | defaultImpedance | sna | guardBefore | guardAfter
  | impedanceState | gain | driverFor | attChirp | attSignal | threshold | stat => exact .kept _

/-- Every effect of an agent's instruction moves the controller along one of the moves. -/
theorem Effect.controllerMove {i : Instr} {t : State} (ha : agentStep i = true) (h : Effect s i t) :
    ControllerMove s i (controller t) := by
  cases h with
  | submit => rw [submitted_eq]; exact .kept _
  | pollTxEmpty _ hu _ => rw [hu, pollTask_eq]; exact controllerMove_poll s _
  | pollTxOutcome _ hu _ => rw [pollTask_eq] at hu; subst hu; exact controllerMove_poll s _
  | setChannel => exact .channelChange (.inl ⟨_, rfl⟩) _
  | setConfigParam hk => exact controllerMove_writeParam hk _
  | hardReset => exact .hardReset _
  | txDone => rw [completeTransmission_eq]; exact .kept _
  | irqError => rw [errorPath_eq]; exact .kept _
  | irqTasks => exact controllerMove_dispatch s
  | rxTask | txResultTask | txResultRead | impUpdate | impReselect | updateSnaSeed | softReset => cases ha
  | same | unnamedSubmit | unnamedEncode | frameA | frameB | frameBC | submitBusy | pollRxMessage | pollRxDrop
  | pollRxNoise | setNetworkAddress | txStart | rxHeaderDone | rxPayloadDone | noiseDone | rxError | timeAdvance
  | timeoutExpire => exact .kept _

/-- IMP_UPDATE in the words of the controller's fields alone. -/
theorem exec_impUpdate_of_controller {t : State} (h : controller t = controller (updateImpedance s rms)) :
    exec (.impUpdate rms) s =
      .next (answered { s with eng := { s.eng with imp := t.eng.imp, sel := t.eng.sel } } .silent) := by
  obtain ⟨himp, hsel⟩ := Prod.mk.inj h
  rw [exec_impUpdate, updateImpedance_frame, himp, hsel]
  rfl

theorem exec_controllerMove {i : Instr} {t : State} (ha : agentStep i = true) (h : exec i s = .next t) :
    ControllerMove s i (controller t) := by
  obtain ⟨u, r, heffect, rfl⟩ := exec_effect h
  have hmove := heffect.controllerMove ha
  exact hmove

/-- Settles O38: each of the controller's moves is one of the clauses. -/
theorem controllerMovesOnlyAfterSuccess : Obligations.ControllerMovesOnlyAfterSuccess := by
  intro s t i ha hexec
  have hmove := exec_controllerMove ha hexec
  generalize hctl : controller t = x at hmove
  cases hmove with
  | kept => exact .inl (Prod.mk.inj hctl)
  | @successRead _ j hi hcode hflag =>
    exact .inr (.inl ⟨hi, j, (resultCode_eq_success_iff s j).1 hcode, hflag, exec_impUpdate_of_controller hctl⟩)
  | channelChange hi => exact .inr (.inr (.inl ⟨hi, (Prod.mk.inj hctl).1⟩))
  | hardReset => exact .inr (.inr (.inr rfl))

end Sys2Proof.Machine
end

section
/-! SUPPORT. The receive side keeps its order (46_dispatcher.md R215, R216, R220). The invariants speak of one slot at
a time and of the noise capture; so each operation is first said of the flags of one slot, and is then shown to keep
these in order. -/

namespace Sys2Proof.Machine

/-- What the modem and the engine hold of the reception into one slot. -/
structure RxFlags where
  isOpen : Bool
  intHdr : Bool
  intPay : Bool
  pendHdr : Bool
  pendPay : Bool
  hdrValid : Bool
  ready : Bool

def rxFlags (s : State) (j : SlotId) : RxFlags :=
  { isOpen := flag s.mdm.rxOpen j, intHdr := flag s.mdm.rxIntHdr j, intPay := flag s.mdm.rxIntPay j
    pendHdr := flag s.eng.rxPendHdr j, pendPay := flag s.eng.rxPendPay j
    hdrValid := (s.eng.rx.get j).hdrValid, ready := (s.eng.rx.get j).ready }

/-- What they hold of the noise capture. -/
structure NoiseFlags where
  int : Bool
  pend : Bool
  ready : Bool

def noiseFlags (s : State) : NoiseFlags := ⟨s.mdm.rxIntNoise, s.eng.rxPendNoise, s.eng.noiseReady⟩

namespace RxFlags

/-- The clauses of the receive invariants for one slot. -/
structure InOrder (x : RxFlags) : Prop where
  ready : x.ready = true → x.hdrValid = true ∧ x.pendPay = true
  recorded : x.pendPay = true → x.intPay = true ∧ (x.hdrValid = true ∨ x.pendHdr = true)
  header : x.intPay = true ∨ x.isOpen = true → x.intHdr = true ∨ x.pendHdr = true ∨ x.hdrValid = true
  closed : x.isOpen = true → x.intPay = false

/-! ## The operations on one slot -/

/-- RX_HEADER_DONE (46_dispatcher.md R215). -/
def opened (x : RxFlags) : RxFlags := { x with isOpen := true, intHdr := true }

/-- RX_PAYLOAD_DONE and RX_ERROR (R216, R218). -/
def finished (x : RxFlags) : RxFlags := { x with isOpen := false, intPay := true }

/-- The entry of a dispatch (R205). -/
def noted (x : RxFlags) : RxFlags :=
  { x with pendHdr := x.pendHdr || x.intHdr, pendPay := x.pendPay || x.intPay }

/-- The receive task (R208). -/
def served (x : RxFlags) : RxFlags :=
  { x with
    intHdr := x.intHdr && !x.pendHdr, pendHdr := false, hdrValid := x.hdrValid || x.pendHdr
    ready := x.ready || x.pendPay }

/-- The error path (R206). -/
def purged (x : RxFlags) : RxFlags := { x with intPay := x.intPay && x.pendPay }

/-- POLL_RX, for the slot it serves (R211, R213). -/
def consumed (x : RxFlags) : RxFlags :=
  { x with intPay := false, pendPay := false, hdrValid := false, ready := false }

/-- The resets (70_reset_and_hazards.md R278, R279). -/
def none : RxFlags := ⟨false, false, false, false, false, false, false⟩

namespace InOrder

variable {x : RxFlags}

/-- A header opens a reception only into a slot without a flagged payload. -/
theorem opened (h : x.InOrder) (hp : x.intPay = false) : x.opened.InOrder where
  ready := h.ready
  recorded := h.recorded
  header _ := .inl rfl
  closed _ := hp

/-- A payload has the header of the reception that it ends. -/
theorem finished (h : x.InOrder) (ho : x.isOpen = true) : x.finished.InOrder where
  ready := h.ready
  recorded hp := ⟨rfl, (h.recorded hp).2⟩
  header _ := h.header (.inr ho)
  closed := nofun

/-- A payload flag is recorded together with the header it came behind. -/
theorem noted (h : x.InOrder) : x.noted.InOrder where
  ready hr := ⟨(h.ready hr).1, by simp [RxFlags.noted, (h.ready hr).2]⟩
  recorded hp := by
    have hint : x.intPay = true := (Bool.or_eq_true_iff.1 hp).elim (fun hp => (h.recorded hp).1) id
    refine ⟨hint, ?_⟩
    rcases h.header (.inl hint) with hh | hh | hh
    · exact .inr (by simp [RxFlags.noted, hh])
    · exact .inr (by simp [RxFlags.noted, hh])
    · exact .inl hh
  header ho := (h.header ho).imp_right (Or.imp_left fun hh => by simp [RxFlags.noted, hh])
  closed := h.closed

/-- The task caches a recorded header before it makes the slot ready. -/
theorem served (h : x.InOrder) : x.served.InOrder where
  ready hr := by
    have hpend : x.pendPay = true := (Bool.or_eq_true_iff.1 hr).elim (fun hr => (h.ready hr).2) id
    exact ⟨Bool.or_eq_true_iff.2 (h.recorded hpend).2, hpend⟩
  recorded hp := ⟨(h.recorded hp).1, .inl (Bool.or_eq_true_iff.2 (h.recorded hp).2)⟩
  header ho := by
    have hheader := h.header ho
    cases hp : x.pendHdr with
    | true => exact .inr (.inr (by simp [RxFlags.served, hp]))
    | false => simpa [RxFlags.served, hp] using hheader
  closed := h.closed

/-- The error path keeps the payload flags that are recorded. -/
theorem purged (h : x.InOrder) : x.purged.InOrder where
  ready := h.ready
  recorded hp := ⟨Bool.and_eq_true_iff.2 ⟨(h.recorded hp).1, hp⟩, (h.recorded hp).2⟩
  header ho := h.header (ho.imp_left fun hp => (Bool.and_eq_true_iff.1 hp).1)
  closed ho := by simp [RxFlags.purged, h.closed ho]

/-- A ready slot is not being received into. -/
theorem consumed (h : x.InOrder) (hr : x.ready = true) : x.consumed.InOrder where
  ready := nofun
  recorded := nofun
  header ho := by
    have hclosed : x.intPay = false := h.closed (ho.resolve_left nofun)
    rw [(h.recorded (h.ready hr).2).1] at hclosed
    cases hclosed
  closed _ := rfl

theorem none : RxFlags.none.InOrder := ⟨nofun, nofun, nofun, nofun⟩

end InOrder

end RxFlags

/-- The clauses of the receive invariants for the noise capture. -/
structure NoiseFlags.InOrder (x : NoiseFlags) : Prop where
  ready : x.ready = true → x.pend = true
  recorded : x.pend = true → x.int = true

/-- The receive side is in order: every slot is, and the noise capture is. -/
structure ReceptionsInOrder (s : State) : Prop where
  slots : ∀ j, (rxFlags s j).InOrder
  noise : (noiseFlags s).InOrder

theorem receptionsInOrder_iff {s : State} : ReceptionsInOrder s ↔ ReceiveOk s ∧ ReceiveOrderOk s := by
  constructor
  · rintro ⟨hslots, hready, hrecorded⟩
    refine ⟨⟨fun j hr => ?_, fun j hp => ((hslots j).recorded hp).1, fun hr => hrecorded (hready hr)⟩,
      fun j => (hslots j).header, fun j => (hslots j).closed, fun j hp => ((hslots j).recorded hp).2, hready, hrecorded⟩
    obtain ⟨hvalid, hpend⟩ := (hslots j).ready hr
    exact ⟨hvalid, hpend, ((hslots j).recorded hpend).1⟩
  · rintro ⟨⟨hready, hrecorded, _⟩, hheader, hclosed, hbehind, hnready, hnrecorded⟩
    refine ⟨fun j => ⟨fun hr => ?_, fun hp => ⟨hrecorded j hp, hbehind j hp⟩, hheader j, hclosed j⟩, hnready,
      hnrecorded⟩
    obtain ⟨hvalid, hpend, _⟩ := hready j hr
    exact ⟨hvalid, hpend⟩

/-! ## The modem's events, as states -/

/-- What RX_HEADER_DONE writes (46_dispatcher.md R215). -/
def headerArrived (s : State) (i : SlotId) (m : FrameMode) (h : HeaderBytes) : State :=
  (headerStored s i h).withMdm
    { (headerStored s i h).mdm with
      rxMode := s.mdm.rxMode.set i m, rxOpen := setFlag s.mdm.rxOpen i
      rxIntHdr := setFlag s.mdm.rxIntHdr i, irqReq := true }

/-- What RX_PAYLOAD_DONE writes (R216). -/
def payloadArrived (s : State) (i : SlotId) (b : Bytes) (x : Nat) (q : Quality) : State :=
  (imageStored s .rxbulk i b).withMdm
    { (imageStored s .rxbulk i b).mdm with
      rxTime := s.mdm.rxTime.set i (wrapTime s.params x), rxQ := s.mdm.rxQ.set i q
      rxOpen := clearFlag s.mdm.rxOpen i, rxIntPay := setFlag s.mdm.rxIntPay i, irqReq := true }

/-- What NOISE_DONE writes (R217). -/
def noiseArrived (s : State) (b : Bytes) (x : Nat) : State :=
  (imageStored s .noisebuf .s0 b).withMdm
    { (imageStored s .noisebuf .s0 b).mdm with
      noiseTime := wrapTime s.params x, rxIntNoise := true, irqReq := true }

/-! ## The operations, seen from one slot -/

theorem rxFlags_headerArrived (s : State) (i : SlotId) (m : FrameMode) (h : HeaderBytes) (j : SlotId) :
    rxFlags (headerArrived s i m h) j = if j = i then (rxFlags s j).opened else rxFlags s j := by
  rw [headerArrived, headerStored_eq]
  by_cases hj : j = i
  · subst hj; simp [rxFlags, RxFlags.opened]
  · simp [rxFlags, hj, flag_setFlag_ne]

theorem rxFlags_payloadArrived (s : State) (i : SlotId) (b : Bytes) (x : Nat) (q : Quality) (j : SlotId) :
    rxFlags (payloadArrived s i b x q) j = if j = i then (rxFlags s j).finished else rxFlags s j := by
  rw [payloadArrived, imageStored_rxbulk]
  by_cases hj : j = i
  · subst hj; simp [rxFlags, RxFlags.finished]
  · simp [rxFlags, hj, flag_setFlag_ne, flag_clearFlag_ne]

theorem rxFlags_resultTask (s : State) : rxFlags (resultTask s) = rxFlags s :=
  (congrArg rxFlags (resultTask_frame s)).trans rfl

theorem noiseFlags_resultTask (s : State) : noiseFlags (resultTask s) = noiseFlags s :=
  (congrArg noiseFlags (resultTask_frame s)).trans rfl

theorem rxFlags_receiveTask (s : State) (j : SlotId) : rxFlags (receiveTask s) j = (rxFlags s j).served := by
  have hserved := (receiveTask_spec s).1 j
  simp only [rxFlags, RxFlags.served, receiveTask_rxOpen, receiveTask_rxIntPay, receiveTask_rxPendPay, hserved.ready,
    hserved.hdrValid, hserved.pendHdr, hserved.intHdr]

theorem rxFlags_recorded (s : State) (j : SlotId) :
    rxFlags (recordFlags (enterHandler s)) j = (rxFlags s j).noted := by
  simp [rxFlags, RxFlags.noted, recordFlags, enterHandler]

theorem rxFlags_errorPath (s : State) (j : SlotId) : rxFlags (errorPath s) j = (rxFlags s j).purged := by
  rw [errorPath_eq]
  cases hp : flag s.eng.rxPendPay j <;> simp [rxFlags, RxFlags.purged, flag_newPayloadFlags, hp]

theorem rxFlags_consumeRx (s : State) (i j : SlotId) :
    rxFlags (consumeRx s i) j = if j = i then (rxFlags s j).consumed else rxFlags s j := by
  rw [consumeRx_eq]
  by_cases hj : j = i
  · subst hj; simp [rxFlags, RxFlags.consumed]
  · simp [rxFlags, hj, PerSlot.get_set_ne, flag_clearFlag_ne]

theorem rxFlags_softReset (s : State) (j : SlotId) : rxFlags (softReset s) j = .none := by
  simp [softReset_eq, rxFlags, RxFlags.none, reinitMdm, resetRx]

theorem rxFlags_hardReset (s : State) (j : SlotId) : rxFlags (hardReset s) j = .none := by
  simp [hardReset_eq, rxFlags, RxFlags.none, reinitMdm, resetRx]

theorem rxFlags_failReception (s : State) (i j : SlotId) :
    rxFlags (failReception s i) j = if j = i then (rxFlags s j).finished else rxFlags s j := by
  rw [failReception_eq]
  by_cases hj : j = i
  · subst hj; simp [rxFlags, RxFlags.finished]
  · simp [rxFlags, hj, flag_setFlag_ne, flag_clearFlag_ne]

/-! ## Every step -/

namespace ReceptionsInOrder

variable {s t : State}

theorem of_flags (h : ReceptionsInOrder s) (hs : rxFlags t = rxFlags s) (hn : noiseFlags t = noiseFlags s) :
    ReceptionsInOrder t := by
  obtain ⟨hslots, hnoise⟩ := h
  rw [← hs] at hslots
  rw [← hn] at hnoise
  exact ⟨hslots, hnoise⟩

/-- Every slot is put through an operation, the noise capture stays in order. -/
theorem of_slots (h : ReceptionsInOrder s) {f : RxFlags → RxFlags} (hs : ∀ j, rxFlags t j = f (rxFlags s j))
    (hf : ∀ x, x.InOrder → (f x).InOrder) (hn : (noiseFlags t).InOrder) : ReceptionsInOrder t :=
  ⟨fun j => hs j ▸ hf _ (h.slots j), hn⟩

/-- One slot is put through an operation, the others and the noise capture stay. -/
theorem of_slot (h : ReceptionsInOrder s) {i : SlotId} {f : RxFlags → RxFlags}
    (hs : ∀ j, rxFlags t j = if j = i then f (rxFlags s j) else rxFlags s j) (hf : (f (rxFlags s i)).InOrder)
    (hn : noiseFlags t = noiseFlags s) : ReceptionsInOrder t := by
  refine ⟨fun j => ?_, hn ▸ h.noise⟩
  rw [hs]
  split
  · next hj => rw [hj]; exact hf
  · exact h.slots j

theorem resultTask (h : ReceptionsInOrder s) : ReceptionsInOrder (resultTask s) :=
  h.of_flags (rxFlags_resultTask s) (noiseFlags_resultTask s)

theorem receiveTask (h : ReceptionsInOrder s) : ReceptionsInOrder (receiveTask s) := by
  obtain ⟨_, hready, _⟩ := receiveTask_spec s
  refine h.of_slots (rxFlags_receiveTask s) (fun _ => .served) ⟨fun hr => ?_, fun hp => ?_⟩
  · have hnoise : (s.eng.noiseReady || s.eng.rxPendNoise) = true := hready.symm.trans hr
    exact (receiveTask_rxPendNoise s).trans ((Bool.or_eq_true_iff.1 hnoise).elim h.noise.ready id)
  · exact (receiveTask_rxIntNoise s).trans (h.noise.recorded ((receiveTask_rxPendNoise s).symm.trans hp))

theorem recordFlags (h : ReceptionsInOrder s) : ReceptionsInOrder (recordFlags (enterHandler s)) :=
  h.of_slots (rxFlags_recorded s) (fun _ => .noted)
    ⟨fun hr => Bool.or_eq_true_iff.2 (.inl (h.noise.ready hr)),
      fun hp => (Bool.or_eq_true_iff.1 hp).elim h.noise.recorded id⟩

theorem errorPath (h : ReceptionsInOrder s) : ReceptionsInOrder (errorPath s) :=
  h.of_slots (rxFlags_errorPath s) (fun _ => .purged) (by rw [errorPath_eq]; exact h.noise)

theorem consumeRx (h : ReceptionsInOrder s) {i : SlotId} (hr : (s.eng.rx.get i).ready = true) :
    ReceptionsInOrder (consumeRx s i) := h.of_slot (rxFlags_consumeRx s i) ((h.slots i).consumed hr) rfl

theorem softReset (s : State) : ReceptionsInOrder (softReset s) :=
  ⟨fun j => rxFlags_softReset s j ▸ .none, nofun, nofun⟩

theorem hardReset (s : State) : ReceptionsInOrder (hardReset s) :=
  ⟨fun j => rxFlags_hardReset s j ▸ .none, nofun, nofun⟩

end ReceptionsInOrder

theorem Effect.receptionsInOrder {s t : State} {i : Instr} (he : Effect s i t) (h : ReceptionsInOrder s) :
    ReceptionsInOrder t := by
  cases he with
  | submit => rw [submitted_eq]; exact h.of_flags rfl rfl
  | pollTxEmpty _ hu _ => rw [hu, pollTask_eq]; exact h.resultTask
  | pollTxOutcome _ hu _ => rw [hu, pollTask_eq]; exact h.resultTask.of_flags rfl rfl
  | pollRxMessage hr => exact h.consumeRx hr
  | pollRxDrop hr => exact (h.consumeRx hr).of_flags rfl rfl
  | pollRxNoise => exact ⟨h.slots, nofun, nofun⟩
  | setConfigParam => rw [writeParam_frame]; exact h.of_flags rfl rfl
  | hardReset => exact .hardReset s
  | txDone => rw [completeTransmission_eq]; exact h.of_flags rfl rfl
  | rxHeaderDone _ _ hp => exact h.of_slot (rxFlags_headerArrived s _ _ _) ((h.slots _).opened hp) rfl
  | rxPayloadDone ho => exact h.of_slot (rxFlags_payloadArrived s _ _ _ _) ((h.slots _).finished ho) rfl
  | noiseDone => exact ⟨h.slots, h.noise.ready, fun _ => rfl⟩
  | rxError ho => exact h.of_slot (rxFlags_failReception s _) ((h.slots _).finished ho) rfl
  | timeoutExpire => exact .softReset _
  | irqError => exact (h.of_flags (t := enterHandler s) rfl rfl).errorPath
  | irqTasks => rw [runTasks_eq_tasks]; exact h.recordFlags.receiveTask.resultTask
  | rxTask => exact h.receiveTask
  | txResultTask => exact h.resultTask
  | txResultRead => rw [readResult_eq]; exact h.of_flags rfl rfl
  | impUpdate => rw [updateImpedance_frame]; exact h.of_flags rfl rfl
  | softReset => exact .softReset s
  | same | unnamedSubmit | unnamedEncode | frameA | frameB | frameBC | submitBusy | setChannel | setNetworkAddress
  | txStart | timeAdvance | impReselect | updateSnaSeed => exact h.of_flags rfl rfl

/-- Settles O48: a step takes an item off the agenda, has the effect of an instruction, and answers; none of these puts
a slot or the noise capture out of order. -/
theorem stepsKeepTheReceiveInvariants : Obligations.StepsKeepTheReceiveInvariants := by
  intro s t hr ho hstep
  obtain ⟨_, rest, _, u, r, _, _, _, he, rfl⟩ := step_effect hstep
  have horder : ReceptionsInOrder s := receptionsInOrder_iff.2 ⟨hr, ho⟩
  have htaken : ReceptionsInOrder (s.withAgenda rest) := horder.of_flags rfl rfl
  exact receptionsInOrder_iff.1 ((he.receptionsInOrder htaken).of_flags rfl rfl)

end Sys2Proof.Machine
end

section
/-! SUPPORT. A dispatch is asked for while a flag is unrecorded, and no source stays masked (46_dispatcher.md R205 to
R207; 60_exceptions.md R251). A step keeps the request in one of three ways: it leaves no flag unrecorded that was
recorded, it asks for a dispatch, or it leaves no flag unrecorded at all. -/

namespace Sys2Proof.Machine

theorem flag_of_flag_clearFlag {b : SlotBits} {i j : SlotId} (h : flag (clearFlag b i) j = true) : flag b j = true := by
  rw [flag_clearFlag, Bool.and_eq_true] at h
  exact h.2

/-! ## What is unrecorded after an operation -/

/-- What the error path asks for: a flag of another kind than a payload flag is not recorded (46_dispatcher.md R206). -/
theorem unrecordedFlags_iff {s : State} : unrecordedFlags s = true ↔
    (∃ i, flag s.mdm.txInt i = true ∧ flag s.eng.txPend i = false) ∨ (∃ i, flag s.mdm.rxIntHdr i = true) ∨
      (s.mdm.rxIntNoise = true ∧ s.eng.rxPendNoise = false) := by
  simp only [unrecordedFlags, Bool.or_eq_true, decide_eq_true_eq, bits_ne_zero, flag_and, flag_not, Bool.and_eq_true,
    Bool.not_eq_true', or_assoc]

/-- The error path leaves no payload flag unrecorded, so what it asks for is all that is unrecorded (R206). -/
theorem unrecordedFlags_of_errorPath {s : State} (h : Unrecorded (errorPath s)) : unrecordedFlags s = true := by
  rw [errorPath_eq] at h
  rw [unrecordedFlags_iff]
  rcases h with htx | ⟨j, hi, _⟩ | ⟨j, hi, hp⟩ | hnoise | herr
  · exact .inl htx
  · exact .inr (.inl ⟨j, hi⟩)
  · have hpend : flag s.eng.rxPendPay j = false := hp
    simp [flag_newPayloadFlags, hpend] at hi
  · exact .inr (.inr hnoise)
  · cases herr

/-- The result task takes a completion flag down together with its pending bit (44_tx_scheduler.md R176, R178). -/
theorem unrecorded_of_resultTask {s : State} (h : Unrecorded (resultTask s)) : Unrecorded s := by
  rcases h with ⟨j, hi, hp⟩ | hrx
  · have hview := txView_resultTask s j
    have hint := (congrArg TxView.int hview).symm.trans hi
    have hpend := (congrArg TxView.pend hview).symm.trans hp
    split at hint
    · cases hint
    · next hn => rw [if_neg hn] at hpend; exact .inl ⟨j, hint, hpend⟩
  · simp only [resultTask_rxIntHdr, resultTask_rxPendHdr, resultTask_rxIntPay, resultTask_rxPendPay,
      resultTask_rxIntNoise, resultTask_rxPendNoise, resultTask_err] at hrx
    exact .inr hrx

theorem unrecorded_of_readResult {s : State} {i : SlotId} (h : Unrecorded (readResult s i)) : Unrecorded s := by
  rw [readResult_eq] at h
  rcases h with ⟨j, hi, hp⟩ | hrx
  · exact .inl ⟨j, flag_of_flag_clearFlag hi, hp⟩
  · exact .inr hrx

/-- The receive task takes down the header flags that are recorded, with their pending bits (46_dispatcher.md R208). -/
theorem unrecorded_of_receiveTask {s : State} (h : Unrecorded (receiveTask s)) : Unrecorded s := by
  simp only [Unrecorded, receiveTask_txInt, receiveTask_txPend, receiveTask_rxIntPay, receiveTask_rxPendPay,
    receiveTask_rxIntNoise, receiveTask_rxPendNoise, receiveTask_err] at h
  rcases h with htx | ⟨j, hi, _⟩ | hrest
  · exact .inl htx
  · rw [((receiveTask_spec s).1 j).intHdr, Bool.and_eq_true, Bool.not_eq_true'] at hi
    exact .inr (.inl ⟨j, hi⟩)
  · exact .inr (.inr hrest)

/-- POLL_RX takes a payload flag down together with its pending bit (R211, R213). -/
theorem unrecorded_of_consumeRx {s : State} {i : SlotId} (h : Unrecorded (consumeRx s i)) : Unrecorded s := by
  rw [consumeRx_eq] at h
  rcases h with htx | hhdr | ⟨j, hi, hp⟩ | hrest
  · exact .inl htx
  · exact .inr (.inl hhdr)
  · have hi : flag (clearFlag s.mdm.rxIntPay i) j = true := hi
    have hp : flag (clearFlag s.eng.rxPendPay i) j = false := hp
    have hj : j ≠ i := by rintro rfl; simp at hi
    rw [flag_clearFlag_ne _ hj] at hi hp
    exact .inr (.inr (.inl ⟨j, hi, hp⟩))
  · exact .inr (.inr (.inr hrest))

theorem unrecorded_of_consumeNoise {s : State} (h : Unrecorded (consumeNoise s)) : Unrecorded s := by
  rcases h with htx | hhdr | hpay | ⟨hi, _⟩ | herr
  · exact .inl htx
  · exact .inr (.inl hhdr)
  · exact .inr (.inr (.inl hpay))
  · cases hi
  · exact .inr (.inr (.inr (.inr herr)))

/-- With no flag set none is unrecorded. -/
theorem not_unrecorded_of_cleared {s : State} (htx : s.mdm.txInt = 0) (hhdr : s.mdm.rxIntHdr = 0)
    (hpay : s.mdm.rxIntPay = 0) (hnoise : s.mdm.rxIntNoise = false) (herr : s.mdm.err = false) : ¬Unrecorded s := by
  simp [Unrecorded, htx, hhdr, hpay, hnoise, herr]

/-! ## The masks -/

namespace MasksClear

variable {s t : State}

theorem resultTask (h : MasksClear s) : MasksClear (resultTask s) :=
  resultTask_keeps (P := MasksClear) (fun s i h => by rw [readResult_eq]; exact ⟨rfl, h.2⟩) s h

theorem receiveTask (h : MasksClear s) : MasksClear (receiveTask s) := by
  obtain ⟨htx, hrx⟩ := h
  obtain ⟨_, _, _, hmask⟩ := receiveTask_spec s
  exact ⟨(receiveTask_maskTx s).trans htx, hmask.elim (·.trans hrx) id⟩

end MasksClear

/-! ## Every step -/

/-- What the statement says of a state: the masks are clear, and the request is up where one is due. -/
structure DispatchDue (s : State) : Prop where
  masks : MasksClear s
  request : RequestOk s

namespace DispatchDue

variable {s t : State}

/-- The fields that the request and the masks depend on. -/
def view (s : State) :=
  (s.mdm.txInt, s.eng.txPend, s.mdm.rxIntHdr, s.eng.rxPendHdr, s.mdm.rxIntPay, s.eng.rxPendPay, s.mdm.rxIntNoise,
    s.eng.rxPendNoise, s.mdm.err, s.mdm.irqReq, s.mdm.maskTx, s.mdm.maskRx)

theorem of_view (h : DispatchDue s) (e : view t = view s) : DispatchDue t := by
  simp only [view, Prod.mk.injEq] at e
  obtain ⟨hti, htp, hhi, hhp, hpi, hpp, hni, hnp, he, hr, hmt, hmr⟩ := e
  obtain ⟨hmasks, hreq⟩ := h
  refine ⟨?_, ?_⟩
  · rw [MasksClear, hmt, hmr]; exact hmasks
  · rw [RequestOk, Unrecorded, hti, htp, hhi, hhp, hpi, hpp, hni, hnp, he, hr]; exact hreq

/-- A step that records or clears flags need not ask. -/
theorem of_unrecorded (h : DispatchDue s) (hm : MasksClear t) (hu : Unrecorded t → Unrecorded s)
    (hr : t.mdm.irqReq = s.mdm.irqReq) : DispatchDue t := ⟨hm, fun ht => hr.trans (h.request (hu ht))⟩

theorem of_request (hm : MasksClear t) (hr : t.mdm.irqReq = true) : DispatchDue t := ⟨hm, fun _ => hr⟩

theorem of_recorded (hm : MasksClear t) (hu : ¬Unrecorded t) : DispatchDue t := ⟨hm, fun ht => absurd ht hu⟩

theorem resultTask (h : DispatchDue s) : DispatchDue (resultTask s) :=
  h.of_unrecorded h.masks.resultTask unrecorded_of_resultTask
    ((congrArg (·.mdm.irqReq) (resultTask_frame s)).trans rfl)

theorem consumeRx (h : DispatchDue s) (i : SlotId) : DispatchDue (consumeRx s i) :=
  h.of_unrecorded ⟨h.masks.1, rfl⟩ unrecorded_of_consumeRx rfl

theorem errorPath (h : MasksClear s) : DispatchDue (errorPath s) := by
  refine ⟨?_, fun hu => ?_⟩
  · rw [errorPath_eq]; exact ⟨h.1, rfl⟩
  · have hask := unrecordedFlags_of_errorPath hu
    rw [errorPath_eq]
    exact Bool.or_eq_true_iff.2 (.inl hask)

theorem softReset (s : State) : DispatchDue (softReset s) :=
  of_recorded ⟨rfl, rfl⟩ (not_unrecorded_of_cleared rfl rfl rfl rfl rfl)

theorem hardReset (s : State) : DispatchDue (hardReset s) :=
  of_recorded ⟨rfl, rfl⟩ (not_unrecorded_of_cleared rfl rfl rfl rfl rfl)

end DispatchDue

theorem Effect.dispatchDue {s t : State} {i : Instr} (he : Effect s i t) (h : DispatchDue s) : DispatchDue t := by
  cases he with
  | submit => rw [submitted_eq]; exact h.of_view rfl
  | pollTxEmpty _ hu _ => rw [hu, pollTask_eq]; exact h.resultTask
  | pollTxOutcome _ hu _ => rw [hu, pollTask_eq]; exact h.resultTask.of_view rfl
  | pollRxMessage => exact h.consumeRx _
  | pollRxDrop => exact (h.consumeRx _).of_view rfl
  | pollRxNoise => exact h.of_unrecorded ⟨h.masks.1, rfl⟩ unrecorded_of_consumeNoise rfl
  | setConfigParam => rw [writeParam_frame]; exact h.of_view rfl
  | hardReset => exact .hardReset s
  | txDone => rw [completeTransmission_eq]; exact .of_request h.masks rfl
  | rxHeaderDone | rxPayloadDone | noiseDone | rxError => exact .of_request h.masks rfl
  | timeoutExpire => exact .softReset _
  | irqError => exact .errorPath (s := enterHandler s) h.masks
  | irqTasks _ _ herr =>
    have hmasks : MasksClear (recordFlags (enterHandler s)) := h.masks
    refine .of_recorded ?_ (not_unrecorded_dispatch herr)
    rw [runTasks_eq_tasks]
    exact hmasks.receiveTask.resultTask
  | rxTask => exact h.of_unrecorded h.masks.receiveTask unrecorded_of_receiveTask (receiveTask_irqReq s)
  | txResultTask => exact h.resultTask
  | txResultRead =>
    refine h.of_unrecorded ?_ unrecorded_of_readResult ?_
    · rw [readResult_eq]; exact ⟨rfl, h.masks.2⟩
    · rw [readResult_eq]
  | impUpdate => rw [updateImpedance_frame]; exact h.of_view rfl
  | softReset => exact .softReset s
  | same | unnamedSubmit | unnamedEncode | frameA | frameB | frameBC | submitBusy | setChannel | setNetworkAddress
  | txStart | timeAdvance | impReselect | updateSnaSeed => exact h.of_view rfl

/-- Settles O42: a step takes an item off the agenda, has the effect of an instruction, and answers; every effect keeps
the masks clear and the request up. -/
theorem unrecordedFlagsRequestADispatch : Obligations.UnrecordedFlagsRequestADispatch := by
  intro s t hm hr hstep
  obtain ⟨_, rest, _, u, r, _, _, _, he, rfl⟩ := step_effect hstep
  have hdue : DispatchDue s := ⟨hm, hr⟩
  have htaken : DispatchDue (s.withAgenda rest) := hdue.of_view rfl
  obtain ⟨hmasks, hrequest⟩ := (he.dispatchDue htaken).of_view (t := answered u r) rfl
  exact ⟨hmasks, hrequest⟩

end Sys2Proof.Machine
end

section
/-! SUPPORT. What was received stays while its payload is flagged (46_dispatcher.md R210): a slot's bulk region, time
and metrics are written by the end of a reception into it, which waits until its payload flag is clear, and by the resets,
which clear the flag. -/

namespace Sys2Proof.Machine

/-- What was received in slot `j` is in `t` as it is in `s`. -/
structure ReceivedSame (s t : State) (j : SlotId) : Prop where
  bulk : t.mdm.rxbulk.get j = s.mdm.rxbulk.get j
  time : t.mdm.rxTime.get j = s.mdm.rxTime.get j
  quality : t.mdm.rxQ.get j = s.mdm.rxQ.get j

/-- What was received, in all slots. -/
def receivedView (s : State) := (s.mdm.rxbulk, s.mdm.rxTime, s.mdm.rxQ)

theorem ReceivedSame.of_view {s t : State} {j : SlotId} (e : receivedView t = receivedView s) : ReceivedSame s t j := by
  simp only [receivedView, Prod.mk.injEq] at e
  obtain ⟨hb, ht, hq⟩ := e
  exact ⟨by rw [hb], by rw [ht], by rw [hq]⟩

theorem receivedView_resultTask (s : State) : receivedView (resultTask s) = receivedView s :=
  (congrArg receivedView (resultTask_frame s)).trans rfl

theorem receivedView_receiveTask (s : State) : receivedView (receiveTask s) = receivedView s := by simp [receivedView]

theorem receivedSame_payloadArrived (s : State) {i j : SlotId} (hj : j ≠ i) (b : Bytes) (x : Nat) (q : Quality) :
    ReceivedSame s (payloadArrived s i b x q) j := by
  rw [payloadArrived, imageStored_rxbulk]
  exact ⟨PerSlot.get_set_ne _ _ hj, PerSlot.get_set_ne _ _ hj, PerSlot.get_set_ne _ _ hj⟩

theorem receivedSame_failReception (s : State) {i j : SlotId} (hj : j ≠ i) : ReceivedSame s (failReception s i) j := by
  rw [failReception_eq]
  exact ⟨PerSlot.get_set_ne _ _ hj, PerSlot.get_set_ne _ _ hj, PerSlot.get_set_ne _ _ hj⟩

theorem ne_of_flags {b : SlotBits} {i j : SlotId} (hj : flag b j = true) (hi : flag b i = false) : j ≠ i := by
  rintro rfl
  rw [hj] at hi
  cases hi

/-- No payload is flagged after a reset (70_reset_and_hazards.md R279). -/
theorem not_flag_of_reset {m : Mdm} {j : SlotId} (hm : m.rxIntPay = 0) : ¬flag m.rxIntPay j = true := by
  rw [bits_eq_zero.1 hm j]; nofun

theorem Effect.receivedSame {s t : State} {i : Instr} {j : SlotId} (he : Effect s i t)
    (hs : flag s.mdm.rxIntPay j = true) (ht : flag t.mdm.rxIntPay j = true) : ReceivedSame s t j := by
  cases he with
  | submit => rw [submitted_eq]; exact .of_view rfl
  | pollTxEmpty _ hu _ => rw [hu, pollTask_eq]; exact .of_view (receivedView_resultTask s)
  | pollTxOutcome _ hu _ => rw [hu, pollTask_eq]; exact .of_view (receivedView_resultTask s)
  | setConfigParam => rw [writeParam_frame]; exact .of_view rfl
  | txDone => rw [completeTransmission_eq]; exact .of_view rfl
  | rxPayloadDone _ hp => exact receivedSame_payloadArrived s (ne_of_flags hs hp) _ _ _
  | rxError _ hp => exact receivedSame_failReception s (ne_of_flags hs hp)
  | irqError => rw [errorPath_eq]; exact .of_view rfl
  | irqTasks =>
    rw [runTasks_eq_tasks]
    exact .of_view ((receivedView_resultTask _).trans (receivedView_receiveTask _))
  | rxTask => exact .of_view (receivedView_receiveTask s)
  | txResultTask => exact .of_view (receivedView_resultTask s)
  | txResultRead => rw [readResult_eq]; exact .of_view rfl
  | impUpdate => rw [updateImpedance_frame]; exact .of_view rfl
  | hardReset | softReset | timeoutExpire => exact absurd ht (not_flag_of_reset rfl)
  | same | unnamedSubmit | unnamedEncode | frameA | frameB | frameBC | submitBusy | pollRxMessage | pollRxDrop
  | pollRxNoise | setChannel | setNetworkAddress | txStart | rxHeaderDone | noiseDone | timeAdvance | impReselect
  | updateSnaSeed => exact .of_view rfl

/-- Settles O49: effect by effect, with the payload flag telling the slot from the one a reception ends in. -/
theorem receivedDataIsKeptWhileFlagged : Obligations.ReceivedDataIsKeptWhileFlagged := by
  intro s t i j hexec hs ht
  obtain ⟨u, r, he, rfl⟩ := exec_effect hexec
  obtain ⟨hbulk, htime, hquality⟩ := he.receivedSame hs ht
  exact ⟨hbulk, htime, hquality⟩

end Sys2Proof.Machine
end

section
/-! SUPPORT. IRQ_DISPATCH and RX_TASK as the statements write them (46_dispatcher.md R205, R206, R208; 60_exceptions.md
R252 to R255). -/

namespace Sys2Proof.Machine

variable {s : State}

/-! ## IRQ_DISPATCH -/

theorem dispatchEnabled_iff :
    dispatchEnabled s = true ↔ s.mdm.irqReq = true ∧ s.mdm.maskTx = false ∧ s.mdm.maskRx = false := by
  simp [dispatchEnabled, and_assoc]

/-- A dispatch is its enabling condition, and then entry, body and return (R252, R254, R255). -/
theorem exec_irqDispatch (s : State) :
    exec .irqDispatch s =
      whenEnabled (dispatchEnabled s) (.next (answered (dispatchBody (enterHandler s)) .silent)) := rfl

theorem exec_irqDispatch_tasks (hr : s.mdm.irqReq = true) (hmt : s.mdm.maskTx = false) (hmr : s.mdm.maskRx = false)
    (he : s.mdm.err = false) :
    exec .irqDispatch s = .next (answered (resultTask (receiveTask (recordFlags (enterHandler s)))) .silent) := by
  have hbody : dispatchBody (enterHandler s) = runTasks (recordFlags (enterHandler s)) := by
    rw [dispatchBody_eq]; exact if_neg (by rw [show (enterHandler s).mdm.err = false from he]; nofun)
  rw [exec_irqDispatch, dispatchEnabled_iff.2 ⟨hr, hmt, hmr⟩, whenEnabled_true, hbody, runTasks_eq_tasks]

theorem exec_irqDispatch_error (hr : s.mdm.irqReq = true) (hmt : s.mdm.maskTx = false) (hmr : s.mdm.maskRx = false)
    (he : s.mdm.err = true) :
    exec .irqDispatch s = .next (answered (errorPath (enterHandler s)) .silent) := by
  have hbody : dispatchBody (enterHandler s) = errorPath (enterHandler s) := by
    rw [dispatchBody_eq]; exact if_pos he
  rw [exec_irqDispatch, dispatchEnabled_iff.2 ⟨hr, hmt, hmr⟩, whenEnabled_true, hbody]

theorem rxPending_iff :
    rxPending s = true ↔ s.eng.rxPendHdr ≠ 0 ∨ s.eng.rxPendPay ≠ 0 ∨ s.eng.rxPendNoise = true := by
  simp [rxPending, or_assoc]

theorem exec_rxTask (s : State) : exec .rxTask s = .next (answered (receiveTask s) .silent) := rfl

/-- What the statement calls the run of the receive task, if anything of its kind is pending, is `receiveTask`. -/
theorem receiveTask_run (s : State) :
    if s.eng.rxPendHdr ≠ 0 ∨ s.eng.rxPendPay ≠ 0 ∨ s.eng.rxPendNoise = true then
      exec .rxTask s = .next (answered (receiveTask s) .silent)
    else receiveTask s = s := by
  split
  · exact exec_rxTask s
  · next h =>
    rw [← rxPending_iff, Bool.not_eq_true] at h
    exact receiveTask_of_not_pending h

/-- Settles O39: both tasks run on the recorded flags, and a task with nothing pending does nothing. -/
theorem dispatchRecordsAndServes : Obligations.DispatchRecordsAndServes := by
  refine ⟨fun s hr hmt hmr he => ⟨recordFlags (enterHandler s), receiveTask (recordFlags (enterHandler s)),
    resultTask (receiveTask (recordFlags (enterHandler s))), rfl, receiveTask_run _, ?_,
    exec_irqDispatch_tasks hr hmt hmr he⟩, fun s hoff => ?_⟩
  · rw [← receiveTask_txPend]
    have hrun := resultTask_run (receiveTask (recordFlags (enterHandler s)))
    rwa [ite_not]
  · have hdis : dispatchEnabled s = false := by rwa [← Bool.not_eq_true, dispatchEnabled_iff]
    rw [exec_irqDispatch, hdis, whenEnabled_false]

/-- Settles O40: the error path, with the flags it clears and counts read off one slot at a time. -/
theorem errorPathDropsNewPayloads : Obligations.ErrorPathDropsNewPayloads := by
  intro s hr hmt hmr he
  refine ⟨s.mdm.rxIntPay &&& ~~~newPayloadFlags s, unrecordedFlags s, ?_, fun i => ?_, unrecordedFlags_iff⟩
  · have hcount : popcount (newPayloadFlags (enterHandler s)) =
        allSlots.countP fun i => flag s.mdm.rxIntPay i && !flag s.eng.rxPendPay i := by
      rw [popcount_eq_countP, funext (flag_newPayloadFlags _)]
      rfl
    have hask : (unrecordedFlags (enterHandler s) || (enterHandler s).mdm.irqReq) = unrecordedFlags s :=
      Bool.or_false _
    rw [exec_irqDispatch_error hr hmt hmr he, errorPath_eq, hcount, hask, ← hmr]
    rfl
  · simp only [flag_and, flag_not, flag_newPayloadFlags]
    cases flag s.mdm.rxIntPay i <;> simp

/-! ## RX_TASK -/

/-- What the receive task writes, with its pending bits and its mask written out (R208). -/
theorem receiveTask_eq (hm : s.mdm.maskRx = false) :
    receiveTask s = { s with
      eng := { s.eng with
        rx := (receiveTask s).eng.rx, rxPendHdr := 0, noiseReady := s.eng.noiseReady || s.eng.rxPendNoise }
      mdm := { s.mdm with rxIntHdr := (receiveTask s).mdm.rxIntHdr, rxhdr := (receiveTask s).mdm.rxhdr }
      free := (receiveTask s).free } := by
  obtain ⟨hserved, hready, hsame, hmask⟩ := receiveTask_spec s
  have hpend : (receiveTask s).eng.rxPendHdr = 0 := bits_eq_zero.2 fun i => (hserved i).pendHdr
  have hmask : (receiveTask s).mdm.maskRx = s.mdm.maskRx := hmask.elim id (·.trans hm.symm)
  rw [hpend, hready, hmask] at hsame
  exact hsame

/-- Settles O41: the task serves each slot, and the rest of the state stays. -/
theorem rxTaskServesEverySlot : Obligations.RxTaskServesEverySlot := by
  intro s hm
  refine ⟨_, _, _, _, _, rfl, (exec_rxTask s).trans (congrArg _ (congrArg (answered · _) (receiveTask_eq hm))), ?_⟩
  intro i
  have hserved := (receiveTask_spec s).1 i
  rw [← receiveTask_eq hm]
  refine ⟨hserved.ready, fun hp => ?_, fun hp => ?_⟩
  · obtain ⟨hvalid, hmode, hbytes⟩ := hserved.headerDelivered hp
    exact ⟨hvalid, hmode, by rw [hserved.intHdr, hp, Bool.not_true, Bool.and_false], hbytes⟩
  · refine ⟨?_, ?_, ?_, ?_, hserved.headerKept hp⟩
    · rw [hserved.hdrValid, hp, Bool.or_false]
    · rw [hserved.mode, hp]; rfl
    · rw [hserved.cache, hp]; rfl
    · rw [hserved.intHdr, hp, Bool.not_false, Bool.and_true]

end Sys2Proof.Machine
end

section
/-! SUPPORT. The modem's receive events (46_dispatcher.md R215 to R218): each is its enabling condition and the state
that it writes, with the bytes it stores read back. -/

namespace Sys2Proof.Machine

variable {s t u : State} {i : SlotId}

/-! ## Bytes of a stored image -/

/-- What changes no byte but those of one region may be followed by what changes no region. -/
theorem OtherBytesSame.of_regions {sp : Space} (h : OtherBytesSame s u sp i)
    (hr : ∀ sp' j, t.region sp' j = u.region sp' j) : OtherBytesSame s t sp i :=
  fun sp' j o hne => (byteAt_congr (hr sp' j) o).trans (h sp' j o hne)

theorem byteAt_imageStored_of_getElem? {sp : Space} {bs : Bytes} {o : Nat} {b : Byte} (h : bs[o]? = some b) :
    (imageStored s sp i bs).byteAt sp i o = b := by
  obtain ⟨ho, rfl⟩ := List.getElem?_eq_some_iff.1 h
  exact byteAt_imageStored s sp i bs o ho

/-- The bytes of a stored image, read at its offset, are the image. -/
theorem bytesAt_imageStored (s : State) (sp : Space) (i : SlotId) (bs : Bytes) :
    (imageStored s sp i bs).bytesAt sp i 0 bs.length = bs := by
  apply List.ext_getElem?
  intro k
  rw [getElem?_bytesAt, Nat.zero_add]
  by_cases hk : k < bs.length
  · rw [if_pos hk, byteAt_imageStored s sp i bs k hk, List.getElem?_eq_getElem hk]
  · rw [if_neg hk, List.getElem?_eq_none (by omega)]

/-! ## RX_HEADER_DONE -/

/-- The enabling condition of RX_HEADER_DONE (R215). -/
def headerEnabled (s : State) (i : SlotId) : Bool :=
  !flag s.mdm.rxOpen i && !flag s.mdm.rxIntHdr i && !flag s.mdm.rxIntPay i

theorem headerEnabled_iff : headerEnabled s i = true ↔
    flag s.mdm.rxOpen i = false ∧ flag s.mdm.rxIntHdr i = false ∧ flag s.mdm.rxIntPay i = false := by
  simp [headerEnabled, and_assoc]

theorem exec_rxHeaderDone (s : State) (i : SlotId) (m : FrameMode) (h : HeaderBytes) :
    exec (.rxHeaderDone i m h) s =
      whenEnabled (headerEnabled s i) (.next (answered (headerArrived s i m h) .silent)) := by
  change execRxHeaderDone i m h s = _
  rw [execRxHeaderDone, memWrite_header]
  rfl

theorem headerArrived_eq (s : State) (i : SlotId) (m : FrameMode) (h : HeaderBytes) :
    headerArrived s i m h = { s with mdm := { s.mdm with
      rxhdr := s.mdm.rxhdr.set i ((s.mdm.rxhdr.get i).store 0 h.toBytes), rxMode := s.mdm.rxMode.set i m
      rxOpen := setFlag s.mdm.rxOpen i, rxIntHdr := setFlag s.mdm.rxIntHdr i, irqReq := true } } := rfl

theorem region_headerArrived (s : State) (i : SlotId) (m : FrameMode) (h : HeaderBytes) (sp : Space) (j : SlotId) :
    (headerArrived s i m h).region sp j = (headerStored s i h).region sp j := by cases sp <;> rfl

/-- Settles O45: the enabling condition separates the two clauses; the 16 bytes read back as they were written. -/
theorem headerArrives : Obligations.HeaderArrives := by
  intro s i mode h
  refine ⟨fun ho hh hp => ⟨_, _, headerArrived_eq s i mode h, ?_, ?_, ?_⟩, fun hoff => ?_⟩
  · rw [exec_rxHeaderDone, headerEnabled_iff.2 ⟨ho, hh, hp⟩, whenEnabled_true]
  · rw [bytesAt_congr (region_headerArrived s i mode h .rxhdr i)]
    exact bytesAt_store s .rxhdr i 0 h.toBytes
  · exact (setRegion_other s .rxhdr i _).of_regions (region_headerArrived s i mode h)
  · have hdis : headerEnabled s i = false := by
      rw [← Bool.not_eq_true, headerEnabled_iff]
      rintro ⟨ho, hh, hp⟩
      simp [ho, hh, hp] at hoff
    rw [exec_rxHeaderDone, hdis, whenEnabled_false]

/-! ## RX_PAYLOAD_DONE and RX_ERROR -/

/-- The enabling condition of RX_PAYLOAD_DONE and RX_ERROR (R216, R218). -/
def receiving (s : State) (i : SlotId) : Bool := flag s.mdm.rxOpen i && !flag s.mdm.rxIntPay i

theorem receiving_iff : receiving s i = true ↔ flag s.mdm.rxOpen i = true ∧ flag s.mdm.rxIntPay i = false := by
  simp [receiving]

theorem exec_rxPayloadDone {bulk : Bytes} (hl : bulk.length ≤ s.params.rxbulkSize) (i : SlotId) (x : Nat)
    (q : Quality) :
    exec (.rxPayloadDone i bulk x q) s =
      whenEnabled (receiving s i) (.next (answered (payloadArrived s i bulk x q) .silent)) := by
  change execRxPayloadDone i bulk x q s = _
  rw [execRxPayloadDone, storeImage_eq (sp := .rxbulk) hl]
  rfl

/-- Outside a reception the event is refused whatever it brings. -/
theorem exec_rxPayloadDone_disabled (h : receiving s i = false) (bulk : Bytes) (x : Nat) (q : Quality) :
    exec (.rxPayloadDone i bulk x q) s = .refused .notEnabled := by
  change whenEnabled (receiving s i) _ = _
  rw [h, whenEnabled_false]

theorem exec_rxError (s : State) (i : SlotId) :
    exec (.rxError i) s = whenEnabled (receiving s i) (.next (answered (failReception s i) .silent)) := rfl

theorem payloadArrived_eq (s : State) (i : SlotId) (b : Bytes) {x : Nat} (hx : x < 2 ^ s.params.timeW) (q : Quality) :
    payloadArrived s i b x q = { s with
      mdm := { s.mdm with
        rxbulk := s.mdm.rxbulk.set i
          ⟨((s.mdm.rxbulk.get i).cells.overwrite 0 b).truncate b.length, s.free + 1⟩
        rxTime := s.mdm.rxTime.set i x, rxQ := s.mdm.rxQ.set i q
        rxOpen := clearFlag s.mdm.rxOpen i, rxIntPay := setFlag s.mdm.rxIntPay i, irqReq := true }
      free := s.free + 1 } := by
  rw [payloadArrived, imageStored_rxbulk, wrapTime_of_lt hx]
  rfl

theorem region_payloadArrived (s : State) (i : SlotId) (b : Bytes) (x : Nat) (q : Quality) (sp : Space) (j : SlotId) :
    (payloadArrived s i b x q).region sp j = (imageStored s .rxbulk i b).region sp j := by cases sp <;> rfl

theorem failReception_other (s : State) (i : SlotId) : OtherBytesSame s (failReception s i) .rxbulk i := by
  intro sp j o hne
  apply byteAt_congr
  rw [failReception_forget, region_forget, if_neg hne]
  cases sp <;> rfl

/-- Settles O46: one enabling condition separates the clauses of both events; the bulk bytes read back as they were
delivered, and after an error nothing is said of them. -/
theorem payloadArrivesOrFails : Obligations.PayloadArrivesOrFails := by
  intro s i bulk time q
  refine ⟨fun ho hp => ⟨fun hl ht => ⟨_, _, payloadArrived_eq s i bulk ht q, ?_, fun o b hb => ?_, ?_⟩,
    _, _, _, _, failReception_eq s i, wrapTime_lt _ _, ?_, failReception_other s i⟩, fun hoff => ?_⟩
  · rw [exec_rxPayloadDone hl, receiving_iff.2 ⟨ho, hp⟩, whenEnabled_true]
  · rw [byteAt_congr (region_payloadArrived s i bulk time q .rxbulk i)]
    exact byteAt_imageStored_of_getElem? hb
  · exact (imageStored_other s .rxbulk i bulk).of_regions (region_payloadArrived s i bulk time q)
  · rw [exec_rxError, receiving_iff.2 ⟨ho, hp⟩, whenEnabled_true]
  · have hdis : receiving s i = false := by
      rw [← Bool.not_eq_true, receiving_iff]
      rintro ⟨ho, hp⟩
      simp [ho, hp] at hoff
    exact ⟨exec_rxPayloadDone_disabled hdis bulk time q, by rw [exec_rxError, hdis, whenEnabled_false]⟩

/-! ## NOISE_DONE -/

theorem exec_noiseDone {bytes : Bytes} (hl : bytes.length ≤ s.params.noiseSize) (x : Nat) :
    exec (.noiseDone bytes x) s =
      whenEnabled (!s.mdm.rxIntNoise) (.next (answered (noiseArrived s bytes x) .silent)) := by
  change execNoiseDone bytes x s = _
  rw [execNoiseDone, storeImage_eq (sp := .noisebuf) hl]
  rfl

theorem noiseArrived_eq (s : State) (b : Bytes) {x : Nat} (hx : x < 2 ^ s.params.timeW) :
    noiseArrived s b x = { s with
      mdm := { s.mdm with
        noisebuf := ⟨(s.mdm.noisebuf.cells.overwrite 0 b).truncate b.length, s.free + 1⟩
        noiseTime := x, rxIntNoise := true, irqReq := true }
      free := s.free + 1 } := by
  rw [noiseArrived, imageStored_noisebuf, wrapTime_of_lt hx]
  rfl

theorem region_noiseArrived (s : State) (b : Bytes) (x : Nat) (sp : Space) (j : SlotId) :
    (noiseArrived s b x).region sp j = (imageStored s .noisebuf .s0 b).region sp j := by cases sp <;> rfl

/-- Settles O47: the noise flag separates the two clauses; the capture reads back as it was delivered. -/
theorem noiseArrives : Obligations.NoiseArrives := by
  intro s bytes time hl ht
  refine ⟨fun hn => ⟨_, _, noiseArrived_eq s bytes ht, ?_, ?_, ?_⟩, fun hn => ?_⟩
  · rw [exec_noiseDone hl.le, hn]; rfl
  · rw [bytesAt_congr (region_noiseArrived s bytes time .noisebuf .s0), ← hl, bytesAt_imageStored]
  · exact (imageStored_other s .noisebuf .s0 bytes).of_regions (region_noiseArrived s bytes time)
  · rw [exec_noiseDone hl.le, hn]; rfl

end Sys2Proof.Machine
end

section
/-! SUPPORT. POLL_RX (46_dispatcher.md R209, R211 to R213): the first ready slot of the scan is decoded and consumed,
with its message returned or a drop counted; the noise capture is delivered when no slot is ready. -/

namespace Sys2Proof.Machine

variable {s : State} {i : SlotId}

theorem nextRxSlot_eq_some_iff :
    nextRxSlot s = some i ↔ FirstInScan s.params s.eng.rxLast (fun j => (s.eng.rx.get j).ready = true) i :=
  scanOrder_find _ _ _ _

theorem exec_pollRx_of_ready (h : nextRxSlot s = some i) : exec .pollRx s = serveSlot s i := by
  change execPollRx s = _
  rw [execPollRx, h]

theorem exec_pollRx_of_none (h : nextRxSlot s = none) :
    exec .pollRx s = if s.eng.noiseReady then serveNoise s else .next (answered s (.message none)) := by
  change execPollRx s = _
  rw [execPollRx, h]
  rfl

/-! ## A ready slot -/

theorem decodeReady_of_header (h : (s.eng.rx.get i).hdrValid = true) :
    decodeReady s i = decodeSlot s (s.eng.rx.get i).mode i := if_pos h

/-- A slot that is ready without a header is refused like a frame that does not decode (R212; log 27). -/
theorem decodeReady_of_no_header (h : (s.eng.rx.get i).hdrValid = false) :
    decodeReady s i = .raised .invalidHeader := by
  rw [decodeReady, h]; rfl

theorem serveSlot_of_message {m : FrameMsg} (h : decodeReady s i = .message m) :
    serveSlot s i = .next (answered (consumeRx s i) (.message (some (.frame i (s.eng.rx.get i).mode m
      (s.mdm.rxTime.get i) (reportedQuality s i))))) := by
  rw [serveSlot, h]; rfl

theorem serveSlot_of_raised {e : OpError} (h : decodeReady s i = .raised e) :
    serveSlot s i = .next (answered ((consumeRx s i).countDrops 1) (.message none)) := by
  rw [serveSlot, h]; rfl

/-- Settles O43: the slot's decoder answers a message or an error, and a slot without a header is refused before its
decoder is asked. -/
theorem pollRxServesTheReadySlot : Obligations.PollRxServesTheReadySlot := by
  intro s i hp hfirst
  have hpoll := exec_pollRx_of_ready (nextRxSlot_eq_some_iff.2 hfirst)
  have hdropped : ∀ e, decodeReady s i = .raised e →
      exec .pollRx s = .next (answered ((consumeRx s i).countDrops 1) (.message none)) :=
    fun e he => hpoll.trans (serveSlot_of_raised he)
  rw [exec_decoderOf]
  cases hd : decodeSlot s (s.eng.rx.get i).mode i with
  | stopped f => exact absurd hd (decodeSlot_ne_stopped hp _ i f)
  | message m =>
    refine ⟨.frame m, consumeRx s i, rfl, .inl ⟨m, rfl⟩, consumeRx_eq s i, fun m' hh hm => ?_, fun hdrop => ?_⟩
    · obtain rfl : m = m' := Response.frame.inj hm
      exact hpoll.trans (serveSlot_of_message ((decodeReady_of_header hh).trans hd))
    · have hh : (s.eng.rx.get i).hdrValid = false := hdrop.resolve_right nofun
      exact hdropped _ (decodeReady_of_no_header hh)
  | raised e =>
    refine ⟨.error e, consumeRx s i, rfl, .inr ⟨e, rfl⟩, consumeRx_eq s i, nofun, fun _ => ?_⟩
    cases hh : (s.eng.rx.get i).hdrValid with
    | true => exact hdropped _ ((decodeReady_of_header hh).trans hd)
    | false => exact hdropped _ (decodeReady_of_no_header hh)

/-! ## No ready slot -/

/-- Settles O44: with no slot ready the scan finds none, and the noise capture is all that is left. -/
theorem pollRxDeliversNoiseLast : Obligations.PollRxDeliversNoiseLast := by
  intro s hnone
  have hpoll := exec_pollRx_of_none (nextRxSlot_none.2 hnone)
  refine ⟨fun hn => ?_, fun hn => ?_⟩
  · rw [hpoll, if_pos hn, serveNoise, consumeNoise_eq, respond_eq]
  · rw [hpoll, hn]; rfl

end Sys2Proof.Machine
end

section
/-! SUPPORT. The parameter map as a whole (47_config.md R231, R232): its identifiers, its legal values, and its rows
as the table lists them. -/

namespace Sys2Proof.Machine

/-! ## Identifiers -/

/-- No two parameters share an identifier (R232). -/
theorem ident_inj {j k : ParamKey} : j.ident = k.ident ↔ j = k := by
  refine ⟨fun h => Option.some_inj.1 ?_, congrArg _⟩
  rw [← paramAt_ident j, h, paramAt_ident]

theorem exists_channel_number {n : Nat} (h1 : 1 ≤ n) (h8 : n ≤ 8) : ∃ c : Channel, c.number = n := by
  obtain ⟨m, rfl⟩ : ∃ m, n = m + 1 := ⟨n - 1, by omega⟩
  have hm : m < Channel.inOrder.length := by change m < 8; omega
  exact ⟨_, channel_ofNumber? (List.getElem?_eq_getElem hm)⟩

theorem exists_scheme_index {n : Nat} (h : n ≤ 7) : ∃ s : Scheme, s.index.toNat = n :=
  ⟨_, scheme_ofCode? (if_pos (by omega))⟩

theorem exists_impedance_code {n : Nat} (h : n ≤ 3) : ∃ i : ImpedanceState, i.code = n :=
  match n, h with
  | 0, _ => ⟨.high, rfl⟩
  | 1, _ => ⟨.low, rfl⟩
  | 2, _ => ⟨.veryLow, rfl⟩
  | 3, _ => ⟨.lowPeakCut, rfl⟩

/-- The known identifiers are those of the parameters, and no others: each group of R232 holds what `knownId`'s range
for it says. -/
theorem knownId_iff {n : Nat} : knownId n = true ↔ ∃ k : ParamKey, n = k.ident := by
  refine ⟨fun h => ?_, fun ⟨k, hk⟩ => hk ▸ knownId_ident k⟩
  simp only [knownId, Bool.or_eq_true, Bool.and_eq_true, decide_eq_true_eq] at h
  rcases h with (((hgeneral | ⟨hlo, hhi⟩) | ⟨hlo, hhi⟩) | ⟨⟨hlo, hhi⟩, hindex⟩) | ⟨hlo, hhi⟩
  · have hn : n < generalGroup.length := by change n < 9; omega
    exact ⟨_, (generalGroup_ident (List.getElem?_eq_getElem hn)).symm⟩
  · obtain ⟨sch, hsch⟩ := exists_scheme_index (n := n - 0x0100) (by omega)
    exact ⟨.gain sch, by change n = 0x0100 + sch.index.toNat; omega⟩
  · obtain ⟨i, hi⟩ := exists_impedance_code (n := n - 0x0200) (by omega)
    exact ⟨.driverFor i, by change n = 0x0200 + i.code; omega⟩
  · obtain ⟨c, hc⟩ := exists_channel_number (n := n / 256 - 0x10) (by omega) (by omega)
    have hn : n % 256 < (profileGroup c).length := by change n % 256 < 10; omega
    exact ⟨_, .trans (by omega) (profileGroup_ident (List.getElem?_eq_getElem hn)).symm⟩
  · have hn : n - 0x2000 < statGroup.length := by change n - 0x2000 < 8; omega
    exact ⟨_, .trans (by omega) (statGroup_ident (List.getElem?_eq_getElem hn)).symm⟩

theorem paramOfId_eq_none {id : BitVec 16} (h : knownId id.toNat = false) : paramOfId id = none :=
  Option.eq_none_iff_forall_ne_some.2 fun _ hk =>
    Bool.false_ne_true (h.symm.trans (knownId_iff.2 ⟨_, paramOfId_iff.1 hk⟩))

/-! ## Legal values -/

/-- An identifier with a width is none of the enumerated parameters (R232). -/
theorem anyWidth_eq_some_ranges {p : Params} {n w : Nat} (h : anyWidth p n = some w) :
    n = 0x0004 ∨ n = 0x0006 ∨ n = 0x0007 ∨ (0x0100 ≤ n ∧ n ≤ 0x0107) ∨ 0x1100 ≤ n := by
  unfold anyWidth at h
  grind

theorem legalFor_iff_lt {p : Params} {n w v : Nat} (h : anyWidth p n = some w) :
    legalFor p n v ↔ v < 2 ^ w := by
  have hranges := anyWidth_eq_some_ranges h
  refine ⟨fun hlegal => ?_, fun hv => .inr (.inr (.inr (.inr ⟨w, h, hv⟩)))⟩
  rcases hlegal with hn | hn | hn | hn | ⟨w', hw', hv⟩
  · omega
  · omega
  · omega
  · omega
  · rwa [Option.some_inj.1 (h.symm.trans hw')]

theorem legalFor_of_no_width {p : Params} {n v : Nat} (h : anyWidth p n = none) :
    legalFor p n v ↔ (n ≤ 0x0002 ∧ v ≤ 1) ∨ (n = 0x0003 ∧ v ≤ 3) ∨ (n = 0x0005 ∧ 1 ≤ v ∧ v ≤ 8) ∨
      (0x0200 ≤ n ∧ n ≤ 0x0203 ∧ v ≤ 2) := by
  simp [legalFor, h]

theorem anyWidth_attChirp (p : Params) (c : Channel) (l : LoadKey) :
    anyWidth p (ParamKey.attChirp c l).ident = some 8 := by cases c <;> cases l <;> rfl

theorem anyWidth_attSignal (p : Params) (c : Channel) (l : LoadKey) :
    anyWidth p (ParamKey.attSignal c l).ident = some 8 := by cases c <;> cases l <;> rfl

theorem anyWidth_threshold (p : Params) (c : Channel) (x : ThresholdKey) :
    anyWidth p (ParamKey.threshold c x).ident = some p.rmsW := by cases c <;> cases x <;> rfl

/-- The legal values of the table are those the model checks for (R232). -/
theorem legalFor_ident {p : Params} {k : ParamKey} (hk : k ≠ .impedanceState) (v : Nat) :
    legalFor p k.ident v ↔ legalValue p k v = true := by
  cases k with
  | impedanceState => exact absurd rfl hk
  | sna | guardBefore | guardAfter => exact (legalFor_iff_lt rfl).trans decide_eq_true_iff.symm
  | gain sch => exact (legalFor_iff_lt (by cases sch <;> rfl)).trans decide_eq_true_iff.symm
  | attChirp c l => exact (legalFor_iff_lt (anyWidth_attChirp p c l)).trans decide_eq_true_iff.symm
  | attSignal c l => exact (legalFor_iff_lt (anyWidth_attSignal p c l)).trans decide_eq_true_iff.symm
  | threshold c x => exact (legalFor_iff_lt (anyWidth_threshold p c x)).trans decide_eq_true_iff.symm
  | stat x => exact (legalFor_iff_lt (by cases x <;> rfl)).trans decide_eq_true_iff.symm
  | macCrcEnable | qualityReportMode | peakCutMode | defaultImpedance | channel =>
    rw [legalFor_of_no_width rfl]
    simp [ParamKey.ident, generalGroup, legalValue, Nat.lt_succ_iff]
  | driverFor i =>
    rw [legalFor_of_no_width (by cases i <;> rfl)]
    cases i <;> simp [ParamKey.ident, ImpedanceState.code, legalValue, Nat.lt_succ_iff]

/-! ## The rows of the table -/

/-- The parameters in the order of their identifiers. -/
def allParams : List ParamKey :=
  generalGroup ++
  [Scheme.dbpsk, .dqpsk, .d8psk, .dbpskC, .dqpskC, .d8pskC, .dbpskRobo, .dqpskRobo].map .gain ++
  [ImpedanceState.high, .low, .veryLow, .lowPeakCut].map .driverFor ++
  Channel.inOrder.flatMap profileGroup ++ statGroup

theorem mem_allParams (k : ParamKey) : k ∈ allParams := by
  cases k with
  | gain sch => cases sch <;> decide
  | driverFor i => cases i <;> decide
  | attChirp c l => cases c <;> cases l <;> decide
  | attSignal c l => cases c <;> cases l <;> decide
  | threshold c x => cases c <;> cases x <;> decide
  | stat x => cases x <;> decide
  | _ => decide

/-- An address as a number is its bytes read big-endian (R231). -/
theorem beNat_toBytes (a : Sna) : beNat a.toBytes = snaToNat a := by
  simp only [beNat, Sna.toBytes, snaToNat, List.foldl_cons, List.foldl_nil]
  omega

/-- The table of R232 lists every parameter with its identifier and its current value. -/
theorem paramTable_eq (s : State) : paramTable s = allParams.map fun k => (k.ident, paramValue s k) := by
  unfold paramTable
  rw [beNat_toBytes]
  rfl

theorem mem_paramTable {s : State} {row : Nat × Nat} :
    row ∈ paramTable s ↔ ∃ k : ParamKey, row = (k.ident, paramValue s k) := by
  simp [paramTable_eq, mem_allParams, eq_comm]

end Sys2Proof.Machine
end

section
/-! SUPPORT. GET_CONFIG_PARAM and SET_CONFIG_PARAM (47_config.md R231 to R234; 60_exceptions.md R247): what each
answers, and what reading a parameter gives after a write to the same and to another one. -/

namespace Sys2Proof.Machine

variable {s : State} {id : BitVec 16} {k : ParamKey} {v : Nat}

/-! ## What the operations answer -/

theorem exec_getConfigParam_of_some (h : paramOfId id = some k) :
    exec (.getConfigParam id) s = .next (answered s (.value (paramValue s k))) := by
  change execGetConfigParam id s = _
  rw [execGetConfigParam, h]
  rfl

theorem exec_getConfigParam_of_none (h : paramOfId id = none) :
    exec (.getConfigParam id) s = .next (answered s (.error .invalidParam)) := by
  change execGetConfigParam id s = _
  rw [execGetConfigParam, h]
  rfl

theorem exec_setConfigParam_of_none (h : paramOfId id = none) :
    exec (.setConfigParam id v) s = .next (answered s (.error .invalidParam)) := by
  change execSetConfigParam id v s = _
  rw [execSetConfigParam, h]
  rfl

theorem exec_setConfigParam_readOnly (h : paramOfId id = some .impedanceState) :
    exec (.setConfigParam id v) s = .next (answered s (.error .readOnly)) := by
  change execSetConfigParam id v s = _
  rw [execSetConfigParam, h]
  rfl

/-- The value of a writable parameter is checked before it is written (R247). -/
theorem exec_setConfigParam_of_some (h : paramOfId id = some k) (hk : k ≠ .impedanceState) :
    exec (.setConfigParam id v) s =
      if legalValue s.params k v then .next (answered (writeParam s k v) .ok)
      else .next (answered s (.error .invalidValue)) := by
  change execSetConfigParam id v s = _
  rw [execSetConfigParam, h]
  cases hv : legalValue s.params k v <;> simp [readOnlyParam, hk, hv]

/-- Settles O50: the rows of the table are the parameters, each read by its identifier. -/
theorem getConfigParamReadsTheTable : Obligations.GetConfigParamReadsTheTable := by
  refine fun s id => ⟨fun row hrow hid => ?_, ?_, fun h => exec_getConfigParam_of_none (paramOfId_eq_none h)⟩
  · obtain ⟨k, rfl⟩ := mem_paramTable.1 hrow
    exact exec_getConfigParam_of_some (paramOfId_iff.2 hid)
  · rw [knownId_iff]
    constructor
    · rintro ⟨k, hk⟩
      exact ⟨_, mem_paramTable.2 ⟨k, rfl⟩, hk⟩
    · rintro ⟨row, hrow, hid⟩
      obtain ⟨k, rfl⟩ := mem_paramTable.1 hrow
      exact ⟨k, hid⟩

/-! ## Reading the written parameter -/

theorem snaToNat_snaOfNat (h : v < 2 ^ 48) : snaToNat (snaOfNat v) = v := by
  simp only [snaToNat, snaOfNat, BitVec.toNat_ofNat]
  omega

theorem number_getD_ofNumber? (h1 : 1 ≤ v) (h8 : v ≤ 8) : ((Channel.ofNumber? v).getD .c1).number = v := by
  obtain ⟨c, rfl⟩ := exists_channel_number h1 h8
  cases c <;> rfl

theorem code_getD_impedance (h : v < 4) : ((ImpedanceState.ofCode? v).getD .high).code = v := by
  obtain ⟨i, rfl⟩ := exists_impedance_code (Nat.le_of_lt_succ h)
  cases i <;> rfl

theorem code_getD_branch (h : v < 3) : ((Branch.ofCode? v).getD .driver1).code = v :=
  match v, h with
  | 0, _ => rfl
  | 1, _ => rfl
  | 2, _ => rfl

theorem toNat_decide_eq_one (h : v < 2) : (decide (v = 1)).toNat = v :=
  match v, h with
  | 0, _ => rfl
  | 1, _ => rfl

theorem loadOf_setLoad {α : Type} (t : PerLoad α) (l l' : LoadKey) (x : α) :
    loadOf (setLoad t l x) l' = if l' = l then x else loadOf t l' := by
  cases l <;> cases l' <;> rfl

theorem thresholdOf_setThreshold (f : Profile) (x x' : ThresholdKey) (v : Nat) :
    thresholdOf (setThreshold f x v) x' = if x' = x then v else thresholdOf f x' := by
  cases x <;> cases x' <;> rfl

theorem statOf_setStat (x : Stats) (n n' : StatKey) (w : BitVec 32) :
    statOf (setStat x n w) n' = if n' = n then w else statOf x n' := by
  cases n <;> cases n' <;> rfl

theorem profile_changeProfile (s : State) (c c' : Channel) (f : Profile → Profile) :
    (changeProfile s c f).cfg.profile.get c' =
      if c' = c then f (s.cfg.profile.get c) else s.cfg.profile.get c' :=
  PerChannel.get_set _ _ _ _

/-- A legal value reads back as it was written: no field truncates it (R234). -/
theorem paramValue_writeParam_self (h : legalValue s.params k v = true) :
    paramValue (writeParam s k v) k = v := by
  cases k with
  | impedanceState => cases h
  | macCrcEnable | qualityReportMode | peakCutMode => exact toNat_decide_eq_one (of_decide_eq_true h)
  | defaultImpedance => exact code_getD_impedance (of_decide_eq_true h)
  | sna => exact snaToNat_snaOfNat (of_decide_eq_true h)
  | channel =>
    obtain ⟨h1, h8⟩ := Bool.and_eq_true_iff.1 h
    exact number_getD_ofNumber? (of_decide_eq_true h1) (of_decide_eq_true h8)
  | guardBefore | guardAfter => rfl
  | gain sch =>
    change ((s.cfg.gainTable.set sch _).get sch).toNat = v
    rw [PerScheme.get_set, if_pos rfl, BitVec.toNat_ofNat, Nat.mod_eq_of_lt (of_decide_eq_true h)]
  | driverFor i =>
    change ((s.cfg.driverFor.set i _).get i).code = v
    rw [PerImpedance.get_set, if_pos rfl, code_getD_branch (of_decide_eq_true h)]
  | attChirp c l | attSignal c l =>
    simp only [writeParam, paramValue, profile_changeProfile, loadOf_setLoad, if_true, BitVec.toNat_ofNat]
    exact Nat.mod_eq_of_lt (of_decide_eq_true h)
  | threshold c x => simp only [writeParam, paramValue, profile_changeProfile, thresholdOf_setThreshold, if_true]
  | stat x =>
    change (statOf (setStat s.stat x _) x).toNat = v
    rw [statOf_setStat, if_pos rfl, BitVec.toNat_ofNat, Nat.mod_eq_of_lt (of_decide_eq_true h)]

/-! ## Reading another parameter -/

/-- A parameter reads the same after a change of a profile that keeps what it reads. -/
theorem paramValue_changeProfile {c : Channel} {f : Profile → Profile} {j : ParamKey}
    (hchirp : ∀ l, j = .attChirp c l →
      loadOf (f (s.cfg.profile.get c)).attChirp l = loadOf (s.cfg.profile.get c).attChirp l)
    (hsignal : ∀ l, j = .attSignal c l →
      loadOf (f (s.cfg.profile.get c)).attSignal l = loadOf (s.cfg.profile.get c).attSignal l)
    (hthreshold : ∀ x, j = .threshold c x →
      thresholdOf (f (s.cfg.profile.get c)) x = thresholdOf (s.cfg.profile.get c) x) :
    paramValue (changeProfile s c f) j = paramValue s j := by
  cases j with
  | attChirp c' l =>
    simp only [paramValue, profile_changeProfile]
    split
    · next hc => subst hc; rw [hchirp l rfl]
    · rfl
  | attSignal c' l =>
    simp only [paramValue, profile_changeProfile]
    split
    · next hc => subst hc; rw [hsignal l rfl]
    · rfl
  | threshold c' x =>
    simp only [paramValue, profile_changeProfile]
    split
    · next hc => subst hc; exact hthreshold x rfl
    · rfl
  | _ => rfl

/-- Every other parameter reads as before: the fields of the general group are apart, and of a table the written
entry alone changes (R234). -/
theorem paramValue_writeParam_ne {j : ParamKey} (h : j ≠ k) : paramValue (writeParam s k v) j = paramValue s j := by
  cases k with
  | impedanceState => rfl
  | attChirp c l =>
    refine paramValue_changeProfile (fun l' hj => ?_) (fun _ _ => rfl) fun x _ => by cases x <;> rfl
    rw [loadOf_setLoad, if_neg (by rintro rfl; exact h hj)]
  | attSignal c l =>
    refine paramValue_changeProfile (fun _ _ => rfl) (fun l' hj => ?_) fun x _ => by cases x <;> rfl
    rw [loadOf_setLoad, if_neg (by rintro rfl; exact h hj)]
  | threshold c x =>
    refine paramValue_changeProfile (fun _ _ => by cases x <;> rfl) (fun _ _ => by cases x <;> rfl) fun x' hj => ?_
    rw [thresholdOf_setThreshold, if_neg (by rintro rfl; exact h hj)]
  | gain sch =>
    cases j with
    | gain sch' =>
      change ((s.cfg.gainTable.set sch _).get sch').toNat = _
      rw [PerScheme.get_set, if_neg (by rintro rfl; exact h rfl)]
      rfl
    | _ => rfl
  | driverFor i =>
    cases j with
    | driverFor i' =>
      change ((s.cfg.driverFor.set i _).get i').code = _
      rw [PerImpedance.get_set, if_neg (by rintro rfl; exact h rfl)]
      rfl
    | _ => rfl
  | stat x =>
    cases j with
    | stat x' =>
      change (statOf (setStat s.stat x _) x').toNat = _
      rw [statOf_setStat, if_neg (by rintro rfl; exact h rfl)]
      rfl
    | _ => rfl
  | macCrcEnable | qualityReportMode | peakCutMode | defaultImpedance | sna | channel | guardBefore | guardAfter =>
    cases j <;> trivial

/-- The table after a write: the row of the parameter holds the value, every other row is a row of before. -/
theorem paramTable_writeParam (h : legalValue s.params k v = true) {row : Nat × Nat}
    (hrow : row ∈ paramTable (writeParam s k v)) :
    if row.1 = k.ident then row.2 = v else row ∈ paramTable s := by
  obtain ⟨j, rfl⟩ := mem_paramTable.1 hrow
  split
  · next hj =>
    obtain rfl := ident_inj.1 hj
    exact paramValue_writeParam_self h
  · next hj =>
    rw [paramValue_writeParam_ne fun hjk => hj (ident_inj.2 hjk)]
    exact mem_paramTable.2 ⟨j, rfl⟩

/-! ## Side effects -/

/-- Only a write of SNA recomputes the seeds (R234). -/
theorem seed_writeParam (h : k ≠ .sna) : (writeParam s k v).eng.seed = s.eng.seed := by
  cases k with
  | sna => exact absurd rfl h
  | _ => rfl

/-- Only a write of CHANNEL re-selects (R234). -/
theorem sel_writeParam (h : k ≠ .channel) : (writeParam s k v).eng.sel = s.eng.sel := by
  cases k with
  | channel => exact absurd rfl h
  | _ => rfl

/-- Re-selecting again after a channel change gives the same outputs. -/
theorem reselect_switchChannel (s : State) (c : Channel) : reselect (switchChannel s c) = switchChannel s c := rfl

/-- A known identifier other than 0x0008 names a writable parameter, whose legal values the table gives. -/
theorem exists_writable {n : Nat} (p : Params) (v : Nat) (hknown : knownId n = true) (hro : n ≠ 0x0008) :
    ∃ k : ParamKey, n = k.ident ∧ k ≠ .impedanceState ∧ (legalFor p n v ↔ legalValue p k v = true) := by
  obtain ⟨k, rfl⟩ := knownId_iff.1 hknown
  have hk : k ≠ .impedanceState := by rintro rfl; exact hro rfl
  exact ⟨k, rfl, hk, legalFor_ident hk v⟩

/-- Settles O51: an identifier names one parameter; a legal value is written by `writeParam`, whose table and side
effects the lemmas above give. -/
theorem setConfigParamWritesTheTable : Obligations.SetConfigParamWritesTheTable := by
  refine fun s id v => ⟨fun h => exec_setConfigParam_of_none (paramOfId_eq_none h),
    fun h => exec_setConfigParam_readOnly (paramOfId_iff.2 h), fun hknown hro hillegal => ?_,
    fun hknown hro hlegal => ?_⟩
  · obtain ⟨k, hid, hk, hiff⟩ := exists_writable s.params v hknown hro
    rw [exec_setConfigParam_of_some (paramOfId_iff.2 hid) hk, if_neg (mt hiff.2 hillegal)]
  · obtain ⟨k, hid, hk, hiff⟩ := exists_writable s.params v hknown hro
    have hvalue := hiff.1 hlegal
    refine ⟨_, _, _, _, _, writeParam_frame s k v, ?_, fun row hrow => ?_, ?_, ?_⟩
    · rw [exec_setConfigParam_of_some (paramOfId_iff.2 hid) hk, if_pos hvalue]
    · rw [hid]
      exact paramTable_writeParam hvalue hrow
    · split
      · next hsna =>
        obtain rfl : k = .sna := ident_inj.1 (hid.symm.trans hsna)
        exact .setAddress s _
      · next hsna => exact seed_writeParam fun hkey => hsna (by rw [hid, hkey]; rfl)
    · split
      · next hchannel =>
        obtain rfl : k = .channel := ident_inj.1 (hid.symm.trans hchannel)
        rw [exec_impReselect]
        exact congrArg (fun u => Host.Outcome.next (answered u .silent)) (reselect_switchChannel s _)
      · next hchannel => exact sel_writeParam fun hkey => hchannel (by rw [hid, hkey]; rfl)

end Sys2Proof.Machine
end

section
/-! SUPPORT. What a soft reset leaves (60_exceptions.md R249; 70_reset_and_hazards.md R278, R279). -/

namespace Sys2Proof.Machine

/-- The slots that a soft reset abandons (70_reset_and_hazards.md R278). -/
theorem SlotState.busy_iff (x : SlotState) : x.busy = true ↔ x = .armed ∨ x = .inFlight := by
  cases x <;> decide

/-- Both resets write the same event state (70_reset_and_hazards.md R278). -/
theorem eventsCleared_softReset (s : State) : EventsCleared (softReset s) := by
  obtain ⟨hrx, hpending, hnoise, hlast⟩ := eventsCleared_hardReset s
  exact ⟨hrx, hpending, hnoise, hlast⟩

/-- Both resets re-initialise the modem in the same way (70_reset_and_hazards.md R279). -/
theorem modemCleared_softReset {s : State} (hp : s.params.ok) : ModemCleared (softReset s) := by
  obtain ⟨hflags, hrequest, hopen, hresults⟩ := modemCleared_hardReset hp
  exact ⟨hflags, hrequest, hopen, hresults⟩

/-- Settles O55: what is kept is read off the state `softReset` writes, slot by slot for the states and the latches;
the rest is cleared as in a hard reset. -/
theorem softResetLeaves : Obligations.SoftResetLeaves := by
  intro s hp
  refine ⟨softReset s, rfl, rfl, rfl, rfl, rfl, rfl, rfl, rfl, rfl, rfl, fun i => ?_,
    eventsCleared_softReset s, modemCleared_softReset hp⟩
  have hslot : (softReset s).eng.tx.get i = softResetTx s i := congrArg TxView.slot (txView_softReset s i)
  rw [hslot]
  simp only [← SlotState.busy_iff]
  exact ⟨rfl, rfl, rfl, rfl⟩

end Sys2Proof.Machine
end
